-- ==== Sys2Proof/Word.lean ====
section
/-! DEFINITION. The words of the engine and the fixed-size tables that hold them.
A `Tab n α` is a table of `n` like things (ports, tiles, segments, banks, product entries). -/

namespace Sys2Proof

/-- One byte of a frame (spec 11). -/
abbrev Byte := BitVec 8

/-- One raw sample of 18 bits (spec 00, units; R184). -/
abbrev Sample := BitVec 18

/-- One stored flat value F, unsigned Q2.14 (R56). -/
abbrev Flat := BitVec 16

/-- An ingress port P0 to P3; also its calibration lane (R43). -/
abbrev PortId := Fin 4

/-- A tile id that names a tile, 0 to 15 (R3). -/
abbrev TileId := Fin 16

/-- A segment id of a tile, 0 to 3 (R7). -/
abbrev SegId := Fin 4

/-- A bank number, 0 or 1 (R70). -/
abbrev BankId := Fin 2

/-- A snap slot, 0 to 2 (R106). -/
abbrev SlotId := Fin 3

/-- A table of `n` like things. -/
abbrev Tab (n : Nat) (α : Type) := Vector α n

namespace Tab

variable {n : Nat} {α β : Type}

/-- The entry at `i`. -/
def nth (v : Tab n α) (i : Fin n) : α := v[i.val]

/-- The table with `x` at `i`. -/
def put (v : Tab n α) (i : Fin n) (x : α) : Tab n α := v.set i.val x i.isLt

/-- The table whose entry at `i` is `f i`. -/
def tabulate (f : Fin n → α) : Tab n α := ⟨⟨List.ofFn f⟩, by simp⟩

/-- The table with `x` everywhere. -/
def fill (n : Nat) (x : α) : Tab n α := tabulate (fun _ => x)

/-- The table with `f` applied to every entry. -/
def map (f : α → β) (v : Tab n α) : Tab n β := tabulate (fun i => f (v.nth i))

/-- The table with `f` applied to the entry at `i`. -/
def modify (v : Tab n α) (i : Fin n) (f : α → α) : Tab n α := v.put i (f (v.nth i))

/-- Every entry satisfies `p`. -/
def all (p : α → Bool) (v : Tab n α) : Bool := v.toList.all p

end Tab

end Sys2Proof
end

