-- ==== Sys2Proof/Syntax.lean ====
section
/-! DEFINITION. The steps of the engine: one constructor per row of spec/opcode_table.json, and the operands they carry.
A step of the control path names the ingress port whose control queue holds the CTL frame; the command's fields are in that
frame's payload (R168, R185; log 1). -/

namespace Sys2Proof

/-- A port of the engine: an ingress port P0 to P3, or the product port PX (spec 00; R155). -/
inductive LinkPort where
  | ingress (p : PortId)
  | px
  deriving DecidableEq, Repr

/-- A frame header as received, before its CRC (R182). Every field has the width of R182; `len` is the declared payload
length. `unknown` is a header whose kind byte names no kind: four bytes (R183). -/
inductive Header where
  | row (len : BitVec 24) (tile seg tag slot : Byte) (row count : BitVec 16)
  | ctl (len : BitVec 24) (code : Byte) (request : BitVec 16)
  | rsp (len : BitVec 24)
  | crd (len : BitVec 24) (credits : Byte)
  | prd (len : BitVec 24) (product tag : Byte) (pass row : BitVec 16) (flags : Byte) (pixels : BitVec 16)
  | unknown (kind : Byte) (len : BitVec 24)
  deriving DecidableEq, Repr

/-- The steps of the engine, in the order of spec/opcode_table.json. -/
inductive Instr where
  /-- POWER_ON (R155) -/
  | powerOn
  /-- LINE_UP (R164) -/
  | lineUp (p : PortId)
  /-- LINE_DOWN (R163) -/
  | lineDown (p : PortId)
  /-- PX_LINE_UP (R165) -/
  | pxLineUp
  /-- PX_LINE_DOWN (R165) -/
  | pxLineDown
  /-- START_DELIMITER (R156) -/
  | startDelimiter (port : LinkPort)
  /-- LINE_IDLE_TRUNCATION (R156) -/
  | lineIdleTruncation (port : LinkPort)
  /-- FRAME_HEADER (R157): the header and the header CRC received with it -/
  | frameHeader (port : LinkPort) (header : Header) (crc : BitVec 16)
  /-- ROW_END_DELIMITER (R159): an end delimiter, with the bytes received after the header CRC (log 31) -/
  | rowEndDelimiter (port : LinkPort) (received : List Byte)
  /-- CTL_END_DELIMITER (R160): an end delimiter, with the bytes received after the header CRC (log 31) -/
  | ctlEndDelimiter (port : LinkPort) (received : List Byte)
  /-- RETURN_LANE_FRAME_SENT (R162) -/
  | returnLaneFrameSent (p : PortId)
  /-- NOP (R175) -/
  | nop (p : PortId)
  /-- STATUS_READ (R176) -/
  | statusRead (p : PortId)
  /-- TABLE_READ (R178) -/
  | tableRead (p : PortId)
  /-- FAULT_CLEAR (R179) -/
  | faultClear (p : PortId)
  /-- ENGINE_RESET (R180) -/
  | engineReset (p : PortId)
  /-- UNKNOWN_COMMAND (R168) -/
  | unknownCommand (p : PortId)
  /-- INTAKE_SET (R41) -/
  | intakeSet (p : PortId)
  /-- TILE_SET (R10) -/
  | tileSet (p : PortId)
  /-- SEGMENT_SET (R12) -/
  | segmentSet (p : PortId)
  /-- TILE_QUARANTINE (R14) -/
  | tileQuarantine (p : PortId)
  /-- TILE_RESTORE (R16) -/
  | tileRestore (p : PortId)
  /-- FLAT_CLEAR (R58) -/
  | flatClear (p : PortId)
  /-- FLAT_WRITE (R60) -/
  | flatWrite (p : PortId)
  /-- FLAT_READ (R62) -/
  | flatRead (p : PortId)
  /-- CANVAS_SET (R66) -/
  | canvasSet (p : PortId)
  /-- CELL_PEEK (R80) -/
  | cellPeek (p : PortId)
  /-- VISIT_OPEN (R102) -/
  | visitOpen (p : PortId)
  /-- SNAP_OPEN (R105) -/
  | snapOpen (p : PortId)
  /-- SNAP_CLOSE (R111) -/
  | snapClose (p : PortId)
  /-- VISIT_CLOSE (R113) -/
  | visitClose (p : PortId)
  /-- VISIT_ABORT (R114) -/
  | visitAbort (p : PortId)
  /-- RESOLVE_SET (R121) -/
  | resolveSet (p : PortId)
  /-- PRODUCT_SET (R138) -/
  | productSet (p : PortId)
  /-- RESOLVE_START (R148) -/
  | resolveStart (p : PortId)
  /-- RESOLVE_ABORT (R150) -/
  | resolveAbort (p : PortId)
  /-- BANK_RELEASE (R151) -/
  | bankRelease (p : PortId)
  /-- STALL_TIMER_EXPIRY (R37) -/
  | stallTimerExpiry (t : TileId)
  /-- DRAIN_TIMER_EXPIRY (R38) -/
  | drainTimerExpiry
  /-- EGRESS_TIMER_EXPIRY (R146) -/
  | egressTimerExpiry
  /-- ROW_START (R43): by the calibration lane of the port -/
  | rowStart (p : PortId)
  /-- PIXEL_DEPOSIT (R91): by the calibration lane of the port -/
  | pixelDeposit (p : PortId)
  /-- FLAT_CLEAR_END (R59) -/
  | flatClearEnd (t : TileId)
  /-- SCRUB_CELL_WRITE (R78) -/
  | scrubCellWrite (b : BankId)
  /-- PRD_FRAME_SENT (R145) -/
  | prdFrameSent
  deriving DecidableEq, Repr

end Sys2Proof
end

