-- ==== Sys2Proof/Decode.lean ====
section
/-! DEFINITION. The decoder of the opcode table's bits. The engine is a block: spec/opcode_table.json gives no row any bits
("fields" is empty in every row), so no word spells a step (log 21). -/

namespace Sys2Proof

/-- The step that a word spells by the table's bits: none, since the table gives no row any bits. -/
def decodeTableWord (_nbits _w : Nat) : Option Instr := none

end Sys2Proof
end

