-- ==== Sys2Proof/Machine/Arith.lean ====
section
/-! DEFINITION. The manual's rounding and its cyclic redundancy check (R1, R2). -/

namespace Sys2Proof.Machine

/-- *round* of R1, of the exact quotient a / b with b above 0: to the nearest integer, halves away from zero. -/
def roundDiv (a b : Int) : Int :=
  if 0 ≤ a then (2 * a + b) / (2 * b) else -((2 * (-a) + b) / (2 * b))

/-- Floor division of R1, floor(a / b), with b above 0 (where Lean's `/` on Int is the floor). -/
def floorDiv (a b : Int) : Int := a / b

/-- One bit of the CRC of R2: shift left by one, and exclusive-OR with 1021h if the bit shifted out differs from the incoming
data bit. -/
def crcBit (reg : BitVec 16) (bit : Bool) : BitVec 16 :=
  if reg.msb = bit then reg <<< 1 else (reg <<< 1) ^^^ 0x1021#16

/-- One byte of the CRC, most significant bit first (R2). -/
def crcByte (reg : BitVec 16) (b : Byte) : BitVec 16 :=
  [7, 6, 5, 4, 3, 2, 1, 0].foldl (fun r i => crcBit r (b.getLsbD i)) reg

/-- The CRC of the covered bytes, from FFFFh, with no final inversion (R2). -/
def crc16 (bs : List Byte) : BitVec 16 := bs.foldl crcByte 0xFFFF#16

end Sys2Proof.Machine
end

