-- ==== Sys2Proof/Machine/Bytes.lean ====
section
/-! DEFINITION. Byte order, frame headers, payloads with their CRC, and packed samples (spec 00, "Byte order"; R182 to R184). -/

namespace Sys2Proof.Machine

/-- `n` bytes of an unsigned value, most significant byte first. -/
def beBytes : Nat → Nat → List Byte
  | 0, _ => []
  | n + 1, x => BitVec.ofNat 8 (x / 256 ^ n) :: beBytes n x

/-- `n` bytes of a signed value in two's complement, most significant byte first. -/
def beInt (n : Nat) (x : Int) : List Byte := beBytes n (x % (256 ^ n : Nat)).toNat

/-- The unsigned value of bytes sent most significant byte first. -/
def beNat (bs : List Byte) : Nat := bs.foldl (fun a b => a * 256 + b.toNat) 0

/-- The unsigned field of `n` bytes at byte `at_` of a payload. -/
def field (bs : List Byte) (at_ n : Nat) : Nat := beNat ((bs.drop at_).take n)

/-- The signed field of `n` bytes at byte `at_` of a payload. -/
def signedField (bs : List Byte) (at_ n : Nat) : Int :=
  if field bs at_ n < 256 ^ n / 2 then (field bs at_ n : Int) else (field bs at_ n : Int) - (256 ^ n : Nat)

/-- The bytes of a header, from the kind to its last field (R182): what the header CRC covers (R183). -/
def headerBytes : Header → List Byte
  | .row len tile seg tag slot row count =>
    [1#8] ++ beBytes 3 len.toNat ++ [tile, seg, tag, slot] ++ beBytes 2 row.toNat ++ beBytes 2 count.toNat
  | .ctl len code request => [2#8] ++ beBytes 3 len.toNat ++ [code] ++ beBytes 2 request.toNat
  | .rsp len => [3#8] ++ beBytes 3 len.toNat
  | .crd len credits => [4#8] ++ beBytes 3 len.toNat ++ [credits]
  | .prd len product tag pass row flags pixels =>
    [5#8] ++ beBytes 3 len.toNat ++ [product, tag] ++ beBytes 2 pass.toNat ++ beBytes 2 row.toNat ++ [flags]
      ++ beBytes 2 pixels.toNat
  | .unknown kind len => [kind] ++ beBytes 3 len.toNat

/-- The payload of a frame whose header declared `len` bytes, and whether its CRC is good, from the bytes received after the
header CRC. `none` when their number is not the declared one: `len` bytes and the two of the payload CRC, or nothing at all
when `len` is 0 (R159, R182; log 6). -/
def splitPayload (len : Nat) (received : List Byte) : Option (List Byte × Bool) :=
  if len = 0 then
    if received = [] then some ([], true) else none
  else if received.length = len + 2 then
    some (received.take len, (crc16 (received.take len)).toNat == beNat (received.drop len))
  else none

/-- The packed size of `n` samples: nine bytes for each group of four, the last group padded (R158). -/
def packedSize (n : Nat) : Nat := 9 * ((n + 3) / 4)

/-- The samples of whole groups of nine bytes: each group is four samples of 18 bits, the first in the most significant bits
(R184). -/
def unpackGroups : List Byte → List Sample
  | b0 :: b1 :: b2 :: b3 :: b4 :: b5 :: b6 :: b7 :: b8 :: rest =>
    let g : BitVec 72 := b0 ++ b1 ++ b2 ++ b3 ++ b4 ++ b5 ++ b6 ++ b7 ++ b8
    g.extractLsb' 54 18 :: g.extractLsb' 36 18 :: g.extractLsb' 18 18 :: g.extractLsb' 0 18 :: unpackGroups rest
  | _ => []

/-- The `n` samples of a ROW payload (R184); the padding after them is ignored. -/
def unpackSamples (n : Nat) (payload : List Byte) : List Sample := (unpackGroups payload).take n

end Sys2Proof.Machine
end

