-- ==== Sys2Proof/Config.lean ====
section
/-! DEFINITION. What the part fixes once for all, and the free values of the model.
The numbers are the spec's; each is named with its rule. -/

namespace Sys2Proof.Config

/-- Row buffers of one ingress port (R155). -/
def rowBuffers : Nat := 32

/-- Samples that one row buffer holds (R8, R158). -/
def bufferSamples : Nat := 4160

/-- CTL frames that one control queue holds (R167). -/
def queueFrames : Nat := 2

/-- RSPs that one response backlog holds (R162). -/
def backlogFrames : Nat := 8

/-- The longest CTL payload in bytes: a FLAT_WRITE of 1024 entries (R183). -/
def longestCtl : Nat := 2055

/-- The most product credits PX counts (R165). -/
def creditLimit : Nat := 65535

/-- The egress stall time in milliseconds (R146). -/
def egressStallMs : Nat := 100

/-- Unity in a flat map (R50, R59). -/
def unityFlat : Flat := 16384#16

/-- Columns (and rows) of one flat map (R56). -/
def flatSide : Nat := 4096

/-- FREE VALUE. The epoch that a canvas-memory place holds at power-on, "not known" (R67, R82).
Arguments: how many power-ons came before, the bank, the place. See log 9. -/
opaque powerOnEpoch : Nat → Nat → Nat → BitVec 8

/-- FREE VALUE. The four mask bits (SAT, DEF, CLIP, LOW from bit 0) that a canvas-memory place holds at power-on,
"not known" (R67, R82). See log 9. -/
opaque powerOnMask : Nat → Nat → Nat → BitVec 4

/-- FREE VALUE. The flux of one slot (last argument) that a canvas-memory place holds at power-on,
"not known" (R67, R82). See log 9. -/
opaque powerOnFlux : Nat → Nat → Nat → Nat → BitVec 48

/-- FREE VALUE. The weight of one slot (last argument) that a canvas-memory place holds at power-on,
"not known" (R67, R82). See log 9. -/
opaque powerOnWeight : Nat → Nat → Nat → Nat → BitVec 16

end Sys2Proof.Config
end

