-- ==== Sys2Proof/Machine/State.lean ====
section
/-! DEFINITION. The state of the engine, block by block as the spec gives it (spec 00, "The blocks"), and its value at
power-on. Every record's docstring names the rule that gives its fields. -/

namespace Sys2Proof.Machine

/-! ## Small types -/

/-- A link state (R155). -/
inductive LinkState where
  | down
  | up
  deriving DecidableEq, Repr

/-- A timer: stopped, or running with the time in milliseconds it was started with (R36, R112, R146; log 3). -/
inductive Timer where
  | stopped
  | running (ms : Nat)
  deriving DecidableEq, Repr

/-- A tile snap state (R30). -/
inductive TileState where
  | waiting
  | receiving
  | complete
  | short
  | stalled
  | absent
  | quarantined
  | off
  deriving DecidableEq, Repr

/-- A flat state (R57). -/
inductive FlatState where
  | unloaded
  | clearing
  | loaded
  deriving DecidableEq, Repr

/-- A bank state (R70). -/
inductive BankState where
  | free
  | filling
  | closed
  | resolving
  | resolved
  | retiring
  | scrubbing
  deriving DecidableEq, Repr

/-- A visit state (R101). -/
inductive VisitState where
  | noVisit
  | betweenSnaps
  | inSnap
  deriving DecidableEq, Repr

/-- A snap state (R101). -/
inductive SnapState where
  | noSnap
  | opened
  | draining
  | done
  | aborted
  deriving DecidableEq, Repr

/-- A resolve state (R141). -/
inductive ResolveState where
  | idle
  | running
  | restarting
  | ending
  deriving DecidableEq, Repr

/-- The trigger mode (R140). -/
inductive TriggerMode where
  | auto
  | manual
  deriving DecidableEq, Repr

/-- The release mode (R140). -/
inductive ReleaseMode where
  | autoRelease
  | hold
  deriving DecidableEq, Repr

/-- A pixel format (R137). -/
inductive PixelFormat where
  | v
  | vcm
  | vwcm
  deriving DecidableEq, Repr

/-- A class of an output pixel (R129). -/
inductive PixelClass where
  | nodata
  | single
  | pair
  | split
  | full
  | majority
  | discord
  | padding
  deriving DecidableEq, Repr

/-- A result code (R169). -/
inductive Result where
  | ok
  | notTaken
  | unknown
  | malformed
  | range
  | state
  | locked
  | busy
  | noBank
  deriving DecidableEq, Repr

/-- The status of a product entry in a visit summary (R152). -/
inductive EntryStatus where
  | notReached
  | done
  | empty
  | disabled
  deriving DecidableEq, Repr

/-! ## Link ports (R155) -/

/-- The eight port fault flags (R161). -/
structure PortFlags where
  truncated : Bool
  hdrCrc : Bool
  unknownKind : Bool
  length : Bool
  payloadCrc : Bool
  noCredit : Bool
  overrun : Bool
  ctlOverrun : Bool
  deriving DecidableEq, Repr

/-- All flags clear. -/
def PortFlags.clear : PortFlags := ⟨false, false, false, false, false, false, false, false⟩

/-- The nine port counters, 32-bit and wrapping (R161). -/
structure PortCounters where
  rowIn : BitVec 32
  ctlIn : BitVec 32
  unexpected : BitVec 32
  stale : BitVec 32
  afterEnd : BitVec 32
  lineDiscard : BitVec 32
  overrunDrop : BitVec 32
  ctlDrop : BitVec 32
  rspLost : BitVec 32
  deriving DecidableEq, Repr

/-- All counters 0. -/
def PortCounters.zero : PortCounters := ⟨0, 0, 0, 0, 0, 0, 0, 0, 0⟩

/-- A CTL frame in a control queue: its header's command code and request number, and its payload (R167, R182). -/
structure CtlFrame where
  code : Byte
  request : BitVec 16
  payload : List Byte
  deriving DecidableEq, Repr

/-- The header fields of a ROW frame (R182). -/
structure RowHeader where
  tile : Byte
  seg : Byte
  tag : Byte
  slot : Byte
  row : BitVec 16
  count : BitVec 16
  deriving DecidableEq, Repr

/-- The frame in progress on an ingress port (R156 to R160): none; one whose header has not arrived; a ROW frame that holds
a row buffer; a CTL frame in the control receive area; a frame discarded or dropped at its header, whose rest is received and
ignored (R157, R158). `len` is the declared payload length; `counted` says that LINE_DISCARD counts the frame already (log 5). -/
inductive Rx where
  | idle
  | awaitingHeader
  | row (h : RowHeader) (len : Nat)
  | ctl (code : Byte) (request : BitVec 16) (len : Nat)
  | rest (counted : Bool)
  deriving DecidableEq, Repr

/-- A taken row in its row buffer (R28). -/
structure TakenRow where
  tile : TileId
  seg : SegId
  row : Nat
  slot : SlotId
  samples : List Sample
  deriving DecidableEq, Repr

/-- The status word of a response (R171). -/
structure StatusWord where
  code : Byte
  request : BitVec 16
  result : Result
  flags : PortFlags
  overrunSeen : Bool
  linkDownSeen : Bool
  egressStall : Bool
  bank0 : BankState
  epoch0 : BitVec 8
  bank1 : BankState
  epoch1 : BitVec 8
  visit : VisitState
  tag : Byte
  slot : SlotId
  snap : SnapState
  resolve : ResolveState
  passBank : BankId
  visitCounter : BitVec 16
  resolveCounter : BitVec 16
  attention : Nat
  deriving DecidableEq, Repr

/-- A response: the status word and the data part (R170), the data part as the bytes of R186. -/
structure Rsp where
  word : StatusWord
  data : List Byte
  deriving DecidableEq, Repr

/-- A frame on an ingress port's return lane: a CRD with its count, or an RSP (R162). -/
inductive ReturnFrame where
  | crd (count : Nat)
  | rsp (r : Rsp)
  deriving DecidableEq, Repr

/-- An ingress port (R155, R167). `taken` holds the taken rows whose deposit has not begun, in the order in which they were
taken (R28); `owed` is how many of the waiting RSPs go before the next CRD (R162). -/
structure Port where
  link : LinkState
  rx : Rx
  taken : List TakenRow
  granted : Nat
  flags : PortFlags
  counters : PortCounters
  queue : List CtlFrame
  lane : Option ReturnFrame
  backlog : List Rsp
  owed : Nat
  deriving DecidableEq, Repr

/-- An ingress port at power-on (R155, R181). -/
def Port.reset : Port where
  link := .down
  rx := .idle
  taken := []
  granted := 0
  flags := .clear
  counters := .zero
  queue := []
  lane := none
  backlog := []
  owed := 0

/-- The conditions that a cell mask holds (R67). `defect` is DEF. -/
structure CellMask where
  sat : Bool
  defect : Bool
  clip : Bool
  low : Bool
  deriving DecidableEq, Repr

/-- No condition set. -/
def CellMask.clear : CellMask := ⟨false, false, false, false⟩

/-- The output mask of a pixel: the cell's conditions and the three of the resolve pass (R133). -/
structure OutMask where
  cell : CellMask
  rej : Bool
  lowcov : Bool
  thin : Bool
  deriving DecidableEq, Repr

/-- An output pixel (R134). -/
structure OutPixel where
  cls : PixelClass
  value : Int
  weight : Nat
  mask : OutMask
  deriving DecidableEq, Repr

/-- A PRD frame on the forward lane of PX (R144, R182). -/
structure PrdFrame where
  product : Byte
  tag : Byte
  pass : BitVec 16
  row : Nat
  last : Bool
  format : PixelFormat
  pixels : List OutPixel
  deriving DecidableEq, Repr

/-- The four counters of PX (R165). -/
structure PxCounters where
  prdSent : BitVec 32
  prdCut : BitVec 32
  crdIn : BitVec 32
  lineDiscard : BitVec 32
  deriving DecidableEq, Repr

/-- The frame in progress on the reverse lane of PX (R156, R157, R165): none; one whose header has not arrived; one whose header
has been dealt with and whose end delimiter has not arrived. `counted` says that LINE_DISCARD counts the frame already (log 5). -/
inductive PxRx where
  | idle
  | awaitingHeader
  | rest (counted : Bool)
  deriving DecidableEq, Repr

/-- The product port PX (R155, R165). `rx` is the frame in progress on its reverse lane; `lane` is the row in transmission
(R145). -/
structure ProductPort where
  link : LinkState
  rx : PxRx
  credits : Nat
  lane : Option PrdFrame
  counters : PxCounters
  deriving DecidableEq, Repr

/-- PX at power-on (R155, R165). -/
def ProductPort.reset : ProductPort where
  link := .down
  rx := .idle
  credits := 0
  lane := none
  counters := ⟨0, 0, 0, 0⟩

/-! ## Focal-plane tables -/

/-- A tile record (R3). -/
structure TileRec where
  enabled : Bool
  width : Nat
  height : Nat
  segCount : Nat
  ox : Int
  oy : Int
  fx : Nat
  fy : Nat
  orientation : Nat
  quarantined : Bool
  deriving DecidableEq, Repr

/-- A tile record at power-on (R3). -/
def TileRec.reset : TileRec where
  enabled := false
  width := 0
  height := 0
  segCount := 0
  ox := 0
  oy := 0
  fx := 0
  fy := 0
  orientation := 0
  quarantined := false

/-- A segment record (R7). -/
structure SegRec where
  colOrigin : Nat
  rowOrigin : Nat
  width : Nat
  height : Nat
  colReversed : Bool
  rowReversed : Bool
  overscan : Nat
  skip : Nat
  shift : Nat
  defaultBias : Nat
  gain : Nat
  satThreshold : Nat
  lowThreshold : Int
  deriving DecidableEq, Repr

/-- A segment record at power-on (R7). -/
def SegRec.reset : SegRec where
  colOrigin := 0
  rowOrigin := 0
  width := 0
  height := 0
  colReversed := false
  rowReversed := false
  overscan := 0
  skip := 0
  shift := 0
  defaultBias := 0
  gain := 4096
  satThreshold := 262143
  lowThreshold := -134217728

/-! ## Row Intake -/

/-- The six flags of a tile snap status record (R30). -/
structure TileFlags where
  dataError : Bool
  length : Bool
  wrongRow : Bool
  endOfTile : Bool
  late : Bool
  overrun : Bool
  deriving DecidableEq, Repr

/-- All flags clear. -/
def TileFlags.clear : TileFlags := ⟨false, false, false, false, false, false⟩

/-- A tile snap status record (R30). -/
structure TileRecord where
  state : TileState
  taken : Tab 4 Nat
  missing : Tab 4 Nat
  flags : TileFlags
  satPixels : Nat
  defPixels : Nat
  clipPixels : Nat
  spilled : Nat
  deriving DecidableEq, Repr

/-- A cleared record in the given state (R32, R42). -/
def TileRecord.cleared (st : TileState) : TileRecord where
  state := st
  taken := .fill 4 0
  missing := .fill 4 0
  flags := .clear
  satPixels := 0
  defPixels := 0
  clipPixels := 0
  spilled := 0

/-- The state of Row Intake (spec 02). -/
structure Intake where
  next : Tab 64 Nat
  records : Tab 16 TileRecord
  inFlight : Tab 16 Nat
  stall : Tab 16 Timer
  stallTime : Nat
  drainTime : Nat
  deriving DecidableEq, Repr

/-- Row Intake at power-on (R42). -/
def Intake.reset : Intake where
  next := .fill 64 0
  records := .fill 16 (.cleared .off)
  inFlight := .fill 16 0
  stall := .fill 16 .stopped
  stallTime := 50
  drainTime := 200

/-! ## Deposit Unit and Calibration Unit -/

/-- A placement record (R83). -/
structure Placement where
  baseX : Int
  baseY : Int
  orientation : Nat
  width : Nat
  height : Nat
  rx : Nat
  ry : Nat
  w00 : Nat
  w10 : Nat
  w01 : Nat
  w11 : Nat
  deriving DecidableEq, Repr

/-- A row deposit context (R87). `counting` is the counting mark. -/
structure Context where
  placement : Placement
  slot : SlotId
  bank : BankId
  counting : Bool
  deriving DecidableEq, Repr

/-- A busy calibration lane (R43, R44): the row's tile, the copies taken at its start (segment record, flat state, flat
entries), the bias used, the number of the next image sample, the image samples still to do, each with its flat entry, and
the bound deposit context. -/
structure Lane where
  tile : TileId
  row : Nat
  seg : SegRec
  flatState : FlatState
  bias : Int
  next : Nat
  todo : List (Sample × Flat)
  context : Context
  deriving DecidableEq, Repr

/-- A flat map and its state (R56, R57). The map lists the entries that are not unity, by place v × 4096 + u. -/
structure FlatMap where
  state : FlatState
  map : List (Nat × Flat)
  deriving DecidableEq, Repr

/-- The state of the Calibration Unit (spec 03). -/
structure Calibration where
  bias : Tab 64 (Option Int)
  lanes : Tab 4 (Option Lane)
  flats : Tab 16 FlatMap
  deriving DecidableEq, Repr

/-- The Calibration Unit at power-on (R64). -/
def Calibration.reset : Calibration where
  bias := .fill 64 none
  lanes := .fill 4 none
  flats := .fill 16 ⟨.unloaded, []⟩

/-! ## Canvas Memory Controller -/

/-- One slot of a cell: a signed 48-bit flux and a 16-bit weight (R67). -/
structure Slot where
  flux : BitVec 48
  weight : BitVec 16
  deriving DecidableEq, Repr

/-- A cell record (R67). -/
structure Cell where
  epoch : BitVec 8
  mask : CellMask
  slots : Tab 3 Slot
  deriving DecidableEq, Repr

/-- The empty record with a given epoch (R67). -/
def Cell.empty (epoch : BitVec 8) : Cell := ⟨epoch, .clear, .fill 3 ⟨0, 0⟩⟩

/-- A bank record (R70) with its cells, by place y × W + x (R65). A place that is not listed has not been written since
power-on (log 9). -/
structure Bank where
  state : BankState
  epoch : BitVec 8
  depositHolds : Nat
  readHold : Bool
  scrubPos : Nat
  cells : List (Nat × Cell)
  deriving DecidableEq, Repr

/-- A bank at power-on (R70, R82). -/
def Bank.reset : Bank where
  state := .free
  epoch := 0
  depositHolds := 0
  readHold := false
  scrubPos := 0
  cells := []

/-- The state of the Canvas Memory Controller (spec 04). `powerOns` is the model's own counter (log 9). -/
structure Canvas where
  width : Nat
  height : Nat
  banks : Tab 2 Bank
  powerOns : Nat
  deriving DecidableEq, Repr

/-- The Canvas Memory Controller at power-on (R82). -/
def Canvas.reset : Canvas where
  width := 0
  height := 0
  banks := .fill 2 .reset
  powerOns := 0

/-! ## Visit Controller -/

/-- A bank visit record that is not empty (R116). -/
structure BankVisit where
  tag : Byte
  snapsUsed : Nat
  deriving DecidableEq, Repr

/-- The state of the Visit Controller (spec 06). -/
structure Visit where
  state : VisitState
  tag : Byte
  bank : BankId
  expected : Nat
  snapsDone : Nat
  slot : SlotId
  snap : SnapState
  sx : Int
  sy : Int
  inFlight : Nat
  drain : Timer
  records : Tab 2 (Option BankVisit)
  counter : BitVec 16
  deriving DecidableEq, Repr

/-- The Visit Controller at power-on (R119). -/
def Visit.reset : Visit where
  state := .noVisit
  tag := 0
  bank := 0
  expected := 0
  snapsDone := 0
  slot := 0
  snap := .noSnap
  sx := 0
  sy := 0
  inFlight := 0
  drain := .stopped
  records := .fill 2 none
  counter := 0

/-! ## Resolve Unit -/

/-- A pass snapshot (R122). -/
structure Snapshot where
  wmin : Nat
  tAbs : Nat
  tRel : Nat
  tag : Byte
  snapsUsed : Nat
  deriving DecidableEq, Repr

/-- A product entry (R137). -/
structure Product where
  enabled : Bool
  id : Byte
  x0 : Int
  y0 : Int
  x1 : Int
  y1 : Int
  stride : Nat
  format : PixelFormat
  fillValue : Int
  deriving DecidableEq, Repr

/-- A product entry at power-on (R137). -/
def Product.reset : Product where
  enabled := false
  id := 0
  x0 := 0
  y0 := 0
  x1 := 0
  y1 := 0
  stride := 1
  format := .v
  fillValue := 0

/-- What a visit summary reports of one entry (R152). `counts` is indexed by the class code of R184. -/
structure EntryReport where
  status : EntryStatus
  product : Byte
  format : PixelFormat
  rows : Nat
  pixels : Nat
  counts : Tab 8 Nat
  deriving DecidableEq, Repr

/-- A visit summary (R152). -/
structure Report where
  bank : BankId
  tag : Byte
  snapsUsed : Nat
  pass : BitVec 16
  entries : Tab 8 EntryReport
  deriving DecidableEq, Repr

/-- The state of the Resolve Unit (spec 07, spec 08). The walk stands at row `row` of entry `entry`. -/
structure Resolve where
  wmin : Nat
  tAbs : Nat
  tRel : Nat
  snapshot : Option Snapshot
  products : Tab 8 Product
  trigger : TriggerMode
  release : ReleaseMode
  state : ResolveState
  passBank : BankId
  waiting : List BankId
  entry : Fin 8
  row : Nat
  egressMark : Bool
  egressTimer : Timer
  passNumber : BitVec 16
  resolveCounter : BitVec 16
  readable : Option Report
  building : Option Report
  deriving DecidableEq, Repr

/-- The Resolve Unit at power-on (R136, R154; the walk position by log 20). -/
def Resolve.reset : Resolve where
  wmin := 128
  tAbs := 320
  tRel := 4
  snapshot := none
  products := .fill 8 .reset
  trigger := .auto
  release := .autoRelease
  state := .idle
  passBank := 0
  waiting := []
  entry := 0
  row := 0
  egressMark := false
  egressTimer := .stopped
  passNumber := 0
  resolveCounter := 0
  readable := none
  building := none

/-! ## Status Unit -/

/-- The state of the Status Unit: the latched faults (R172) and the three attention conditions that have a state of their
own (R173). -/
structure Status where
  overrunSeen : Bool
  linkDownSeen : Bool
  egressStall : Bool
  tile : Bool
  snapDone : Bool
  passDone : Bool
  deriving DecidableEq, Repr

/-- The Status Unit at power-on (R181). -/
def Status.reset : Status := ⟨false, false, false, false, false, false⟩

/-! ## The engine -/

/-- The engine: its nine blocks, and the queue of steps that wait, first in, first out. -/
structure State where
  ports : Tab 4 Port
  px : ProductPort
  tiles : Tab 16 TileRec
  segs : Tab 64 SegRec
  intake : Intake
  cal : Calibration
  placements : Tab 16 (Option Placement)
  canvas : Canvas
  visit : Visit
  resolve : Resolve
  status : Status
  pending : List Instr
  deriving DecidableEq, Repr

/-- The engine right after power-on (R155, R3, R7, R42, R64, R82, R100, R119, R136, R154, R181), with nothing waiting. -/
def State.reset : State where
  ports := .fill 4 .reset
  px := .reset
  tiles := .fill 16 .reset
  segs := .fill 64 .reset
  intake := .reset
  cal := .reset
  placements := .fill 16 none
  canvas := .reset
  visit := .reset
  resolve := .reset
  status := .reset
  pending := []

/-- The faults that stop the engine: none. The spec gives every step an effect in every state, and what it calls faults are
flags in State (R161, R172). -/
inductive Fault where
  deriving DecidableEq, Repr

/-- The refusals of the model. -/
inductive Refusal where
  /-- Raised by `exec` for a step that has no meaning yet, with the row's mnemonic: safe. No arm raises it. -/
  | notModelled (mnemonic : String)
  deriving DecidableEq, Repr

end Sys2Proof.Machine
end

