-- ==== Sys2Proof/Machine/Flags.lean ====
section
/-! DEFINITION. Flags, masks and codes: the attention conditions (R173, R174), and the bytes in which flags, masks, states and
codes are sent (R184, R186). -/

namespace Sys2Proof.Machine

/-! ## Attention (R173, R174) -/

/-- FAULT is pending while any latched fault is set (R173). -/
def Status.fault (u : Status) : Bool := u.overrunSeen || u.linkDownSeen || u.egressStall

/-- The attention code: the highest-priority pending condition, or 0 (R174). -/
def Status.attentionCode (u : Status) : Nat :=
  if u.fault then 1 else if u.tile then 2 else if u.snapDone then 3 else if u.passDone then 4 else 0

/-- The three latched faults cleared (R179). -/
def Status.clearFaults (u : Status) : Status := { u with overrunSeen := false, linkDownSeen := false, egressStall := false }

/-! ## Packed flags -/

/-- A byte whose bit i is the i-th flag, from bit 0 (R186). -/
def packBits (bits : List Bool) : Byte :=
  bits.foldr (fun b (acc : Byte) => (acc <<< 1) ||| (if b then 1#8 else 0#8)) 0#8

/-- A yes-or-no field (spec 11). -/
def yesNo (b : Bool) : Byte := if b then 1#8 else 0#8

/-- Byte 4 of the status word (R186). -/
def PortFlags.byte (f : PortFlags) : Byte :=
  packBits [f.truncated, f.hdrCrc, f.unknownKind, f.length, f.payloadCrc, f.noCredit, f.overrun, f.ctlOverrun]

/-- The latched faults in one byte, as byte 5 of the status word (R186). -/
def latchedByte (overrunSeen linkDownSeen egressStall : Bool) : Byte := packBits [overrunSeen, linkDownSeen, egressStall]

/-- The attention conditions in one byte: FAULT, TILE, SNAP_DONE, PASS_DONE (R186). The spec is silent on bits 4 to 7; that they
are sent as 0 is the model's choice (log 32). -/
def Status.conditionsByte (u : Status) : Byte := packBits [u.fault, u.tile, u.snapDone, u.passDone]

/-- The flags of a tile snap status record in one byte (R186). The spec is silent on bits 6 and 7; that they are sent as 0 is the
model's choice (log 32). -/
def TileFlags.byte (f : TileFlags) : Byte :=
  packBits [f.dataError, f.length, f.wrongRow, f.endOfTile, f.late, f.overrun]

/-- A stored cell mask in one byte (R184). -/
def CellMask.byte (m : CellMask) : Byte := packBits [m.sat, m.defect, m.clip, m.low]

/-- An output mask in one byte (R184). -/
def OutMask.byte (m : OutMask) : Byte :=
  packBits [m.cell.sat, m.cell.defect, m.cell.clip, m.cell.low, m.rej, m.lowcov, m.thin]

/-! ## Codes (R169, R184, R186) -/

/-- Result codes (R186). -/
def Result.code : Result → Byte
  | .ok => 0
  | .notTaken => 1
  | .unknown => 2
  | .malformed => 3
  | .range => 4
  | .state => 5
  | .locked => 6
  | .busy => 7
  | .noBank => 8

/-- Bank state codes (R186). -/
def BankState.code : BankState → Byte
  | .free => 0
  | .filling => 1
  | .closed => 2
  | .resolving => 3
  | .resolved => 4
  | .retiring => 5
  | .scrubbing => 6

/-- Visit state codes (R186). -/
def VisitState.code : VisitState → Byte
  | .noVisit => 0
  | .betweenSnaps => 1
  | .inSnap => 2

/-- Snap state codes (R186). -/
def SnapState.code : SnapState → Byte
  | .noSnap => 0
  | .opened => 1
  | .draining => 2
  | .done => 3
  | .aborted => 4

/-- Resolve state codes (R186). -/
def ResolveState.code : ResolveState → Byte
  | .idle => 0
  | .running => 1
  | .restarting => 2
  | .ending => 3

/-- Tile snap state codes (R186). -/
def TileState.code : TileState → Byte
  | .waiting => 0
  | .receiving => 1
  | .complete => 2
  | .short => 3
  | .stalled => 4
  | .absent => 5
  | .quarantined => 6
  | .off => 7

/-- The terminal tile snap states (R24). -/
def TileState.terminal : TileState → Bool
  | .waiting => false
  | .receiving => false
  | .complete => true
  | .short => true
  | .stalled => true
  | .absent => true
  | .quarantined => true
  | .off => true

/-- Flat state codes (R186). -/
def FlatState.code : FlatState → Byte
  | .unloaded => 0
  | .clearing => 1
  | .loaded => 2

/-- Summary entry status codes (R186). An entry not yet reached is found only in the copy being built (R152), which is not
sent; it is given the code of an entry that sent nothing. -/
def EntryStatus.code : EntryStatus → Byte
  | .done => 0
  | .empty => 1
  | .disabled => 2
  | .notReached => 2

/-- Link state codes (R186). -/
def LinkState.code : LinkState → Byte
  | .down => 0
  | .up => 1

/-- Class codes (R184); also the index of a class among the counts of a summary. -/
def PixelClass.index : PixelClass → Fin 8
  | .nodata => 0
  | .single => 1
  | .pair => 2
  | .split => 3
  | .full => 4
  | .majority => 5
  | .discord => 6
  | .padding => 7

/-- Format codes (R182, R185). -/
def PixelFormat.code : PixelFormat → Nat
  | .v => 0
  | .vcm => 1
  | .vwcm => 2

/-- The format a code names (R185). -/
def PixelFormat.ofCode : Nat → Option PixelFormat
  | 0 => some .v
  | 1 => some .vcm
  | 2 => some .vwcm
  | _ => none

/-- Trigger mode codes (R185). -/
def TriggerMode.code : TriggerMode → Nat
  | .auto => 0
  | .manual => 1

/-- The trigger mode a code names (R185). -/
def TriggerMode.ofCode : Nat → Option TriggerMode
  | 0 => some .auto
  | 1 => some .manual
  | _ => none

/-- Release mode codes (R185). -/
def ReleaseMode.code : ReleaseMode → Nat
  | .autoRelease => 0
  | .hold => 1

/-- The release mode a code names (R185). -/
def ReleaseMode.ofCode : Nat → Option ReleaseMode
  | 0 => some .autoRelease
  | 1 => some .hold
  | _ => none

/-- The value a yes-or-no field names (R169). -/
def yesNoOf : Nat → Option Bool
  | 0 => some false
  | 1 => some true
  | _ => none

end Sys2Proof.Machine
end

