-- ==== Sys2Proof/Machine/Store.lean ====
section
/-! DEFINITION. Sparse stores: lists of (place, content) with strictly rising places. The calibration store and the canvas
memory are held so (log 10, log 11). -/

namespace Sys2Proof.Machine.Store

variable {α : Type}

/-- What the list holds at a place. -/
def lookup : List (Nat × α) → Nat → Option α
  | [], _ => none
  | (k, v) :: m, a => if k = a then some v else lookup m a

/-- The list with `v` at place `a`. -/
def insert : List (Nat × α) → Nat → α → List (Nat × α)
  | [], a, v => [(a, v)]
  | (k, w) :: m, a, v => if a < k then (a, v) :: (k, w) :: m else if a = k then (a, v) :: m else (k, w) :: insert m a v

/-- The list with nothing at place `a`. -/
def erase : List (Nat × α) → Nat → List (Nat × α)
  | [], _ => []
  | (k, w) :: m, a => if k = a then m else (k, w) :: erase m a

/-- Every place of the list lies above `a`. -/
def above (a : Nat) (m : List (Nat × α)) : Bool := m.all (fun e => a < e.1)

/-- The places rise strictly. -/
def rising : List (Nat × α) → Bool
  | [] => true
  | (k, _) :: m => above k m && rising m

end Sys2Proof.Machine.Store
end

