-- ==== Sys2Proof/Machine/Ops.lean ====
section
/-! DEFINITION. The named reads and updates of the state that every step is written with: ports, tables, records, timers,
flat maps, cells, banks. -/

namespace Sys2Proof.Machine

/-! ## Ports -/

/-- Raises a wrapping counter by one (R161, R165). -/
def bump {w : Nat} (c : BitVec w) : BitVec w := c + 1

/-- Every ingress port. -/
def allPorts : List PortId := [0, 1, 2, 3]

namespace State

/-- The state of an ingress port. -/
def port (s : State) (p : PortId) : Port := s.ports.nth p

/-- Changes one ingress port. -/
def updPort (s : State) (p : PortId) (f : Port → Port) : State := { s with ports := s.ports.modify p f }

/-- Changes the product port. -/
def updPx (s : State) (f : ProductPort → ProductPort) : State := { s with px := f s.px }

/-- The row of a calibration lane, if it is busy (R43). -/
def lane (s : State) (p : PortId) : Option Lane := s.cal.lanes.nth p

/-- Sets a calibration lane. -/
def setLane (s : State) (p : PortId) (l : Option Lane) : State := { s with cal := { s.cal with lanes := s.cal.lanes.put p l } }

end State

/-- How many row buffers the frame in progress holds (R155). -/
def Rx.buffers : Rx → Nat
  | .row _ _ => 1
  | .idle => 0
  | .awaitingHeader => 0
  | .ctl _ _ _ => 0
  | .rest _ => 0

/-- A frame in progress that LINE_DISCARD does not count yet: a truncation counts it (R156, R163; log 5). -/
def Rx.uncounted : Rx → Bool
  | .idle => false
  | .awaitingHeader => true
  | .row _ _ => true
  | .ctl _ _ _ => true
  | .rest counted => !counted

/-- A frame in progress on PX that its LINE_DISCARD does not count yet: a truncation counts it (R156, R165; log 5). -/
def PxRx.uncounted : PxRx → Bool
  | .idle => false
  | .awaitingHeader => true
  | .rest counted => !counted

/-- How many row buffers a calibration lane holds: the one of its row (R28). -/
def laneBuffers : Option Lane → Nat
  | none => 0
  | some _ => 1

/-- The occupied count O of a port: the buffer of the frame being received, the taken rows not started, and the row in the
port's calibration lane (R155). -/
def State.occupied (s : State) (p : PortId) : Nat :=
  (s.port p).rx.buffers + (s.port p).taken.length + laneBuffers (s.lane p)

/-- The number of ungranted free buffers, 32 − O − G (R155). -/
def State.ungranted (s : State) (p : PortId) : Nat := Config.rowBuffers - (s.occupied p + (s.port p).granted)

/-! ## Tables -/

/-- The place of a segment in the segment table: four times the tile id plus the segment id (R178). -/
def segIndex (t : TileId) (g : SegId) : Fin 64 := ⟨4 * t.val + g.val, by omega⟩

namespace State

/-- A tile record. -/
def tile (s : State) (t : TileId) : TileRec := s.tiles.nth t

/-- Sets a tile record. -/
def setTile (s : State) (t : TileId) (r : TileRec) : State := { s with tiles := s.tiles.put t r }

/-- A segment record. -/
def seg (s : State) (t : TileId) (g : SegId) : SegRec := s.segs.nth (segIndex t g)

/-- Sets a segment record. -/
def setSeg (s : State) (t : TileId) (g : SegId) (r : SegRec) : State := { s with segs := s.segs.put (segIndex t g) r }

/-! ## Row Intake -/

/-- A tile snap status record (R30). -/
def record (s : State) (t : TileId) : TileRecord := s.intake.records.nth t

/-- Changes one tile snap status record. -/
def updRecord (s : State) (t : TileId) (f : TileRecord → TileRecord) : State :=
  { s with intake := { s.intake with records := s.intake.records.modify t f } }

/-- The next expected row e of a segment. -/
def nextRow (s : State) (t : TileId) (g : SegId) : Nat := s.intake.next.nth (segIndex t g)

/-- Sets the next expected row e of a segment. -/
def setNextRow (s : State) (t : TileId) (g : SegId) (e : Nat) : State :=
  { s with intake := { s.intake with next := s.intake.next.put (segIndex t g) e } }

/-- A tile's rows in flight. -/
def inFlight (s : State) (t : TileId) : Nat := s.intake.inFlight.nth t

/-- Sets a tile's rows in flight. -/
def setInFlight (s : State) (t : TileId) (n : Nat) : State :=
  { s with intake := { s.intake with inFlight := s.intake.inFlight.put t n } }

/-- A tile's stall timer. -/
def stallTimer (s : State) (t : TileId) : Timer := s.intake.stall.nth t

/-- Sets a tile's stall timer. -/
def setStall (s : State) (t : TileId) (x : Timer) : State :=
  { s with intake := { s.intake with stall := s.intake.stall.put t x } }

/-- Raises the attention condition TILE when `b` (R35, R173). -/
def raiseTile (s : State) (b : Bool) : State := { s with status := { s.status with tile := s.status.tile || b } }

/-! ## Banks, cells and flat maps -/

/-- A bank record. -/
def bank (s : State) (b : BankId) : Bank := s.canvas.banks.nth b

/-- Changes one bank record. -/
def updBank (s : State) (b : BankId) (f : Bank → Bank) : State :=
  { s with canvas := { s.canvas with banks := s.canvas.banks.modify b f } }

/-- A flat map with its state. -/
def flat (s : State) (t : TileId) : FlatMap := s.cal.flats.nth t

/-- Changes one flat map. -/
def updFlat (s : State) (t : TileId) (f : FlatMap → FlatMap) : State :=
  { s with cal := { s.cal with flats := s.cal.flats.modify t f } }

/-- The visit lock is in force while either bank is FILLING (R18). -/
def visitLock (s : State) : Bool := (s.bank 0).state == .filling || (s.bank 1).state == .filling

/-- The resolve lock is in force while a bank is RESOLVING (R121). -/
def resolveLock (s : State) : Bool := (s.bank 0).state == .resolving || (s.bank 1).state == .resolving

/-- A snap is open while the snap state is OPEN or DRAINING (R101). -/
def snapOpen (s : State) : Bool := s.visit.snap == .opened || s.visit.snap == .draining

end State

/-- The place of entry (u, v) in a flat map (R56). -/
def flatPlace (u v : Nat) : Nat := v * Config.flatSide + u

/-- The stored entry at (u, v). A place that is not listed reads as unity (log 10). -/
def FlatMap.entry (m : FlatMap) (u v : Nat) : Flat := (Store.lookup m.map (flatPlace u v)).getD Config.unityFlat

/-- Writes one entry, keeping the map's canonical form: unity is not listed. -/
def writeEntry (m : List (Nat × Flat)) (place : Nat) (f : Flat) : List (Nat × Flat) :=
  if f = Config.unityFlat then Store.erase m place else Store.insert m place f

/-- Writes a run of entries, from a place upward (R60). -/
def writeRun (m : List (Nat × Flat)) (place : Nat) : List Flat → List (Nat × Flat)
  | [] => m
  | f :: fs => writeRun (writeEntry m place f) (place + 1) fs

/-- A flat map is in canonical form: places rise strictly, and no entry is unity. -/
def flatWf (m : List (Nat × Flat)) : Bool := Store.rising m && m.all (fun e => e.2 != Config.unityFlat)

/-- The mask of four bits (SAT, DEF, CLIP, LOW from bit 0). -/
def maskOfBits (m : BitVec 4) : CellMask := ⟨m.getLsbD 0, m.getLsbD 1, m.getLsbD 2, m.getLsbD 3⟩

/-- What a place of the canvas memory holds since power-on while nothing has been written there: a free value (R67, R82;
log 9). -/
def powerOnCell (powerOns bank place : Nat) : Cell where
  epoch := Config.powerOnEpoch powerOns bank place
  mask := maskOfBits (Config.powerOnMask powerOns bank place)
  slots := .tabulate fun i => ⟨Config.powerOnFlux powerOns bank place i.val, Config.powerOnWeight powerOns bank place i.val⟩

namespace State

/-- The record stored at a place of a bank (R65, R67). -/
def cellAt (s : State) (b : BankId) (place : Nat) : Cell :=
  (Store.lookup (s.bank b).cells place).getD (powerOnCell s.canvas.powerOns b.val place)

/-- Writes the record at a place of a bank, in one access (R69). -/
def writeCell (s : State) (b : BankId) (place : Nat) (c : Cell) : State :=
  s.updBank b fun k => { k with cells := Store.insert k.cells place c }

/-- The place of cell (x, y) (R65). -/
def place (s : State) (x y : Nat) : Nat := y * s.canvas.width + x

/-- A position lies on the canvas when x is 0 to W − 1 and y is 0 to H − 1 (R89, R123). -/
def onCanvas (s : State) (x y : Int) : Bool := 0 ≤ x && x < s.canvas.width && 0 ≤ y && y < s.canvas.height

/-! ## Bank transitions -/

/-- The start of a scrub: epoch 0, scrub position 0, SCRUBBING. A canvas without cells leaves nothing to write, so the scrub
ends in the step that starts it (R78; log 12). -/
def startScrub (s : State) (b : BankId) : State :=
  s.updBank b fun k =>
    { k with state := if s.canvas.width * s.canvas.height = 0 then .free else .scrubbing, epoch := 0, scrubPos := 0 }

/-- A RETIRING bank with no hold left goes on: to FREE, or at epoch 255 to SCRUBBING (R75). -/
def leaveRetiring (s : State) (b : BankId) : State :=
  if (s.bank b).state = .retiring ∧ (s.bank b).depositHolds = 0 ∧ (s.bank b).readHold = false then
    if (s.bank b).epoch = 255#8 then s.startScrub b else s.updBank b fun k => { k with state := .free }
  else s

/-- A bank is sent to RETIRING, and leaves it at once when it has no hold (R74, R75). -/
def retire (s : State) (b : BankId) : State := (s.updBank b fun k => { k with state := .retiring }).leaveRetiring b

end State

/-! ## Memory -/

/-- The memories are in canonical form: every flat map, and the cells of both banks. -/
def Memory.wf (s : State) : Bool :=
  s.cal.flats.all (fun m => flatWf m.map) && s.canvas.banks.all (fun k => Store.rising k.cells)

end Sys2Proof.Machine
end

