-- ==== Sys2Proof/Machine/Lanes.lean ====
section
/-! DEFINITION. The return lanes: the status word, composing an RSP, and giving the lane to the next CRD or RSP (R161, R162,
R170, R171). -/

namespace Sys2Proof.Machine

namespace State

/-- Whether the order of R162 gives the idle lane to a CRD: no RSP has to go first, or none waits. -/
def crdNext (s : State) (p : PortId) : Bool := ((s.port p).owed == 0 || (s.port p).backlog.isEmpty) && 0 < s.ungranted p

/-- An idle return lane of a port that is UP gives itself to the next CRD or waiting RSP (R162). A CRD announces every
ungranted free buffer, and G rises by its count. -/
def serveLane (s : State) (p : PortId) : State :=
  if (s.port p).link = .up ∧ (s.port p).lane = none then
    if s.crdNext p then
      s.updPort p fun q => { q with lane := some (.crd (s.ungranted p)), granted := q.granted + s.ungranted p }
    else
      match (s.port p).backlog with
      | [] => s
      | r :: rest => s.updPort p fun q => { q with lane := some (.rsp r), backlog := rest, owed := q.owed - 1 }
  else s

/-- Serves the return lane of every ingress port, for a step that frees buffers on all of them (R162). -/
def serveAll (s : State) : State := allPorts.foldl serveLane s

/-- The status word that a port composes for a command echo and a result (R171). -/
def statusWord (s : State) (p : PortId) (code : Byte) (request : BitVec 16) (result : Result) : StatusWord where
  code := code
  request := request
  result := result
  flags := (s.port p).flags
  overrunSeen := s.status.overrunSeen
  linkDownSeen := s.status.linkDownSeen
  egressStall := s.status.egressStall
  bank0 := (s.bank 0).state
  epoch0 := (s.bank 0).epoch
  bank1 := (s.bank 1).state
  epoch1 := (s.bank 1).epoch
  visit := s.visit.state
  tag := s.visit.tag
  slot := s.visit.slot
  snap := s.visit.snap
  resolve := s.resolve.state
  passBank := s.resolve.passBank
  visitCounter := s.visit.counter
  resolveCounter := s.resolve.resolveCounter
  attention := s.status.attentionCode

/-- A port composes an RSP: it joins the response backlog with the port fault flags, which are cleared. While the link is DOWN
or the backlog is full it is discarded, RSP_LOST rises, and the flags wait (R161, R162, R163, R170). -/
def composeRsp (s : State) (p : PortId) (code : Byte) (request : BitVec 16) (result : Result) (data : List Byte) : State :=
  if (s.port p).link = .up ∧ (s.port p).backlog.length < Config.backlogFrames then
    s.updPort p fun q =>
      { q with backlog := q.backlog ++ [⟨s.statusWord p code request result, data⟩], flags := .clear }
  else s.updPort p fun q => { q with counters := { q.counters with rspLost := bump q.counters.rspLost } }

/-- A frame finishes on the return lane: the lane is idle, and after a CRD every RSP waiting at that moment goes before the
next CRD (R162). -/
def finishReturnFrame (s : State) (p : PortId) : State :=
  match (s.port p).lane with
  | none => s
  | some (.crd _) => (s.updPort p fun q => { q with lane := none, owed := q.backlog.length }).serveLane p
  | some (.rsp _) => (s.updPort p fun q => { q with lane := none }).serveLane p

end State

end Sys2Proof.Machine
end

