-- ==== Sys2Proof/Machine/Resolution.lean ====
section
/-! DEFINITION. Snap Resolution (spec 07): the class, value, weight and mask of one position. -/

namespace Sys2Proof.Machine

/-- A valid slot with its exact flux, its weight and its mean (R125, R126). -/
structure SlotValue where
  flux : Int
  weight : Nat
  mean : Int
  deriving DecidableEq, Repr

/-- A cell as read: a cell that is not current reads as empty (R68, R123). -/
def Cell.asRead (epoch : BitVec 8) (c : Cell) : Cell := if c.epoch = epoch then c else .empty epoch

/-- The used slots of a pass, 0 to snaps used − 1 (R116, R125). -/
def usedSlots (snapsUsed : Nat) : List SlotId := [0, 1, 2].filter fun i => i.val < snapsUsed

/-- The value of a slot: its mean is flux / weight, rounded (R126). -/
def slotValue (k : Slot) : SlotValue := ⟨k.flux.toInt, k.weight.toNat, roundDiv k.flux.toInt k.weight.toNat⟩

/-- The valid slots of a cell as read: used, with weight Wmin or more (R125). -/
def validSlots (p : Snapshot) (c : Cell) : List SlotValue :=
  ((usedSlots p.snapsUsed).filter fun i => p.wmin ≤ (c.slots.nth i).weight.toNat).map fun i => slotValue (c.slots.nth i)

/-- LOWCOV: some used slot has weight from 1 to Wmin − 1 (R125). -/
def lowCoverage (p : Snapshot) (c : Cell) : Bool :=
  (usedSlots p.snapsUsed).any fun i => 1 ≤ (c.slots.nth i).weight.toNat && (c.slots.nth i).weight.toNat < p.wmin

/-- The tolerance of two slots (R127). -/
def tolerance (p : Snapshot) (a b : SlotValue) : Int :=
  p.tAbs + floorDiv (p.tRel * max (a.mean.natAbs : Int) b.mean.natAbs) 256

/-- Two valid slots agree (R127). -/
def agree (p : Snapshot) (a b : SlotValue) : Bool := (a.mean - b.mean).natAbs ≤ tolerance p a b

/-- The combined value of slots: the exact sums divided and rounded once (R130). -/
def combined (l : List SlotValue) : Int := roundDiv (l.map (·.flux)).sum (l.map (·.weight)).sum

/-- The sum of the weights of slots (R129). -/
def totalWeight (l : List SlotValue) : Nat := (l.map (·.weight)).sum

/-- The slot with the lower mean (R131). -/
def lower (a b : SlotValue) : SlotValue := if a.mean ≤ b.mean then a else b

/-- The slot whose mean is the median of the three (R131). -/
def median (a b c : SlotValue) : SlotValue :=
  if (b.mean ≤ a.mean ∧ a.mean ≤ c.mean) ∨ (c.mean ≤ a.mean ∧ a.mean ≤ b.mean) then a
  else if (a.mean ≤ b.mean ∧ b.mean ≤ c.mean) ∨ (c.mean ≤ b.mean ∧ b.mean ≤ a.mean) then b
  else c

/-- The outcome of the comparison: class, value (none for the fill value), weight and REJ (R129). -/
structure Verdict where
  cls : PixelClass
  value : Option Int
  weight : Nat
  rej : Bool
  deriving DecidableEq, Repr

/-- A verdict that combines slots (R130). -/
def Verdict.combine (cls : PixelClass) (l : List SlotValue) (rej : Bool) : Verdict :=
  ⟨cls, some (combined l), totalWeight l, rej⟩

/-- A verdict that takes one slot (R129, R131). -/
def Verdict.choose (cls : PixelClass) (a : SlotValue) (rej : Bool) : Verdict := ⟨cls, some a.mean, a.weight, rej⟩

/-- The comparison of the valid slots (R128, R129). With three, a slot is confirmed when it agrees with another; two agreeing
pairs confirm all three. -/
def judge (p : Snapshot) : List SlotValue → Verdict
  | [] => ⟨.nodata, none, 0, false⟩
  | [a] => .choose .single a false
  | [a, b] => if agree p a b then .combine .pair [a, b] false else .choose .split (lower a b) true
  | a :: b :: c :: _ =>
    match agree p a b, agree p a c, agree p b c with
    | false, false, false => .choose .discord (median a b c) true
    | true, false, false => .combine .majority [a, b] true
    | false, true, false => .combine .majority [a, c] true
    | false, false, true => .combine .majority [b, c] true
    | _, _, _ => .combine .full [a, b, c] false

/-- THIN: an output weight from 1 to 255 (R132). -/
def thinWeight (w : Nat) : Bool := 1 ≤ w && w ≤ 255

/-- The output pixel of a position on the canvas, from the cell as read (R129, R133, R134). -/
def resolveCell (p : Snapshot) (fillValue : Int) (c : Cell) : OutPixel :=
  let v := judge p (validSlots p c)
  { cls := v.cls
    value := v.value.getD fillValue
    weight := v.weight
    mask := { cell := c.mask, rej := v.rej, lowcov := lowCoverage p c, thin := thinWeight v.weight } }

/-- The output pixel of a position off the canvas (R124). -/
def paddingPixel (fillValue : Int) : OutPixel :=
  { cls := .padding, value := fillValue, weight := 0, mask := ⟨.clear, false, false, false⟩ }

/-- The output pixel of position (x, y) in a bank (R123, R124). -/
def State.resolveAt (s : State) (p : Snapshot) (b : BankId) (fillValue : Int) (x y : Int) : OutPixel :=
  if s.onCanvas x y then
    resolveCell p fillValue ((s.cellAt b (s.place x.toNat y.toNat)).asRead (s.bank b).epoch)
  else paddingPixel fillValue

/-! ## Product windows (R139) -/

/-- The window of an entry is empty (R139). -/
def Product.emptyWindow (e : Product) : Bool := e.x1 < e.x0 || e.y1 < e.y0

/-- R, the number of rows of a window that is not empty (R139). -/
def Product.rowCount (e : Product) : Nat := (floorDiv (e.y1 - e.y0) e.stride).toNat + 1

/-- P, the number of pixels of each row (R139). -/
def Product.pixelCount (e : Product) : Nat := (floorDiv (e.x1 - e.x0) e.stride).toNat + 1

/-- The pixels of row `i` of an entry, in order of column (R139, R144). -/
def State.rowPixels (s : State) (p : Snapshot) (b : BankId) (e : Product) (i : Nat) : List OutPixel :=
  (List.range e.pixelCount).map fun (j : Nat) =>
    s.resolveAt p b e.fillValue (e.x0 + (j : Int) * e.stride) (e.y0 + (i : Int) * e.stride)

end Sys2Proof.Machine
end

