-- ==== Sys2Proof/Machine/Sequencer.lean ====
section
/-! DEFINITION. The resolve sequencer (spec 08): starting a pass, the walk over the product list, the rows on PX, completion,
restart and end. -/

namespace Sys2Proof.Machine

/-- Every product entry, in order of index (R144). -/
def allEntries : List (Fin 8) := [0, 1, 2, 3, 4, 5, 6, 7]

/-- The entries after index `i`. -/
def entriesAfter (i : Fin 8) : List (Fin 8) := allEntries.drop (i.val + 1)

namespace State

/-- Changes the Resolve Unit. -/
def updResolve (s : State) (f : Resolve → Resolve) : State := { s with resolve := f s.resolve }

/-- Changes one entry of the copy of the summary being built, if there is one. -/
def updEntry (s : State) (i : Fin 8) (f : EntryReport → EntryReport) : State :=
  s.updResolve fun r => { r with building := r.building.map fun b => { b with entries := b.entries.modify i f } }

/-- The bank visit record a pass takes. A bank that is CLOSED or RESOLVED has one (R116); log 19 says what stands for it in a
state no run reaches. -/
def passVisit (s : State) (b : BankId) : BankVisit := (s.visit.records.nth b).getD ⟨0, 0⟩

/-- The pass snapshot of a pass on a bank (R122). -/
def takeSnapshot (s : State) (b : BankId) : Snapshot :=
  { wmin := s.resolve.wmin
    tAbs := s.resolve.tAbs
    tRel := s.resolve.tRel
    tag := (s.passVisit b).tag
    snapsUsed := (s.passVisit b).snapsUsed }

/-- The summary of a new pass: no entry reached, every count 0 (R143). -/
def freshReport (s : State) (b : BankId) (pass : BitVec 16) : Report :=
  { bank := b
    tag := (s.passVisit b).tag
    snapsUsed := (s.passVisit b).snapsUsed
    pass := pass
    entries := .tabulate fun i =>
      ⟨.notReached, (s.resolve.products.nth i).id, (s.resolve.products.nth i).format, 0, 0, .fill 8 0⟩ }

/-! ## The bank of a pass (R73) -/

/-- The end of a pass for its bank: the read hold is cleared, and a RESOLVING bank moves by the release mode. A bank that
ENGINE_RESET has made RETIRING goes on from there (R73, R82). -/
def releaseBank (s : State) (b : BankId) : State :=
  let s1 := s.updBank b fun k => { k with readHold := false }
  if (s1.bank b).state = .resolving then
    match s.resolve.release with
    | .autoRelease => s1.retire b
    | .hold => s1.updBank b fun k => { k with state := .resolved }
  else s1.leaveRetiring b

/-! ## Ends of a pass -/

/-- A pass completes (R147), up to the start of the next one. -/
def completePass (s : State) : State :=
  let s1 := s.updResolve fun r =>
    { r with
      readable := r.building
      building := none
      resolveCounter := bump r.resolveCounter
      snapshot := none
      egressTimer := .stopped
      state := .idle }
  ({ s1 with status := { s1.status with passDone := true } }).releaseBank s.resolve.passBank

/-- A pass ends without completing (R150), up to the start of the next one. -/
def endPass (s : State) : State :=
  (s.updResolve fun r =>
    { r with building := none, snapshot := none, egressTimer := .stopped, state := .idle }).releaseBank s.resolve.passBank

/-! ## The walk (R144, R145) -/

/-- The PRD frame of the row at which the walk stands (R144). -/
def prdFrame (s : State) (p : Snapshot) : PrdFrame :=
  let e := s.resolve.products.nth s.resolve.entry
  { product := e.id
    tag := p.tag
    pass := s.resolve.passNumber
    row := s.resolve.row
    last := s.resolve.row + 1 == e.rowCount
    format := e.format
    pixels := s.rowPixels p s.resolve.passBank e s.resolve.row }

/-- The class counts with the pixels of a row added (R144). -/
def addCounts (counts : Tab 8 Nat) (pixels : List OutPixel) : Tab 8 Nat :=
  pixels.foldl (fun c px => c.modify px.cls.index (· + 1)) counts

/-- The sequencer takes one product credit and the row at which it stands goes into transmission (R145). Its pixels are
resolved here (log 14). -/
def beginRow (s : State) : State :=
  match s.resolve.snapshot with
  | none => s
  | some p =>
    let f := s.prdFrame p
    let s1 := s.updPx fun x => { x with credits := x.credits - 1, lane := some f }
    let s2 := s1.updResolve fun r => { r with egressTimer := .stopped }
    s2.updEntry s.resolve.entry fun e => { e with counts := addCounts e.counts f.pixels }

/-- The sequencer comes to stand at the row boundary before row `row` of entry `i`: it takes a credit, or begins to wait and
starts the egress timer unless the egress mark is set (R145, R146). -/
def standAt (s : State) (i : Fin 8) (row : Nat) : State :=
  let s1 := s.updResolve fun r => { r with entry := i, row := row }
  if 1 ≤ s1.px.credits then s1.beginRow
  else if s1.resolve.egressMark then s1
  else s1.updResolve fun r => { r with egressTimer := .running Config.egressStallMs }

/-- The walk from the first of the listed entries on: a disabled or empty entry is passed over, the first other one is begun,
and a walk that passes the last entry completes the pass (R144, R147). -/
def seek : List (Fin 8) → State → State
  | [], s => s.completePass
  | i :: rest, s =>
    let e := s.resolve.products.nth i
    if e.enabled = false then seek rest (s.updEntry i fun x => { x with status := .disabled })
    else if e.emptyWindow then seek rest (s.updEntry i fun x => { x with status := .empty })
    else s.standAt i 0

/-! ## Starts of a pass -/

/-- What a start and a restart set alike: the pass number, the snapshot, the copy being built, the egress mark and timer, the
state and the walk position (R143, R149). -/
def resetPass (s : State) (b : BankId) : State :=
  s.updResolve fun r =>
    { r with
      passNumber := bump r.passNumber
      snapshot := some (s.takeSnapshot b)
      building := some (s.freshReport b (bump r.passNumber))
      egressMark := false
      egressTimer := .stopped
      state := .running
      passBank := b
      entry := 0
      row := 0 }

/-- A pass starts on a bank and begins its walk (R143, R73). -/
def openPass (s : State) (b : BankId) : State :=
  let s1 := s.updBank b fun k => { k with state := .resolving, readHold := true }
  let s2 := s1.updResolve fun r => { r with waiting := r.waiting.filter (· != b) }
  seek allEntries (s2.resetPass b)

/-- The pass under way begins again from entry 0 (R149). -/
def restartPass (s : State) : State := seek allEntries (s.resetPass s.resolve.passBank)

/-- In AUTO, the idle sequencer starts a pass on the first waiting bank, and again while passes complete at once; `n` bounds
the passes, each of which takes a bank off the waiting list (R142). -/
def autoStartUpTo : Nat → State → State
  | 0, s => s
  | n + 1, s =>
    match s.resolve.trigger, s.resolve.state, s.resolve.waiting with
    | .auto, .idle, b :: _ => autoStartUpTo n (s.openPass b)
    | _, _, _ => s

/-- The automatic start of R142. -/
def autoStart (s : State) : State := autoStartUpTo s.resolve.waiting.length s

/-! ## Events of the product port -/

/-- The sequencer waits at a row boundary: a pass is RUNNING and no row is in transmission (R145). -/
def waitsForCredit (s : State) : Bool := s.resolve.state == .running && s.px.lane == none

/-- A waiting sequencer takes a credit in the step in which it arrives (R145, R165). -/
def resumeWalk (s : State) : State := if s.waitsForCredit ∧ 1 ≤ s.px.credits then s.beginRow else s

/-- The row in transmission has ended: it counts as emitted, and the sequencer moves on, restarts or ends (R145, R149, R150).
The forward lane is already idle. -/
def rowSent (s : State) (f : PrdFrame) : State :=
  match s.resolve.state with
  | .idle => s
  | .running =>
    let i := s.resolve.entry
    let s1 := s.updEntry i fun e => { e with rows := e.rows + 1, pixels := e.pixels + f.pixels.length }
    if f.last then (seek (entriesAfter i) (s1.updEntry i fun e => { e with status := .done })).autoStart
    else s1.standAt i (s.resolve.row + 1)
  | .restarting => s.restartPass.autoStart
  | .ending => s.endPass.autoStart

/-- A bank has become CLOSED: it joins the end of the waiting list, and in AUTO an idle sequencer starts a pass (R141, R142). -/
def joinWaiting (s : State) (b : BankId) : State :=
  (s.updResolve fun r => { r with waiting := r.waiting ++ [b] }).autoStart

end State

end Sys2Proof.Machine
end

