-- ==== Sys2Proof/Machine/Progress.lean ====
section
/-! DEFINITION. What a tile, a snap and a visit do by themselves when their conditions hold: tile states and flags (spec 02),
snap completion and the close of a visit (spec 06). -/

namespace Sys2Proof.Machine

namespace State

/-! ## Tiles -/

/-- Sets flags of a tile's record; a flag that passes from clear to set raises TILE (R30, R35). -/
def markTile (s : State) (t : TileId) (f : TileFlags → TileFlags) : State :=
  (s.updRecord t fun r => { r with flags := f r.flags }).raiseTile (decide (f (s.record t).flags ≠ (s.record t).flags))

/-- A move into a terminal state that is not COMPLETE raises TILE (R35). -/
def raisesTile : TileState → Bool
  | .short => true
  | .stalled => true
  | .absent => true
  | .quarantined => true
  | .complete => false
  | .off => false
  | .waiting => false
  | .receiving => false

/-- A tile moves into a terminal state: its stall timer stops, and TILE is raised by R35 (R33, R36). -/
def endTile (s : State) (t : TileId) (st : TileState) : State :=
  ((s.updRecord t fun r => { r with state := st }).setStall t .stopped).raiseTile (raisesTile st)

/-- The segments in use of a tile: those with ids 0 to segment count − 1 (R3). -/
def segsInUse (s : State) (t : TileId) : List SegId := [0, 1, 2, 3].filter fun g => g.val < (s.tile t).segCount

/-- A tile is received in full: every segment in use has e equal to its height (R34). -/
def receivedInFull (s : State) (t : TileId) : Bool := (s.segsInUse t).all fun g => s.nextRow t g == (s.seg t g).height

/-- A RECEIVING tile that is received in full has its stall timer stopped, and becomes COMPLETE when none of its rows is in
flight (R34, R36). -/
def settleTile (s : State) (t : TileId) : State :=
  if (s.record t).state = .receiving ∧ s.receivedInFull t = true then
    if s.inFlight t = 0 then s.endTile t .complete else s.setStall t .stopped
  else s

/-- Starts or restarts a tile's stall timer from the stall time; a stall time of 0 leaves it stopped (R36). -/
def restartStall (s : State) (t : TileId) : State :=
  s.setStall t (if s.intake.stallTime = 0 then .stopped else .running s.intake.stallTime)

/-! ## Snaps and visits -/

/-- The open visit closes: its bank becomes CLOSED, the bank visit record is completed, the visit counter rises, and the
Resolve Unit is told (R110, R72). -/
def closeVisit (s : State) : State :=
  let v := s.visit
  let s1 := s.updBank v.bank fun k => { k with state := .closed }
  let s2 := { s1 with
    visit := { v with
      state := .noVisit
      records := v.records.put v.bank (some ⟨v.tag, v.snapsDone⟩)
      counter := bump v.counter } }
  s2.joinWaiting v.bank

/-- The open snap becomes DONE; the last expected snap closes the visit (R109). -/
def finishSnap (s : State) : State :=
  let v := { s.visit with snap := .done, drain := .stopped, snapsDone := s.visit.snapsDone + 1 }
  let s1 := { s with visit := v, status := { s.status with snapDone := true } }
  if v.snapsDone = v.expected then s1.closeVisit else { s1 with visit := { v with state := .betweenSnaps } }

/-- The condition of R108: a snap is open, every tile is terminal, and no row of the snap is in flight. -/
def snapComplete (s : State) : Bool :=
  s.snapOpen && s.intake.records.all (fun r => r.state.terminal) && s.visit.inFlight == 0

/-- The Visit Controller judges the open snap (R108). -/
def judgeSnap (s : State) : State := if s.snapComplete then s.finishSnap else s

end State

end Sys2Proof.Machine
end

