-- ==== Sys2Proof/Machine/Pixels.lean ====
section
/-! DEFINITION. The data path of a row: bias (R45 to R48), placement and weights (R83 to R86), the start of a row (R43, R44,
R87), the calibration of a pixel (R49 to R55), its deposit (R89 to R93) and the end of the row (R88). -/

namespace Sys2Proof.Machine

/-! ## Placement (R5, R83 to R86) -/

/-- The placement offset of tile pixel (u, v) under an orientation (R5). -/
def placementOffset (orientation : Nat) (width height : Nat) (u v : Int) : Int × Int :=
  match orientation with
  | 0 => (u, v)
  | 1 => (width - 1 - u, v)
  | 2 => (u, height - 1 - v)
  | 3 => (width - 1 - u, height - 1 - v)
  | 4 => (v, u)
  | 5 => (height - 1 - v, u)
  | 6 => (v, width - 1 - u)
  | _ => (height - 1 - v, width - 1 - u)

/-- The placement record of a tile for a snap offset (R83, R84, R85). -/
def placeTile (r : TileRec) (sx sy : Int) : Placement :=
  let rx := ((r.fx + sx) - 16 * floorDiv (r.fx + sx) 16).toNat
  let ry := ((r.fy + sy) - 16 * floorDiv (r.fy + sy) 16).toNat
  { baseX := r.ox + floorDiv (r.fx + sx) 16
    baseY := r.oy + floorDiv (r.fy + sy) 16
    orientation := r.orientation
    width := r.width
    height := r.height
    rx := rx
    ry := ry
    w00 := (16 - rx) * (16 - ry)
    w10 := rx * (16 - ry)
    w01 := (16 - rx) * ry
    w11 := rx * ry }

/-- The coarse cell of tile pixel (u, v) (R86). -/
def Placement.coarse (q : Placement) (u v : Int) : Int × Int :=
  let d := placementOffset q.orientation q.width q.height u v
  (q.baseX + d.1, q.baseY + d.2)

/-- A target of a pixel: its position and weight (R86). -/
structure Target where
  x : Int
  y : Int
  weight : Nat
  deriving DecidableEq, Repr

/-- The four targets of tile pixel (u, v) (R86). -/
def Placement.targets (q : Placement) (u v : Int) : List Target :=
  let c := q.coarse u v
  [⟨c.1, c.2, q.w00⟩, ⟨c.1 + 1, c.2, q.w10⟩, ⟨c.1, c.2 + 1, q.w01⟩, ⟨c.1 + 1, c.2 + 1, q.w11⟩]

/-! ## The readout mapping (R8) -/

/-- The tile column of image sample `k` (R8). -/
def SegRec.column (r : SegRec) (k : Nat) : Nat := if r.colReversed then r.colOrigin + r.width - 1 - k else r.colOrigin + k

/-- The tile row of readout row `i` (R8). -/
def SegRec.tileRow (r : SegRec) (i : Nat) : Nat := if r.rowReversed then r.rowOrigin + r.height - 1 - i else r.rowOrigin + i

/-! ## Bias (R45, R46) -/

/-- The usable overscan samples of a row: those with j from the overscan skip to the overscan count − 1 (R45). -/
def usableOverscan (r : SegRec) (samples : List Sample) : List Sample :=
  ((samples.drop r.width).take r.overscan).drop r.skip

/-- The row bias in sixteenths of an ADU, or none when the row has no usable overscan (R45). -/
def rowBias (r : SegRec) (samples : List Sample) : Option Int :=
  if r.skip < r.overscan then
    some (roundDiv (16 * ((usableOverscan r samples).map fun a => (a.toNat : Int)).sum) ((r.overscan - r.skip : Nat) : Int))
  else none

/-- The running bias estimate after a row, and the bias used for the row's pixels (R46). -/
def settleBias (r : SegRec) (estimate row : Option Int) : Option Int × Int :=
  match estimate, row with
  | none, some b => (some b, b)
  | some e, some b => (some (e + floorDiv (b - e) (2 ^ r.shift : Nat)), e + floorDiv (b - e) (2 ^ r.shift : Nat))
  | some e, none => (some e, e)
  | none, none => (none, r.defaultBias)

/-! ## The start of a row (R43, R44, R87) -/

/-- The image samples of a row in order, each with the flat entry of its tile pixel (R43, R44). -/
def rowPlan (m : FlatMap) (r : SegRec) (row : Nat) (samples : List Sample) : List (Sample × Flat) :=
  (samples.take r.width).zipIdx.map fun e => (e.1, m.entry (r.column e.2) (r.tileRow row))

namespace State

/-- The lane of a row as its start leaves it: the copies of R44 and the context of R87. -/
def startedLane (s : State) (w : TakenRow) (q : Placement) (bias : Int) : Lane where
  tile := w.tile
  row := w.row
  seg := s.seg w.tile w.seg
  flatState := (s.flat w.tile).state
  bias := bias
  next := 0
  todo := rowPlan (s.flat w.tile) (s.seg w.tile w.seg) w.row w.samples
  context := { placement := q, slot := w.slot, bank := s.visit.bank, counting := true }

/-- A lane starts a row whose tile has a placement record: the bias is settled in one step on the segment's estimate, the
context is bound, and the bank gets a deposit hold (R43 to R48, R75, R87). -/
def startRow (s : State) (p : PortId) (w : TakenRow) (rest : List TakenRow) (q : Placement) : State :=
  let i := segIndex w.tile w.seg
  let b := settleBias (s.seg w.tile w.seg) (s.cal.bias.nth i) (rowBias (s.seg w.tile w.seg) w.samples)
  let s1 := s.updPort p fun k => { k with taken := rest }
  let s2 := s1.setLane p (some (s.startedLane w q b.2))
  let s3 := { s2 with cal := { s2.cal with bias := s2.cal.bias.put i b.1 } }
  s3.updBank s.visit.bank fun k => { k with depositHolds := k.depositHolds + 1 }

end State

/-! ## A calibrated pixel (R49 to R55) -/

/-- A calibrated pixel: a condition without a value, or a value with its flags (R55). -/
inductive PixelKind where
  | sat
  | defect
  | value (c : Int) (clip low : Bool)
  deriving DecidableEq, Repr

/-- The flat value of a pixel: unity when the flat state was UNLOADED at the row's start, else the entry copied then (R50). -/
def flatValue (st : FlatState) (f : Flat) : Flat := if st = .unloaded then Config.unityFlat else f

/-- The calibrated value before clamping: round(d16 × G × F / 2^26), with d16 = 16 × a − b16 (R51, R52). -/
def calibrated (a : Sample) (bias : Int) (gain : Nat) (f : Flat) : Int :=
  roundDiv ((16 * (a.toNat : Int) - bias) * gain * f.toNat) (2 ^ 26)

/-- The lowest calibrated value (R53). -/
def calMin : Int := -134217728

/-- The highest calibrated value (R53). -/
def calMax : Int := 134217727

/-- The clamp of R53. -/
def clamp (c : Int) : Int := if c < calMin then calMin else if calMax < c then calMax else c

/-- A pixel of a started row (R49 to R54). -/
def Lane.pixel (l : Lane) (a : Sample) (entry : Flat) : PixelKind :=
  let f := flatValue l.flatState entry
  if l.seg.satThreshold ≤ a.toNat then .sat
  else if f = 0#16 then .defect
  else
    let c := calibrated a l.bias l.seg.gain f
    .value (clamp c) (decide (clamp c ≠ c)) (decide (clamp c < l.seg.lowThreshold))

/-! ## Deposit (R89 to R93) -/

/-- The slot of a cell with c × w added to its flux and w to its weight (R91). -/
def Slot.add (k : Slot) (c : Int) (w : Nat) : Slot :=
  ⟨BitVec.ofInt 48 (k.flux.toInt + c * w), k.weight + BitVec.ofNat 16 w⟩

/-- One deposit access to a cell: the epoch step, then the pixel's flux, weight and conditions (R91, R92). -/
def depositInto (epoch : BitVec 8) (slot : SlotId) (kind : PixelKind) (w : Nat) (c : Cell) : Cell :=
  let c0 := c.asRead epoch
  match kind with
  | .sat => { c0 with mask := { c0.mask with sat := true } }
  | .defect => { c0 with mask := { c0.mask with defect := true } }
  | .value v clip low =>
    { c0 with
      slots := c0.slots.modify slot fun k => k.add v w
      mask := { c0.mask with clip := c0.mask.clip || clip, low := c0.mask.low || low } }

namespace State

/-- One target of a pixel: not touched at weight 0, else its cell is updated, or off the canvas its weight is counted as
spill while the counting mark is set (R89, R90). -/
def depositTarget (x : Context) (t : TileId) (kind : PixelKind) (s : State) (g : Target) : State :=
  if g.weight = 0 then s
  else if s.onCanvas g.x g.y then
    let a := s.place g.x.toNat g.y.toNat
    s.writeCell x.bank a (depositInto (s.bank x.bank).epoch x.slot kind g.weight (s.cellAt x.bank a))
  else if x.counting then s.updRecord t fun r => { r with spilled := r.spilled + g.weight }
  else s

/-- The pixel counts of the tile's record, while the counting mark is set (R31, R49, R50, R53). -/
def countPixel (s : State) (x : Context) (t : TileId) (kind : PixelKind) : State :=
  if x.counting then
    s.updRecord t fun r =>
      match kind with
      | .sat => { r with satPixels := r.satPixels + 1 }
      | .defect => { r with defPixels := r.defPixels + 1 }
      | .value _ clip _ => { r with clipPixels := r.clipPixels + if clip then 1 else 0 }
  else s

/-- One pixel of a started row is calibrated, counted and deposited (R49 to R55, R89 to R93). -/
def depositPixel (s : State) (l : Lane) (a : Sample) (entry : Flat) : State :=
  let kind := l.pixel a entry
  let targets := l.context.placement.targets (l.seg.column l.next) (l.seg.tileRow l.row)
  targets.foldl (depositTarget l.context l.tile kind) (s.countPixel l.context l.tile kind)

/-- A row still counted leaves its tile's and the snap's rows in flight, and the tile and the snap are judged (R28, R34,
R107, R108). -/
def uncountRow (s : State) (t : TileId) : State :=
  let s1 := s.setInFlight t (s.inFlight t - 1)
  (({ s1 with visit := { s1.visit with inFlight := s1.visit.inFlight - 1 } }).settleTile t).judgeSnap

/-- The end of a row: the lane is idle and its buffer free, the bank's deposit hold is removed, the counts of rows in flight
fall if the row is still counted, and the port announces the buffer (R28, R75, R88, R162). -/
def endRow (s : State) (p : PortId) (l : Lane) : State :=
  let s1 := s.setLane p none
  let s2 := (s1.updBank l.context.bank fun k => { k with depositHolds := k.depositHolds - 1 }).leaveRetiring l.context.bank
  (if l.context.counting then s2.uncountRow l.tile else s2).serveLane p

/-- The next image sample of a busy lane is handled; after the last one the row ends (R43, R88, R91). -/
def nextPixel (s : State) (p : PortId) (l : Lane) : State :=
  match l.todo with
  | [] => s.endRow p l
  | (a, f) :: rest =>
    let s1 := s.depositPixel l a f
    let l1 := { l with todo := rest, next := l.next + 1 }
    if rest.isEmpty then s1.endRow p l1 else s1.setLane p (some l1)

end State

end Sys2Proof.Machine
end

