-- ==== Sys2Proof/Machine/DataPath.lean ====
section
/-! DEFINITION. The steps of the data path and of the timers: STALL_TIMER_EXPIRY, DRAIN_TIMER_EXPIRY, EGRESS_TIMER_EXPIRY,
ROW_START and PIXEL_DEPOSIT (R37, R38, R43, R91, R112, R146). The model has no clock: an expiry is a step of its own (log 3). -/

namespace Sys2Proof.Machine

/-! ## Timers -/

namespace State

/-- A running stall timer expires: a RECEIVING tile becomes STALLED (R37). -/
def stallTile (s : State) (t : TileId) : State :=
  if (s.record t).state = .receiving then (s.endTile t .stalled).judgeSnap else s.setStall t .stopped

/-- Drain expiry cuts a tile that has not ended its snap (R38). -/
def cutTile (s : State) (t : TileId) : State :=
  match (s.record t).state with
  | .waiting => s.endTile t .absent
  | .receiving => if s.receivedInFull t then s else s.endTile t .short
  | .complete => s
  | .short => s
  | .stalled => s
  | .absent => s
  | .quarantined => s
  | .off => s

/-- The drain timer is stopped (R112). -/
def stopDrain (s : State) : State := { s with visit := { s.visit with drain := .stopped } }

/-- The drain timer expires (R38, R112). -/
def drainExpires (s : State) : State :=
  if s.visit.snap = .draining then ((List.finRange 16).foldl cutTile s.stopDrain).judgeSnap else s.stopDrain

/-- The egress timer expires: while the sequencer still waits, the egress mark is set and EGRESS_STALL is latched (R146). -/
def egressExpires (s : State) : State :=
  let s1 := s.updResolve fun r => { r with egressTimer := .stopped }
  if s.waitsForCredit then
    { (s1.updResolve fun r => { r with egressMark := true }) with status := { s1.status with egressStall := true } }
  else s1

end State

/-! ## The steps -/

/-- STALL_TIMER_EXPIRY (R37) -/
def execStallTimerExpiry (t : TileId) (s : State) : Host.Outcome State Fault Refusal :=
  match s.stallTimer t with
  | .stopped => .next s
  | .running _ => .next (s.stallTile t)

/-- DRAIN_TIMER_EXPIRY (R38, R112) -/
def execDrainTimerExpiry (s : State) : Host.Outcome State Fault Refusal :=
  match s.visit.drain with
  | .stopped => .next s
  | .running _ => .next s.drainExpires

/-- EGRESS_TIMER_EXPIRY (R146) -/
def execEgressTimerExpiry (s : State) : Host.Outcome State Fault Refusal :=
  match s.resolve.egressTimer with
  | .stopped => .next s
  | .running _ => .next s.egressExpires

/-- ROW_START: an idle lane starts the next taken row of its port, whose tile has a placement record (R43, R87; log 23). -/
def execRowStart (p : PortId) (s : State) : Host.Outcome State Fault Refusal :=
  match s.lane p, (s.port p).taken with
  | none, w :: rest =>
    match s.placements.nth w.tile with
    | some q => .next (s.startRow p w rest q)
    | none => .next s
  | none, [] => .next s
  | some _, _ => .next s

/-- PIXEL_DEPOSIT: a busy lane handles its next image sample (R49 to R55, R89 to R93). -/
def execPixelDeposit (p : PortId) (s : State) : Host.Outcome State Fault Refusal :=
  match s.lane p with
  | none => .next s
  | some l => .next (s.nextPixel p l)

end Sys2Proof.Machine
end

