-- ==== Sys2Proof/Machine/Operands.lean ====
section
/-! DEFINITION. The commands' fields: the command codes and payload lengths (R168, R185), the fields of each payload, and the
range tests of the owners (R3, R7, R41, R66, R121, R137). -/

namespace Sys2Proof.Machine

/-! ## Command codes and lengths (R185) -/

namespace Code

/-- 00h -/
def nop : Byte := 0x00#8
/-- 01h -/
def statusRead : Byte := 0x01#8
/-- 02h -/
def tableRead : Byte := 0x02#8
/-- 03h -/
def faultClear : Byte := 0x03#8
/-- 04h -/
def engineReset : Byte := 0x04#8
/-- 10h -/
def intakeSet : Byte := 0x10#8
/-- 20h -/
def tileSet : Byte := 0x20#8
/-- 21h -/
def tileQuarantine : Byte := 0x21#8
/-- 22h -/
def tileRestore : Byte := 0x22#8
/-- 23h -/
def segmentSet : Byte := 0x23#8
/-- 30h -/
def flatClear : Byte := 0x30#8
/-- 31h -/
def flatWrite : Byte := 0x31#8
/-- 32h -/
def flatRead : Byte := 0x32#8
/-- 40h -/
def canvasSet : Byte := 0x40#8
/-- 41h -/
def cellPeek : Byte := 0x41#8
/-- 50h -/
def visitOpen : Byte := 0x50#8
/-- 51h -/
def snapOpen : Byte := 0x51#8
/-- 52h -/
def snapClose : Byte := 0x52#8
/-- 53h -/
def visitClose : Byte := 0x53#8
/-- 54h -/
def visitAbort : Byte := 0x54#8
/-- 60h -/
def resolveSet : Byte := 0x60#8
/-- 61h -/
def productSet : Byte := 0x61#8
/-- 62h -/
def resolveStart : Byte := 0x62#8
/-- 63h -/
def resolveAbort : Byte := 0x63#8
/-- 64h -/
def bankRelease : Byte := 0x64#8

end Code

/-- The commands with fields of a fixed length, and that length in bytes (R185). FLAT_WRITE is not among them. -/
def fixedLengths : List (Byte × Nat) :=
  [(Code.nop, 0), (Code.statusRead, 1), (Code.tableRead, 2), (Code.faultClear, 0), (Code.engineReset, 0),
   (Code.intakeSet, 4), (Code.tileSet, 14), (Code.tileQuarantine, 1), (Code.tileRestore, 1), (Code.segmentSet, 27),
   (Code.flatClear, 1), (Code.flatRead, 7), (Code.canvasSet, 4), (Code.cellPeek, 5), (Code.visitOpen, 2), (Code.snapOpen, 4),
   (Code.snapClose, 0), (Code.visitClose, 0), (Code.visitAbort, 1), (Code.resolveSet, 8), (Code.productSet, 17),
   (Code.resolveStart, 1), (Code.resolveAbort, 0), (Code.bankRelease, 1)]

/-- A command code names a command of the engine (R168, R185). -/
def namesCommand (code : Byte) : Bool := code == Code.flatWrite || fixedLengths.any fun e => e.1 == code

/-- The payload is exactly as long as the command's fields: for FLAT_WRITE, 7 bytes and two for each entry its count declares
(R168, R185). -/
def lengthFits (code : Byte) (payload : List Byte) : Bool :=
  if code = Code.flatWrite then 7 ≤ payload.length && payload.length == 7 + 2 * field payload 5 2
  else fixedLengths.any fun e => e.1 == code && e.2 == payload.length

/-! ## Ids -/

/-- The tile that an id names (R3). -/
def tileOf (n : Nat) : Option TileId := if h : n < 16 then some ⟨n, h⟩ else none

/-- The segment that a segment id names (R7). -/
def segOf (n : Nat) : Option SegId := if h : n < 4 then some ⟨n, h⟩ else none

/-- The bank that a number names. -/
def bankOf (n : Nat) : Option BankId := if h : n < 2 then some ⟨n, h⟩ else none

/-- The product entry that an index names (R137). -/
def entryOf (n : Nat) : Option (Fin 8) := if h : n < 8 then some ⟨n, h⟩ else none

/-! ## Records carried by commands -/

/-- The tile record that a TILE_SET payload carries, with a given quarantine state, if every field is in range (R3, R10,
R185). -/
def tileFields (b : List Byte) (quarantined : Bool) : Option TileRec :=
  match yesNoOf (field b 1 1) with
  | none => none
  | some enabled =>
    let r : TileRec :=
      { enabled := enabled
        width := field b 2 2
        height := field b 4 2
        segCount := field b 6 1
        ox := signedField b 7 2
        oy := signedField b 9 2
        fx := field b 11 1
        fy := field b 12 1
        orientation := field b 13 1
        quarantined := quarantined }
    if 1 ≤ r.width ∧ r.width ≤ 4096 ∧ 1 ≤ r.height ∧ r.height ≤ 4096 ∧ 1 ≤ r.segCount ∧ r.segCount ≤ 4
        ∧ -16384 ≤ r.ox ∧ r.ox ≤ 32767 ∧ -16384 ≤ r.oy ∧ r.oy ≤ 32767 ∧ r.fx ≤ 15 ∧ r.fy ≤ 15 ∧ r.orientation ≤ 7 then
      some r
    else none

/-- The segment record that a SEGMENT_SET payload carries, if every field is in range (R7, R12, R185). -/
def segFields (b : List Byte) : Option SegRec :=
  match yesNoOf (field b 10 1), yesNoOf (field b 11 1) with
  | some colReversed, some rowReversed =>
    let r : SegRec :=
      { colOrigin := field b 2 2
        rowOrigin := field b 4 2
        width := field b 6 2
        height := field b 8 2
        colReversed := colReversed
        rowReversed := rowReversed
        overscan := field b 12 1
        skip := field b 13 1
        shift := field b 14 1
        defaultBias := field b 15 3
        gain := field b 18 2
        satThreshold := field b 20 3
        lowThreshold := signedField b 23 4 }
    if r.colOrigin ≤ 4095 ∧ r.rowOrigin ≤ 4095 ∧ 1 ≤ r.width ∧ r.width ≤ 4096 ∧ 1 ≤ r.height ∧ r.height ≤ 4096
        ∧ r.overscan ≤ 64 ∧ r.skip ≤ 15 ∧ r.shift ≤ 7 ∧ r.defaultBias ≤ 4194303 ∧ 1 ≤ r.gain ∧ r.gain ≤ 65535
        ∧ 1 ≤ r.satThreshold ∧ r.satThreshold ≤ 262143 ∧ -134217728 ≤ r.lowThreshold ∧ r.lowThreshold ≤ 134217727 then
      some r
    else none
  | _, _ => none

/-- The product entry that a PRODUCT_SET payload carries, if every field is in range (R137, R138, R185). -/
def productFields (b : List Byte) : Option Product :=
  match yesNoOf (field b 1 1), PixelFormat.ofCode (field b 12 1) with
  | some enabled, some format =>
    let e : Product :=
      { enabled := enabled
        id := BitVec.ofNat 8 (field b 2 1)
        x0 := signedField b 3 2
        y0 := signedField b 5 2
        x1 := signedField b 7 2
        y1 := signedField b 9 2
        stride := field b 11 1
        format := format
        fillValue := signedField b 13 4 }
    if (e.stride = 1 ∨ e.stride = 2 ∨ e.stride = 4 ∨ e.stride = 8)
        ∧ -16384 ≤ e.x0 ∧ e.x0 ≤ 32767 ∧ -16384 ≤ e.y0 ∧ e.y0 ≤ 32767
        ∧ -16384 ≤ e.x1 ∧ e.x1 ≤ 32767 ∧ -16384 ≤ e.y1 ∧ e.y1 ≤ 32767 then
      some e
    else none
  | _, _ => none

/-- The fields of RESOLVE_SET (R121, R140, R185). -/
structure ResolveFields where
  wmin : Nat
  tAbs : Nat
  tRel : Nat
  trigger : TriggerMode
  release : ReleaseMode
  deriving DecidableEq, Repr

/-- The fields that a RESOLVE_SET payload carries, if every one is in range (R121). -/
def resolveFields (b : List Byte) : Option ResolveFields :=
  match TriggerMode.ofCode (field b 6 1), ReleaseMode.ofCode (field b 7 1) with
  | some trigger, some release =>
    let r : ResolveFields := ⟨field b 0 2, field b 2 3, field b 5 1, trigger, release⟩
    if 1 ≤ r.wmin ∧ r.wmin ≤ 4096 ∧ r.tAbs ≤ 1048575 ∧ r.tRel ≤ 255 then some r else none
  | _, _ => none

/-- The entries of a FLAT_WRITE payload, in order of column (R60, R185). -/
def flatEntries (b : List Byte) : List Flat :=
  (List.range (field b 5 2)).map fun i => BitVec.ofNat 16 (field b (7 + 2 * i) 2)

/-! ## Layout consistency (R4, R11, R13) -/

/-- A segment lies inside a tile of the given size (R4). -/
def SegRec.fits (r : SegRec) (width height : Nat) : Bool :=
  1 ≤ r.width && 1 ≤ r.height && r.colOrigin + r.width ≤ width && r.rowOrigin + r.height ≤ height

/-- Two segments share a tile pixel: their column spans overlap and their row spans overlap (R4). -/
def SegRec.overlaps (a b : SegRec) : Bool :=
  a.colOrigin < b.colOrigin + b.width && b.colOrigin < a.colOrigin + a.width
    && a.rowOrigin < b.rowOrigin + b.height && b.rowOrigin < a.rowOrigin + a.height

/-- No two of the segments share a tile pixel. -/
def disjointSegs : List SegRec → Bool
  | [] => true
  | r :: rs => rs.all (fun q => !r.overlaps q) && disjointSegs rs

/-- The segment layout of a tile is consistent, for its size and the records of its segments in use (R4). -/
def consistentLayout (width height : Nat) (segs : List SegRec) : Bool :=
  segs.all (fun r => r.fits width height) && disjointSegs segs

end Sys2Proof.Machine
end

