-- ==== Sys2Proof/Machine/Control.lean ====
section
/-! DEFINITION. The control queue and the response (R167 to R171): the frame at the head of a port's queue is executed, its RSP
is composed, and it leaves the queue. -/

namespace Sys2Proof.Machine

/-- What the owner of a command leaves: the state, the result, and the data part of an OK (R168 to R170). -/
structure Answer where
  state : State
  result : Result
  data : List Byte

/-- The command is taken, with a data part. -/
def Answer.okWith (s : State) (data : List Byte) : Answer := ⟨s, .ok, data⟩

/-- The command is taken, without a data part. -/
def Answer.ok (s : State) : Answer := ⟨s, .ok, []⟩

/-- The command is refused and changes nothing (R169). -/
def Answer.refuse (s : State) (r : Result) : Answer := ⟨s, r, []⟩

namespace State

/-- The frame at the head of a port's control queue, if it carries the given command code (log 1). -/
def headFrame (s : State) (p : PortId) (code : Byte) : Option CtlFrame :=
  match (s.port p).queue with
  | [] => none
  | f :: _ => if f.code = code then some f else none

/-- The end of a command's execution: its RSP is composed, its frame leaves the queue, and the return lane is served (R170,
R162). -/
def respond (s : State) (p : PortId) (f : CtlFrame) (result : Result) (data : List Byte) : State :=
  ((s.composeRsp p f.code f.request result data).updPort p fun q => { q with queue := q.queue.tail }).serveLane p

/-- The frame at the head of a port's queue is executed: the length check, then its owner (R168). -/
def carryOut (s : State) (p : PortId) (f : CtlFrame) (owner : List Byte → State → Answer) : State :=
  if lengthFits f.code f.payload then
    (owner f.payload s).state.respond p f (owner f.payload s).result (owner f.payload s).data
  else s.respond p f .malformed []

end State

/-- The step of a command on a port: the frame at the head of the port's queue is executed when it carries the command; the
step does not happen otherwise (R168; log 1, log 2). -/
def command (code : Byte) (owner : List Byte → State → Answer) (p : PortId) (s : State) :
    Host.Outcome State Fault Refusal :=
  match s.headFrame p code with
  | none => .next s
  | some f => .next (s.carryOut p f owner)

end Sys2Proof.Machine
end

