-- ==== Sys2Proof/Machine/Layouts.lean ====
section
/-! DEFINITION. The byte layouts the link partners see: the status word, the data parts, and whole frames as they go on the
lanes (spec 11, R182 to R186). -/

namespace Sys2Proof.Machine

/-- The 21 bytes of the status word (R186). -/
def StatusWord.bytes (w : StatusWord) : List Byte :=
  [w.code] ++ beBytes 2 w.request.toNat ++ [w.result.code, w.flags.byte]
    ++ [latchedByte w.overrunSeen w.linkDownSeen w.egressStall]
    ++ [w.bank0.code, w.epoch0, w.bank1.code, w.epoch1, w.visit.code, w.tag, BitVec.ofNat 8 w.slot.val, w.snap.code]
    ++ [w.resolve.code, BitVec.ofNat 8 w.passBank.val] ++ beBytes 2 w.visitCounter.toNat ++ beBytes 2 w.resolveCounter.toNat
    ++ beBytes 1 w.attention

/-! ## Sections of STATUS_READ (R177, R186) -/

/-- The bank visit record: the mark "empty", then the tag and the snaps used, 0 when empty (R186). -/
def bankVisitBytes : Option BankVisit → List Byte
  | none => [1#8, 0#8, 0#8]
  | some r => [0#8, r.tag] ++ beBytes 1 r.snapsUsed

/-- A timer as a yes-or-no byte: yes for running (R186). -/
def Timer.byte : Timer → Byte
  | .stopped => 0#8
  | .running _ => 1#8

namespace State

/-- What section ENGINE holds of one bank (R177). -/
def bankBytes (s : State) (b : BankId) : List Byte :=
  [(s.bank b).state.code, (s.bank b).epoch] ++ beBytes 4 (s.bank b).scrubPos ++ beBytes 1 (s.bank b).depositHolds
    ++ [yesNo (s.bank b).readHold] ++ bankVisitBytes (s.visit.records.nth b)

/-- Section ENGINE (R177, R186). -/
def engineBytes (s : State) : List Byte :=
  [s.visit.state.code, s.visit.tag] ++ beBytes 1 s.visit.expected ++ beBytes 1 s.visit.snapsDone
    ++ [BitVec.ofNat 8 s.visit.slot.val, s.visit.snap.code] ++ beInt 2 s.visit.sx ++ beInt 2 s.visit.sy
    ++ beBytes 1 s.visit.inFlight ++ [s.visit.drain.byte] ++ s.bankBytes 0 ++ s.bankBytes 1
    ++ [s.resolve.state.code, BitVec.ofNat 8 s.resolve.passBank.val] ++ beBytes 2 s.resolve.passNumber.toNat
    ++ beBytes 1 s.resolve.waiting.length ++ s.resolve.waiting.map (fun b => BitVec.ofNat 8 b.val)
    ++ [latchedByte s.status.overrunSeen s.status.linkDownSeen s.status.egressStall, s.status.conditionsByte]

/-- What section TILES holds of one tile: its record, its rows in flight, its quarantine state and its flat state (R177). -/
def tileBytes (s : State) (t : TileId) : List Byte :=
  let r := s.record t
  [r.state.code] ++ r.taken.toList.flatMap (beBytes 2) ++ r.missing.toList.flatMap (beBytes 2) ++ [r.flags.byte]
    ++ beBytes 4 r.satPixels ++ beBytes 4 r.defPixels ++ beBytes 4 r.clipPixels ++ beBytes 5 r.spilled
    ++ beBytes 1 (s.inFlight t) ++ [yesNo (s.tile t).quarantined, (s.flat t).state.code]

/-- Section TILES (R177). -/
def tilesBytes (s : State) : List Byte := (List.finRange 16).flatMap s.tileBytes

/-- The nine counters of an ingress port (R161). -/
def counterBytes (c : PortCounters) : List Byte :=
  [c.rowIn, c.ctlIn, c.unexpected, c.stale, c.afterEnd, c.lineDiscard, c.overrunDrop, c.ctlDrop, c.rspLost].flatMap
    fun x => beBytes 4 x.toNat

/-- What section PORTS holds of one ingress port (R177). -/
def portBytes (s : State) (p : PortId) : List Byte :=
  [(s.port p).link.code] ++ beBytes 1 (s.occupied p) ++ beBytes 1 (s.port p).granted ++ beBytes 1 (s.port p).queue.length
    ++ counterBytes (s.port p).counters

/-- Section PORTS (R177). -/
def portsBytes (s : State) : List Byte :=
  allPorts.flatMap s.portBytes ++ [s.px.link.code] ++ beBytes 2 s.px.credits
    ++ [s.px.counters.prdSent, s.px.counters.prdCut, s.px.counters.crdIn, s.px.counters.lineDiscard].flatMap
      (fun x => beBytes 4 x.toNat)

end State

/-- What section SUMMARY holds of one entry (R152; log 18). -/
def EntryReport.bytes (e : EntryReport) : List Byte :=
  [e.status.code, e.product] ++ beBytes 1 e.format.code ++ beBytes 2 e.rows ++ beBytes 4 e.pixels
    ++ e.counts.toList.flatMap (beBytes 4)

/-- The fields of a report: 5 bytes, and 41 for each entry (R152; log 18). -/
def Report.bytes (r : Report) : List Byte :=
  [BitVec.ofNat 8 r.bank.val, r.tag] ++ beBytes 1 r.snapsUsed ++ beBytes 2 r.pass.toNat
    ++ r.entries.toList.flatMap EntryReport.bytes

/-- Section SUMMARY: the mark "none", then the report, sent as 0 when there is none (R177, R186). -/
def summaryBytes : Option Report → List Byte
  | none => 1#8 :: List.replicate 333 0#8
  | some r => 0#8 :: r.bytes

/-! ## Records of TABLE_READ (R178, R186) -/

/-- A tile record, as TILE_SET without its tile id, followed by the quarantine state (R186). -/
def TileRec.bytes (r : TileRec) : List Byte :=
  [yesNo r.enabled] ++ beBytes 2 r.width ++ beBytes 2 r.height ++ beBytes 1 r.segCount ++ beInt 2 r.ox ++ beInt 2 r.oy
    ++ beBytes 1 r.fx ++ beBytes 1 r.fy ++ beBytes 1 r.orientation ++ [yesNo r.quarantined]

/-- A segment record, as SEGMENT_SET without its ids (R186). -/
def SegRec.bytes (r : SegRec) : List Byte :=
  beBytes 2 r.colOrigin ++ beBytes 2 r.rowOrigin ++ beBytes 2 r.width ++ beBytes 2 r.height
    ++ [yesNo r.colReversed, yesNo r.rowReversed] ++ beBytes 1 r.overscan ++ beBytes 1 r.skip ++ beBytes 1 r.shift
    ++ beBytes 3 r.defaultBias ++ beBytes 2 r.gain ++ beBytes 3 r.satThreshold ++ beInt 4 r.lowThreshold

/-- A product entry, as PRODUCT_SET without its index (R186). -/
def Product.bytes (e : Product) : List Byte :=
  [yesNo e.enabled, e.id] ++ beInt 2 e.x0 ++ beInt 2 e.y0 ++ beInt 2 e.x1 ++ beInt 2 e.y1 ++ beBytes 1 e.stride
    ++ beBytes 1 e.format.code ++ beInt 4 e.fillValue

namespace State

/-- The intake settings, as INTAKE_SET (R186). -/
def intakeBytes (s : State) : List Byte := beBytes 2 s.intake.stallTime ++ beBytes 2 s.intake.drainTime

/-- The resolve parameters and modes, as RESOLVE_SET (R186). -/
def resolveBytes (s : State) : List Byte :=
  beBytes 2 s.resolve.wmin ++ beBytes 3 s.resolve.tAbs ++ beBytes 1 s.resolve.tRel ++ beBytes 1 s.resolve.trigger.code
    ++ beBytes 1 s.resolve.release.code

/-- The canvas geometry, as CANVAS_SET (R186). -/
def canvasBytes (s : State) : List Byte := beBytes 2 s.canvas.width ++ beBytes 2 s.canvas.height

/-- The record that TABLE_READ names by table code and index, or none when they name none (R178). -/
def tableRecord (s : State) (table index : Nat) : Option (List Byte) :=
  match table with
  | 0 => if h : index < 16 then some (s.tile ⟨index, h⟩).bytes else none
  | 1 => if h : index < 64 then some (s.segs.nth ⟨index, h⟩).bytes else none
  | 2 => if h : index < 8 then some (s.resolve.products.nth ⟨index, h⟩).bytes else none
  | 3 => if index = 0 then some s.intakeBytes else none
  | 4 => if index = 0 then some s.resolveBytes else none
  | 5 => if index = 0 then some s.canvasBytes else none
  | _ => none

end State

/-- The data part of CELL_PEEK: 33 bytes (R80, R186). -/
def peekBytes (b : BankId) (x y : Nat) (epoch : BitVec 8) (c : Cell) : List Byte :=
  [BitVec.ofNat 8 b.val] ++ beBytes 2 x ++ beBytes 2 y ++ [epoch, yesNo (c.epoch == epoch), c.epoch, c.mask.byte]
    ++ c.slots.toList.flatMap fun k => beBytes 6 k.flux.toNat ++ beBytes 2 k.weight.toNat

/-! ## Frames on the lanes (R182 to R184) -/

/-- A frame between its delimiters: header, header CRC, and when there is a payload, payload and payload CRC (R182). -/
def frameBytes (h : Header) (payload : List Byte) : List Byte :=
  headerBytes h ++ beBytes 2 (crc16 (headerBytes h)).toNat
    ++ if payload = [] then [] else payload ++ beBytes 2 (crc16 payload).toNat

/-- The payload of an RSP (R186). -/
def Rsp.payload (r : Rsp) : List Byte := r.word.bytes ++ r.data

/-- A frame of a return lane as sent (R183). -/
def ReturnFrame.bytes : ReturnFrame → List Byte
  | .crd count => frameBytes (.crd 0 (BitVec.ofNat 8 count)) []
  | .rsp r => frameBytes (.rsp (BitVec.ofNat 24 r.payload.length)) r.payload

/-- One pixel of a PRD payload in the entry's format (R184). -/
def OutPixel.bytes (f : PixelFormat) (px : OutPixel) : List Byte :=
  match f with
  | .v => beInt 4 px.value
  | .vcm => beInt 4 px.value ++ [BitVec.ofNat 8 px.cls.index.val, px.mask.byte]
  | .vwcm => beInt 4 px.value ++ beBytes 2 px.weight ++ [BitVec.ofNat 8 px.cls.index.val, px.mask.byte]

/-- The row flags of a PRD header: bit 0 the last-row marker, bits 1 and 2 the format (R182). -/
def PrdFrame.rowFlags (f : PrdFrame) : Byte := BitVec.ofNat 8 (2 * f.format.code + if f.last then 1 else 0)

/-- A PRD frame as sent (R182 to R184). -/
def PrdFrame.bytes (f : PrdFrame) : List Byte :=
  let payload := f.pixels.flatMap (OutPixel.bytes f.format)
  frameBytes
    (.prd (BitVec.ofNat 24 payload.length) f.product f.tag f.pass (BitVec.ofNat 16 f.row) f.rowFlags
      (BitVec.ofNat 16 f.pixels.length)) payload

end Sys2Proof.Machine
end

