-- ==== Sys2Proof/Machine/Engine.lean ====
section
/-! DEFINITION. The engine-wide commands NOP, STATUS_READ, TABLE_READ, FAULT_CLEAR and ENGINE_RESET, and a command that the
engine does not have (R168, R175 to R180). -/

namespace Sys2Proof.Machine

/-! ## Owners -/

/-- NOP (R175) -/
def takeNop (_b : List Byte) (s : State) : Answer := .ok s

namespace State

/-- The attention condition SNAP_DONE is no longer pending (R176). -/
def clearSnapDone (s : State) : State := { s with status := { s.status with snapDone := false } }

/-- The attention condition TILE is no longer pending (R176). -/
def clearTile (s : State) : State := { s with status := { s.status with tile := false } }

/-- The attention condition PASS_DONE is no longer pending (R176). -/
def clearPassDone (s : State) : State := { s with status := { s.status with passDone := false } }

end State

/-- STATUS_READ: the section as it stands before the condition that it names is cleared (R176, R177). -/
def takeStatusRead (b : List Byte) (s : State) : Answer :=
  match field b 0 1 with
  | 0 => .okWith s.clearSnapDone s.engineBytes
  | 1 => .okWith s.clearTile s.tilesBytes
  | 2 => .okWith s s.portsBytes
  | 3 => .okWith s.clearPassDone (summaryBytes s.resolve.readable)
  | _ => .refuse s .range

/-- TABLE_READ (R178) -/
def takeTableRead (b : List Byte) (s : State) : Answer :=
  match s.tableRecord (field b 0 1) (field b 1 1) with
  | none => .refuse s .range
  | some record => .okWith s record

/-- FAULT_CLEAR (R179) -/
def takeFaultClear (_b : List Byte) (s : State) : Answer := .ok { s with status := s.status.clearFaults }

/-! ## ENGINE_RESET, block by block (R180) -/

/-- An ingress port at ENGINE_RESET: fault flags and counters are cleared, and the taken rows not started are discarded (R42,
R166). -/
def Port.rest (q : Port) : Port := { q with taken := [], flags := .clear, counters := .zero }

/-- PX at ENGINE_RESET (R166). -/
def ProductPort.rest (x : ProductPort) : ProductPort := { x with counters := ⟨0, 0, 0, 0⟩ }

/-- Row Intake at ENGINE_RESET: the settings are kept (R42). -/
def Intake.rest (i : Intake) : Intake := { Intake.reset with stallTime := i.stallTime, drainTime := i.drainTime }

/-- A row begun before goes on with its counting mark clear (R96, R97). -/
def Lane.uncounted (l : Lane) : Lane := { l with context := { l.context with counting := false } }

/-- The Calibration Unit at ENGINE_RESET: estimates none, flat maps and states kept, started rows go on (R64, R97). -/
def Calibration.rest (c : Calibration) : Calibration :=
  { c with bias := .fill 64 none, lanes := c.lanes.map (Option.map Lane.uncounted) }

/-- A pass under way ends as though aborted: at once, or after its row in transmission (R154). -/
def Resolve.rest (r : Resolve) (inTransmission : Bool) : Resolve :=
  { r with
    waiting := []
    passNumber := 0
    resolveCounter := 0
    readable := none
    building := none
    egressMark := false
    egressTimer := .stopped
    snapshot := if inTransmission then r.snapshot else none
    state := if r.state = .idle then .idle else if inTransmission then .ending else .idle
    passBank := if r.state = .idle then 0 else r.passBank }

/-- Whether a bank holds a visit that ENGINE_RESET takes to RETIRING (R82). -/
def BankState.holdsVisit : BankState → Bool
  | .free => false
  | .filling => true
  | .closed => true
  | .resolving => true
  | .resolved => true
  | .retiring => false
  | .scrubbing => false

namespace State

/-- A bank at ENGINE_RESET: a bank that holds a visit becomes RETIRING, and a RETIRING bank without holds goes on (R82, R75). -/
def restBank (s : State) (b : BankId) : State :=
  (if (s.bank b).state.holdsVisit then s.updBank b fun k => { k with state := .retiring } else s).leaveRetiring b

/-- The read hold of a pass that ends at once is cleared (R82, R154). -/
def restReadHold (s : State) : State :=
  if s.resolve.state = .idle ∨ s.px.lane.isSome = true then s
  else s.updBank s.resolve.passBank fun k => { k with readHold := false }

/-- ENGINE_RESET: every block's working state comes to rest, the configuration is kept, and freed buffers are announced
(R180). -/
def engineRest (s : State) : State :=
  let s1 := s.restReadHold
  let s2 :=
    { s1 with
      ports := s1.ports.map Port.rest
      px := s1.px.rest
      intake := s1.intake.rest
      cal := s1.cal.rest
      placements := .fill 16 none
      visit := .reset
      resolve := s1.resolve.rest s1.px.lane.isSome
      status := .reset }
  ((s2.restBank 0).restBank 1).serveAll

end State

/-- ENGINE_RESET (R180) -/
def takeEngineReset (_b : List Byte) (s : State) : Answer := .ok s.engineRest

/-! ## The steps -/

/-- NOP (R175) -/
def execNop (p : PortId) (s : State) : Host.Outcome State Fault Refusal := command Code.nop takeNop p s

/-- STATUS_READ (R176) -/
def execStatusRead (p : PortId) (s : State) : Host.Outcome State Fault Refusal := command Code.statusRead takeStatusRead p s

/-- TABLE_READ (R178) -/
def execTableRead (p : PortId) (s : State) : Host.Outcome State Fault Refusal := command Code.tableRead takeTableRead p s

/-- FAULT_CLEAR (R179) -/
def execFaultClear (p : PortId) (s : State) : Host.Outcome State Fault Refusal := command Code.faultClear takeFaultClear p s

/-- ENGINE_RESET (R180) -/
def execEngineReset (p : PortId) (s : State) : Host.Outcome State Fault Refusal :=
  command Code.engineReset takeEngineReset p s

/-- UNKNOWN_COMMAND: the frame at the head of the queue names no command (R168). -/
def execUnknownCommand (p : PortId) (s : State) : Host.Outcome State Fault Refusal :=
  match (s.port p).queue with
  | [] => .next s
  | f :: _ => if namesCommand f.code then .next s else .next (s.respond p f .unknown [])

end Sys2Proof.Machine
end

