-- ==== Sys2Proof/Machine/Arrivals.lean ====
section
/-! DEFINITION. Row Intake's decision on each arrival (spec 02, R21 to R27, R39). -/

namespace Sys2Proof.Machine

/-- The decision on an arrival that names an enabled tile and a segment in use: dropped, declared missing, or taken. Its buffer
is freed unless the row is taken (R21, R28, R29). -/
inductive Decision where
  | stale
  | afterEnd
  | wrongRow
  | endOfTile
  | dataError
  | badLength
  | taken
  deriving DecidableEq, Repr

namespace State

/-- The tile and segment that a header names, when the tile is enabled and the segment is in use (R22). -/
def inUse (s : State) (h : RowHeader) : Option (TileId × SegId) :=
  if ht : h.tile.toNat < 16 then
    if hg : h.seg.toNat < 4 then
      if (s.tile ⟨h.tile.toNat, ht⟩).enabled ∧ h.seg.toNat < (s.tile ⟨h.tile.toNat, ht⟩).segCount then
        some (⟨h.tile.toNat, ht⟩, ⟨h.seg.toNat, hg⟩)
      else none
    else none
  else none

/-- A header carries the tag and the slot of the open snap (R23). -/
def ofOpenSnap (s : State) (h : RowHeader) : Bool :=
  s.snapOpen && h.tag == s.visit.tag && h.slot.toNat == s.visit.slot.val

/-- The test that decides an arrival whose tile and segment are in use (R21, tests 2 to 5, in their order). `crcGood` is the
port's mark of the payload CRC. -/
def decision (s : State) (h : RowHeader) (crcGood : Bool) (t : TileId) (g : SegId) : Decision :=
  if s.ofOpenSnap h = false then .stale
  else if (s.record t).state.terminal then .afterEnd
  else if h.row.toNat < s.nextRow t g then .wrongRow
  else if (s.seg t g).height ≤ h.row.toNat then .endOfTile
  else if crcGood = false then .dataError
  else if h.count.toNat ≠ (s.seg t g).width + (s.seg t g).overscan then .badLength
  else .taken

/-- Raises one counter of a port. -/
def count (s : State) (p : PortId) (f : PortCounters → PortCounters) : State :=
  s.updPort p fun q => { q with counters := f q.counters }

/-- The rows that row `r` of a segment leaves declared missing, r itself among them when `damaged`; e becomes r + 1 (R26, R27). -/
def accountRow (s : State) (t : TileId) (g : SegId) (r : Nat) (damaged : Bool) : State :=
  let gap := r - s.nextRow t g
  let s1 := s.updRecord t fun k =>
    { k with
      missing := k.missing.modify g (· + (gap + if damaged then 1 else 0))
      taken := k.taken.modify g (· + if damaged then 0 else 1)
      state := if k.state = .waiting then .receiving else k.state }
  (s1.setNextRow t g (r + 1)).restartStall t

/-- The row goes into the port's taken rows, and the rows in flight of its tile and of the snap rise (R27, R28, R107). -/
def keepRow (s : State) (p : PortId) (h : RowHeader) (t : TileId) (g : SegId) (samples : List Sample) : State :=
  let s1 := s.updPort p fun q => { q with taken := q.taken ++ [⟨t, g, h.row.toNat, s.visit.slot, samples⟩] }
  let s2 := s1.setInFlight t (s.inFlight t + 1)
  { s2 with visit := { s2.visit with inFlight := s2.visit.inFlight + 1 } }

/-- What the decision changes in the tile's records, the segment's sequence and the port (R22 to R27). -/
def applyDecision (s : State) (p : PortId) (h : RowHeader) (samples : List Sample) (t : TileId) (g : SegId) :
    Decision → State
  | .stale => s.count p fun c => { c with stale := bump c.stale }
  | .afterEnd =>
    let s1 := s.count p fun c => { c with afterEnd := bump c.afterEnd }
    if (s.record t).state = .quarantined ∨ (s.record t).state = .off then s1
    else s1.markTile t fun f => { f with late := true }
  | .wrongRow => s.markTile t fun f => { f with wrongRow := true }
  | .endOfTile => s.markTile t fun f => { f with endOfTile := true }
  | .dataError => ((s.accountRow t g h.row.toNat true).markTile t fun f => { f with dataError := true }).settleTile t
  | .badLength => ((s.accountRow t g h.row.toNat true).markTile t fun f => { f with length := true }).settleTile t
  | .taken => ((s.accountRow t g h.row.toNat false).keepRow p h t g samples).settleTile t

/-- Row Intake decides an arrival, and the Visit Controller judges the snap (R21, R108). The frame's buffer is no longer the
port's: it is freed, or it holds the taken row. -/
def arrive (s : State) (p : PortId) (h : RowHeader) (crcGood : Bool) (samples : List Sample) : State :=
  match s.inUse h with
  | none => s.count p fun c => { c with unexpected := bump c.unexpected }
  | some (t, g) => (s.applyDecision p h samples t g (s.decision h crcGood t g)).judgeSnap

/-- The header of a ROW frame that found no buffer is offered to Row Intake: OVERRUN is set on a WAITING or RECEIVING tile
whose open snap it names (R39). -/
def blameOverrun (s : State) (h : RowHeader) : State :=
  match s.inUse h with
  | none => s
  | some (t, _) =>
    if s.ofOpenSnap h = true ∧ (s.record t).state.terminal = false then s.markTile t fun f => { f with overrun := true }
    else s

end State

end Sys2Proof.Machine
end

