-- ==== Sys2Proof/Machine/LinkEvents.lean ====
section
/-! DEFINITION. The steps of the links: power-on, line events, and the frames that arrive (spec 09; R155 to R165). An event that
cannot happen in the state it meets changes nothing (log 2). -/

namespace Sys2Proof.Machine

/-! ## Flags, discards and latched faults -/

namespace State

/-- Sets port fault flags (R161). -/
def setFlags (s : State) (p : PortId) (f : PortFlags → PortFlags) : State := s.updPort p fun q => { q with flags := f q.flags }

/-- What an ingress port receives from now on (R156). A row buffer that the frame in progress held is free. -/
def setRx (s : State) (p : PortId) (rx : Rx) : State := s.updPort p fun q => { q with rx := rx }

/-- LINE_DISCARD counts a frame (R161). -/
def countDiscard (s : State) (p : PortId) : State := s.count p fun c => { c with lineDiscard := bump c.lineDiscard }

/-- The frame in progress of an ingress port is over (R156). -/
def endReceive (s : State) (p : PortId) : State := s.setRx p .idle

/-- A port discards a frame at its end delimiter, and counts it in LINE_DISCARD (R159, R160). -/
def discardFrame (s : State) (p : PortId) : State := (s.endReceive p).countDiscard p

/-- A port discards a frame at its header, and counts it in LINE_DISCARD; the rest of the frame is received and ignored, up to
its end delimiter or its truncation (R157, R158). -/
def discardAtHeader (s : State) (p : PortId) : State := (s.setRx p (.rest true)).countDiscard p

/-- The frame in progress of an ingress port, if there is one, is cut short: LINE_DISCARD counts it, once for each frame (R156,
R163; log 5). -/
def cutFrame (s : State) (p : PortId) : State := if (s.port p).rx.uncounted then s.discardFrame p else s.endReceive p

/-- A frame in progress of an ingress port is truncated by a start delimiter or an idle line (R156). -/
def truncate (s : State) (p : PortId) : State :=
  if (s.port p).rx = .idle then s else (s.setFlags p fun f => { f with truncated := true }).cutFrame p

/-- A port begins to wait for a frame's header. -/
def awaitHeader (s : State) (p : PortId) : State := s.setRx p .awaitingHeader

/-- The Status Unit latches LINK_DOWN_SEEN (R172). -/
def latchLinkDown (s : State) : State := { s with status := { s.status with linkDownSeen := true } }

/-- The Status Unit latches OVERRUN_SEEN (R172). -/
def latchOverrun (s : State) : State := { s with status := { s.status with overrunSeen := true } }

/-! ## The product port (R165) -/

/-- What PX receives from now on (R156). -/
def setPxRx (s : State) (rx : PxRx) : State := s.updPx fun x => { x with rx := rx }

/-- The LINE_DISCARD counter of PX counts a frame (R165). -/
def countPxDiscard (s : State) : State :=
  s.updPx fun x => { x with counters := { x.counters with lineDiscard := bump x.counters.lineDiscard } }

/-- PX discards a frame at its header and counts it; its rest is received and ignored (R157, R165). -/
def discardPx (s : State) : State := (s.setPxRx (.rest true)).countPxDiscard

/-- The frame in progress on PX, if there is one, is truncated; LINE_DISCARD counts it, once for each frame (R156, R165; log 5).
-/
def truncatePx (s : State) : State :=
  if s.px.rx.uncounted then (s.setPxRx .idle).countPxDiscard else s.setPxRx .idle

/-- An end delimiter arrives on PX: a frame whose header has arrived is over, and what came after the header is ignored (R156,
R157; log 31). That a frame still without its header goes on is the model's choice (log 30). -/
def endPxFrame (s : State) : State :=
  match s.px.rx with
  | .idle => s
  | .awaitingHeader => s
  | .rest _ => s.setPxRx .idle

/-- A good CRD on PX adds its count, up to 65,535, and a sequencer that waits takes a credit (R165, R145). The frame is in
progress until its end delimiter, and its credits stay when it is truncated before (log 5). -/
def addCredits (s : State) (credits : Byte) : State :=
  (s.updPx fun x =>
    { x with
      rx := .rest false
      credits := min Config.creditLimit (x.credits + credits.toNat)
      counters := { x.counters with crdIn := bump x.counters.crdIn } }).resumeWalk

/-- A header arrives on PX (R157, R165, R183). -/
def pxHeader (s : State) (h : Header) (crcGood : Bool) : State :=
  match h with
  | .crd len credits => if crcGood ∧ len = 0 then s.addCredits credits else s.discardPx
  | .row _ _ _ _ _ _ _ => s.discardPx
  | .ctl _ _ _ => s.discardPx
  | .rsp _ => s.discardPx
  | .prd _ _ _ _ _ _ _ => s.discardPx
  | .unknown _ _ => s.discardPx

/-- PX cuts the row in transmission, which counts as emitted (R165, R145). -/
def cutRow (s : State) : State :=
  match s.px.lane with
  | none => s
  | some f =>
    (s.updPx fun x =>
      { x with lane := none, counters := { x.counters with prdCut := bump x.counters.prdCut } }).rowSent f

/-- PX's line goes DOWN: a frame in progress is discarded, and LINE_DISCARD counts it (R165; log 5, log 13). -/
def pxDown (s : State) : State :=
  let s1 := s.truncatePx.updPx fun x => { x with link := .down, credits := 0 }
  s1.latchLinkDown.cutRow

/-! ## ROW and CTL headers (R158, R160) -/

/-- A ROW header passes the two header-level length checks (R158). -/
def rowLengthFits (h : RowHeader) (len : Nat) : Bool :=
  h.count.toNat ≤ Config.bufferSamples && len == packedSize h.count.toNat

/-- A ROW frame finds no buffer and is dropped, and its payload is received and ignored (R158, R39; log 5, log 15). -/
def overrun (s : State) (p : PortId) (h : RowHeader) : State :=
  let s1 := (s.setFlags p fun f => { f with overrun := true }).setRx p (.rest false)
  ((s1.count p fun c => { c with overrunDrop := bump c.overrunDrop }).latchOverrun).blameOverrun h

/-- A ROW header that passed R157: it uses a credit if there is one, passes the length checks, and gets a buffer (R158). -/
def rowHeader (s : State) (p : PortId) (h : RowHeader) (len : Nat) : State :=
  let unpaid := (s.port p).granted == 0
  let s1 := s.updPort p fun q => { q with granted := q.granted - 1 }
  if rowLengthFits h len = false then (s1.setFlags p fun f => { f with length := true }).discardAtHeader p
  else if s1.occupied p < Config.rowBuffers then
    s1.updPort p fun q => { q with rx := .row h len, flags := { q.flags with noCredit := q.flags.noCredit || unpaid } }
  else s1.overrun p h

/-- A CTL header that passed R157: the frame goes to the control receive area; a payload declared too long sets LENGTH (R160). -/
def ctlHeader (s : State) (p : PortId) (code : Byte) (request : BitVec 16) (len : Nat) : State :=
  s.updPort p fun q =>
    { q with
      rx := .ctl code request len
      flags := { q.flags with length := q.flags.length || decide (Config.longestCtl < len) } }

/-- A kind that an ingress port does not accept (R157). -/
def unacceptedKind (s : State) (p : PortId) : State := (s.setFlags p fun f => { f with unknownKind := true }).discardAtHeader p

/-- A header arrives on an ingress port that waits for one (R157). -/
def ingressHeader (s : State) (p : PortId) (h : Header) (crcGood : Bool) : State :=
  if crcGood then
    match h with
    | .row len tile seg tag slot row count => s.rowHeader p ⟨tile, seg, tag, slot, row, count⟩ len.toNat
    | .ctl len code request => s.ctlHeader p code request len.toNat
    | .rsp _ => s.unacceptedKind p
    | .crd _ _ => s.unacceptedKind p
    | .prd _ _ _ _ _ _ _ => s.unacceptedKind p
    | .unknown _ _ => s.unacceptedKind p
  else (s.setFlags p fun f => { f with hdrCrc := true }).discardAtHeader p

/-! ## End delimiters (R159, R160, R167) -/

/-- A ROW frame that holds a buffer ends (R159). -/
def endRowFrame (s : State) (p : PortId) (h : RowHeader) (len : Nat) (received : List Byte) : State :=
  match splitPayload len received with
  | none => (s.setFlags p fun f => { f with length := true }).discardFrame p
  | some (payload, crcGood) =>
    let s1 := (s.endReceive p).setFlags p fun f => { f with payloadCrc := f.payloadCrc || !crcGood }
    (s1.count p fun c => { c with rowIn := bump c.rowIn }).arrive p h crcGood (unpackSamples h.count.toNat payload)

/-- A bad CTL frame is answered NOT_TAKEN at once (R160). -/
def badCtl (s : State) (p : PortId) (code : Byte) (request : BitVec 16) : State :=
  (s.discardFrame p).composeRsp p code request .notTaken []

/-- A good CTL frame is admitted to the control queue, or dropped when the queue holds two (R160, R167). -/
def admitCtl (s : State) (p : PortId) (f : CtlFrame) : State :=
  let s1 := (s.endReceive p).count p fun c => { c with ctlIn := bump c.ctlIn }
  if (s1.port p).queue.length < Config.queueFrames then s1.updPort p fun q => { q with queue := q.queue ++ [f] }
  else (s1.setFlags p fun g => { g with ctlOverrun := true }).count p fun c => { c with ctlDrop := bump c.ctlDrop }

/-- A CTL frame ends: the length is checked, then the payload CRC (R160; log 6, log 7). -/
def endCtlFrame (s : State) (p : PortId) (code : Byte) (request : BitVec 16) (len : Nat) (received : List Byte) : State :=
  match splitPayload len received with
  | none => (s.setFlags p fun f => { f with length := true }).badCtl p code request
  | some (payload, crcGood) =>
    if Config.longestCtl < len then (s.setFlags p fun f => { f with length := true }).badCtl p code request
    else if crcGood = false then (s.setFlags p fun f => { f with payloadCrc := true }).badCtl p code request
    else s.admitCtl p ⟨code, request, payload⟩

/-! ## Line events (R163, R164) -/

/-- An ingress port's line goes DOWN (R163; log 5). -/
def lineFall (s : State) (p : PortId) : State :=
  ((s.cutFrame p).updPort p fun q =>
    { q with
      link := .down
      lane := none
      counters := { q.counters with rspLost := q.counters.rspLost + BitVec.ofNat 32 q.backlog.length }
      backlog := []
      owed := 0
      granted := 0 }).latchLinkDown

end State

/-! ## The steps -/

/-- POWER_ON (R155, and every chapter's power-on rule). The power-on counter of log 9 goes on, and the steps that wait are kept
(log 24). -/
def execPowerOn (s : State) : Host.Outcome State Fault Refusal :=
  .next { State.reset with canvas := { Canvas.reset with powerOns := s.canvas.powerOns + 1 }, pending := s.pending }

/-- LINE_UP (R164) -/
def execLineUp (p : PortId) (s : State) : Host.Outcome State Fault Refusal :=
  if (s.port p).link = .up then .next s else .next ((s.updPort p fun q => { q with link := .up }).serveLane p)

/-- LINE_DOWN (R163) -/
def execLineDown (p : PortId) (s : State) : Host.Outcome State Fault Refusal :=
  if (s.port p).link = .down then .next s else .next (s.lineFall p)

/-- PX_LINE_UP (R165) -/
def execPxLineUp (s : State) : Host.Outcome State Fault Refusal := .next (s.updPx fun x => { x with link := .up })

/-- PX_LINE_DOWN (R165; log 13) -/
def execPxLineDown (s : State) : Host.Outcome State Fault Refusal := if s.px.link = .down then .next s else .next s.pxDown

/-- START_DELIMITER (R156) -/
def execStartDelimiter (port : LinkPort) (s : State) : Host.Outcome State Fault Refusal :=
  match port with
  | .ingress p => if (s.port p).link = .up then .next (((s.truncate p).awaitHeader p).serveLane p) else .next s
  | .px => if s.px.link = .up then .next (s.truncatePx.setPxRx .awaitingHeader) else .next s

/-- LINE_IDLE_TRUNCATION (R156) -/
def execLineIdleTruncation (port : LinkPort) (s : State) : Host.Outcome State Fault Refusal :=
  match port with
  | .ingress p => if (s.port p).rx = .idle then .next s else .next ((s.truncate p).serveLane p)
  | .px => .next s.truncatePx

/-- FRAME_HEADER (R157, R158, R160, R165) -/
def execFrameHeader (port : LinkPort) (header : Header) (crc : BitVec 16) (s : State) : Host.Outcome State Fault Refusal :=
  let crcGood := crc16 (headerBytes header) == crc
  match port with
  | .ingress p =>
    if (s.port p).rx = .awaitingHeader then .next ((s.ingressHeader p header crcGood).serveLane p) else .next s
  | .px => if s.px.rx = .awaitingHeader then .next (s.pxHeader header crcGood) else .next s

/-- ROW_END_DELIMITER (R159). It also ends a frame whose rest is ignored, and a frame on PX (R157; log 31). The spec is silent on
an end delimiter that comes before the whole header: that the frame goes on, so that the next start delimiter or an idle line
truncates it, is the model's choice (log 30). -/
def execRowEndDelimiter (port : LinkPort) (received : List Byte) (s : State) : Host.Outcome State Fault Refusal :=
  match port with
  | .px => .next s.endPxFrame
  | .ingress p =>
    match (s.port p).rx with
    | .row h len => .next ((s.endRowFrame p h len received).serveLane p)
    | .rest _ => .next (s.endReceive p)
    | .idle => .next s
    | .awaitingHeader => .next s
    | .ctl _ _ _ => .next s

/-- CTL_END_DELIMITER (R160, R167). It also ends a frame whose rest is ignored, and a frame on PX (R157; log 31). The spec is
silent on an end delimiter that comes before the whole header: that the frame goes on, so that the next start delimiter or an
idle line truncates it, is the model's choice (log 30). -/
def execCtlEndDelimiter (port : LinkPort) (received : List Byte) (s : State) : Host.Outcome State Fault Refusal :=
  match port with
  | .px => .next s.endPxFrame
  | .ingress p =>
    match (s.port p).rx with
    | .ctl code request len => .next ((s.endCtlFrame p code request len received).serveLane p)
    | .rest _ => .next (s.endReceive p)
    | .idle => .next s
    | .awaitingHeader => .next s
    | .row _ _ => .next s

/-- RETURN_LANE_FRAME_SENT (R162) -/
def execReturnLaneFrameSent (p : PortId) (s : State) : Host.Outcome State Fault Refusal := .next (s.finishReturnFrame p)

end Sys2Proof.Machine
end

