-- ==== Sys2Proof/Machine/Memories.lean ====
section
/-! DEFINITION. The commands on the two memories, FLAT_CLEAR, FLAT_WRITE, FLAT_READ, CANVAS_SET and CELL_PEEK, and the two steps
by which the memories work: the end of a clear and one write of a scrub (R56 to R63, R65 to R69, R78, R80). -/

namespace Sys2Proof.Machine

/-! ## The calibration store -/

/-- The extent test of FLAT_WRITE and FLAT_READ (R60, R62, R63). -/
def TileRec.covers (r : TileRec) (u0 v count : Nat) : Bool :=
  1 ≤ count && count ≤ 1024 && v < r.height && u0 + count ≤ r.width

namespace State

/-- A write of a tile's flat map is refused under the visit lock when the tile is enabled (R18). -/
def flatLocked (s : State) (t : TileId) : Bool := s.visitLock && (s.tile t).enabled

/-- A clear begins, or goes on (R58). -/
def startClear (s : State) (t : TileId) : State := s.updFlat t fun m => { m with state := .clearing }

/-- A clear ends: every entry is unity, and the flat state becomes LOADED (R59; log 10). -/
def finishClear (s : State) (t : TileId) : State := s.updFlat t fun _ => { state := .loaded, map := [] }

/-- A run of entries is written (R60). -/
def writeFlat (s : State) (t : TileId) (u0 v : Nat) (entries : List Flat) : State :=
  s.updFlat t fun m => { m with map := writeRun m.map (flatPlace u0 v) entries }

/-- The value that FLAT_READ returns for an entry (R62). -/
def readFlat (s : State) (t : TileId) (u v : Nat) : Flat :=
  if (s.flat t).state = .unloaded then Config.unityFlat else (s.flat t).entry u v

/-- The data part of FLAT_READ: the fields carried, then the values in order of column (R62, R186). -/
def flatReadBytes (s : State) (t : TileId) (u0 v count : Nat) : List Byte :=
  beBytes 1 t.val ++ beBytes 2 v ++ beBytes 2 u0 ++ beBytes 2 count
    ++ (List.range count).flatMap fun i => beBytes 2 (s.readFlat t (u0 + i) v).toNat

end State

/-- FLAT_CLEAR (R58) -/
def takeFlatClear (b : List Byte) (s : State) : Answer :=
  match tileOf (field b 0 1) with
  | none => .refuse s .range
  | some t => if s.flatLocked t then .refuse s .locked else .ok (s.startClear t)

/-- FLAT_WRITE (R60) -/
def takeFlatWrite (b : List Byte) (s : State) : Answer :=
  match tileOf (field b 0 1) with
  | none => .refuse s .range
  | some t =>
    if s.flatLocked t then .refuse s .locked
    else if (s.flat t).state ≠ .loaded then .refuse s .state
    else if (s.tile t).covers (field b 3 2) (field b 1 2) (field b 5 2) then
      .ok (s.writeFlat t (field b 3 2) (field b 1 2) (flatEntries b))
    else .refuse s .range

/-- FLAT_READ (R62) -/
def takeFlatRead (b : List Byte) (s : State) : Answer :=
  match tileOf (field b 0 1) with
  | none => .refuse s .range
  | some t =>
    if (s.flat t).state = .clearing then .refuse s .state
    else if (s.tile t).covers (field b 3 2) (field b 1 2) (field b 5 2) then
      .okWith s (s.flatReadBytes t (field b 3 2) (field b 1 2) (field b 5 2))
    else .refuse s .range

/-! ## The canvas memory -/

namespace State

/-- A new geometry is written and both banks are scrubbed (R66). -/
def setCanvas (s : State) (w h : Nat) : State :=
  (({ s with canvas := { s.canvas with width := w, height := h } }).startScrub 0).startScrub 1

/-- A scrub writes the empty record at its position, and ends with the last cell (R78). -/
def scrubNext (s : State) (b : BankId) : State :=
  let s1 := s.writeCell b (s.bank b).scrubPos (.empty 0)
  if s.canvas.width * s.canvas.height ≤ (s.bank b).scrubPos + 1 then
    s1.updBank b fun k => { k with state := .free, scrubPos := 0 }
  else s1.updBank b fun k => { k with scrubPos := k.scrubPos + 1 }

end State

/-- CANVAS_SET (R66) -/
def takeCanvasSet (b : List Byte) (s : State) : Answer :=
  if (s.bank 0).state ≠ .free ∨ (s.bank 1).state ≠ .free then .refuse s .state
  else if 1 ≤ field b 0 2 ∧ field b 0 2 ≤ 16384 ∧ 1 ≤ field b 2 2 ∧ field b 2 2 ≤ 16384 then
    .ok (s.setCanvas (field b 0 2) (field b 2 2))
  else .refuse s .range

/-- CELL_PEEK (R80) -/
def takeCellPeek (b : List Byte) (s : State) : Answer :=
  match bankOf (field b 0 1) with
  | none => .refuse s .range
  | some k =>
    if field b 1 2 < s.canvas.width ∧ field b 3 2 < s.canvas.height then
      .okWith s (peekBytes k (field b 1 2) (field b 3 2) (s.bank k).epoch (s.cellAt k (s.place (field b 1 2) (field b 3 2))))
    else .refuse s .range

/-! ## The steps -/

/-- FLAT_CLEAR (R58) -/
def execFlatClear (p : PortId) (s : State) : Host.Outcome State Fault Refusal := command Code.flatClear takeFlatClear p s

/-- FLAT_WRITE (R60) -/
def execFlatWrite (p : PortId) (s : State) : Host.Outcome State Fault Refusal := command Code.flatWrite takeFlatWrite p s

/-- FLAT_READ (R62) -/
def execFlatRead (p : PortId) (s : State) : Host.Outcome State Fault Refusal := command Code.flatRead takeFlatRead p s

/-- CANVAS_SET (R66) -/
def execCanvasSet (p : PortId) (s : State) : Host.Outcome State Fault Refusal := command Code.canvasSet takeCanvasSet p s

/-- CELL_PEEK (R80) -/
def execCellPeek (p : PortId) (s : State) : Host.Outcome State Fault Refusal := command Code.cellPeek takeCellPeek p s

/-- FLAT_CLEAR_END (R59) -/
def execFlatClearEnd (t : TileId) (s : State) : Host.Outcome State Fault Refusal :=
  if (s.flat t).state = .clearing then .next (s.finishClear t) else .next s

/-- SCRUB_CELL_WRITE (R78) -/
def execScrubCellWrite (b : BankId) (s : State) : Host.Outcome State Fault Refusal :=
  if (s.bank b).state = .scrubbing then .next (s.scrubNext b) else .next s

end Sys2Proof.Machine
end

