-- ==== Sys2Proof/Machine/Passes.lean ====
section
/-! DEFINITION. The commands of the Resolve Unit, RESOLVE_SET, PRODUCT_SET, RESOLVE_START, RESOLVE_ABORT and BANK_RELEASE, and the
end of a product row (R121, R138, R145, R148 to R151). -/

namespace Sys2Proof.Machine

namespace State

/-- The resolve parameters and modes are replaced (R121, R140). -/
def setResolve (s : State) (f : ResolveFields) : State :=
  s.updResolve fun r =>
    { r with wmin := f.wmin, tAbs := f.tAbs, tRel := f.tRel, trigger := f.trigger, release := f.release }

/-- Another enabled entry has the product id of a new entry (R138). -/
def idTaken (s : State) (i : Fin 8) (e : Product) : Bool :=
  allEntries.any fun j => j != i && (s.resolve.products.nth j).enabled && (s.resolve.products.nth j).id == e.id

/-- A product entry is replaced (R138). -/
def setProduct (s : State) (i : Fin 8) (e : Product) : State :=
  s.updResolve fun r => { r with products := r.products.put i e }

/-- The pass is told to begin again: at once, or when its row in transmission has finished (R149). -/
def askRestart (s : State) : State :=
  if s.px.lane = none then s.restartPass.autoStart else s.updResolve fun r => { r with state := .restarting }

/-- The pass is told to end: at once, or when its row in transmission has finished (R150). -/
def askEnd (s : State) : State :=
  if s.px.lane = none then s.endPass.autoStart else s.updResolve fun r => { r with state := .ending }

end State

/-- RESOLVE_SET (R121, R140, R142) -/
def takeResolveSet (b : List Byte) (s : State) : Answer :=
  if s.resolveLock then .refuse s .locked
  else
    match resolveFields b with
    | none => .refuse s .range
    | some f => .ok (s.setResolve f).autoStart

/-- PRODUCT_SET (R138) -/
def takeProductSet (b : List Byte) (s : State) : Answer :=
  match entryOf (field b 0 1) with
  | none => .refuse s .range
  | some i =>
    if s.resolveLock then .refuse s .locked
    else
      match productFields b with
      | none => .refuse s .range
      | some e => if e.enabled && s.idTaken i e then .refuse s .range else .ok (s.setProduct i e)

/-- RESOLVE_START (R148) -/
def takeResolveStart (b : List Byte) (s : State) : Answer :=
  match bankOf (field b 0 1) with
  | none => .refuse s .range
  | some k =>
    match s.resolve.state with
    | .running => if k = s.resolve.passBank then .ok s.askRestart else .refuse s .busy
    | .restarting => if k = s.resolve.passBank then .ok s else .refuse s .busy
    | .ending => .refuse s .busy
    | .idle =>
      if (s.bank k).state = .closed ∨ (s.bank k).state = .resolved then .ok (s.openPass k).autoStart
      else .refuse s .state

/-- RESOLVE_ABORT (R150) -/
def takeResolveAbort (_b : List Byte) (s : State) : Answer :=
  match s.resolve.state with
  | .idle => .refuse s .state
  | .ending => .ok s
  | .running => .ok s.askEnd
  | .restarting => .ok s.askEnd

/-- BANK_RELEASE (R151) -/
def takeBankRelease (b : List Byte) (s : State) : Answer :=
  match bankOf (field b 0 1) with
  | none => .refuse s .range
  | some k => if (s.bank k).state = .resolved then .ok (s.retire k) else .refuse s .state

/-! ## The steps -/

/-- RESOLVE_SET (R121) -/
def execResolveSet (p : PortId) (s : State) : Host.Outcome State Fault Refusal := command Code.resolveSet takeResolveSet p s

/-- PRODUCT_SET (R138) -/
def execProductSet (p : PortId) (s : State) : Host.Outcome State Fault Refusal := command Code.productSet takeProductSet p s

/-- RESOLVE_START (R148) -/
def execResolveStart (p : PortId) (s : State) : Host.Outcome State Fault Refusal :=
  command Code.resolveStart takeResolveStart p s

/-- RESOLVE_ABORT (R150) -/
def execResolveAbort (p : PortId) (s : State) : Host.Outcome State Fault Refusal :=
  command Code.resolveAbort takeResolveAbort p s

/-- BANK_RELEASE (R151) -/
def execBankRelease (p : PortId) (s : State) : Host.Outcome State Fault Refusal := command Code.bankRelease takeBankRelease p s

/-- PRD_FRAME_SENT: the row in transmission has left PX (R145, R165). -/
def execPrdFrameSent (s : State) : Host.Outcome State Fault Refusal :=
  match s.px.lane with
  | none => .next s
  | some f =>
    .next ((s.updPx fun x =>
      { x with lane := none, counters := { x.counters with prdSent := bump x.counters.prdSent } }).rowSent f)

end Sys2Proof.Machine
end

