-- ==== Sys2Proof/Machine/Tables.lean ====
section
/-! DEFINITION. The commands of the Focal-Plane Tables and of Row Intake: INTAKE_SET, TILE_SET, SEGMENT_SET, TILE_QUARANTINE and
TILE_RESTORE (R10 to R18, R41). -/

namespace Sys2Proof.Machine

/-! ## INTAKE_SET -/

/-- The intake settings are replaced; a stall time of 0 stops every running stall timer (R41). -/
def State.setIntake (s : State) (stallTime drainTime : Nat) : State :=
  { s with
    intake := { s.intake with
      stallTime := stallTime
      drainTime := drainTime
      stall := if stallTime = 0 then .fill 16 .stopped else s.intake.stall } }

/-- INTAKE_SET (R41) -/
def takeIntakeSet (b : List Byte) (s : State) : Answer :=
  if 255 < field b 0 2 ∨ field b 2 2 < 1 ∨ 1000 < field b 2 2 then .refuse s .range
  else .ok (s.setIntake (field b 0 2) (field b 2 2))

/-! ## TILE_SET and SEGMENT_SET -/

/-- The records of the segments of a tile with ids 0 to count − 1 (R3, R11). -/
def State.layout (s : State) (t : TileId) (count : Nat) : List SegRec :=
  (([0, 1, 2, 3] : List SegId).filter fun g => g.val < count).map (s.seg t)

/-- TILE_SET (R10, R11) -/
def takeTileSet (b : List Byte) (s : State) : Answer :=
  match tileOf (field b 0 1) with
  | none => .refuse s .range
  | some t =>
    if s.visitLock then .refuse s .locked
    else
      match tileFields b (s.tile t).quarantined with
      | none => .refuse s .range
      | some r =>
        if r.enabled = true ∧ consistentLayout r.width r.height (s.layout t r.segCount) = false then .refuse s .range
        else .ok (s.setTile t r)

/-- Whether a new segment record of an enabled tile leaves the tile's layout consistent. A segment that is not in use is not
tested (R12, R13). -/
def State.segmentAllowed (s : State) (t : TileId) (g : SegId) (r : SegRec) : Bool :=
  !((s.tile t).enabled && g.val < (s.tile t).segCount)
    || consistentLayout (s.tile t).width (s.tile t).height ((s.setSeg t g r).layout t (s.tile t).segCount)

/-- SEGMENT_SET (R12, R13) -/
def takeSegmentSet (b : List Byte) (s : State) : Answer :=
  match tileOf (field b 0 1), segOf (field b 1 1) with
  | some t, some g =>
    if s.visitLock && (s.tile t).enabled then .refuse s .locked
    else
      match segFields b with
      | none => .refuse s .range
      | some r => if s.segmentAllowed t g r then .ok (s.setSeg t g r) else .refuse s .range
  | _, _ => .refuse s .range

/-! ## Quarantine -/

/-- The quarantine state of a tile is set (R14, R16). -/
def State.setQuarantine (s : State) (t : TileId) (q : Bool) : State := s.setTile t { s.tile t with quarantined := q }

/-- The effect of TILE_QUARANTINE on the current snap: while a snap is open, a WAITING or RECEIVING tile moves to QUARANTINED,
and the snap is judged (R14, R108). -/
def State.quarantineNow (s : State) (t : TileId) : State :=
  if s.snapOpen = true ∧ (s.record t).state.terminal = false then (s.endTile t .quarantined).judgeSnap else s

/-- TILE_QUARANTINE (R14) -/
def takeTileQuarantine (b : List Byte) (s : State) : Answer :=
  match tileOf (field b 0 1) with
  | none => .refuse s .range
  | some t => .ok ((s.setQuarantine t true).quarantineNow t)

/-- TILE_RESTORE (R16) -/
def takeTileRestore (b : List Byte) (s : State) : Answer :=
  match tileOf (field b 0 1) with
  | none => .refuse s .range
  | some t => .ok (s.setQuarantine t false)

/-! ## The steps -/

/-- INTAKE_SET (R41) -/
def execIntakeSet (p : PortId) (s : State) : Host.Outcome State Fault Refusal := command Code.intakeSet takeIntakeSet p s

/-- TILE_SET (R10) -/
def execTileSet (p : PortId) (s : State) : Host.Outcome State Fault Refusal := command Code.tileSet takeTileSet p s

/-- SEGMENT_SET (R12) -/
def execSegmentSet (p : PortId) (s : State) : Host.Outcome State Fault Refusal := command Code.segmentSet takeSegmentSet p s

/-- TILE_QUARANTINE (R14) -/
def execTileQuarantine (p : PortId) (s : State) : Host.Outcome State Fault Refusal :=
  command Code.tileQuarantine takeTileQuarantine p s

/-- TILE_RESTORE (R16) -/
def execTileRestore (p : PortId) (s : State) : Host.Outcome State Fault Refusal := command Code.tileRestore takeTileRestore p s

end Sys2Proof.Machine
end

