-- ==== Sys2Proof/Machine/Visits.lean ====
section
/-! DEFINITION. The commands of the Visit Controller: VISIT_OPEN, SNAP_OPEN, SNAP_CLOSE, VISIT_CLOSE and VISIT_ABORT (spec 06;
R40, R71, R74, R83, R96). -/

namespace Sys2Proof.Machine

/-! ## VISIT_OPEN -/

namespace State

/-- An enabled tile has its flat in state CLEARING (R102). -/
def clearingTile (s : State) : Bool :=
  (List.finRange 16).any fun t => (s.tile t).enabled && (s.flat t).state == .clearing

/-- The bank that VISIT_OPEN chooses: bank 0 if it is FREE, else bank 1 if that is (R103). -/
def freeBank (s : State) : Option BankId :=
  if (s.bank 0).state = .free then some 0 else if (s.bank 1).state = .free then some 1 else none

/-- A visit opens on a bank (R71, R103). -/
def openVisit (s : State) (tag : Byte) (expected : Nat) (b : BankId) : State :=
  let s1 := s.updBank b fun k => { k with state := .filling, epoch := k.epoch + 1 }
  { s1 with
    visit := { s1.visit with
      state := .betweenSnaps
      tag := tag
      bank := b
      expected := expected
      snapsDone := 0
      snap := .noSnap
      inFlight := 0
      drain := .stopped
      records := s1.visit.records.put b (some ⟨tag, 0⟩) } }

end State

/-- VISIT_OPEN (R102, R103) -/
def takeVisitOpen (b : List Byte) (s : State) : Answer :=
  if s.visitLock then .refuse s .state
  else if field b 1 1 < 1 ∨ 3 < field b 1 1 then .refuse s .range
  else if s.clearingTile then .refuse s .state
  else
    match s.freeBank with
    | none => .refuse s .noBank
    | some k =>
      .okWith (s.openVisit (BitVec.ofNat 8 (field b 0 1)) (field b 1 1) k) [BitVec.ofNat 8 k.val, (s.bank k).epoch + 1]

/-! ## SNAP_OPEN -/

/-- The snap state of a tile at SNAP_OPEN (R32). -/
def TileRec.opening (r : TileRec) : TileState :=
  if r.enabled = false then .off else if r.quarantined then .quarantined else .waiting

namespace State

/-- Row Intake at SNAP_OPEN (R32). -/
def openIntake (s : State) : Intake :=
  { s.intake with
    next := .fill 64 0
    records := s.tiles.map fun r => .cleared r.opening
    stall := .fill 16 .stopped }

/-- The placement records that SNAP_OPEN builds: one for each enabled tile that is not quarantined (R83). -/
def openPlacements (s : State) (sx sy : Int) : Tab 16 (Option Placement) :=
  s.tiles.map fun r => if r.enabled = true ∧ r.quarantined = false then some (placeTile r sx sy) else none

/-- A snap opens, in every block, up to the judgement of a snap without WAITING tiles (R106). -/
def openSnap (s : State) (sx sy : Int) : State :=
  { s with
    visit := { s.visit with
      state := .inSnap
      snap := .opened
      slot := Fin.ofNat 3 s.visit.snapsDone
      sx := sx
      sy := sy
      inFlight := 0
      drain := .stopped }
    intake := s.openIntake
    cal := { s.cal with bias := .fill 64 none }
    placements := s.openPlacements sx sy }

end State

/-- A snap offset in range (R105). -/
def offsetInRange (x : Int) : Bool := -1024 ≤ x && x ≤ 1024

/-- SNAP_OPEN (R105, R106) -/
def takeSnapOpen (b : List Byte) (s : State) : Answer :=
  if s.visit.state = .betweenSnaps ∧ s.visit.snapsDone < s.visit.expected then
    if offsetInRange (signedField b 0 2) && offsetInRange (signedField b 2 2) then
      .okWith (s.openSnap (signedField b 0 2) (signedField b 2 2)).judgeSnap (beBytes 1 s.visit.snapsDone)
    else .refuse s .range
  else .refuse s .state

/-! ## SNAP_CLOSE and VISIT_CLOSE -/

/-- The snap begins to drain (R111, R112). -/
def State.beginDrain (s : State) : State :=
  { s with visit := { s.visit with snap := .draining, drain := .running s.intake.drainTime } }

/-- SNAP_CLOSE (R111) -/
def takeSnapClose (_b : List Byte) (s : State) : Answer :=
  match s.visit.snap with
  | .opened => .ok s.beginDrain
  | .draining => .ok s
  | .noSnap => .refuse s .state
  | .done => .refuse s .state
  | .aborted => .refuse s .state

/-- VISIT_CLOSE (R113) -/
def takeVisitClose (_b : List Byte) (s : State) : Answer :=
  if s.visit.state = .betweenSnaps then .ok s.closeVisit else .refuse s .state

/-! ## VISIT_ABORT -/

/-- A row bound to an aborted bank goes on with its counting mark clear (R96). -/
def Lane.abortedOn (b : BankId) (l : Lane) : Lane := if l.context.bank = b then l.uncounted else l

namespace State

/-- Row Intake at an abort: the stall timers stop, the taken rows that have not started are discarded, and no row is in flight
(R40). -/
def abortIntake (s : State) : State :=
  { s with
    ports := s.ports.map fun q => { q with taken := [] }
    intake := { s.intake with stall := .fill 16 .stopped, inFlight := .fill 16 0 } }

/-- The open visit is aborted (R114). -/
def abortVisit (s : State) (b : BankId) : State :=
  let s1 := s.abortIntake
  let s2 :=
    { s1 with
      cal := { s1.cal with lanes := s1.cal.lanes.map (Option.map (Lane.abortedOn b)) }
      visit := { s1.visit with
        state := .noVisit
        snap := if s.snapOpen then .aborted else s1.visit.snap
        inFlight := 0
        drain := .stopped
        records := s1.visit.records.put b none } }
  (s2.retire b).serveAll

/-- A visit that has closed is withdrawn: its bank leaves the waiting list and retires, and its record is cleared (R115,
R141). -/
def withdrawVisit (s : State) (b : BankId) : State :=
  let s1 := { s with visit := { s.visit with records := s.visit.records.put b none } }
  (s1.updResolve fun r => { r with waiting := r.waiting.filter (· != b) }).retire b

end State

/-- VISIT_ABORT (R114, R115) -/
def takeVisitAbort (b : List Byte) (s : State) : Answer :=
  match bankOf (field b 0 1) with
  | none => .refuse s .range
  | some k =>
    match (s.bank k).state with
    | .filling => .ok (s.abortVisit k)
    | .closed => .ok (s.withdrawVisit k)
    | .free => .refuse s .state
    | .resolving => .refuse s .state
    | .resolved => .refuse s .state
    | .retiring => .refuse s .state
    | .scrubbing => .refuse s .state

/-! ## The steps -/

/-- VISIT_OPEN (R102) -/
def execVisitOpen (p : PortId) (s : State) : Host.Outcome State Fault Refusal := command Code.visitOpen takeVisitOpen p s

/-- SNAP_OPEN (R105) -/
def execSnapOpen (p : PortId) (s : State) : Host.Outcome State Fault Refusal := command Code.snapOpen takeSnapOpen p s

/-- SNAP_CLOSE (R111) -/
def execSnapClose (p : PortId) (s : State) : Host.Outcome State Fault Refusal := command Code.snapClose takeSnapClose p s

/-- VISIT_CLOSE (R113) -/
def execVisitClose (p : PortId) (s : State) : Host.Outcome State Fault Refusal := command Code.visitClose takeVisitClose p s

/-- VISIT_ABORT (R114) -/
def execVisitAbort (p : PortId) (s : State) : Host.Outcome State Fault Refusal := command Code.visitAbort takeVisitAbort p s

end Sys2Proof.Machine
end

