-- ==== Sys2Proof/Machine/Dispatch.lean ====
section
/-! DEFINITION. One arm per step of the engine, each a call of its meaning. -/

namespace Sys2Proof.Machine

/-- What a step does to everything but the queue. -/
def exec (i : Instr) (s : State) : Host.Outcome State Fault Refusal :=
  match i with
  | .powerOn => Sys2Proof.Machine.execPowerOn s
  | .lineUp p => Sys2Proof.Machine.execLineUp p s
  | .lineDown p => Sys2Proof.Machine.execLineDown p s
  | .pxLineUp => Sys2Proof.Machine.execPxLineUp s
  | .pxLineDown => Sys2Proof.Machine.execPxLineDown s
  | .startDelimiter port => Sys2Proof.Machine.execStartDelimiter port s
  | .lineIdleTruncation port => Sys2Proof.Machine.execLineIdleTruncation port s
  | .frameHeader port h crc => Sys2Proof.Machine.execFrameHeader port h crc s
  | .rowEndDelimiter port bs => Sys2Proof.Machine.execRowEndDelimiter port bs s
  | .ctlEndDelimiter port bs => Sys2Proof.Machine.execCtlEndDelimiter port bs s
  | .returnLaneFrameSent p => Sys2Proof.Machine.execReturnLaneFrameSent p s
  | .nop p => Sys2Proof.Machine.execNop p s
  | .statusRead p => Sys2Proof.Machine.execStatusRead p s
  | .tableRead p => Sys2Proof.Machine.execTableRead p s
  | .faultClear p => Sys2Proof.Machine.execFaultClear p s
  | .engineReset p => Sys2Proof.Machine.execEngineReset p s
  | .unknownCommand p => Sys2Proof.Machine.execUnknownCommand p s
  | .intakeSet p => Sys2Proof.Machine.execIntakeSet p s
  | .tileSet p => Sys2Proof.Machine.execTileSet p s
  | .segmentSet p => Sys2Proof.Machine.execSegmentSet p s
  | .tileQuarantine p => Sys2Proof.Machine.execTileQuarantine p s
  | .tileRestore p => Sys2Proof.Machine.execTileRestore p s
  | .flatClear p => Sys2Proof.Machine.execFlatClear p s
  | .flatWrite p => Sys2Proof.Machine.execFlatWrite p s
  | .flatRead p => Sys2Proof.Machine.execFlatRead p s
  | .canvasSet p => Sys2Proof.Machine.execCanvasSet p s
  | .cellPeek p => Sys2Proof.Machine.execCellPeek p s
  | .visitOpen p => Sys2Proof.Machine.execVisitOpen p s
  | .snapOpen p => Sys2Proof.Machine.execSnapOpen p s
  | .snapClose p => Sys2Proof.Machine.execSnapClose p s
  | .visitClose p => Sys2Proof.Machine.execVisitClose p s
  | .visitAbort p => Sys2Proof.Machine.execVisitAbort p s
  | .resolveSet p => Sys2Proof.Machine.execResolveSet p s
  | .productSet p => Sys2Proof.Machine.execProductSet p s
  | .resolveStart p => Sys2Proof.Machine.execResolveStart p s
  | .resolveAbort p => Sys2Proof.Machine.execResolveAbort p s
  | .bankRelease p => Sys2Proof.Machine.execBankRelease p s
  | .stallTimerExpiry t => Sys2Proof.Machine.execStallTimerExpiry t s
  | .drainTimerExpiry => Sys2Proof.Machine.execDrainTimerExpiry s
  | .egressTimerExpiry => Sys2Proof.Machine.execEgressTimerExpiry s
  | .rowStart p => Sys2Proof.Machine.execRowStart p s
  | .pixelDeposit p => Sys2Proof.Machine.execPixelDeposit p s
  | .flatClearEnd t => Sys2Proof.Machine.execFlatClearEnd t s
  | .scrubCellWrite b => Sys2Proof.Machine.execScrubCellWrite b s
  | .prdFrameSent => Sys2Proof.Machine.execPrdFrameSent s

end Sys2Proof.Machine
end

