-- ==== Sys2Proof/Safety.lean ====
section
/-! DEFINITION. What it means for the engine to be in order: the laws that the spec states of every moment, as predicates of the
state. No step of the model faults, so safety is that these laws hold throughout. -/

namespace Sys2Proof.Machine

/-! ## Row buffers, credits and frames of an ingress port -/

/-- A port that is DOWN receives nothing, sends nothing and has granted nothing (R156, R163). -/
def Port.DownIsQuiet (q : Port) : Prop :=
  q.link = .down → q.rx = .idle ∧ q.lane = none ∧ q.backlog = [] ∧ q.granted = 0

/-- The bounds of a port: O + G at most 32 (R155), two CTL frames (R167), eight RSPs (R162). -/
def State.PortBounds (s : State) (p : PortId) : Prop :=
  s.occupied p + (s.port p).granted ≤ Config.rowBuffers
    ∧ (s.port p).queue.length ≤ Config.queueFrames
    ∧ (s.port p).backlog.length ≤ Config.backlogFrames

/-- A port that is UP with an idle return lane has announced every free buffer and holds no RSP back (R162). -/
def State.LaneServed (s : State) (p : PortId) : Prop :=
  (s.port p).link = .up → (s.port p).lane = none →
    s.occupied p + (s.port p).granted = Config.rowBuffers ∧ (s.port p).backlog = []

/-- The ingress ports are in order. -/
def State.PortsOk (s : State) : Prop :=
  ∀ p : PortId, (s.port p).DownIsQuiet ∧ s.PortBounds p ∧ s.LaneServed p

/-! ## Row sequence -/

/-- At every moment a segment's rows taken plus rows missing equal its next expected row e (R27). -/
def State.RowsAccounted (s : State) : Prop :=
  ∀ (t : TileId) (g : SegId), (s.record t).taken.nth g + (s.record t).missing.nth g = s.nextRow t g

/-! ## Visits, banks and passes -/

/-- The pairs that the visit state and the snap state may form (R101). -/
def pairAllowed : VisitState → SnapState → Bool
  | .noVisit, .noSnap => true
  | .noVisit, .done => true
  | .noVisit, .aborted => true
  | .betweenSnaps, .noSnap => true
  | .betweenSnaps, .done => true
  | .inSnap, .opened => true
  | .inSnap, .draining => true
  | _, _ => false

/-- The Visit Controller is in order: the states form an allowed pair, a bank is FILLING exactly while it is the bank of the open
visit, and the drain timer runs only while a snap drains (R101, R112). -/
def State.VisitOk (s : State) : Prop :=
  pairAllowed s.visit.state s.visit.snap = true
    ∧ (∀ b, (s.bank b).state = .filling ↔ s.visit.state ≠ .noVisit ∧ s.visit.bank = b)
    ∧ (s.visit.drain ≠ .stopped → s.visit.snap = .draining)

/-- The waiting list holds the CLOSED banks, none of them twice (R141). -/
def State.WaitingOk (s : State) : Prop :=
  (∀ b, (s.bank b).state = .closed ↔ b ∈ s.resolve.waiting) ∧ s.resolve.waiting.Nodup

/-- The pass under way is in order: only its bank is RESOLVING and only its bank is held, it has its snapshot, and a row is in
transmission only during a pass and always in RESTARTING and ENDING (R70, R73, R122, R141). -/
def State.PassOk (s : State) : Prop :=
  (∀ b, (s.bank b).state = .resolving → s.resolve.state ≠ .idle ∧ s.resolve.passBank = b)
    ∧ (s.resolve.state = .running ∨ s.resolve.state = .restarting → (s.bank s.resolve.passBank).state = .resolving)
    ∧ (∀ b, (s.bank b).readHold = true ↔ s.resolve.state ≠ .idle ∧ s.resolve.passBank = b)
    ∧ (s.resolve.snapshot = none ↔ s.resolve.state = .idle)
    ∧ (s.resolve.state = .idle → s.px.lane = none)
    ∧ (s.resolve.state = .restarting ∨ s.resolve.state = .ending → s.px.lane ≠ none)

/-- In AUTO the sequencer is never IDLE with a bank waiting (R142). -/
def State.AutoOk (s : State) : Prop :=
  s.resolve.trigger = .auto → s.resolve.state = .idle → s.resolve.waiting = []

/-- Visits, banks and passes are in order. -/
def State.BanksOk (s : State) : Prop := s.VisitOk ∧ s.WaitingOk ∧ s.PassOk ∧ s.AutoOk

/-- No open snap is left complete: the Visit Controller judges it at every event that can make it DONE (R108). -/
def State.SnapJudged (s : State) : Prop := s.snapComplete = false

/-! ## Epochs -/

/-- The epoch law of one bank: a FREE bank's epoch is below 255 (R76); a bank that is not SCRUBBING has scrub position 0 and no
cell of the canvas with an epoch above its own (R68, R78); a SCRUBBING bank has epoch 0, a cell left to write, and epoch 0 in
every cell already written (R78). -/
def State.BankEpochOk (s : State) (b : BankId) : Prop :=
  ((s.bank b).state = .free → (s.bank b).epoch.toNat < 255)
    ∧ ((s.bank b).state ≠ .scrubbing →
        (s.bank b).scrubPos = 0
          ∧ ∀ place, place < s.canvas.width * s.canvas.height →
              (s.cellAt b place).epoch.toNat ≤ (s.bank b).epoch.toNat)
    ∧ ((s.bank b).state = .scrubbing →
        (s.bank b).epoch = 0 ∧ (s.bank b).scrubPos < s.canvas.width * s.canvas.height
          ∧ ∀ place, place < (s.bank b).scrubPos → (s.cellAt b place).epoch = 0)

/-- The epoch law holds of both banks. -/
def State.EpochsOk (s : State) : Prop := ∀ b, s.BankEpochOk b

/-! ## Rows in flight and deposit holds -/

/-- Whether a busy lane's row is still counted, and is a row of the tile (R28, R96). -/
def laneCounts (t : TileId) : Option Lane → Bool
  | none => false
  | some l => l.context.counting && l.tile == t

/-- The rows of a tile that a port holds and that are still counted: taken and not started, or in its lane. -/
def State.rowsHeld (s : State) (t : TileId) (p : PortId) : Nat :=
  (s.port p).taken.countP (fun w => w.tile == t) + (laneCounts t (s.lane p)).toNat

/-- Whether a lane's row deposits into a bank (R87). -/
def laneBoundTo (b : BankId) : Option Lane → Bool
  | none => false
  | some l => l.context.bank == b

/-- How many lanes deposit into a bank. -/
def State.lanesInto (s : State) (b : BankId) : Nat := allPorts.countP fun p => laneBoundTo b (s.lane p)

/-- Rows in flight and deposit holds are in order: each tile's count is the number of its taken rows not yet deposited (R28); the
snap's count is their sum, and is 0 outside a snap (R107); a bank's deposit holds are its lanes (R75); and a lane deposits
into a FILLING bank while its row is counted, into a RETIRING one after (R69, R87, R93, R96). -/
def State.FlightOk (s : State) : Prop :=
  (∀ t, s.inFlight t = (allPorts.map (s.rowsHeld t)).sum)
    ∧ s.visit.inFlight = ((List.finRange 16).map s.inFlight).sum
    ∧ (s.visit.state ≠ .inSnap → s.visit.inFlight = 0)
    ∧ (∀ b, (s.bank b).depositHolds = s.lanesInto b)
    ∧ (∀ p l, s.lane p = some l → (s.bank l.context.bank).state = if l.context.counting then .filling else .retiring)

/-! ## Tables -/

/-- A tile record is at its power-on size or in the ranges of R3; an enabled one is in the ranges (R3). -/
def TileRec.Known (r : TileRec) : Prop :=
  r.width ≤ 4096 ∧ r.height ≤ 4096 ∧ r.segCount ≤ 4 ∧ -16384 ≤ r.ox ∧ r.ox ≤ 32767 ∧ -16384 ≤ r.oy ∧ r.oy ≤ 32767
    ∧ r.fx ≤ 15 ∧ r.fy ≤ 15 ∧ r.orientation ≤ 7
    ∧ (r.enabled = true → 1 ≤ r.width ∧ 1 ≤ r.height ∧ 1 ≤ r.segCount)

/-- A segment record is at its power-on size or in the ranges of R7. -/
def SegRec.Known (r : SegRec) : Prop :=
  r.colOrigin ≤ 4095 ∧ r.rowOrigin ≤ 4095 ∧ r.width ≤ 4096 ∧ r.height ≤ 4096 ∧ r.overscan ≤ 64 ∧ r.skip ≤ 15 ∧ r.shift ≤ 7
    ∧ r.defaultBias ≤ 4194303 ∧ 1 ≤ r.gain ∧ r.gain ≤ 65535 ∧ 1 ≤ r.satThreshold ∧ r.satThreshold ≤ 262143
    ∧ -134217728 ≤ r.lowThreshold ∧ r.lowThreshold ≤ 134217727

/-- The tables hold records in range, and the segment layout of every enabled tile is consistent (R3, R7, R13). -/
def State.TablesOk (s : State) : Prop :=
  (∀ t, (s.tile t).Known) ∧ (∀ t g, (s.seg t g).Known)
    ∧ ∀ t, (s.tile t).enabled = true →
        consistentLayout (s.tile t).width (s.tile t).height (s.layout t (s.tile t).segCount) = true

/-! ## Commands -/

/-- The frame at the head of a port's control queue is `f`; it carries a command code and a payload of a given length (R167,
R168). -/
def State.Heads (s : State) (p : PortId) (f : CtlFrame) (code : Byte) (length : Nat) : Prop :=
  (s.port p).queue.head? = some f ∧ f.code = code ∧ f.payload.length = length

/-! ## What the outside sees -/

/-- The RSP being sent, if there is one. -/
def laneRsp : Option ReturnFrame → List Rsp
  | none => []
  | some (.crd _) => []
  | some (.rsp r) => [r]

/-- The RSPs of a port, composed and not yet sent whole, in the order in which they leave (R162). -/
def State.responses (s : State) (p : PortId) : List Rsp := laneRsp (s.port p).lane ++ (s.port p).backlog

end Sys2Proof.Machine
end

