-- ==== Sys2Proof/Certificates/Slice0/Obligations.lean ====
section
/-! DEFINITION. The statements for the provers, from the numbered rules of spec/. The steps of the links and of the control path
are stated as equations for the whole next state, so that what a step leaves unchanged is part of each; the operations that
several steps share have statements of their own. `log n` is notes/assumptions/n.md. -/

section

open Sys2Proof Sys2Proof.Machine

/-! ## The machine -/

/-- A step takes the command at the front of the queue and runs it on the state with the queue's rest; on an empty queue the
engine idles (the model's choice, log 3). -/
def Obligations.StepTakesTheFrontCommand : Prop :=
  (∀ (c : Instr) (s : State), step { s with pending := c :: s.pending } = exec c s)
    ∧ ∀ s : State, s.pending = [] → step s = .next s

/-- No step faults or is refused: in every state each answers a next state, and none touches the queue of the steps that wait.
That a step which cannot happen in the state it meets still answers a next state is the model's choice (log 2), and so is that
POWER_ON leaves the queue (log 24): file 95 says of the steps only that each is whole and indivisible. What each step does is
stated step by step below; this statement ties the next state to no effect. -/
def Obligations.EveryCommandCompletes : Prop :=
  ∀ (c : Instr) (s : State), ∃ t, exec c s = .next t ∧ t.pending = s.pending

/-- What power-on leaves in every block (R3, R7, R42, R64, R82, R100, R119, R136, R137, R154, R155, R181), and that POWER_ON
brings the engine there from every state. That the walk position starts at 0 and that POWER_ON keeps the queue are the model's
choices (log 20, log 24). -/
def Obligations.PowerOnValues : Prop :=
  (∀ p : PortId,
      State.reset.port p
        = { link := .down, rx := .idle, taken := [], granted := 0
            flags := ⟨false, false, false, false, false, false, false, false⟩, counters := ⟨0, 0, 0, 0, 0, 0, 0, 0, 0⟩
            queue := [], lane := none, backlog := [], owed := 0 }
        ∧ State.reset.occupied p = 0 ∧ State.reset.lane p = none)
    ∧ State.reset.px = { link := .down, rx := .idle, credits := 0, lane := none, counters := ⟨0, 0, 0, 0⟩ }
    ∧ (∀ t : TileId,
        State.reset.tile t
          = { enabled := false, width := 0, height := 0, segCount := 0, ox := 0, oy := 0, fx := 0, fy := 0, orientation := 0
              quarantined := false }
          ∧ (State.reset.record t).state = .off ∧ (State.reset.record t).flags = ⟨false, false, false, false, false, false⟩
          ∧ (State.reset.record t).satPixels = 0 ∧ (State.reset.record t).defPixels = 0
          ∧ (State.reset.record t).clipPixels = 0 ∧ (State.reset.record t).spilled = 0
          ∧ State.reset.inFlight t = 0 ∧ State.reset.stallTimer t = .stopped ∧ (State.reset.flat t).state = .unloaded
          ∧ State.reset.placements.nth t = none)
    ∧ (∀ (t : TileId) (g : SegId),
        State.reset.seg t g
          = { colOrigin := 0, rowOrigin := 0, width := 0, height := 0, colReversed := false, rowReversed := false
              overscan := 0, skip := 0, shift := 0, defaultBias := 0, gain := 4096, satThreshold := 262143
              lowThreshold := -134217728 }
          ∧ State.reset.nextRow t g = 0 ∧ (State.reset.record t).taken.nth g = 0 ∧ (State.reset.record t).missing.nth g = 0
          ∧ State.reset.cal.bias.nth (segIndex t g) = none)
    ∧ State.reset.intake.stallTime = 50 ∧ State.reset.intake.drainTime = 200
    ∧ State.reset.canvas.width = 0 ∧ State.reset.canvas.height = 0
    ∧ (∀ b : BankId,
        (State.reset.bank b).state = .free ∧ (State.reset.bank b).epoch = 0 ∧ (State.reset.bank b).depositHolds = 0
          ∧ (State.reset.bank b).readHold = false ∧ (State.reset.bank b).scrubPos = 0
          ∧ State.reset.visit.records.nth b = none)
    ∧ (∃ empty, State.reset.visit
        = { state := .noVisit, tag := 0, bank := 0, expected := 0, snapsDone := 0, slot := 0, snap := .noSnap, sx := 0, sy := 0
            inFlight := 0, drain := .stopped, records := empty, counter := 0 })
    ∧ (∀ i : Fin 8,
        State.reset.resolve.products.nth i
          = { enabled := false, id := 0, x0 := 0, y0 := 0, x1 := 0, y1 := 0, stride := 1, format := .v, fillValue := 0 })
    ∧ (∃ list, State.reset.resolve
        = { wmin := 128, tAbs := 320, tRel := 4, snapshot := none, products := list, trigger := .auto, release := .autoRelease
            state := .idle, passBank := 0, waiting := [], entry := 0, row := 0, egressMark := false, egressTimer := .stopped
            passNumber := 0, resolveCounter := 0, readable := none, building := none })
    ∧ State.reset.status = ⟨false, false, false, false, false, false⟩ ∧ State.reset.status.attentionCode = 0
    ∧ State.reset.pending = []
    ∧ ∀ s : State,
        exec .powerOn s
          = .next { State.reset with
              canvas := { State.reset.canvas with powerOns := s.canvas.powerOns + 1 }, pending := s.pending }

/-! ## Arithmetic and encodings (R1, R2, R184 to R186) -/

/-- *round* is to the nearest integer with halves away from zero, and *floor* is the largest integer not above (R1). -/
def Obligations.RoundingToNearestAndFloor : Prop :=
  ∀ a b : Int, 0 < b →
    (2 * (a - b * roundDiv a b)).natAbs ≤ b.natAbs
      ∧ ((2 * (a - b * roundDiv a b)).natAbs = b.natAbs → a.natAbs < (b * roundDiv a b).natAbs)
      ∧ b * floorDiv a b ≤ a ∧ a < b * floorDiv a b + b

/-- The CRC register starts at FFFFh and takes each covered byte most significant bit first; the CRC is sent as it stands, most
significant byte first, after the header and after the payload. The bytes that the header CRC covers are those of each kind's
header: the kind, the declared length in three bytes, and the kind's own fields; a header of no kind is four bytes (R2, R182,
R183). -/
def Obligations.CrcRegisterOfCoveredBytes : Prop :=
  crc16 [] = 0xFFFF#16
    ∧ (∀ (bs : List Byte) (b : Byte),
        crc16 (bs ++ [b])
          = [7, 6, 5, 4, 3, 2, 1, 0].foldl
              (fun (reg : BitVec 16) i => if reg.msb ≠ b.getLsbD i then (reg <<< 1) ^^^ 0x1021#16 else reg <<< 1) (crc16 bs))
    ∧ ∀ (h : Header) (payload : List Byte),
        frameBytes h [] = headerBytes h ++ [(crc16 (headerBytes h)).extractLsb' 8 8, (crc16 (headerBytes h)).extractLsb' 0 8]
          ∧ (payload ≠ [] →
              frameBytes h payload
                = frameBytes h [] ++ payload ++ [(crc16 payload).extractLsb' 8 8, (crc16 payload).extractLsb' 0 8])
          ∧ (∀ (len : BitVec 24) (tile seg tag slot : Byte) (row count : BitVec 16), h = .row len tile seg tag slot row count →
              let b := headerBytes h
              b.length = 12 ∧ b[0]? = some 1 ∧ field b 1 3 = len.toNat ∧ b[4]? = some tile ∧ b[5]? = some seg
                ∧ b[6]? = some tag ∧ b[7]? = some slot ∧ field b 8 2 = row.toNat ∧ field b 10 2 = count.toNat)
          ∧ (∀ (len : BitVec 24) (code : Byte) (request : BitVec 16), h = .ctl len code request →
              let b := headerBytes h
              b.length = 7 ∧ b[0]? = some 2 ∧ field b 1 3 = len.toNat ∧ b[4]? = some code ∧ field b 5 2 = request.toNat)
          ∧ (∀ len : BitVec 24, h = .rsp len →
              let b := headerBytes h
              b.length = 4 ∧ b[0]? = some 3 ∧ field b 1 3 = len.toNat)
          ∧ (∀ (len : BitVec 24) (credits : Byte), h = .crd len credits →
              let b := headerBytes h
              b.length = 5 ∧ b[0]? = some 4 ∧ field b 1 3 = len.toNat ∧ b[4]? = some credits)
          ∧ (∀ (len : BitVec 24) (product tag : Byte) (pass row : BitVec 16) (flags : Byte) (pixels : BitVec 16),
              h = .prd len product tag pass row flags pixels →
              let b := headerBytes h
              b.length = 13 ∧ b[0]? = some 5 ∧ field b 1 3 = len.toNat ∧ b[4]? = some product ∧ b[5]? = some tag
                ∧ field b 6 2 = pass.toNat ∧ field b 8 2 = row.toNat ∧ b[10]? = some flags ∧ field b 11 2 = pixels.toNat)
          ∧ (∀ (kind : Byte) (len : BitVec 24), h = .unknown kind len →
              let b := headerBytes h
              b.length = 4 ∧ b[0]? = some kind ∧ field b 1 3 = len.toNat)

/-- A field of a payload reads back as the value sent in it, most significant byte first, unsigned or in two's complement; a ROW
payload holds its samples four to nine bytes, the first in the most significant 18 bits, a last incomplete group is padded, and
the samples of a frame are the first of those groups, as many as its header counts
(spec 00, "Byte order"; R184, R185). -/
def Obligations.PayloadsReadBackAsSent : Prop :=
  (∀ (before after : List Byte) (n : Nat),
     (∀ x : Nat, x < 256 ^ n → field (before ++ beBytes n x ++ after) before.length n = x)
       ∧ (∀ x : Int, 1 ≤ n → -(256 ^ n / 2 : Nat) ≤ x → x < (256 ^ n / 2 : Nat) →
           signedField (before ++ beInt n x ++ after) before.length n = x)
       ∧ (∀ x : Nat, (beBytes n x).length = n))
    ∧ ((∀ (a b c d : Sample) (rest : List Byte),
           unpackGroups ((List.range 9).map (fun i => (a ++ b ++ c ++ d : BitVec 72).extractLsb' (64 - 8 * i) 8) ++ rest)
             = a :: b :: c :: d :: unpackGroups rest)
         ∧ (∀ payload : List Byte, payload.length < 9 → unpackGroups payload = [])
         ∧ (∀ (n : Nat) (payload : List Byte), unpackSamples n payload = (unpackGroups payload).take n)
         ∧ ∀ (n : Nat) (payload : List Byte), payload.length = packedSize n → (unpackSamples n payload).length = n)

/-- The status word is 21 bytes, its fields in the order and places of R186. The payload of an RSP is the status word and then the
data part; an RSP as sent declares 21 bytes and its data part, and a CRD as sent declares none and carries its count. The codes
of results and states, and the bits of the port fault flags and of the latched faults, are those of R186 (R182, R183, R186). -/
def Obligations.StatusWordLayout : Prop :=
  (([.ok, .notTaken, .unknown, .malformed, .range, .state, .locked, .busy, .noBank] : List Result).map Result.code
      = [0, 1, 2, 3, 4, 5, 6, 7, 8]
    ∧ ([.free, .filling, .closed, .resolving, .resolved, .retiring, .scrubbing] : List BankState).map BankState.code
        = [0, 1, 2, 3, 4, 5, 6]
    ∧ ([.noVisit, .betweenSnaps, .inSnap] : List VisitState).map VisitState.code = [0, 1, 2]
    ∧ ([.noSnap, .opened, .draining, .done, .aborted] : List SnapState).map SnapState.code = [0, 1, 2, 3, 4]
    ∧ ([.idle, .running, .restarting, .ending] : List ResolveState).map ResolveState.code = [0, 1, 2, 3]
    ∧ ([.waiting, .receiving, .complete, .short, .stalled, .absent, .quarantined, .off] : List TileState).map TileState.code
        = [0, 1, 2, 3, 4, 5, 6, 7]
    ∧ ([.unloaded, .clearing, .loaded] : List FlatState).map FlatState.code = [0, 1, 2]
    ∧ ([.done, .empty, .disabled] : List EntryStatus).map EntryStatus.code = [0, 1, 2]
    ∧ ([.down, .up] : List LinkState).map LinkState.code = [0, 1]
    ∧ ∀ (a b c : Bool) (i : Fin 8),
        (latchedByte a b c).getLsbD i.val = [a, b, c, false, false, false, false, false][i])
  ∧ (∀ w : StatusWord, w.attention ≤ 4 →
    w.bytes.length = 21 ∧ w.bytes[0]? = some w.code ∧ field w.bytes 1 2 = w.request.toNat
      ∧ w.bytes[3]? = some w.result.code ∧ w.bytes[4]? = some w.flags.byte
      ∧ w.bytes[5]? = some (latchedByte w.overrunSeen w.linkDownSeen w.egressStall)
      ∧ w.bytes[6]? = some w.bank0.code ∧ w.bytes[7]? = some w.epoch0
      ∧ w.bytes[8]? = some w.bank1.code ∧ w.bytes[9]? = some w.epoch1
      ∧ w.bytes[10]? = some w.visit.code ∧ w.bytes[11]? = some w.tag
      ∧ field w.bytes 12 1 = w.slot.val ∧ w.bytes[13]? = some w.snap.code
      ∧ w.bytes[14]? = some w.resolve.code ∧ field w.bytes 15 1 = w.passBank.val
      ∧ field w.bytes 16 2 = w.visitCounter.toNat ∧ field w.bytes 18 2 = w.resolveCounter.toNat
      ∧ field w.bytes 20 1 = w.attention
      ∧ (∀ i : Fin 8, w.flags.byte.getLsbD i.val
          = [w.flags.truncated, w.flags.hdrCrc, w.flags.unknownKind, w.flags.length, w.flags.payloadCrc, w.flags.noCredit,
              w.flags.overrun, w.flags.ctlOverrun][i])
      ∧ ∀ d : List Byte, Rsp.payload ⟨w, d⟩ = w.bytes ++ d ∧ (Rsp.payload ⟨w, d⟩).length = 21 + d.length)
  ∧ (∀ r : Rsp, ReturnFrame.bytes (.rsp r) = frameBytes (.rsp (BitVec.ofNat 24 (21 + r.data.length))) r.payload)
  ∧ ∀ n : Nat, ReturnFrame.bytes (.crd n) = frameBytes (.crd 0 (BitVec.ofNat 8 n)) []

/-! ## The return lanes and responses (R161, R162, R170, R171, R174) -/

/-- When the return lane of a port gives itself to a CRD or to the oldest waiting RSP, and what a frame's end leaves; a step that
frees buffers on every port serves each port's lane so, and changes nothing else (R162). That the RSPs waiting when a CRD has
left are kept as a number owed, and that a CRD may follow a CRD when none waits, is the model's reading (log 16); that a frame
sent on an idle lane changes nothing is the model's choice (log 2). -/
def Obligations.ReturnLaneSendsCreditsAndResponses : Prop :=
  (∀ s : State,
     let u := s.serveAll
     u = { s with ports := u.ports } ∧ ∀ p : PortId, u.port p = (s.serveLane p).port p)
  ∧ ∀ (s : State) (p : PortId),
    let q := s.port p
    let put : Port → State := fun k => { s with ports := s.ports.put p k }
    let free := 32 - (s.occupied p + q.granted)
    (q.link = .down ∨ q.lane ≠ none → s.serveLane p = s)
      ∧ (q.link = .up → q.lane = none →
          (0 < free → q.owed = 0 ∨ q.backlog = [] →
            s.serveLane p = put { q with lane := some (.crd free), granted := q.granted + free })
          ∧ (∀ r rest, q.backlog = r :: rest → free = 0 ∨ q.owed ≠ 0 →
              s.serveLane p
                = put { q with lane := some (.rsp r), backlog := rest, owed := q.owed - 1 })
          ∧ (free = 0 → q.backlog = [] → s.serveLane p = s))
      ∧ (q.lane = none → exec (.returnLaneFrameSent p) s = .next s)
      ∧ (∀ n, q.lane = some (.crd n) →
          exec (.returnLaneFrameSent p) s
            = .next ((put { q with lane := none, owed := q.backlog.length }).serveLane p))
      ∧ (∀ r, q.lane = some (.rsp r) →
          exec (.returnLaneFrameSent p) s = .next ((put { q with lane := none }).serveLane p))

/-- The status word shows the echo, the result, the port's flags, the latched faults, both banks, the visit, the snap, the
sequencer, the counters and the attention code, as they stand. An RSP carries the status word of the moment and clears the flags
it reports, or is lost when the line is DOWN or the backlog full; a command's response also takes its frame off the queue.
Nothing but the port changes (R161, R162, R163, R170, R171). -/
def Obligations.ResponsesCarryTheStatusWord : Prop :=
  (∀ (s : State) (p : PortId) (code : Byte) (request : BitVec 16) (r : Result),
     s.statusWord p code request r
       = { code := code, request := request, result := r, flags := (s.port p).flags
           overrunSeen := s.status.overrunSeen, linkDownSeen := s.status.linkDownSeen, egressStall := s.status.egressStall
           bank0 := (s.bank 0).state, epoch0 := (s.bank 0).epoch, bank1 := (s.bank 1).state, epoch1 := (s.bank 1).epoch
           visit := s.visit.state, tag := s.visit.tag, slot := s.visit.slot, snap := s.visit.snap
           resolve := s.resolve.state, passBank := s.resolve.passBank
           visitCounter := s.visit.counter, resolveCounter := s.resolve.resolveCounter
           attention := s.status.attentionCode })
    ∧ (∀ (s : State) (p : PortId) (f : CtlFrame) (r : Result) (d : List Byte),
         let q := s.port p
         let u := s.respond p f r d
         u = { s with ports := u.ports } ∧ (∀ o, o ≠ p → u.port o = s.port o)
           ∧ (u.port p).queue = q.queue.tail ∧ (u.port p).link = q.link ∧ (u.port p).rx = q.rx ∧ (u.port p).taken = q.taken
           ∧ (q.link = .up → q.backlog.length < 8 →
               u.responses p = s.responses p ++ [⟨s.statusWord p f.code f.request r, d⟩]
                 ∧ (u.port p).flags = ⟨false, false, false, false, false, false, false, false⟩
                 ∧ (u.port p).counters = q.counters)
           ∧ (q.link = .down ∨ 8 ≤ q.backlog.length →
               u.responses p = s.responses p ∧ (u.port p).flags = q.flags
                 ∧ (u.port p).counters = { q.counters with rspLost := q.counters.rspLost + 1 }))

/-- The attention code, in every status word, names the highest-priority pending condition, and is 0 only when none is pending;
FAULT is pending while a latched fault is set; section ENGINE ends with the full set of pending conditions (R173, R174). -/
def Obligations.AttentionCodeNamesTheHighestCondition : Prop :=
  ∀ s : State,
    let u := s.status
    (u.fault = (u.overrunSeen || u.linkDownSeen || u.egressStall))
      ∧ (u.fault = true → u.attentionCode = 1)
      ∧ (u.fault = false → u.tile = true → u.attentionCode = 2)
      ∧ (u.fault = false → u.tile = false → u.snapDone = true → u.attentionCode = 3)
      ∧ (u.fault = false → u.tile = false → u.snapDone = false → u.passDone = true → u.attentionCode = 4)
      ∧ (u.attentionCode = 0 ↔ u.fault = false ∧ u.tile = false ∧ u.snapDone = false ∧ u.passDone = false)
      ∧ (∀ (p : PortId) (code : Byte) (request : BitVec 16) (r : Result),
          (s.statusWord p code request r).attention = u.attentionCode)
      ∧ ∃ c, s.engineBytes.getLast? = some c ∧ c.getLsbD 0 = u.fault ∧ c.getLsbD 1 = u.tile
          ∧ c.getLsbD 2 = u.snapDone ∧ c.getLsbD 3 = u.passDone

/-! ## Lines and frames (R156 to R165) -/

/-- A line that comes UP announces every free buffer at once. A line that goes DOWN cuts the frame in progress and the return
lane, loses the backlog, forgets the credits and latches LINK_DOWN_SEEN; flags, queue and taken rows stay. An event that repeats
the link state changes nothing (R163, R164). That LINE_DISCARD counts a frame once, so that a frame discarded at its header is
not counted again, is the model's reading (log 5). -/
def Obligations.IngressLineEvents : Prop :=
  (∀ (s : State) (p : PortId),
     let q := s.port p
     let put : Port → State := fun k => { s with ports := s.ports.put p k }
     (q.link = .up → exec (.lineUp p) s = .next s)
       ∧ (q.link = .down → q.DownIsQuiet → s.occupied p < 32 →
           exec (.lineUp p) s
             = .next (put { q with link := .up, lane := some (.crd (32 - s.occupied p)), granted := 32 - s.occupied p }))
       ∧ (q.link = .down → q.DownIsQuiet → 32 ≤ s.occupied p →
           exec (.lineUp p) s = .next (put { q with link := .up })))
    ∧ (∀ (s : State) (p : PortId),
         let q := s.port p
         (q.link = .down → exec (.lineDown p) s = .next s)
           ∧ (q.link = .up →
               exec (.lineDown p) s
                 = .next { s with
                     ports := s.ports.put p
                       { q with
                         link := .down, rx := .idle, lane := none, backlog := [], owed := 0, granted := 0
                         counters := { q.counters with
                           lineDiscard := q.counters.lineDiscard + (if q.rx = .idle ∨ q.rx = .rest true then 0 else 1)
                           rspLost := q.counters.rspLost + BitVec.ofNat 32 q.backlog.length } }
                     status := { s.status with linkDownSeen := true } }))

/-- PX: UP sets the link state; DOWN discards a frame in progress, forgets the credits, cuts the row in transmission, which counts
as emitted, and latches LINK_DOWN_SEEN. A good CRD adds its count, up to 65,535, and a sequencer that waits takes a credit in the
same step; every other header is discarded and counted. The frame is in progress up to its end delimiter (R145, R157, R165,
R183). The model's choices and readings: a repeated line event changes nothing, and a frame cut by DOWN is counted (log 13); a
frame is counted once (log 5); a header on PX when it waits for none changes nothing (log 2); either end-delimiter step ends a
frame on PX (log 31), and one before the whole header leaves it (log 30). -/
def Obligations.ProductPortEvents : Prop :=
  (∀ s : State,
     let u : State :=
       { s with
         px := { s.px with
           link := .down, rx := .idle, credits := 0, lane := none
           counters := { s.px.counters with
             lineDiscard := s.px.counters.lineDiscard + (if s.px.rx = .idle ∨ s.px.rx = .rest true then 0 else 1)
             prdCut := s.px.counters.prdCut + (if s.px.lane = none then 0 else 1) } }
         status := { s.status with linkDownSeen := true } }
     exec .pxLineUp s = .next { s with px := { s.px with link := .up } }
       ∧ (s.px.link = .down → exec .pxLineDown s = .next s)
       ∧ (s.px.link = .up → s.px.lane = none → exec .pxLineDown s = .next u)
       ∧ (∀ f, s.px.link = .up → s.px.lane = some f → exec .pxLineDown s = .next (u.rowSent f)))
    ∧ (∀ (s : State) (h : Header) (crc : BitVec 16),
         let gone : State :=
           { s with px := { s.px with
               rx := .rest true, counters := { s.px.counters with lineDiscard := s.px.counters.lineDiscard + 1 } } }
         (s.px.rx ≠ .awaitingHeader → exec (.frameHeader .px h crc) s = .next s)
           ∧ (s.px.rx = .awaitingHeader → crc16 (headerBytes h) ≠ crc → exec (.frameHeader .px h crc) s = .next gone)
           ∧ (s.px.rx = .awaitingHeader → (∀ n, h ≠ .crd 0 n) → exec (.frameHeader .px h crc) s = .next gone)
           ∧ (∀ n : Byte, s.px.rx = .awaitingHeader → h = .crd 0 n → crc16 (headerBytes h) = crc →
               let u : State :=
                 { s with px := { s.px with
                     rx := .rest false, credits := min 65535 (s.px.credits + n.toNat)
                     counters := { s.px.counters with crdIn := s.px.counters.crdIn + 1 } } }
               (s.resolve.state = .running → s.px.lane = none → 1 ≤ u.px.credits →
                   exec (.frameHeader .px h crc) s = .next u.beginRow)
                 ∧ (s.resolve.state ≠ .running ∨ s.px.lane ≠ none ∨ u.px.credits = 0 →
                     exec (.frameHeader .px h crc) s = .next u)))
    ∧ (∀ (s : State) (received : List Byte),
         let ends : State → Prop := fun u =>
           exec (.rowEndDelimiter .px received) s = .next u ∧ exec (.ctlEndDelimiter .px received) s = .next u
         (∀ counted, s.px.rx = .rest counted → ends { s with px := { s.px with rx := .idle } })
           ∧ (s.px.rx = .idle ∨ s.px.rx = .awaitingHeader → ends s))

/-- A start delimiter, or a line idle too long, truncates the frame in progress, whose buffer is free and whose loss is flagged
and counted; a new start delimiter begins a new frame. A header whose CRC fails sets HDR_CRC, one of a kind that the ingress
port does not accept sets UNKNOWN_KIND; both discard the frame and use no credit. Its rest is ignored up to its end delimiter,
or its truncation, which sets TRUNCATED (R156, R157). The model's readings and choices: LINE_DISCARD counts a frame once (log
5); a header on a port that waits for none, an idle line outside a frame, and an end delimiter of the other kind change nothing
(log 2); either end-delimiter step ends an ignored rest (log 31); an end delimiter before the whole header leaves the frame in progress (log 30). -/
def Obligations.BadFramesAreDiscarded : Prop :=
  (∀ (s : State) (p : PortId),
     let q := s.port p
     let put : Port → State := fun k => { s with ports := s.ports.put p k }
     let cut : Port :=
       { q with
         flags := { q.flags with truncated := true }
         counters := { q.counters with lineDiscard := q.counters.lineDiscard + (if q.rx = .rest true then 0 else 1) } }
     let pxCut : PxCounters :=
       { s.px.counters with
         lineDiscard := s.px.counters.lineDiscard + (if s.px.rx = .idle ∨ s.px.rx = .rest true then 0 else 1) }
     (q.link = .up → q.rx = .idle →
         exec (.startDelimiter (.ingress p)) s
           = .next ((put { q with rx := .awaitingHeader }).serveLane p))
       ∧ (q.link = .up → q.rx ≠ .idle →
           exec (.startDelimiter (.ingress p)) s
             = .next ((put { cut with rx := .awaitingHeader }).serveLane p))
       ∧ (q.link = .down → exec (.startDelimiter (.ingress p)) s = .next s)
       ∧ (q.rx ≠ .idle →
           exec (.lineIdleTruncation (.ingress p)) s
             = .next ((put { cut with rx := .idle }).serveLane p))
       ∧ (q.rx = .idle → exec (.lineIdleTruncation (.ingress p)) s = .next s)
       ∧ (s.px.link = .up →
           exec (.startDelimiter .px) s = .next { s with px := { s.px with rx := .awaitingHeader, counters := pxCut } })
       ∧ (s.px.link = .down → exec (.startDelimiter .px) s = .next s)
       ∧ exec (.lineIdleTruncation .px) s = .next { s with px := { s.px with rx := .idle, counters := pxCut } })
    ∧ (∀ (s : State) (p : PortId) (h : Header) (crc : BitVec 16),
         let q := s.port p
         let put : Port → State := fun k => { s with ports := s.ports.put p k }
         let gone : Port :=
           { q with rx := .rest true, counters := { q.counters with lineDiscard := q.counters.lineDiscard + 1 } }
         (q.rx = .awaitingHeader → crc16 (headerBytes h) ≠ crc →
             exec (.frameHeader (.ingress p) h crc) s
               = .next ((put { gone with flags := { q.flags with hdrCrc := true } }).serveLane p))
           ∧ (q.rx = .awaitingHeader → crc16 (headerBytes h) = crc →
               (∀ len tile seg tag slot row count, h ≠ .row len tile seg tag slot row count) →
               (∀ len code request, h ≠ .ctl len code request) →
               exec (.frameHeader (.ingress p) h crc) s
                 = .next
                   ((put { gone with flags := { q.flags with unknownKind := true } }).serveLane p))
           ∧ (q.rx ≠ .awaitingHeader → exec (.frameHeader (.ingress p) h crc) s = .next s))
    ∧ (∀ (s : State) (p : PortId) (received : List Byte),
         let q := s.port p
         let ends : State → Prop := fun u =>
           exec (.rowEndDelimiter (.ingress p) received) s = .next u ∧ exec (.ctlEndDelimiter (.ingress p) received) s = .next u
         (∀ counted, q.rx = .rest counted → ends { s with ports := s.ports.put p { q with rx := .idle } })
           ∧ (q.rx = .idle ∨ q.rx = .awaitingHeader → ends s)
           ∧ (∀ code request len, q.rx = .ctl code request len → exec (.rowEndDelimiter (.ingress p) received) s = .next s)
           ∧ (∀ h len, q.rx = .row h len → exec (.ctlEndDelimiter (.ingress p) received) s = .next s))

/-- A good ROW header uses a credit if there is one; a bad sample count or length discards the frame; else it takes a free
buffer, with NO_CREDIT if it used no credit, or is dropped with OVERRUN, OVERRUN_SEEN and a count. The header of a dropped frame
sets OVERRUN on a WAITING or RECEIVING tile whose open snap it names, raises TILE when the flag was clear, and in every other
case changes nothing (R35, R39, R158). That LINE_DISCARD does not count the drop is the model's reading (log 15); the rest of a
frame discarded or dropped here is ignored up to its end (log 5). -/
def Obligations.RowHeaderUsesCreditAndBuffer : Prop :=
  (∀ (s : State) (p : PortId) (len : BitVec 24) (tile seg tag slot : Byte) (row count : BitVec 16),
     let q := s.port p
     let put : Port → State := fun k => { s with ports := s.ports.put p k }
     let h : Header := .row len tile seg tag slot row count
     let fits := count.toNat ≤ 4160 ∧ len.toNat = 9 * ((count.toNat + 3) / 4)
     q.rx = .awaitingHeader →
       (¬fits →
           exec (.frameHeader (.ingress p) h (crc16 (headerBytes h))) s
             = .next ((put { q with
                   rx := .rest true, granted := q.granted - 1, flags := { q.flags with length := true }
                   counters := { q.counters with lineDiscard := q.counters.lineDiscard + 1 } }).serveLane p))
         ∧ (fits → s.occupied p < 32 →
             exec (.frameHeader (.ingress p) h (crc16 (headerBytes h))) s
               = .next ((put { q with
                     rx := .row ⟨tile, seg, tag, slot, row, count⟩ len.toNat, granted := q.granted - 1
                     flags := { q.flags with noCredit := q.flags.noCredit || q.granted == 0 } }).serveLane p))
         ∧ (fits → 32 ≤ s.occupied p →
             exec (.frameHeader (.ingress p) h (crc16 (headerBytes h))) s
               = .next (({ s with
                   ports := s.ports.put p
                     { q with
                       rx := .rest false, granted := q.granted - 1, flags := { q.flags with overrun := true }
                       counters := { q.counters with overrunDrop := q.counters.overrunDrop + 1 } }
                   status := { s.status with overrunSeen := true } }.blameOverrun
                     ⟨tile, seg, tag, slot, row, count⟩).serveLane p)))
    ∧ (∀ (s : State) (h : RowHeader),
         (∀ (t : TileId) (g : SegId), h.tile.toNat = t.val → h.seg.toNat = g.val → (s.tile t).enabled = true →
             g.val < (s.tile t).segCount → s.snapOpen = true → h.tag = s.visit.tag → h.slot.toNat = s.visit.slot.val →
             (s.record t).state = .waiting ∨ (s.record t).state = .receiving →
             s.blameOverrun h
               = { s with
                   intake := { s.intake with
                     records := s.intake.records.put t
                       { s.record t with flags := { (s.record t).flags with overrun := true } } }
                   status := { s.status with tile := s.status.tile || !(s.record t).flags.overrun } })
           ∧ (∀ t : TileId, h.tile.toNat = t.val →
               (s.tile t).enabled = false ∨ (s.tile t).segCount ≤ h.seg.toNat ∨ s.snapOpen = false ∨ h.tag ≠ s.visit.tag
                 ∨ h.slot.toNat ≠ s.visit.slot.val ∨ (s.record t).state.terminal = true →
               s.blameOverrun h = s)
           ∧ (16 ≤ h.tile.toNat → s.blameOverrun h = s))

/-- A ROW frame that ends is discarded with LENGTH when the bytes received are not those declared; else it is offered to Row
Intake with its samples and the mark of its payload CRC, and counted in ROW_IN. A frame with a payload ends with its payload CRC
(R159; log 6). -/
def Obligations.RowFrameEndIsCheckedAndOffered : Prop :=
  ∀ (s : State) (p : PortId) (h : RowHeader) (len : Nat) (received : List Byte),
    let q := s.port p
    let put : Port → State := fun k => { s with ports := s.ports.put p k }
    let whole := if len = 0 then received = [] else received.length = len + 2
    let good := len = 0 ∨ (crc16 (received.take len)).toNat = field received len 2
    q.rx = .row h len →
      (¬whole →
          exec (.rowEndDelimiter (.ingress p) received) s
            = .next ((put { q with
                  rx := .idle, flags := { q.flags with length := true }
                  counters := { q.counters with lineDiscard := q.counters.lineDiscard + 1 } }).serveLane p))
        ∧ (whole →
            exec (.rowEndDelimiter (.ingress p) received) s
              = .next (((put { q with
                    rx := .idle, flags := { q.flags with payloadCrc := q.flags.payloadCrc || decide (¬good) }
                    counters := { q.counters with rowIn := q.counters.rowIn + 1 } }).arrive p h (decide good)
                      (unpackSamples h.count.toNat (received.take len))).serveLane p))

/-- A good CTL header is received into the control receive area, and a payload declared too long sets LENGTH. A CTL frame that
ends is answered NOT_TAKEN when its length or its payload CRC is bad; a good one is counted in CTL_IN and admitted, or dropped
with CTL_OVERRUN when the queue holds two (R160, R167; log 6, log 7). -/
def Obligations.CtlFramesAreReceivedAndAdmitted : Prop :=
  (∀ (s : State) (p : PortId) (len : BitVec 24) (code : Byte) (request : BitVec 16),
     let q := s.port p
     let put : Port → State := fun k => { s with ports := s.ports.put p k }
     let h : Header := .ctl len code request
     q.rx = .awaitingHeader →
       exec (.frameHeader (.ingress p) h (crc16 (headerBytes h))) s
         = .next ((put { q with
               rx := .ctl code request len.toNat
               flags := { q.flags with length := q.flags.length || decide (2055 < len.toNat) } }).serveLane p))
    ∧ (∀ (s : State) (p : PortId) (code : Byte) (request : BitVec 16) (len : Nat) (received : List Byte),
         let q := s.port p
         let put : Port → State := fun k => { s with ports := s.ports.put p k }
         let whole := (if len = 0 then received = [] else received.length = len + 2) ∧ len ≤ 2055
         let good := len = 0 ∨ (crc16 (received.take len)).toNat = field received len 2
         let bad : PortFlags → State := fun flags =>
           (((put { q with
                 rx := .idle, flags := flags
                 counters := { q.counters with lineDiscard := q.counters.lineDiscard + 1 } }).composeRsp p code request .notTaken
                   []).serveLane p)
         q.rx = .ctl code request len →
           (¬whole → exec (.ctlEndDelimiter (.ingress p) received) s = .next (bad { q.flags with length := true }))
             ∧ (whole → ¬good → exec (.ctlEndDelimiter (.ingress p) received) s = .next (bad { q.flags with payloadCrc := true }))
             ∧ (whole → good → q.queue.length < 2 →
                 exec (.ctlEndDelimiter (.ingress p) received) s
                   = .next ((put { q with
                         rx := .idle, queue := q.queue ++ [⟨code, request, received.take len⟩]
                         counters := { q.counters with ctlIn := q.counters.ctlIn + 1 } }).serveLane p))
             ∧ (whole → good → 2 ≤ q.queue.length →
                 exec (.ctlEndDelimiter (.ingress p) received) s
                   = .next ((put { q with
                         rx := .idle, flags := { q.flags with ctlOverrun := true }
                         counters := { q.counters with
                           ctlIn := q.counters.ctlIn + 1, ctlDrop := q.counters.ctlDrop + 1 } }).serveLane p)))

/-! ## Row Intake (R21 to R38) -/

/-- The arrivals that Row Intake drops, in the order of the tests: unexpected, stale, after the tile's end, below the next
expected row, at or above the segment's height. Each changes what its rule names and nothing else (R21 to R25, R35). -/
def Obligations.ArrivalsAreDroppedInOrder : Prop :=
  ∀ (s : State) (p : PortId) (h : RowHeader) (good : Bool) (samples : List Sample),
    let q := s.port p
    let a := s.arrive p h good samples
    let counted : PortCounters → State := fun c => { s with ports := s.ports.put p { q with counters := c } }
    (16 ≤ h.tile.toNat → a = counted { q.counters with unexpected := q.counters.unexpected + 1 })
      ∧ ∀ t : TileId, h.tile.toNat = t.val →
        ((s.tile t).enabled = false ∨ (s.tile t).segCount ≤ h.seg.toNat →
            a = counted { q.counters with unexpected := q.counters.unexpected + 1 })
          ∧ ∀ g : SegId, h.seg.toNat = g.val → (s.tile t).enabled = true → g.val < (s.tile t).segCount →
            s.SnapJudged →
            let ofOpenSnap := s.snapOpen = true ∧ h.tag = s.visit.tag ∧ h.slot.toNat = s.visit.slot.val
            let k := s.record t
            let live := k.state = .waiting ∨ k.state = .receiving
            let flagged : State → TileFlags → Bool → State := fun u f was =>
              { u with
                intake := { u.intake with records := u.intake.records.put t { k with flags := f } }
                status := { u.status with tile := u.status.tile || !was } }
            let late := counted { q.counters with afterEnd := q.counters.afterEnd + 1 }
            (¬ofOpenSnap → a = counted { q.counters with stale := q.counters.stale + 1 })
              ∧ (ofOpenSnap → k.state = .complete ∨ k.state = .short ∨ k.state = .stalled ∨ k.state = .absent →
                  a = flagged late { k.flags with late := true } k.flags.late)
              ∧ (ofOpenSnap → k.state = .quarantined ∨ k.state = .off → a = late)
              ∧ (ofOpenSnap → live → h.row.toNat < s.nextRow t g →
                  a = flagged s { k.flags with wrongRow := true } k.flags.wrongRow)
              ∧ (ofOpenSnap → live → s.nextRow t g ≤ h.row.toNat → (s.seg t g).height ≤ h.row.toNat →
                  a = flagged s { k.flags with endOfTile := true } k.flags.endOfTile)

/-- An arrival that passes the index tests declares the rows it skips missing; it is declared missing itself when its payload
CRC is bad or its sample count is not the segment's, else it is taken; the next expected row, the counts, the tile's state, its
stall timer and the rows in flight follow; then the tile and the snap are judged. A RECEIVING tile becomes COMPLETE when every
segment in use has reached its height and none of its rows is in flight; received in full with rows in flight, only its stall
timer stops (R26, R27, R28, R33 to R36, R107). -/
def Obligations.ArrivalsMoveTheTile : Prop :=
  (∀ (s : State) (p : PortId) (h : RowHeader) (good : Bool) (samples : List Sample) (t : TileId) (g : SegId),
     h.tile.toNat = t.val → h.seg.toNat = g.val → (s.tile t).enabled = true → g.val < (s.tile t).segCount →
     s.snapOpen = true → h.tag = s.visit.tag → h.slot.toNat = s.visit.slot.val →
     (s.record t).state = .waiting ∨ (s.record t).state = .receiving →
     s.nextRow t g ≤ h.row.toNat → h.row.toNat < (s.seg t g).height →
     let k := s.record t
     let r := h.row.toNat
     let moved : Nat → Nat → TileFlags → Bool → State := fun taken missing flags newFlag =>
       { s with
         intake := { s.intake with
           records := s.intake.records.put t
             { k with
               state := .receiving
               taken := k.taken.put g (k.taken.nth g + taken)
               missing := k.missing.put g (k.missing.nth g + (r - s.nextRow t g + missing))
               flags := flags }
           next := s.intake.next.put (segIndex t g) (r + 1)
           stall := s.intake.stall.put t (if s.intake.stallTime = 0 then .stopped else .running s.intake.stallTime) }
         status := { s.status with tile := s.status.tile || newFlag } }
     let a := s.arrive p h good samples
     (good = false →
         a = ((moved 0 1 { k.flags with dataError := true } (!k.flags.dataError)).settleTile t).judgeSnap)
       ∧ (good = true → h.count.toNat ≠ (s.seg t g).width + (s.seg t g).overscan →
           a = ((moved 0 1 { k.flags with length := true } (!k.flags.length)).settleTile t).judgeSnap)
       ∧ (good = true → h.count.toNat = (s.seg t g).width + (s.seg t g).overscan →
           let m := moved 1 0 k.flags false
           a = (({ m with
             ports := s.ports.put p { s.port p with taken := (s.port p).taken ++ [(⟨t, g, r, s.visit.slot, samples⟩ : TakenRow)] }
             intake := { m.intake with inFlight := s.intake.inFlight.put t (s.inFlight t + 1) }
             visit := { s.visit with inFlight := s.visit.inFlight + 1 } }.settleTile t).judgeSnap)))
    ∧ (∀ (s : State) (t : TileId),
         let full := ∀ g : SegId, g.val < (s.tile t).segCount → s.nextRow t g = (s.seg t g).height
         let stopped : State := { s with intake := { s.intake with stall := s.intake.stall.put t .stopped } }
         ((s.record t).state = .receiving → full → s.inFlight t = 0 →
             s.settleTile t
               = { stopped with intake := { stopped.intake with
                   records := s.intake.records.put t { s.record t with state := .complete } } })
           ∧ ((s.record t).state = .receiving → full → s.inFlight t ≠ 0 → s.settleTile t = stopped)
           ∧ ((s.record t).state ≠ .receiving ∨ ¬full → s.settleTile t = s))

/-- A running stall timer that expires makes a RECEIVING tile STALLED and raises TILE. Drain expiry makes every WAITING tile
ABSENT and every RECEIVING tile that is not received in full SHORT, raises TILE for each, leaves the other tiles, every count
and every flag, and stops the drain timer. Both judge the snap (R35, R37, R38, R108, R112). That the expiry of a stopped timer
changes nothing is the model's choice (log 2). -/
def Obligations.ExpiryEndsUnfinishedTiles : Prop :=
  (∀ (s : State) (t : TileId),
     (s.stallTimer t = .stopped → exec (.stallTimerExpiry t) s = .next s)
       ∧ ∀ ms, s.stallTimer t = .running ms → (s.record t).state = .receiving →
           exec (.stallTimerExpiry t) s
             = .next { s with
                 intake := { s.intake with
                   records := s.intake.records.put t { s.record t with state := .stalled }
                   stall := s.intake.stall.put t .stopped }
                 status := { s.status with tile := true } }.judgeSnap)
    ∧ (∀ s : State,
         (s.visit.drain = .stopped → exec .drainTimerExpiry s = .next s)
           ∧ ∀ ms, s.visit.drain = .running ms → s.visit.snap = .draining →
               ∃ u : State, exec .drainTimerExpiry s = .next u.judgeSnap
                 ∧ u = { s with
                     intake := { s.intake with records := u.intake.records, stall := u.intake.stall }
                     status := { s.status with tile := u.status.tile }
                     visit := { s.visit with drain := .stopped } }
                 ∧ (∀ t : TileId,
                     let full := ∀ g : SegId, g.val < (s.tile t).segCount → s.nextRow t g = (s.seg t g).height
                     ((s.record t).state = .waiting →
                         u.record t = { s.record t with state := .absent } ∧ u.stallTimer t = .stopped)
                       ∧ ((s.record t).state = .receiving → ¬full →
                           u.record t = { s.record t with state := .short } ∧ u.stallTimer t = .stopped)
                       ∧ ((s.record t).state.terminal = true ∨ ((s.record t).state = .receiving ∧ full) →
                           u.record t = s.record t ∧ u.stallTimer t = s.stallTimer t))
                 ∧ (u.status.tile = true ↔ s.status.tile = true ∨ ∃ t, u.record t ≠ s.record t))

/-- INTAKE_SET replaces both settings, and a stall time of 0 stops every running stall timer; a value out of range is refused
RANGE and changes neither (R41). -/
def Obligations.IntakeSetReplacesTheSettings : Prop :=
  ∀ (s : State) (p : PortId) (f : CtlFrame), s.Heads p f 0x10#8 4 →
    let stallTime := field f.payload 0 2
    let drainTime := field f.payload 2 2
    (stallTime ≤ 255 → 1 ≤ drainTime → drainTime ≤ 1000 →
        exec (.intakeSet p) s
          = .next ({ s with intake := { s.intake with
              stallTime := stallTime, drainTime := drainTime
              stall := if stallTime = 0 then .fill 16 .stopped else s.intake.stall } }.respond p f .ok []))
      ∧ (255 < stallTime ∨ drainTime < 1 ∨ 1000 < drainTime →
          exec (.intakeSet p) s = .next (s.respond p f .range []))

/-! ## Focal-plane tables (R3 to R18) -/

/-- A segment layout is consistent exactly when every segment has at least one row and one column and lies inside the tile, and
no two share a tile pixel (R4). -/
def Obligations.ConsistentLayoutsShareNoPixel : Prop :=
  ∀ (width height : Nat) (segs : List SegRec),
    consistentLayout width height segs = true ↔
      (∀ r ∈ segs, 1 ≤ r.width ∧ 1 ≤ r.height ∧ r.colOrigin + r.width ≤ width ∧ r.rowOrigin + r.height ≤ height)
        ∧ segs.Pairwise fun a b =>
            ¬∃ u v : Nat, (a.colOrigin ≤ u ∧ u < a.colOrigin + a.width ∧ a.rowOrigin ≤ v ∧ v < a.rowOrigin + a.height)
              ∧ (b.colOrigin ≤ u ∧ u < b.colOrigin + b.width ∧ b.rowOrigin ≤ v ∧ v < b.rowOrigin + b.height)

/-- TILE_SET and SEGMENT_SET: their tests in their order, and the record each leaves. TILE_SET keeps the quarantine state and
tests the layout of a record that it enables; SEGMENT_SET tests a segment in use of an enabled tile with the new record in place
of the old one (R10, R11, R12, R13, R17, R18). -/
def Obligations.FocalPlaneTablesAreSet : Prop :=
  (∀ (s : State) (p : PortId) (f : CtlFrame), s.Heads p f 0x20#8 14 →
     let b := f.payload
     (16 ≤ field b 0 1 → exec (.tileSet p) s = .next (s.respond p f .range []))
       ∧ ∀ t : TileId, field b 0 1 = t.val →
           let r : TileRec :=
             { enabled := field b 1 1 == 1, width := field b 2 2, height := field b 4 2, segCount := field b 6 1
               ox := signedField b 7 2, oy := signedField b 9 2, fx := field b 11 1, fy := field b 12 1
               orientation := field b 13 1, quarantined := (s.tile t).quarantined }
           let inRange :=
             field b 1 1 ≤ 1 ∧ 1 ≤ r.width ∧ r.width ≤ 4096 ∧ 1 ≤ r.height ∧ r.height ≤ 4096 ∧ 1 ≤ r.segCount
               ∧ r.segCount ≤ 4 ∧ -16384 ≤ r.ox ∧ r.ox ≤ 32767 ∧ -16384 ≤ r.oy ∧ r.oy ≤ 32767 ∧ r.fx ≤ 15 ∧ r.fy ≤ 15
               ∧ r.orientation ≤ 7
           let fits := r.enabled = false ∨ consistentLayout r.width r.height (s.layout t r.segCount) = true
           (s.visitLock = true → exec (.tileSet p) s = .next (s.respond p f .locked []))
             ∧ (s.visitLock = false → ¬(inRange ∧ fits) → exec (.tileSet p) s = .next (s.respond p f .range []))
             ∧ (s.visitLock = false → inRange → fits →
                 exec (.tileSet p) s = .next ({ s with tiles := s.tiles.put t r }.respond p f .ok [])))
    ∧ (∀ (s : State) (p : PortId) (f : CtlFrame), s.Heads p f 0x23#8 27 →
         let b := f.payload
         (16 ≤ field b 0 1 ∨ 4 ≤ field b 1 1 → exec (.segmentSet p) s = .next (s.respond p f .range []))
           ∧ ∀ (t : TileId) (g : SegId), field b 0 1 = t.val → field b 1 1 = g.val →
               let r : SegRec :=
                 { colOrigin := field b 2 2, rowOrigin := field b 4 2, width := field b 6 2, height := field b 8 2
                   colReversed := field b 10 1 == 1, rowReversed := field b 11 1 == 1, overscan := field b 12 1
                   skip := field b 13 1, shift := field b 14 1, defaultBias := field b 15 3, gain := field b 18 2
                   satThreshold := field b 20 3, lowThreshold := signedField b 23 4 }
               let inRange :=
                 field b 10 1 ≤ 1 ∧ field b 11 1 ≤ 1 ∧ r.colOrigin ≤ 4095 ∧ r.rowOrigin ≤ 4095 ∧ 1 ≤ r.width ∧ r.width ≤ 4096
                   ∧ 1 ≤ r.height ∧ r.height ≤ 4096 ∧ r.overscan ≤ 64 ∧ r.skip ≤ 15 ∧ r.shift ≤ 7 ∧ r.defaultBias ≤ 4194303
                   ∧ 1 ≤ r.gain ∧ r.gain ≤ 65535 ∧ 1 ≤ r.satThreshold ∧ r.satThreshold ≤ 262143
                   ∧ -134217728 ≤ r.lowThreshold ∧ r.lowThreshold ≤ 134217727
               let u : State := { s with segs := s.segs.put (segIndex t g) r }
               let fits := (s.tile t).enabled = false ∨ (s.tile t).segCount ≤ g.val
                 ∨ consistentLayout (s.tile t).width (s.tile t).height (u.layout t (s.tile t).segCount) = true
               let locked := s.visitLock = true ∧ (s.tile t).enabled = true
               (locked → exec (.segmentSet p) s = .next (s.respond p f .locked []))
                 ∧ (¬locked → ¬(inRange ∧ fits) → exec (.segmentSet p) s = .next (s.respond p f .range []))
                 ∧ (¬locked → inRange → fits → exec (.segmentSet p) s = .next (u.respond p f .ok [])))

/-- TILE_QUARANTINE is taken in every state; while a snap is open it ends a WAITING or RECEIVING tile as QUARANTINED, raises
TILE, and the snap is judged. TILE_RESTORE clears the quarantine state and changes nothing of the snap (R14, R16, R35, R108). -/
def Obligations.QuarantineActsOnTheOpenSnap : Prop :=
  ∀ (s : State) (p : PortId) (f : CtlFrame),
    (s.Heads p f 0x21#8 1 →
        (16 ≤ field f.payload 0 1 → exec (.tileQuarantine p) s = .next (s.respond p f .range []))
          ∧ ∀ t : TileId, field f.payload 0 1 = t.val →
              let u : State := { s with tiles := s.tiles.put t { s.tile t with quarantined := true } }
              (s.snapOpen = true → (s.record t).state = .waiting ∨ (s.record t).state = .receiving →
                  exec (.tileQuarantine p) s
                    = .next ({ u with
                        intake := { s.intake with
                          records := s.intake.records.put t { s.record t with state := .quarantined }
                          stall := s.intake.stall.put t .stopped }
                        status := { s.status with tile := true } }.judgeSnap.respond p f .ok []))
                ∧ (s.snapOpen = false ∨ (s.record t).state.terminal = true →
                    exec (.tileQuarantine p) s = .next (u.respond p f .ok [])))
      ∧ (s.Heads p f 0x22#8 1 →
          (16 ≤ field f.payload 0 1 → exec (.tileRestore p) s = .next (s.respond p f .range []))
            ∧ ∀ t : TileId, field f.payload 0 1 = t.val →
                exec (.tileRestore p) s
                  = .next ({ s with tiles := s.tiles.put t { s.tile t with quarantined := false } }.respond p f .ok []))

/-! ## Flat maps (R56 to R63) -/

/-- FLAT_CLEAR's tests in their order; a clear begins, or goes on; it ends with every entry 16,384 and the flat LOADED.
FLAT_WRITE's tests in their order; when they pass, the entries (u0, v) to (u0 + count - 1, v) become the values carried, and
every other entry of every map stays (R18, R58, R59, R60, R63). The model's choices: the entries stand until the clear ends (log
10), and the end of a clear that is not under way changes nothing (log 2). -/
def Obligations.FlatsAreClearedAndWritten : Prop :=
  ((∀ (s : State) (p : PortId) (f : CtlFrame), s.Heads p f 0x30#8 1 →
       (16 ≤ field f.payload 0 1 → exec (.flatClear p) s = .next (s.respond p f .range []))
         ∧ ∀ t : TileId, field f.payload 0 1 = t.val →
             let locked := s.visitLock = true ∧ (s.tile t).enabled = true
             (locked → exec (.flatClear p) s = .next (s.respond p f .locked []))
               ∧ (¬locked →
                   exec (.flatClear p) s
                     = .next ({ s with cal := { s.cal with
                         flats := s.cal.flats.put t { s.flat t with state := .clearing } } }.respond p f .ok [])))
     ∧ ∀ (s : State) (t : TileId),
         ((s.flat t).state = .clearing →
             ∃ m : FlatMap, exec (.flatClearEnd t) s = .next { s with cal := { s.cal with flats := s.cal.flats.put t m } }
               ∧ m.state = .loaded ∧ ∀ u v, m.entry u v = 16384#16)
           ∧ ((s.flat t).state ≠ .clearing → exec (.flatClearEnd t) s = .next s))
    ∧ (∀ (s : State) (p : PortId) (f : CtlFrame),
         let b := f.payload
         let v := field b 1 2
         let u0 := field b 3 2
         let count := field b 5 2
         s.Heads p f 0x31#8 (7 + 2 * count) →
           (16 ≤ field b 0 1 → exec (.flatWrite p) s = .next (s.respond p f .range []))
             ∧ ∀ t : TileId, field b 0 1 = t.val →
                 let locked := s.visitLock = true ∧ (s.tile t).enabled = true
                 let inside := 1 ≤ count ∧ count ≤ 1024 ∧ v < (s.tile t).height ∧ u0 + count ≤ (s.tile t).width
                 (locked → exec (.flatWrite p) s = .next (s.respond p f .locked []))
                   ∧ (¬locked → (s.flat t).state ≠ .loaded → exec (.flatWrite p) s = .next (s.respond p f .state []))
                   ∧ (¬locked → (s.flat t).state = .loaded → ¬inside → exec (.flatWrite p) s = .next (s.respond p f .range []))
                   ∧ (¬locked → (s.flat t).state = .loaded → inside → s.TablesOk → Memory.wf s = true →
                       ∃ m : FlatMap,
                         exec (.flatWrite p) s
                           = .next ({ s with cal := { s.cal with flats := s.cal.flats.put t m } }.respond p f .ok [])
                           ∧ m.state = .loaded
                           ∧ (∀ i, i < count → m.entry (u0 + i) v = BitVec.ofNat 16 (field b (7 + 2 * i) 2))
                           ∧ ∀ x y, x < 4096 → y < 4096 → ¬(y = v ∧ u0 ≤ x ∧ x < u0 + count) →
                               m.entry x y = (s.flat t).entry x y))

/-- FLAT_READ: its tests in their order, and the data part it returns: the fields carried, then the stored entries, or 16,384
for every entry while the flat is UNLOADED. It changes no flat and is not subject to the visit lock (R62). -/
def Obligations.FlatReadReturnsTheEntries : Prop :=
  ∀ (s : State) (p : PortId) (f : CtlFrame), s.Heads p f 0x32#8 7 →
    let b := f.payload
    let v := field b 1 2
    let u0 := field b 3 2
    let count := field b 5 2
    (16 ≤ field b 0 1 → exec (.flatRead p) s = .next (s.respond p f .range []))
      ∧ ∀ t : TileId, field b 0 1 = t.val →
          let inside := 1 ≤ count ∧ count ≤ 1024 ∧ v < (s.tile t).height ∧ u0 + count ≤ (s.tile t).width
          ((s.flat t).state = .clearing → exec (.flatRead p) s = .next (s.respond p f .state []))
            ∧ ((s.flat t).state ≠ .clearing → ¬inside → exec (.flatRead p) s = .next (s.respond p f .range []))
            ∧ ((s.flat t).state ≠ .clearing → inside →
                exec (.flatRead p) s
                  = .next (s.respond p f .ok
                      (beBytes 1 t.val ++ beBytes 2 v ++ beBytes 2 u0 ++ beBytes 2 count
                        ++ (List.range count).flatMap fun i =>
                            beBytes 2 (if (s.flat t).state = .loaded then ((s.flat t).entry (u0 + i) v).toNat else 16384))))

/-! ## Canvas memory and banks (R65 to R82) -/

/-- CANVAS_SET: its tests in their order; when they pass, the geometry is replaced and the scrub of both banks begins with epoch
and scrub position 0. A scrub writes the empty record with epoch 0 at its position and goes on to the next place, or ends with
the last cell of the canvas, with the bank FREE and its position 0; no other cell changes (R66, R78). That a scrub write of a
bank that is not SCRUBBING changes nothing is the model's choice (log 2). -/
def Obligations.CanvasIsSetAndScrubbed : Prop :=
  (∀ (s : State) (p : PortId) (f : CtlFrame), s.Heads p f 0x40#8 4 →
     let w := field f.payload 0 2
     let h := field f.payload 2 2
     let bothFree := ∀ b : BankId, (s.bank b).state = .free
     let inRange := 1 ≤ w ∧ w ≤ 16384 ∧ 1 ≤ h ∧ h ≤ 16384
     (¬bothFree → exec (.canvasSet p) s = .next (s.respond p f .state []))
       ∧ (bothFree → ¬inRange → exec (.canvasSet p) s = .next (s.respond p f .range []))
       ∧ (bothFree → inRange →
           exec (.canvasSet p) s
             = .next ({ s with canvas := { s.canvas with
                 width := w, height := h
                 banks := s.canvas.banks.map fun (k : Bank) =>
                   ({ k with state := .scrubbing, epoch := 0, scrubPos := 0 } : Bank) } }.respond p f .ok [])))
    ∧ (∀ (s : State) (b : BankId),
         let k := s.bank b
         let empty : Cell := { epoch := 0, mask := ⟨false, false, false, false⟩, slots := .fill 3 ⟨0, 0⟩ }
         let cells := Store.insert k.cells k.scrubPos empty
         let put : Bank → State := fun x => { s with canvas := { s.canvas with banks := s.canvas.banks.put b x } }
         (k.state = .scrubbing → k.scrubPos + 1 < s.canvas.width * s.canvas.height →
             exec (.scrubCellWrite b) s = .next (put { k with cells := cells, scrubPos := k.scrubPos + 1 }))
           ∧ (k.state = .scrubbing → s.canvas.width * s.canvas.height ≤ k.scrubPos + 1 →
               exec (.scrubCellWrite b) s = .next (put { k with cells := cells, state := .free, scrubPos := 0 }))
           ∧ (k.state ≠ .scrubbing → exec (.scrubCellWrite b) s = .next s)
           ∧ ∀ (place : Nat) (c : Cell),
               (put { k with cells := Store.insert k.cells place c }).cellAt b place = c
                 ∧ ∀ (o : BankId) (other : Nat), o ≠ b ∨ other ≠ place →
                     (put { k with cells := Store.insert k.cells place c }).cellAt o other = s.cellAt o other)

/-- CELL_PEEK: its tests in their order, and the data part it returns: the bank, x and y carried, the bank's epoch, whether the
cell is current, and the record as stored, its mask as SAT, DEF, CLIP and LOW from bit 0. It is taken in every state of the bank
and changes no cell (R80, R184, R186). -/
def Obligations.CellPeekReturnsTheRecord : Prop :=
  ∀ (s : State) (p : PortId) (f : CtlFrame), s.Heads p f 0x41#8 5 →
    let x := field f.payload 1 2
    let y := field f.payload 3 2
    (2 ≤ field f.payload 0 1 → exec (.cellPeek p) s = .next (s.respond p f .range []))
      ∧ ∀ b : BankId, field f.payload 0 1 = b.val →
          let c := s.cellAt b (y * s.canvas.width + x)
          let slotBytes : SlotId → List Byte := fun i =>
            beBytes 6 (c.slots.nth i).flux.toNat ++ beBytes 2 (c.slots.nth i).weight.toNat
          (∀ i : Fin 8, c.mask.byte.getLsbD i.val
              = [c.mask.sat, c.mask.defect, c.mask.clip, c.mask.low, false, false, false, false][i])
            ∧ (s.canvas.width ≤ x ∨ s.canvas.height ≤ y → exec (.cellPeek p) s = .next (s.respond p f .range []))
            ∧ (x < s.canvas.width → y < s.canvas.height →
                exec (.cellPeek p) s
                  = .next (s.respond p f .ok
                      (beBytes 1 b.val ++ beBytes 2 x ++ beBytes 2 y
                        ++ [(s.bank b).epoch, if c.epoch = (s.bank b).epoch then 1 else 0, c.epoch, c.mask.byte]
                        ++ slotBytes 0 ++ slotBytes 1 ++ slotBytes 2)))

/-- A RETIRING bank leaves at the first moment when it has no hold: to FREE below epoch 255, at epoch 255 to SCRUBBING with
epoch 0. With a hold, or in another state, nothing changes (R74, R75, R78). That the scrub of a canvas without cells ends at
once, with the bank FREE and its epoch 0, is the model's reading (log 12). -/
def Obligations.RetiringBankLeavesWithoutHolds : Prop :=
  ∀ (s : State) (b : BankId),
    let k := s.bank b
    let put : Bank → State := fun x => { s with canvas := { s.canvas with banks := s.canvas.banks.put b x } }
    (k.state = .retiring → k.depositHolds = 0 → k.readHold = false → k.epoch ≠ 255#8 →
        s.leaveRetiring b = put { k with state := .free })
      ∧ (k.state = .retiring → k.depositHolds = 0 → k.readHold = false → k.epoch = 255#8 →
          0 < s.canvas.width * s.canvas.height →
          s.leaveRetiring b = put { k with state := .scrubbing, epoch := 0, scrubPos := 0 })
      ∧ (k.state = .retiring → k.depositHolds = 0 → k.readHold = false → k.epoch = 255#8 →
          s.canvas.width * s.canvas.height = 0 →
          s.leaveRetiring b = put { k with state := .free, epoch := 0, scrubPos := 0 })
      ∧ (k.state ≠ .retiring ∨ k.depositHolds ≠ 0 ∨ k.readHold = true → s.leaveRetiring b = s)
      ∧ s.retire b = (put { k with state := .retiring }).leaveRetiring b

/-! ## Calibration and deposit (R5, R43 to R55, R83 to R93) -/

/-- The row bias of the usable overscan, and the estimate and the bias that a row's start leaves, in the four cases of R46, the
new estimate between the old one and the row's. ROW_START: an idle lane starts the oldest taken row of its port, copies the
segment record, the flat state and each image sample with the flat entry of its tile pixel, settles the segment's estimate,
binds the context, and adds a deposit hold (R8, R43 to R46, R75, R87). That ROW_START changes nothing on a busy lane, or with no
taken row, is the model's choice (log 2). -/
def Obligations.RowStartSettlesBiasAndBinds : Prop :=
  (∀ (r : SegRec) (samples : List Sample), samples.length = r.width + r.overscan →
     (r.skip < r.overscan →
         rowBias r samples
           = some (roundDiv
               (16 * ((List.range (r.overscan - r.skip)).map fun j =>
                 ((samples.getD (r.width + r.skip + j) 0#18).toNat : Int)).sum)
               ((r.overscan : Int) - r.skip)))
       ∧ (r.overscan ≤ r.skip → rowBias r samples = none)
       ∧ (∀ b : Int, settleBias r none (some b) = (some b, b))
       ∧ (∀ e b : Int,
           let n := e + floorDiv (b - e) (2 ^ r.shift)
           settleBias r (some e) (some b) = (some n, n) ∧ min e b ≤ n ∧ n ≤ max e b ∧ (r.shift = 0 → n = b))
       ∧ (∀ e : Int, settleBias r (some e) none = (some e, e))
       ∧ settleBias r none none = (none, (r.defaultBias : Int)))
    ∧ (∀ (s : State) (p : PortId),
         (∀ (w : TakenRow) (rest : List TakenRow) (q : Placement), s.lane p = none → (s.port p).taken = w :: rest →
             s.placements.nth w.tile = some q →
             let r := s.seg w.tile w.seg
             let i := segIndex w.tile w.seg
             let bias := settleBias r (s.cal.bias.nth i) (rowBias r w.samples)
             ∃ todo : List (Sample × Flat),
               exec (.rowStart p) s
                 = .next { s with
                     ports := s.ports.put p { s.port p with taken := rest }
                     cal := { s.cal with
                       bias := s.cal.bias.put i bias.1
                       lanes := s.cal.lanes.put p (some
                         { tile := w.tile, row := w.row, seg := r, flatState := (s.flat w.tile).state, bias := bias.2, next := 0
                           todo := todo, context := { placement := q, slot := w.slot, bank := s.visit.bank, counting := true } }) }
                     canvas := { s.canvas with
                       banks := s.canvas.banks.put s.visit.bank
                         { s.bank s.visit.bank with depositHolds := (s.bank s.visit.bank).depositHolds + 1 } } }
                 ∧ todo.length = min r.width w.samples.length
                 ∧ ∀ k, k < todo.length →
                     let u := if r.colReversed then r.colOrigin + r.width - 1 - k else r.colOrigin + k
                     let v := if r.rowReversed then r.rowOrigin + r.height - 1 - w.row else r.rowOrigin + w.row
                     todo[k]? = some (w.samples.getD k 0#18, (s.flat w.tile).entry u v))
           ∧ (s.lane p ≠ none ∨ (s.port p).taken = [] → exec (.rowStart p) s = .next s))

/-- A pixel of a started row: SAT at or above the saturation threshold; else DEF where the flat value is 0; else a value,
rounded once from the exact product, clamped with CLIP, and LOW below the low threshold. An UNLOADED flat is unity (R49 to R54).
-/
def Obligations.PixelsAreCalibratedExactly : Prop :=
  ∀ (l : Lane) (a : Sample) (entry : Flat),
    let F := if l.flatState = .unloaded then 16384 else entry.toNat
    let c := roundDiv ((16 * (a.toNat : Int) - l.bias) * l.seg.gain * F) 67108864
    let v := max (-134217728) (min c 134217727)
    (l.seg.satThreshold ≤ a.toNat → l.pixel a entry = .sat)
      ∧ (a.toNat < l.seg.satThreshold → F = 0 → l.pixel a entry = .defect)
      ∧ (a.toNat < l.seg.satThreshold → F ≠ 0 →
          l.pixel a entry = .value v (decide (c < -134217728 ∨ 134217727 < c)) (decide (v < l.seg.lowThreshold)))

/-- The fine position splits by floor division into whole cells and a remainder of 0 to 15, and the four weights, each 0 to 256
and 256 in all, are the same for every pixel of the tile (R83, R84, R85). -/
def Obligations.PlacementWeightsSumTo256 : Prop :=
  ∀ (r : TileRec) (sx sy : Int),
    let q := placeTile r sx sy
    let qx := floorDiv (r.fx + sx) 16
    let qy := floorDiv (r.fy + sy) 16
    q.baseX = r.ox + qx ∧ q.baseY = r.oy + qy
      ∧ (r.fx ≤ 15 → -1024 ≤ sx → sx ≤ 1024 → -16384 ≤ r.ox → r.ox ≤ 32767 → -16448 ≤ q.baseX ∧ q.baseX ≤ 32831)
      ∧ (r.fy ≤ 15 → -1024 ≤ sy → sy ≤ 1024 → -16384 ≤ r.oy → r.oy ≤ 32767 → -16448 ≤ q.baseY ∧ q.baseY ≤ 32831)
      ∧ q.orientation = r.orientation ∧ q.width = r.width ∧ q.height = r.height
      ∧ (q.rx : Int) = r.fx + sx - 16 * qx ∧ (q.ry : Int) = r.fy + sy - 16 * qy ∧ q.rx ≤ 15 ∧ q.ry ≤ 15
      ∧ (r.fx ≤ 15 → -1024 ≤ sx → sx ≤ 1024 → -64 ≤ qx ∧ qx ≤ 64)
      ∧ (r.fy ≤ 15 → -1024 ≤ sy → sy ≤ 1024 → -64 ≤ qy ∧ qy ≤ 64)
      ∧ q.w00 = (16 - q.rx) * (16 - q.ry) ∧ q.w10 = q.rx * (16 - q.ry) ∧ q.w01 = (16 - q.rx) * q.ry ∧ q.w11 = q.rx * q.ry
      ∧ q.w00 ≤ 256 ∧ q.w10 ≤ 256 ∧ q.w01 ≤ 256 ∧ q.w11 ≤ 256 ∧ q.w00 + q.w10 + q.w01 + q.w11 = 256
      ∧ ∀ u v : Int, (q.targets u v).map (·.weight) = [q.w00, q.w10, q.w01, q.w11]

/-- The placement offset of each orientation; every offset of a tile pixel lies in the footprint, and no two pixels share one;
the four targets are the coarse cell and its neighbours (R5, R86). -/
def Obligations.OrientationsPlaceEachPixelOnce : Prop :=
  (∀ (w h : Nat) (u v : Int),
      (List.range 8).map (fun o => placementOffset o w h u v)
        = [(u, v), (w - 1 - u, v), (u, h - 1 - v), (w - 1 - u, h - 1 - v),
            (v, u), (h - 1 - v, u), (v, w - 1 - u), (h - 1 - v, w - 1 - u)])
    ∧ (∀ (o w h : Nat) (u v : Int), o ≤ 7 → 0 ≤ u → u < w → 0 ≤ v → v < h →
        let d := placementOffset o w h u v
        (0 ≤ d.1 ∧ d.1 < (if o ≤ 3 then w else h) ∧ 0 ≤ d.2 ∧ d.2 < (if o ≤ 3 then h else w))
          ∧ ∀ u' v' : Int, placementOffset o w h u' v' = d → u' = u ∧ v' = v)
    ∧ ∀ (q : Placement) (u v : Int),
        let d := placementOffset q.orientation q.width q.height u v
        (q.targets u v).map (fun g => (g.x, g.y))
          = [(q.baseX + d.1, q.baseY + d.2), (q.baseX + d.1 + 1, q.baseY + d.2),
              (q.baseX + d.1, q.baseY + d.2 + 1), (q.baseX + d.1 + 1, q.baseY + d.2 + 1)]

/-- One target of a pixel: at weight 0 it is not touched; on the canvas its cell, emptied first if it is not current, takes the
pixel's flux, weight and conditions; off the canvas its weight is spill, while the row is counted. No other cell, bank or tile
changes (R67, R68, R89, R90, R91, R92). -/
def Obligations.TargetsAreDepositedOrSpilled : Prop :=
  ∀ (s : State) (x : Context) (t : TileId) (kind : PixelKind) (g : Target),
    let u := State.depositTarget x t kind s g
    let onCanvas := 0 ≤ g.x ∧ g.x < s.canvas.width ∧ 0 ≤ g.y ∧ g.y < s.canvas.height
    let place := g.y.toNat * s.canvas.width + g.x.toNat
    let epoch := (s.bank x.bank).epoch
    let old := s.cellAt x.bank place
    let read : Cell := if old.epoch = epoch then old else ⟨epoch, ⟨false, false, false, false⟩, .fill 3 ⟨0, 0⟩⟩
    (g.weight = 0 → u = s)
      ∧ (g.weight ≠ 0 → onCanvas →
          (∃ cells, u = { s with canvas := { s.canvas with
              banks := s.canvas.banks.put x.bank { s.bank x.bank with cells := cells } } })
            ∧ (∀ (o : BankId) (other : Nat), o ≠ x.bank ∨ other ≠ place → u.cellAt o other = s.cellAt o other)
            ∧ (kind = .sat → u.cellAt x.bank place = { read with mask := { read.mask with sat := true } })
            ∧ (kind = .defect → u.cellAt x.bank place = { read with mask := { read.mask with defect := true } })
            ∧ (∀ v clip low, kind = .value v clip low →
                let k := read.slots.nth x.slot
                u.cellAt x.bank place
                  = { epoch := epoch
                      mask := { read.mask with clip := read.mask.clip || clip, low := read.mask.low || low }
                      slots := read.slots.put x.slot
                        { flux := BitVec.ofInt 48 (k.flux.toInt + v * g.weight)
                          weight := BitVec.ofNat 16 (k.weight.toNat + g.weight) } }))
      ∧ (g.weight ≠ 0 → ¬onCanvas → x.counting = true →
          u = { s with intake := { s.intake with
            records := s.intake.records.put t { s.record t with spilled := (s.record t).spilled + g.weight } } })
      ∧ (g.weight ≠ 0 → ¬onCanvas → x.counting = false → u = s)

/-- PIXEL_DEPOSIT: the lane's next image sample is calibrated, counted while the row is counted, and deposited into its four
targets; the lane goes on to the next sample, and after the last one the row ends: the lane is idle, the deposit hold is removed
from the row's bank, which leaves RETIRING without holds; the rows in flight of the tile and the snap fall, and both are judged,
when the row is still counted; the port announces the freed buffer (R28, R31, R43, R55, R75, R88, R93, R107). That a pixel on an
idle lane changes nothing is the model's choice (log 2). -/
def Obligations.PixelsAreDepositedToTheRowsEnd : Prop :=
  (∀ (s : State) (p : PortId),
     (s.lane p = none → exec (.pixelDeposit p) s = .next s)
       ∧ ∀ (l : Lane) (a : Sample) (entry : Flat) (rest : List (Sample × Flat)), s.lane p = some l → l.todo = (a, entry) :: rest →
           let kind := l.pixel a entry
           let column := if l.seg.colReversed then l.seg.colOrigin + l.seg.width - 1 - l.next else l.seg.colOrigin + l.next
           let row := if l.seg.rowReversed then l.seg.rowOrigin + l.seg.height - 1 - l.row else l.seg.rowOrigin + l.row
           let k := s.record l.tile
           let counted : State :=
             if l.context.counting then
               { s with intake := { s.intake with
                 records := s.intake.records.put l.tile
                   { k with
                     satPixels := k.satPixels + (if kind = .sat then 1 else 0)
                     defPixels := k.defPixels + (if kind = .defect then 1 else 0)
                     clipPixels := k.clipPixels
                       + (match kind with
                         | .sat => 0
                         | .defect => 0
                         | .value _ clip _ => if clip then 1 else 0) } } }
             else s
           let u := (l.context.placement.targets column row).foldl (State.depositTarget l.context l.tile kind) counted
           let l' := { l with todo := rest, next := l.next + 1 }
           (rest ≠ [] →
               exec (.pixelDeposit p) s = .next { u with cal := { u.cal with lanes := u.cal.lanes.put p (some l') } })
             ∧ (rest = [] → exec (.pixelDeposit p) s = .next (u.endRow p l')))
    ∧ (∀ (s : State) (p : PortId) (l : Lane),
         let b := l.context.bank
         let u : State :=
           { s with
             cal := { s.cal with lanes := s.cal.lanes.put p none }
             canvas := { s.canvas with
               banks := s.canvas.banks.put b { s.bank b with depositHolds := (s.bank b).depositHolds - 1 } } }
         let v := u.leaveRetiring b
         (l.context.counting = false → s.endRow p l = v.serveLane p)
           ∧ (l.context.counting = true →
               s.endRow p l
                 = (({ v with
                     intake := { v.intake with inFlight := v.intake.inFlight.put l.tile (s.inFlight l.tile - 1) }
                     visit := { v.visit with inFlight := s.visit.inFlight - 1 } }.settleTile l.tile).judgeSnap).serveLane p))

/-! ## Visits and snaps (R101 to R119) -/

/-- VISIT_OPEN: its tests in their order; when they pass, the first FREE bank becomes FILLING with its epoch raised by one, and
the visit stands between snaps (R71, R102, R103). -/
def Obligations.VisitOpenTakesAFreeBank : Prop :=
  ∀ (s : State) (p : PortId) (f : CtlFrame), s.Heads p f 0x50#8 2 →
    let expected := field f.payload 1 1
    let filling := ∃ b : BankId, (s.bank b).state = .filling
    let inRange := 1 ≤ expected ∧ expected ≤ 3
    let clearing := ∃ t : TileId, (s.tile t).enabled = true ∧ (s.flat t).state = .clearing
    (filling → exec (.visitOpen p) s = .next (s.respond p f .state []))
      ∧ (¬filling → ¬inRange → exec (.visitOpen p) s = .next (s.respond p f .range []))
      ∧ (¬filling → inRange → clearing → exec (.visitOpen p) s = .next (s.respond p f .state []))
      ∧ (¬filling → inRange → ¬clearing → (∀ b : BankId, (s.bank b).state ≠ .free) →
          exec (.visitOpen p) s = .next (s.respond p f .noBank []))
      ∧ ∀ b : BankId, ¬filling → inRange → ¬clearing → (s.bank b).state = .free →
          (∀ o : BankId, (s.bank o).state = .free → b ≤ o) →
          let tag := BitVec.ofNat 8 (field f.payload 0 1)
          let epoch := (s.bank b).epoch + 1
          exec (.visitOpen p) s
            = .next ({ s with
                canvas := { s.canvas with
                  banks := s.canvas.banks.put b { s.bank b with state := .filling, epoch := epoch } }
                visit := { s.visit with
                  state := .betweenSnaps, tag := tag, bank := b, expected := expected, snapsDone := 0, snap := .noSnap
                  inFlight := 0, drain := .stopped
                  records := s.visit.records.put b (some { tag := tag, snapsUsed := 0 }) } }.respond p f .ok
                    [BitVec.ofNat 8 b.val, epoch])

/-- SNAP_OPEN: its tests in their order; when they pass, the snap opens in the next slot, every tile record is cleared into OFF,
QUARANTINED or WAITING, every estimate becomes none, and a placement record is built for each WAITING tile; a snap without one
is DONE at once (R32, R47, R83, R105, R106). -/
def Obligations.SnapOpenPreparesEveryBlock : Prop :=
  ∀ (s : State) (p : PortId) (f : CtlFrame), s.Heads p f 0x51#8 4 →
    let sx := signedField f.payload 0 2
    let sy := signedField f.payload 2 2
    let ready := s.visit.state = .betweenSnaps ∧ s.visit.snapsDone < s.visit.expected
    let inRange := -1024 ≤ sx ∧ sx ≤ 1024 ∧ -1024 ≤ sy ∧ sy ≤ 1024
    (¬ready → exec (.snapOpen p) s = .next (s.respond p f .state []))
      ∧ (ready → ¬inRange → exec (.snapOpen p) s = .next (s.respond p f .range []))
      ∧ ∀ slot : SlotId, ready → inRange → slot.val = s.visit.snapsDone →
          ∃ u : State,
            exec (.snapOpen p) s = .next (u.judgeSnap.respond p f .ok [BitVec.ofNat 8 slot.val])
              ∧ u = { s with
                  visit := { s.visit with
                    state := .inSnap, snap := .opened, slot := slot, sx := sx, sy := sy, inFlight := 0, drain := .stopped }
                  intake := { s.intake with
                    next := u.intake.next, records := u.intake.records, stall := u.intake.stall }
                  cal := { s.cal with bias := u.cal.bias }
                  placements := u.placements }
              ∧ (∀ t : TileId,
                  let waits := (s.tile t).enabled = true ∧ (s.tile t).quarantined = false
                  (u.record t).state
                    = (if (s.tile t).enabled = false then .off
                        else if (s.tile t).quarantined = true then .quarantined else .waiting)
                  ∧ (u.record t).flags = ⟨false, false, false, false, false, false⟩ ∧ (u.record t).satPixels = 0
                  ∧ (u.record t).defPixels = 0 ∧ (u.record t).clipPixels = 0 ∧ (u.record t).spilled = 0
                  ∧ u.stallTimer t = .stopped
                  ∧ (waits → u.placements.nth t = some (placeTile (s.tile t) sx sy))
                  ∧ (¬waits → u.placements.nth t = none)
                  ∧ ∀ g : SegId, (u.record t).taken.nth g = 0 ∧ (u.record t).missing.nth g = 0 ∧ u.nextRow t g = 0
                      ∧ u.cal.bias.nth (segIndex t g) = none)

/-- SNAP_CLOSE begins the drain of an OPEN snap, is taken without change while it drains, and is refused STATE otherwise.
VISIT_CLOSE is taken between snaps alone. VISIT_ABORT of a FILLING bank ends the open visit: its snap is ABORTED, its unstarted
rows are discarded and their buffers announced, its started rows go on uncounted, and its bank retires; of a CLOSED bank it
withdraws the visit; in any other state it is refused STATE (R40, R96, R111, R113, R114, R115, R141). -/
def Obligations.VisitsEndByCloseOrAbort : Prop :=
  (∀ (s : State) (p : PortId) (f : CtlFrame),
     (s.Heads p f 0x52#8 0 →
         (s.visit.snap = .opened →
             exec (.snapClose p) s
               = .next ({ s with visit := { s.visit with
                   snap := .draining, drain := .running s.intake.drainTime } }.respond p f .ok []))
           ∧ (s.visit.snap = .draining → exec (.snapClose p) s = .next (s.respond p f .ok []))
           ∧ (s.visit.snap = .noSnap ∨ s.visit.snap = .done ∨ s.visit.snap = .aborted →
               exec (.snapClose p) s = .next (s.respond p f .state [])))
       ∧ (s.Heads p f 0x53#8 0 →
           (s.visit.state = .betweenSnaps → exec (.visitClose p) s = .next (s.closeVisit.respond p f .ok []))
             ∧ (s.visit.state ≠ .betweenSnaps → exec (.visitClose p) s = .next (s.respond p f .state []))))
    ∧ (∀ (s : State) (p : PortId) (f : CtlFrame), s.Heads p f 0x54#8 1 →
         (2 ≤ field f.payload 0 1 → exec (.visitAbort p) s = .next (s.respond p f .range []))
           ∧ ∀ b : BankId, field f.payload 0 1 = b.val →
               ((s.bank b).state ≠ .filling → (s.bank b).state ≠ .closed →
                   exec (.visitAbort p) s = .next (s.respond p f .state []))
                 ∧ ((s.bank b).state = .closed →
                     exec (.visitAbort p) s
                       = .next (({ s with
                           visit := { s.visit with records := s.visit.records.put b none }
                           resolve := { s.resolve with waiting := s.resolve.waiting.filter (· != b) } }.retire b).respond
                             p f .ok []))
                 ∧ ((s.bank b).state = .filling →
                     ∃ u : State,
                       exec (.visitAbort p) s = .next ((u.retire b).serveAll.respond p f .ok [])
                         ∧ u = { s with
                             ports := u.ports, cal := { s.cal with lanes := u.cal.lanes }
                             intake := { s.intake with stall := .fill 16 .stopped, inFlight := .fill 16 0 }
                             visit := { s.visit with
                               state := .noVisit, inFlight := 0, drain := .stopped, records := s.visit.records.put b none
                               snap := if s.visit.snap = .opened ∨ s.visit.snap = .draining then .aborted else s.visit.snap } }
                         ∧ (∀ o : PortId, u.port o = { s.port o with taken := [] })
                         ∧ ∀ o : PortId,
                             (s.lane o = none → u.lane o = none)
                               ∧ ∀ l, s.lane o = some l →
                                   (l.context.bank = b → u.lane o = some { l with context := { l.context with counting := false } })
                                     ∧ (l.context.bank ≠ b → u.lane o = some l)))

/-- The open snap becomes DONE exactly when every tile is terminal and none of its rows is in flight; the last expected snap
closes the visit: its bank becomes CLOSED, its record and the visit counter follow, and the bank joins the waiting list (R72,
R108, R109, R110, R141). -/
def Obligations.SnapDoneAndVisitClose : Prop :=
  ∀ s : State,
    let complete := (s.visit.snap = .opened ∨ s.visit.snap = .draining)
      ∧ (∀ t : TileId, (s.record t).state ≠ .waiting ∧ (s.record t).state ≠ .receiving) ∧ s.visit.inFlight = 0
    let v := s.visit
    let done : State :=
      { s with
        visit := { v with snap := .done, drain := .stopped, snapsDone := v.snapsDone + 1 }
        status := { s.status with snapDone := true } }
    (¬complete → s.judgeSnap = s)
      ∧ (complete → v.snapsDone + 1 ≠ v.expected →
          s.judgeSnap = { done with visit := { done.visit with state := .betweenSnaps } })
      ∧ (complete → v.snapsDone + 1 = v.expected → s.judgeSnap = done.closeVisit)
      ∧ s.closeVisit
          = { s with
              canvas := { s.canvas with banks := s.canvas.banks.put v.bank { s.bank v.bank with state := .closed } }
              visit := { v with
                state := .noVisit
                records := v.records.put v.bank (some { tag := v.tag, snapsUsed := v.snapsDone })
                counter := v.counter + 1 }
              resolve := { s.resolve with waiting := s.resolve.waiting ++ [v.bank] } }.autoStart

/-! ## Snap Resolution (R123 to R134) -/

/-- The output pixel of a cell as read: the used slots with weight Wmin or more are valid; their number and agreement give the
class, the value, the weight and REJ; the mask joins the cell's conditions with REJ, LOWCOV and THIN (R125, R126, R128 to R133).
-/
def Obligations.OutputPixelOfACell : Prop :=
  ∀ (p : Snapshot) (fill : Int) (c : Cell),
    let x := resolveCell p fill c
    let weight : SlotId → Nat := fun i => (c.slots.nth i).weight.toNat
    let flux : SlotId → Int := fun i => (c.slots.nth i).flux.toInt
    let mean : SlotId → Int := fun i => roundDiv (flux i) (weight i)
    let valid : SlotId → Prop := fun i => i.val < p.snapsUsed ∧ p.wmin ≤ weight i
    let agrees : SlotId → SlotId → Prop := fun i j =>
      ((mean i - mean j).natAbs : Int) ≤ p.tAbs + floorDiv (p.tRel * max ((mean i).natAbs : Int) (mean j).natAbs) 256
    let gives : PixelClass → Int → Nat → Bool → Prop := fun cls value w rej =>
      x.cls = cls ∧ x.value = value ∧ x.weight = w ∧ x.mask.rej = rej
    ((∀ i, ¬valid i) → gives .nodata fill 0 false)
      ∧ (∀ i, valid i → (∀ j, j ≠ i → ¬valid j) → gives .single (mean i) (weight i) false)
      ∧ (∀ i j, i ≠ j → valid i → valid j → (∀ k, k ≠ i → k ≠ j → ¬valid k) →
          (agrees i j → gives .pair (roundDiv (flux i + flux j) ((weight i + weight j : Nat) : Int)) (weight i + weight j) false)
            ∧ (¬agrees i j → mean i ≤ mean j → gives .split (mean i) (weight i) true))
      ∧ ((∀ i, valid i) → (∀ i, ∃ j, j ≠ i ∧ agrees i j) →
          gives .full (roundDiv (flux 0 + flux 1 + flux 2) ((weight 0 + weight 1 + weight 2 : Nat) : Int))
            (weight 0 + weight 1 + weight 2) false)
      ∧ (∀ i j k : SlotId, i ≠ j → j ≠ k → i ≠ k → (∀ l, valid l) →
          (agrees i j → ¬agrees i k → ¬agrees j k →
              gives .majority (roundDiv (flux i + flux j) ((weight i + weight j : Nat) : Int)) (weight i + weight j) true)
            ∧ (¬agrees i j → ¬agrees i k → ¬agrees j k → mean i ≤ mean j → mean j ≤ mean k →
                gives .discord (mean j) (weight j) true))
      ∧ x.mask.cell = c.mask
      ∧ (x.mask.lowcov = true ↔ ∃ i : SlotId, i.val < p.snapsUsed ∧ 1 ≤ weight i ∧ weight i < p.wmin)
      ∧ (x.mask.thin = true ↔ 1 ≤ x.weight ∧ x.weight ≤ 255)

/-- A position off the canvas gives a PADDING pixel, whatever the cells hold; one on it gives the pixel of its cell as read, in
which a cell that is not current is empty (R68, R123, R124). -/
def Obligations.PositionsOffTheCanvasArePadded : Prop :=
  ∀ (s : State) (p : Snapshot) (b : BankId) (fill x y : Int),
    let onCanvas := 0 ≤ x ∧ x < s.canvas.width ∧ 0 ≤ y ∧ y < s.canvas.height
    let c := s.cellAt b (y.toNat * s.canvas.width + x.toNat)
    let empty : Cell := ⟨(s.bank b).epoch, ⟨false, false, false, false⟩, .fill 3 ⟨0, 0⟩⟩
    (¬onCanvas →
        s.resolveAt p b fill x y
          = { cls := .padding, value := fill, weight := 0, mask := ⟨⟨false, false, false, false⟩, false, false, false⟩ })
      ∧ (s.canvas.width = 0 ∨ s.canvas.height = 0 → (s.resolveAt p b fill x y).cls = .padding)
      ∧ (onCanvas →
          s.resolveAt p b fill x y = resolveCell p fill (if c.epoch = (s.bank b).epoch then c else empty)
            ∧ (s.resolveAt p b fill x y).cls ≠ .padding)

/-- Agreement is a band of T_abs + floor(T_rel × max / 256): its bounds, symmetry, equal means, the cases T_rel = 0 and T_abs =
0, and a chain that is not transitive (R127). -/
def Obligations.AgreementIsAToleranceBand : Prop :=
  (∀ (p : Snapshot) (a b : SlotValue),
      (agree p a b = true ↔ ((a.mean - b.mean).natAbs : Int) ≤ tolerance p a b)
        ∧ tolerance p a b = p.tAbs + floorDiv (p.tRel * max (a.mean.natAbs : Int) b.mean.natAbs) 256
        ∧ 0 ≤ tolerance p a b
        ∧ (p.tAbs ≤ 1048575 → p.tRel ≤ 255 → a.mean.natAbs ≤ 134217728 → b.mean.natAbs ≤ 134217728 →
            tolerance p a b ≤ 134742015)
        ∧ agree p a b = agree p b a ∧ tolerance p a b = tolerance p b a
        ∧ (a.mean = b.mean → agree p a b = true)
        ∧ (p.tRel = 0 → tolerance p a b = p.tAbs)
        ∧ (p.tRel = 0 → p.tAbs = 0 → (agree p a b = true ↔ a.mean = b.mean)))
    ∧ ∃ (p : Snapshot) (a b c : SlotValue), agree p a b = true ∧ agree p b c = true ∧ agree p a c = false

/-! ## Products and the resolve sequencer (R137 to R154) -/

/-- The grid of an entry's window, and the PRD frame of a row: R rows of P pixels, pixel j of row i resolved at column x0 + j ×
s and row y0 + i × s (R139, R144). The bytes of the frame as sent: its header, the row flags, each pixel in the entry's format,
the class codes and the mask bits (R182, R183, R184). -/
def Obligations.ProductRowsFollowTheGrid : Prop :=
  (∀ (s : State) (p : Snapshot) (b : BankId) (e : Product) (i : Nat),
    (e.emptyWindow = true ↔ e.x1 < e.x0 ∨ e.y1 < e.y0)
      ∧ (e.emptyWindow = false → 1 ≤ e.stride →
          (e.rowCount : Int) = floorDiv (e.y1 - e.y0) e.stride + 1
            ∧ (e.pixelCount : Int) = floorDiv (e.x1 - e.x0) e.stride + 1
            ∧ e.y0 + ((e.rowCount : Int) - 1) * e.stride ≤ e.y1 ∧ e.y1 < e.y0 + (e.rowCount : Int) * e.stride
            ∧ e.x0 + ((e.pixelCount : Int) - 1) * e.stride ≤ e.x1 ∧ e.x1 < e.x0 + (e.pixelCount : Int) * e.stride
            ∧ (-16384 ≤ e.y0 → e.y1 ≤ 32767 → e.rowCount ≤ 49152)
            ∧ (-16384 ≤ e.x0 → e.x1 ≤ 32767 → e.pixelCount ≤ 49152))
      ∧ (s.rowPixels p b e i).length = e.pixelCount
      ∧ (∀ j : Nat, j < e.pixelCount →
          (s.rowPixels p b e i)[j]?
            = some (s.resolveAt p b e.fillValue (e.x0 + (j : Int) * e.stride) (e.y0 + (i : Int) * e.stride)))
      ∧ (s.canvas.width = 0 ∨ s.canvas.height = 0 →
          s.rowPixels p b e i = List.replicate e.pixelCount
            { cls := .padding, value := e.fillValue, weight := 0
              mask := ⟨⟨false, false, false, false⟩, false, false, false⟩ })
      ∧ let k := s.resolve.products.nth s.resolve.entry
        s.prdFrame p
          = { product := k.id, tag := p.tag, pass := s.resolve.passNumber, row := s.resolve.row
              last := decide (s.resolve.row + 1 = k.rowCount), format := k.format
              pixels := s.rowPixels p s.resolve.passBank k s.resolve.row })
  ∧ (∀ f : PrdFrame,
      let payload := f.pixels.flatMap (OutPixel.bytes f.format)
      let size := match f.format with
        | .v => 4
        | .vcm => 6
        | .vwcm => 8
      let format := match f.format with
        | .v => 0
        | .vcm => 1
        | .vwcm => 2
      payload.length = f.pixels.length * size
        ∧ f.bytes
            = frameBytes
                (.prd (BitVec.ofNat 24 (f.pixels.length * size)) f.product f.tag f.pass (BitVec.ofNat 16 f.row) f.rowFlags
                  (BitVec.ofNat 16 f.pixels.length)) payload
        ∧ f.rowFlags.toNat = 2 * format + (if f.last then 1 else 0))
  ∧ (∀ x : OutPixel, -2147483648 ≤ x.value → x.value ≤ 2147483647 → x.weight ≤ 65535 →
      let cls := [PixelClass.nodata, .single, .pair, .split, .full, .majority, .discord, .padding].idxOf x.cls
      let v := x.bytes .v
      let vcm := x.bytes .vcm
      let vwcm := x.bytes .vwcm
      v.length = 4 ∧ signedField v 0 4 = x.value
        ∧ vcm.length = 6 ∧ signedField vcm 0 4 = x.value ∧ field vcm 4 1 = cls ∧ vcm[5]? = some x.mask.byte
        ∧ vwcm.length = 8 ∧ signedField vwcm 0 4 = x.value ∧ field vwcm 4 2 = x.weight ∧ field vwcm 6 1 = cls
        ∧ vwcm[7]? = some x.mask.byte)
  ∧ ∀ (m : OutMask) (i : Fin 8),
      m.byte.getLsbD i.val
        = [m.cell.sat, m.cell.defect, m.cell.clip, m.cell.low, m.rej, m.lowcov, m.thin, false][i]

/-- RESOLVE_SET: LOCKED while a bank is RESOLVING, RANGE for a value or code out of range; else the three parameters and both
modes are replaced in one step, and an idle sequencer set to AUTO starts on a waiting bank. PRODUCT_SET: its four tests in their
order; when they pass, the entry is replaced and nothing else changes (R121, R138, R140, R142). -/
def Obligations.ResolveSettingsAndProductsAreSet : Prop :=
  (∀ (s : State) (p : PortId) (f : CtlFrame), s.Heads p f 0x60#8 8 →
     let b := f.payload
     let wmin := field b 0 2
     let tAbs := field b 2 3
     let tRel := field b 5 1
     let trigger := field b 6 1
     let release := field b 7 1
     let locked := ∃ k : BankId, (s.bank k).state = .resolving
     let inRange := 1 ≤ wmin ∧ wmin ≤ 4096 ∧ tAbs ≤ 1048575 ∧ tRel ≤ 255 ∧ trigger ≤ 1 ∧ release ≤ 1
     (locked → exec (.resolveSet p) s = .next (s.respond p f .locked []))
       ∧ (¬locked → ¬inRange → exec (.resolveSet p) s = .next (s.respond p f .range []))
       ∧ (¬locked → inRange →
           let u : State :=
             { s with resolve := { s.resolve with
                 wmin := wmin, tAbs := tAbs, tRel := tRel
                 trigger := if trigger = 0 then .auto else .manual
                 release := if release = 0 then .autoRelease else .hold } }
           exec (.resolveSet p) s = .next (u.autoStart.respond p f .ok [])))
    ∧ (∀ (s : State) (p : PortId) (f : CtlFrame), s.Heads p f 0x61#8 17 →
         let b := f.payload
         let locked := ∃ k : BankId, (s.bank k).state = .resolving
         (8 ≤ field b 0 1 → exec (.productSet p) s = .next (s.respond p f .range []))
           ∧ ∀ i : Fin 8, field b 0 1 = i.val →
               let e : Product :=
                 { enabled := field b 1 1 == 1, id := BitVec.ofNat 8 (field b 2 1)
                   x0 := signedField b 3 2, y0 := signedField b 5 2, x1 := signedField b 7 2, y1 := signedField b 9 2
                   stride := field b 11 1
                   format := if field b 12 1 = 0 then .v else if field b 12 1 = 1 then .vcm else .vwcm
                   fillValue := signedField b 13 4 }
               let inRange :=
                 field b 1 1 ≤ 1 ∧ field b 12 1 ≤ 2 ∧ (e.stride = 1 ∨ e.stride = 2 ∨ e.stride = 4 ∨ e.stride = 8)
                   ∧ -16384 ≤ e.x0 ∧ e.x0 ≤ 32767 ∧ -16384 ≤ e.y0 ∧ e.y0 ≤ 32767
                   ∧ -16384 ≤ e.x1 ∧ e.x1 ≤ 32767 ∧ -16384 ≤ e.y1 ∧ e.y1 ≤ 32767
               let idTaken := e.enabled = true
                 ∧ ∃ j : Fin 8, j ≠ i ∧ (s.resolve.products.nth j).enabled = true ∧ (s.resolve.products.nth j).id = e.id
               (locked → exec (.productSet p) s = .next (s.respond p f .locked []))
                 ∧ (¬locked → ¬inRange ∨ idTaken → exec (.productSet p) s = .next (s.respond p f .range []))
                 ∧ (¬locked → inRange → ¬idTaken →
                     exec (.productSet p) s
                       = .next ({ s with resolve := { s.resolve with products := s.resolve.products.put i e } }.respond p f .ok [])))

/-- RESOLVE_START decides by the table of R148: RANGE, a restart at once or after the row in transmission, no change, BUSY, the
start of a pass, or STATE. RESOLVE_ABORT ends the pass at once or after its row in transmission, and is refused STATE in IDLE.
BANK_RELEASE sends a RESOLVED bank to RETIRING, and is refused STATE otherwise (R148, R149, R150, R151). -/
def Obligations.ResolveCommandsDecide : Prop :=
  (∀ (s : State) (p : PortId) (f : CtlFrame), s.Heads p f 0x62#8 1 →
     let r := s.resolve
     let answers : Result → Prop := fun x => exec (.resolveStart p) s = .next (s.respond p f x [])
     (2 ≤ field f.payload 0 1 → answers .range)
       ∧ ∀ b : BankId, field f.payload 0 1 = b.val →
           (r.state = .running → b = r.passBank → s.px.lane = none →
               exec (.resolveStart p) s = .next (s.restartPass.autoStart.respond p f .ok []))
             ∧ (r.state = .running → b = r.passBank → s.px.lane ≠ none →
                 exec (.resolveStart p) s
                   = .next ({ s with resolve := { r with state := .restarting } }.respond p f .ok []))
             ∧ (r.state = .restarting → b = r.passBank → answers .ok)
             ∧ (r.state = .ending → answers .busy)
             ∧ (r.state = .running ∨ r.state = .restarting → b ≠ r.passBank → answers .busy)
             ∧ (r.state = .idle → (s.bank b).state = .closed ∨ (s.bank b).state = .resolved →
                 exec (.resolveStart p) s = .next ((s.openPass b).autoStart.respond p f .ok []))
             ∧ (r.state = .idle → (s.bank b).state ≠ .closed → (s.bank b).state ≠ .resolved → answers .state))
    ∧ (∀ (s : State) (p : PortId) (f : CtlFrame),
         let r := s.resolve
         (s.Heads p f 0x63#8 0 →
             (r.state = .idle → exec (.resolveAbort p) s = .next (s.respond p f .state []))
               ∧ (r.state = .ending → exec (.resolveAbort p) s = .next (s.respond p f .ok []))
               ∧ (r.state = .running ∨ r.state = .restarting → s.px.lane = none →
                   exec (.resolveAbort p) s = .next (s.endPass.autoStart.respond p f .ok []))
               ∧ (r.state = .running ∨ r.state = .restarting → s.px.lane ≠ none →
                   exec (.resolveAbort p) s = .next ({ s with resolve := { r with state := .ending } }.respond p f .ok [])))
           ∧ (s.Heads p f 0x64#8 1 →
               (2 ≤ field f.payload 0 1 → exec (.bankRelease p) s = .next (s.respond p f .range []))
                 ∧ ∀ b : BankId, field f.payload 0 1 = b.val →
                     ((s.bank b).state = .resolved → exec (.bankRelease p) s = .next ((s.retire b).respond p f .ok []))
                       ∧ ((s.bank b).state ≠ .resolved → exec (.bankRelease p) s = .next (s.respond p f .state []))))

/-- What the start and the restart of a pass set, before the walk begins: the bank, the pass number, the snapshot, the copy
being built, the egress mark and timer, the state and the walk position; and the automatic start (R73, R122, R142, R143, R149).
-/
def Obligations.PassStartsAndRestarts : Prop :=
  ∀ (s : State) (b : BankId) (v : BankVisit), s.visit.records.nth b = some v →
    let r := s.resolve
    let entry : Fin 8 → EntryReport := fun i =>
      { status := .notReached, product := (r.products.nth i).id, format := (r.products.nth i).format, rows := 0, pixels := 0
        counts := .fill 8 0 }
    let begun : Resolve :=
      { r with
        passNumber := r.passNumber + 1
        snapshot := some { wmin := r.wmin, tAbs := r.tAbs, tRel := r.tRel, tag := v.tag, snapsUsed := v.snapsUsed }
        building := some { bank := b, tag := v.tag, snapsUsed := v.snapsUsed, pass := r.passNumber + 1, entries := .tabulate entry }
        egressMark := false, egressTimer := .stopped, state := .running, passBank := b, entry := 0, row := 0 }
    s.openPass b
        = State.seek [0, 1, 2, 3, 4, 5, 6, 7]
            { s with
              canvas := { s.canvas with
                banks := s.canvas.banks.put b { s.bank b with state := .resolving, readHold := true } }
              resolve := { begun with waiting := r.waiting.filter (· != b) } }
      ∧ (r.passBank = b → s.restartPass = State.seek [0, 1, 2, 3, 4, 5, 6, 7] { s with resolve := begun })
      ∧ (r.trigger = .manual ∨ r.state ≠ .idle ∨ r.waiting = [] → s.autoStart = s)
      ∧ ∀ rest, r.trigger = .auto → r.state = .idle → r.waiting = b :: rest → r.waiting.Nodup →
          s.autoStart = (s.openPass b).autoStart

/-- The walk: a disabled or an empty entry is passed over with its status, the first other entry is begun at row 0, and a walk
that finds none completes the pass. At a row boundary the sequencer takes a credit and the row goes into transmission with its
pixels counted, or it waits, and starts the egress timer while the egress mark is clear; a credit that comes later begins the
row at which the walk stands in the same way. While it still waits, the timer's expiry sets the mark and latches EGRESS_STALL
(R144 to R147, R172). The model's choices and readings: a row is resolved when it goes into transmission (log 14), the credit is
taken and the frame begins in one step (log 25), and the expiry of a stopped timer changes nothing (log 2). -/
def Obligations.WalkTakesCreditsOrStalls : Prop :=
  ((∀ s : State, State.seek [] s = s.completePass)
     ∧ (∀ (s : State) (i : Fin 8) (rest : List (Fin 8)) (m : Report), s.resolve.building = some m →
         let e := s.resolve.products.nth i
         let marked : EntryStatus → State := fun st =>
           { s with resolve := { s.resolve with
             building := some { m with entries := m.entries.put i { m.entries.nth i with status := st } } } }
         (e.enabled = false → State.seek (i :: rest) s = State.seek rest (marked .disabled))
           ∧ (e.enabled = true → e.x1 < e.x0 ∨ e.y1 < e.y0 → State.seek (i :: rest) s = State.seek rest (marked .empty))
           ∧ (e.enabled = true → e.x0 ≤ e.x1 → e.y0 ≤ e.y1 → State.seek (i :: rest) s = s.standAt i 0))
     ∧ ∀ (s : State) (i : Fin 8) (row : Nat) (p : Snapshot) (m : Report), s.resolve.snapshot = some p → s.resolve.building = some m →
         let r : Resolve := { s.resolve with entry := i, row := row }
         let f := { s with resolve := r }.prdFrame p
         (1 ≤ s.px.credits →
             s.standAt i row
               = { s with
                   px := { s.px with credits := s.px.credits - 1, lane := some f }
                   resolve := { r with
                     egressTimer := .stopped
                     building := some { m with
                       entries := m.entries.put i
                         { m.entries.nth i with counts := State.addCounts (m.entries.nth i).counts f.pixels } } } })
           ∧ (let stood : Resolve := { s.resolve with egressTimer := .stopped }
              let at_ := s.resolve.entry
              let sent := s.prdFrame p
              s.beginRow
                = { s with
                    px := { s.px with credits := s.px.credits - 1, lane := some sent }
                    resolve := { stood with
                      building := some { m with
                        entries := m.entries.put at_
                          { m.entries.nth at_ with counts := State.addCounts (m.entries.nth at_).counts sent.pixels } } } })
           ∧ (∀ k : PixelClass,
               (State.addCounts (m.entries.nth i).counts f.pixels).nth k.index
                 = (m.entries.nth i).counts.nth k.index + f.pixels.countP (fun x => x.cls == k))
           ∧ (s.px.credits = 0 → r.egressMark = true → s.standAt i row = { s with resolve := r })
           ∧ (s.px.credits = 0 → r.egressMark = false →
               s.standAt i row = { s with resolve := { r with egressTimer := .running 100 } }))
    ∧ (∀ s : State,
         (s.resolve.egressTimer = .stopped → exec .egressTimerExpiry s = .next s)
           ∧ ∀ ms, s.resolve.egressTimer = .running ms →
               (s.resolve.state = .running → s.px.lane = none →
                   exec .egressTimerExpiry s
                     = .next { s with
                         resolve := { s.resolve with egressTimer := .stopped, egressMark := true }
                         status := { s.status with egressStall := true } })
                 ∧ (s.resolve.state ≠ .running ∨ s.px.lane ≠ none →
                     exec .egressTimerExpiry s = .next { s with resolve := { s.resolve with egressTimer := .stopped } }))

/-- A PRD frame that has left PX is counted, and its row counts as emitted; the walk goes on to the next row, to the next entry,
to a restart or to the end of the pass. A pass that completes hands over its summary, raises the resolve counter and PASS_DONE;
one that ends does not. Both discard the snapshot, stop the egress timer, clear the read hold and move a RESOLVING bank by the
release mode (R73, R75, R144, R145, R147, R149, R150, R165). The model's choices
and readings: PRD_FRAME_SENT with no row on PX changes nothing (log 2), and the scrub of a canvas without cells ends at once, with
the bank FREE and its epoch 0 (log 12). -/
def Obligations.PassesMoveRowByRow : Prop :=
  (∀ s : State,
     (s.px.lane = none → exec .prdFrameSent s = .next s)
       ∧ (∀ f, s.px.lane = some f →
           exec .prdFrameSent s
             = .next ({ s with px := { s.px with
                 lane := none, counters := { s.px.counters with prdSent := s.px.counters.prdSent + 1 } } }.rowSent f))
       ∧ ∀ f : PrdFrame,
           (s.resolve.state = .restarting → s.rowSent f = s.restartPass.autoStart)
             ∧ (s.resolve.state = .ending → s.rowSent f = s.endPass.autoStart)
             ∧ ∀ m : Report, s.resolve.state = .running → s.resolve.building = some m →
                 let i := s.resolve.entry
                 let e := m.entries.nth i
                 let sent : EntryStatus → State := fun st =>
                   let e' : EntryReport := { e with status := st, rows := e.rows + 1, pixels := e.pixels + f.pixels.length }
                   { s with resolve := { s.resolve with building := some { m with entries := m.entries.put i e' } } }
                 (f.last = false → s.rowSent f = (sent e.status).standAt i (s.resolve.row + 1))
                   ∧ (f.last = true →
                       s.rowSent f
                         = (State.seek (([0, 1, 2, 3, 4, 5, 6, 7] : List (Fin 8)).filter fun j => i < j) (sent .done)).autoStart))
    ∧ (∀ s : State,
         let r := s.resolve
         let b := r.passBank
         let rested : Resolve := { r with building := none, snapshot := none, egressTimer := .stopped, state := .idle }
         s.completePass
             = { s with
                 resolve := { rested with readable := r.building, resolveCounter := r.resolveCounter + 1 }
                 status := { s.status with passDone := true } }.releaseBank b
           ∧ s.endPass = { s with resolve := rested }.releaseBank b
           ∧ ∀ (u : State) (k : BankId),
               let put : Bank → State := fun x => { u with canvas := { u.canvas with banks := u.canvas.banks.put k x } }
               ((u.bank k).state = .resolving → u.resolve.release = .autoRelease → (u.bank k).depositHolds = 0 →
                   (u.bank k).epoch ≠ 255#8 → u.releaseBank k = put { u.bank k with state := .free, readHold := false })
                 ∧ ((u.bank k).state = .resolving → u.resolve.release = .autoRelease → (u.bank k).depositHolds = 0 →
                     (u.bank k).epoch = 255#8 → 0 < u.canvas.width * u.canvas.height →
                     u.releaseBank k = put { u.bank k with state := .scrubbing, readHold := false, epoch := 0, scrubPos := 0 })
                 ∧ ((u.bank k).state = .resolving → u.resolve.release = .autoRelease → (u.bank k).depositHolds = 0 →
                     (u.bank k).epoch = 255#8 → u.canvas.width * u.canvas.height = 0 →
                     u.releaseBank k = put { u.bank k with state := .free, readHold := false, epoch := 0, scrubPos := 0 })
                 ∧ ((u.bank k).state = .resolving → u.resolve.release = .autoRelease → (u.bank k).depositHolds ≠ 0 →
                     u.releaseBank k = put { u.bank k with state := .retiring, readHold := false })
                 ∧ ((u.bank k).state = .resolving → u.resolve.release = .hold →
                     u.releaseBank k = put { u.bank k with state := .resolved, readHold := false })
                 ∧ ((u.bank k).state ≠ .resolving →
                     u.releaseBank k = (put { u.bank k with readHold := false }).leaveRetiring k))

/-! ## Engine-wide commands (R168, R175 to R181) -/

/-- A frame whose code names no command is answered UNKNOWN, and one whose length does not fit its command MALFORMED; neither
changes anything else. The codes and lengths are those of R185. A command's step happens only when its frame is at the head of
the queue, which is the model's reading (R168, R185; log 1, log 2). -/
def Obligations.ControlChecksComeFirst : Prop :=
  let table : List (Byte × (PortId → Instr) × Option Nat) :=
    [(0x00#8, .nop, some 0), (0x01#8, .statusRead, some 1), (0x02#8, .tableRead, some 2), (0x03#8, .faultClear, some 0),
     (0x04#8, .engineReset, some 0), (0x10#8, .intakeSet, some 4), (0x20#8, .tileSet, some 14),
     (0x21#8, .tileQuarantine, some 1), (0x22#8, .tileRestore, some 1), (0x23#8, .segmentSet, some 27),
     (0x30#8, .flatClear, some 1), (0x31#8, .flatWrite, none), (0x32#8, .flatRead, some 7), (0x40#8, .canvasSet, some 4),
     (0x41#8, .cellPeek, some 5), (0x50#8, .visitOpen, some 2), (0x51#8, .snapOpen, some 4), (0x52#8, .snapClose, some 0),
     (0x53#8, .visitClose, some 0), (0x54#8, .visitAbort, some 1), (0x60#8, .resolveSet, some 8),
     (0x61#8, .productSet, some 17), (0x62#8, .resolveStart, some 1), (0x63#8, .resolveAbort, some 0),
     (0x64#8, .bankRelease, some 1)]
  ∀ (s : State) (p : PortId),
    (∀ row ∈ table,
        (∀ f, (s.port p).queue.head? = some f → f.code = row.1 →
            (∀ n, row.2.2 = some n → f.payload.length ≠ n → exec (row.2.1 p) s = .next (s.respond p f .malformed []))
              ∧ (row.2.2 = none → f.payload.length < 7 ∨ f.payload.length ≠ 7 + 2 * field f.payload 5 2 →
                  exec (row.2.1 p) s = .next (s.respond p f .malformed [])))
          ∧ ((∀ f, (s.port p).queue.head? = some f → f.code ≠ row.1) → exec (row.2.1 p) s = .next s))
      ∧ (∀ f, (s.port p).queue.head? = some f → (∀ row ∈ table, f.code ≠ row.1) →
          exec (.unknownCommand p) s = .next (s.respond p f .unknown []))
      ∧ ((s.port p).queue = [] ∨ (∃ f, (s.port p).queue.head? = some f ∧ ∃ row ∈ table, f.code = row.1) →
          exec (.unknownCommand p) s = .next s)

/-- NOP carries no field, is taken in every state and changes nothing beyond what every response does: its frame leaves the
queue, and its response, without a data part, clears the port's fault flags or is lost. No attention condition is cleared (R170,
R175). -/
def Obligations.NopChangesNothingElse : Prop :=
  ∀ (s : State) (p : PortId) (f : CtlFrame),
    (s.Heads p f 0x00#8 0 →
        ∃ u : State, exec (.nop p) s = .next u
          ∧ u = { s with ports := u.ports } ∧ (∀ o, o ≠ p → u.port o = s.port o)
          ∧ (u.port p).queue = (s.port p).queue.tail ∧ (u.port p).link = (s.port p).link ∧ (u.port p).rx = (s.port p).rx
          ∧ (u.port p).taken = (s.port p).taken
          ∧ ((s.port p).link = .up → (s.port p).backlog.length < 8 →
              u.responses p = s.responses p ++ [⟨s.statusWord p f.code f.request .ok, []⟩]
                ∧ (u.port p).flags = ⟨false, false, false, false, false, false, false, false⟩
                ∧ (u.port p).counters = (s.port p).counters)
          ∧ ((s.port p).link = .down ∨ 8 ≤ (s.port p).backlog.length →
              u.responses p = s.responses p ∧ (u.port p).flags = (s.port p).flags
                ∧ (u.port p).counters
                  = { (s.port p).counters with rspLost := (s.port p).counters.rspLost + 1 }))
      ∧ ((s.port p).queue.head? = some f → f.code = 0x00#8 → f.payload ≠ [] →
          exec (.nop p) s = .next (s.respond p f .malformed []))

/-- STATUS_READ returns the section as it stands and clears the condition it names; TABLE_READ returns the record named as
stored; codes and indexes out of range are refused RANGE. FAULT_CLEAR clears the three latched faults and nothing else. The
bytes of each section and of each record: the items in the order of R177 and R185, each in the bytes its range needs (R152,
R176, R177, R178, R179, R186). That section SUMMARY lists its items entry by entry is the model's reading (log 18); that bits 6
and 7 of a tile's flags and bits 4 to 7 of the attention conditions are sent as 0 is the model's choice (log 32). -/
def Obligations.StatusTablesAndFaultClear : Prop :=
  (∀ (s : State) (p : PortId) (f : CtlFrame),
     (s.Heads p f 0x01#8 1 →
         (field f.payload 0 1 = 0 →
             exec (.statusRead p) s
               = .next ({ s with status := { s.status with snapDone := false } }.respond p f .ok s.engineBytes))
           ∧ (field f.payload 0 1 = 1 →
               exec (.statusRead p) s
                 = .next ({ s with status := { s.status with tile := false } }.respond p f .ok s.tilesBytes))
           ∧ (field f.payload 0 1 = 2 → exec (.statusRead p) s = .next (s.respond p f .ok s.portsBytes))
           ∧ (field f.payload 0 1 = 3 →
               exec (.statusRead p) s
                 = .next ({ s with status := { s.status with passDone := false } }.respond p f .ok
                     (summaryBytes s.resolve.readable)))
           ∧ (4 ≤ field f.payload 0 1 → exec (.statusRead p) s = .next (s.respond p f .range [])))
       ∧ (s.Heads p f 0x02#8 2 →
           let table := field f.payload 0 1
           let index := field f.payload 1 1
           let returns : List Byte → Prop := fun d => exec (.tableRead p) s = .next (s.respond p f .ok d)
           (table = 0 → ∀ t : TileId, index = t.val → returns (s.tile t).bytes)
             ∧ (table = 1 → ∀ (t : TileId) (g : SegId), index = 4 * t.val + g.val → returns (s.seg t g).bytes)
             ∧ (table = 2 → ∀ i : Fin 8, index = i.val → returns (s.resolve.products.nth i).bytes)
             ∧ (table = 3 → index = 0 → returns (beBytes 2 s.intake.stallTime ++ beBytes 2 s.intake.drainTime))
             ∧ (table = 4 → index = 0 →
                 returns (beBytes 2 s.resolve.wmin ++ beBytes 3 s.resolve.tAbs ++ beBytes 1 s.resolve.tRel
                   ++ [if s.resolve.trigger = .auto then 0 else 1, if s.resolve.release = .autoRelease then 0 else 1]))
             ∧ (table = 5 → index = 0 → returns (beBytes 2 s.canvas.width ++ beBytes 2 s.canvas.height))
             ∧ (6 ≤ table ∨ (table = 0 ∧ 16 ≤ index) ∨ (table = 1 ∧ 64 ≤ index) ∨ (table = 2 ∧ 8 ≤ index)
                   ∨ (3 ≤ table ∧ table ≤ 5 ∧ 1 ≤ index) →
                 exec (.tableRead p) s = .next (s.respond p f .range []))))
    ∧ (∀ (s : State) (p : PortId) (f : CtlFrame), s.Heads p f 0x03#8 0 →
         exec (.faultClear p) s
           = .next ({ s with status := { s.status with
               overrunSeen := false, linkDownSeen := false, egressStall := false } }.respond p f .ok []))
    ∧ (let flag : Bool → Byte := fun x => if x then 1 else 0
       let byte : Nat → Byte := fun n => BitVec.ofNat 8 n
       (∀ s : State,
          let v := s.visit
          let bank : BankId → List Byte := fun b =>
            [(s.bank b).state.code, (s.bank b).epoch] ++ beBytes 4 (s.bank b).scrubPos
              ++ [byte (s.bank b).depositHolds, flag (s.bank b).readHold]
              ++ (match v.records.nth b with
                | none => [1, 0, 0]
                | some k => [0, k.tag, byte k.snapsUsed])
          (∃ conditions : Byte,
             (∀ i : Fin 8,
                 conditions.getLsbD i.val
                   = [s.status.fault, s.status.tile, s.status.snapDone, s.status.passDone, false, false, false, false][i])
             ∧ s.engineBytes
               = [v.state.code, v.tag, byte v.expected, byte v.snapsDone, byte v.slot.val, v.snap.code]
                 ++ beInt 2 v.sx ++ beInt 2 v.sy ++ [byte v.inFlight, if v.drain = .stopped then 0 else 1] ++ bank 0 ++ bank 1
                 ++ [s.resolve.state.code, byte s.resolve.passBank.val] ++ beBytes 2 s.resolve.passNumber.toNat
                 ++ [byte s.resolve.waiting.length] ++ s.resolve.waiting.map (fun b => byte b.val)
                 ++ [latchedByte s.status.overrunSeen s.status.linkDownSeen s.status.egressStall, conditions])
            ∧ s.engineBytes.length = 41 + s.resolve.waiting.length
            ∧ s.tilesBytes.length = 16 * 38
            ∧ (∀ t : TileId,
                let k := s.record t
                (s.tilesBytes.drop (38 * t.val)).take 38
                  = [k.state.code] ++ beBytes 2 (k.taken.nth 0) ++ beBytes 2 (k.taken.nth 1) ++ beBytes 2 (k.taken.nth 2)
                    ++ beBytes 2 (k.taken.nth 3) ++ beBytes 2 (k.missing.nth 0) ++ beBytes 2 (k.missing.nth 1)
                    ++ beBytes 2 (k.missing.nth 2) ++ beBytes 2 (k.missing.nth 3) ++ [k.flags.byte] ++ beBytes 4 k.satPixels
                    ++ beBytes 4 k.defPixels ++ beBytes 4 k.clipPixels ++ beBytes 5 k.spilled
                    ++ [byte (s.inFlight t), flag (s.tile t).quarantined, (s.flat t).state.code])
            ∧ s.portsBytes.length = 4 * 40 + 19
            ∧ (∀ p : PortId,
                let q := s.port p
                let c := q.counters
                (s.portsBytes.drop (40 * p.val)).take 40
                  = [q.link.code, byte (s.occupied p), byte q.granted, byte q.queue.length] ++ beBytes 4 c.rowIn.toNat
                    ++ beBytes 4 c.ctlIn.toNat ++ beBytes 4 c.unexpected.toNat ++ beBytes 4 c.stale.toNat
                    ++ beBytes 4 c.afterEnd.toNat ++ beBytes 4 c.lineDiscard.toNat ++ beBytes 4 c.overrunDrop.toNat
                    ++ beBytes 4 c.ctlDrop.toNat ++ beBytes 4 c.rspLost.toNat)
            ∧ s.portsBytes.drop 160
                = [s.px.link.code] ++ beBytes 2 s.px.credits ++ beBytes 4 s.px.counters.prdSent.toNat
                  ++ beBytes 4 s.px.counters.prdCut.toNat ++ beBytes 4 s.px.counters.crdIn.toNat
                  ++ beBytes 4 s.px.counters.lineDiscard.toNat)
         ∧ (∀ (f : TileFlags) (i : Fin 8),
              f.byte.getLsbD i.val = [f.dataError, f.length, f.wrongRow, f.endOfTile, f.late, f.overrun, false, false][i])
         ∧ summaryBytes none = 1 :: List.replicate 333 0
         ∧ (∀ r : Report,
              let b := summaryBytes (some r)
              b.length = 334 ∧ b.take 6 = [0, byte r.bank.val, r.tag, byte r.snapsUsed] ++ beBytes 2 r.pass.toNat
                ∧ ∀ i : Fin 8,
                    let e := r.entries.nth i
                    let format := match e.format with
                      | .v => 0
                      | .vcm => 1
                      | .vwcm => 2
                    (b.drop (6 + 41 * i.val)).take 41
                      = [e.status.code, e.product, format] ++ beBytes 2 e.rows ++ beBytes 4 e.pixels
                        ++ ([PixelClass.nodata, .single, .pair, .split, .full, .majority, .discord, .padding].map PixelClass.index
                          ).flatMap fun k => beBytes 4 (e.counts.nth k))
         ∧ (∀ r : TileRec,
              r.bytes.length = 14
                ∧ r.bytes
                    = [flag r.enabled] ++ beBytes 2 r.width ++ beBytes 2 r.height ++ [byte r.segCount] ++ beInt 2 r.ox
                      ++ beInt 2 r.oy ++ [byte r.fx, byte r.fy, byte r.orientation, flag r.quarantined])
         ∧ (∀ r : SegRec,
              r.bytes.length = 25
                ∧ r.bytes
                    = beBytes 2 r.colOrigin ++ beBytes 2 r.rowOrigin ++ beBytes 2 r.width ++ beBytes 2 r.height
                      ++ [flag r.colReversed, flag r.rowReversed, byte r.overscan, byte r.skip, byte r.shift]
                      ++ beBytes 3 r.defaultBias ++ beBytes 2 r.gain ++ beBytes 3 r.satThreshold ++ beInt 4 r.lowThreshold)
         ∧ ∀ e : Product,
             let format := match e.format with
               | .v => 0
               | .vcm => 1
               | .vwcm => 2
             e.bytes.length = 16
               ∧ e.bytes
                   = [flag e.enabled, e.id] ++ beInt 2 e.x0 ++ beInt 2 e.y0 ++ beInt 2 e.x1 ++ beInt 2 e.y1
                     ++ [byte e.stride, format] ++ beInt 4 e.fillValue)

/-- ENGINE_RESET brings every block's working state to rest in one step and keeps the configuration: what each block keeps, and
what it clears. It is taken in every state (R42, R64, R82, R97, R119, R154, R166, R180, R181).That the scrub of a
canvas without cells ends at once, with the bank FREE and its epoch 0, is the model's reading (log 12). -/
def Obligations.EngineResetRestsEveryBlock : Prop :=
  ∀ (s : State) (p : PortId) (f : CtlFrame), s.Heads p f 0x04#8 0 →
    ∃ u : State, exec (.engineReset p) s = .next (u.serveAll.respond p f .ok [])
      ∧ u.tiles = s.tiles ∧ u.segs = s.segs ∧ u.cal.flats = s.cal.flats ∧ u.pending = s.pending
      ∧ u.intake = { State.reset.intake with stallTime := s.intake.stallTime, drainTime := s.intake.drainTime }
      ∧ (∀ t : TileId, u.placements.nth t = none)
      ∧ (∀ (t : TileId) (g : SegId), u.cal.bias.nth (segIndex t g) = none)
      ∧ u.visit = State.reset.visit ∧ u.status = State.reset.status
      ∧ (∀ o : PortId,
          u.port o
            = { s.port o with
                taken := [], flags := ⟨false, false, false, false, false, false, false, false⟩
                counters := ⟨0, 0, 0, 0, 0, 0, 0, 0, 0⟩ })
      ∧ (∀ o : PortId,
          (s.lane o = none → u.lane o = none)
            ∧ ∀ l, s.lane o = some l → u.lane o = some { l with context := { l.context with counting := false } })
      ∧ u.px = { s.px with counters := ⟨0, 0, 0, 0⟩ }
      ∧ (∃ state snapshot bank,
          u.resolve
            = { s.resolve with
                waiting := [], passNumber := 0, resolveCounter := 0, readable := none, building := none
                egressMark := false, egressTimer := .stopped, state := state, snapshot := snapshot, passBank := bank }
            ∧ (s.resolve.state = .idle → state = .idle ∧ bank = 0)
            ∧ (s.resolve.state ≠ .idle → bank = s.resolve.passBank)
            ∧ (s.resolve.state ≠ .idle → s.px.lane ≠ none → state = .ending ∧ snapshot = s.resolve.snapshot)
            ∧ (s.resolve.state ≠ .idle → s.px.lane = none → state = .idle)
            ∧ (s.px.lane = none → snapshot = none))
      ∧ u.canvas.width = s.canvas.width ∧ u.canvas.height = s.canvas.height ∧ u.canvas.powerOns = s.canvas.powerOns
      ∧ ∀ b : BankId,
          let k := s.bank b
          let k' := u.bank b
          let visits := k.state = .filling ∨ k.state = .closed ∨ k.state = .resolving ∨ k.state = .resolved
          k'.cells = k.cells ∧ k'.depositHolds = k.depositHolds
            ∧ k'.readHold = (k.readHold && !(s.resolve.state != .idle && s.px.lane.isNone && s.resolve.passBank == b))
            ∧ (k.state = .free ∨ k.state = .scrubbing → k'.state = k.state ∧ k'.epoch = k.epoch ∧ k'.scrubPos = k.scrubPos)
            ∧ (visits ∨ k.state = .retiring → k'.depositHolds ≠ 0 ∨ k'.readHold = true →
                k'.state = .retiring ∧ k'.epoch = k.epoch ∧ k'.scrubPos = k.scrubPos)
            ∧ (visits ∨ k.state = .retiring → k'.depositHolds = 0 → k'.readHold = false → k.epoch ≠ 255#8 →
                k'.state = .free ∧ k'.epoch = k.epoch ∧ k'.scrubPos = k.scrubPos)
            ∧ (visits ∨ k.state = .retiring → k'.depositHolds = 0 → k'.readHold = false → k.epoch = 255#8 →
                0 < s.canvas.width * s.canvas.height → k'.state = .scrubbing ∧ k'.epoch = 0 ∧ k'.scrubPos = 0)
            ∧ (visits ∨ k.state = .retiring → k'.depositHolds = 0 → k'.readHold = false → k.epoch = 255#8 →
                s.canvas.width * s.canvas.height = 0 → k'.state = .free ∧ k'.epoch = 0 ∧ k'.scrubPos = 0)

/-! ## Laws that every step keeps -/

/-- Every step keeps each ingress port in order: O + G at most 32, at most two CTL frames and eight RSPs, a line that is DOWN
quiet, and an idle lane with every free buffer announced (R155, R156, R162, R163, R167). -/
def Obligations.StepKeepsPortsInOrder : Prop :=
  ∀ s t : State, s.PortsOk → step s = .next t → t.PortsOk

/-- Every step keeps rows taken plus rows missing equal to the next expected row, for every segment (R27). -/
def Obligations.StepKeepsRowsAccounted : Prop :=
  ∀ s t : State, s.RowsAccounted → step s = .next t → t.RowsAccounted

/-- Every step keeps the lists of the calibration store and of the canvas memory in their canonical form. The form is the model's
own choice and no rule of the spec: each list has strictly rising places, and no flat entry that equals what an unlisted place
reads as (log 10, log 11). -/
def Obligations.StepKeepsMemoryCanonical : Prop :=
  ∀ s t : State, Memory.wf s = true → step s = .next t → Memory.wf t = true

/-- Every step keeps the tables in range and the layout of every enabled tile consistent (R3, R7, R13). -/
def Obligations.StepKeepsTablesConsistent : Prop :=
  ∀ s t : State, s.TablesOk → step s = .next t → t.TablesOk

/-- Every step keeps visits, banks and passes in order (R18, R70, R73, R101, R103, R141, R142). -/
def Obligations.StepKeepsBanksInOrder : Prop :=
  ∀ s t : State, s.BanksOk → step s = .next t → t.BanksOk

/-- No step leaves an open snap that is complete and not yet DONE (R108). -/
def Obligations.StepKeepsSnapsJudged : Prop :=
  ∀ s t : State, s.SnapJudged → step s = .next t → t.SnapJudged

/-- Every step keeps the epoch law: a FREE bank has an epoch below 255, no cell of a bank that is not SCRUBBING has an epoch
above its own, and a scrub leaves epoch 0 behind it (R68, R71, R76, R78). -/
def Obligations.StepKeepsEpochsLawful : Prop :=
  ∀ s t : State, s.BanksOk → s.EpochsOk → step s = .next t → t.EpochsOk

/-- Every step keeps the rows in flight and the deposit holds equal to the rows and lanes they count (R28, R69, R75, R87, R93,
R96, R107). -/
def Obligations.StepKeepsFlightCounts : Prop :=
  ∀ s t : State, s.BanksOk → s.FlightOk → step s = .next t → t.FlightOk

/-- Each of these laws holds at power-on (R42, R64, R82, R100, R119, R136, R154, R155, R181). -/
def Obligations.PowerOnIsInOrder : Prop :=
  State.reset.PortsOk ∧ State.reset.RowsAccounted ∧ Memory.wf State.reset = true ∧ State.reset.TablesOk ∧ State.reset.BanksOk
    ∧ State.reset.SnapJudged ∧ State.reset.EpochsOk ∧ State.reset.FlightOk

end
end

