-- ==== Sys2Proof/Laws/State.lean ====
section
/-! SUPPORT. The updates of the state, field by field, and the tables: every equation is a rewrite rule, so that no later proof
unfolds a record update. -/

namespace Sys2Proof

namespace Tab

variable {n : Nat} {α β : Type}

@[simp] theorem nth_put (v : Tab n α) (i j : Fin n) (x : α) : (v.put i x).nth j = if i = j then x else v.nth j := by
  simp [Tab.put, Tab.nth, Vector.getElem_set, Fin.ext_iff]

@[simp] theorem nth_tabulate (f : Fin n → α) (j : Fin n) : (tabulate f).nth j = f j := by
  simp [Tab.tabulate, Tab.nth]

@[simp] theorem nth_fill (x : α) (j : Fin n) : (fill n x).nth j = x := by simp [fill]

@[simp] theorem nth_map (f : α → β) (v : Tab n α) (j : Fin n) : (v.map f).nth j = f (v.nth j) := by simp [Tab.map]

@[simp] theorem nth_modify (v : Tab n α) (i j : Fin n) (f : α → α) :
    (v.modify i f).nth j = if i = j then f (v.nth i) else v.nth j := by simp [Tab.modify]

/-- Two tables with the same entries are the same table. -/
theorem ext_nth {v w : Tab n α} (h : ∀ i, v.nth i = w.nth i) : v = w := by
  apply Vector.ext
  intro i hi
  exact h ⟨i, hi⟩

/-- The later of two entries put in one place of a table stands. -/
theorem put_put (v : Tab n α) (i : Fin n) (x y : α) : (v.put i x).put i y = v.put i y := by
  apply ext_nth
  intro j
  simp only [nth_put]
  split <;> rfl

/-- Putting back the entry that a place holds changes nothing. -/
theorem put_nth (v : Tab n α) (i : Fin n) : v.put i (v.nth i) = v := by
  apply ext_nth
  intro j
  rw [nth_put]
  split
  · rename_i h
    rw [h]
  · rfl

/-- `all` is the law of every entry. -/
theorem all_iff (p : α → Bool) (v : Tab n α) : v.all p = true ↔ ∀ i, p (v.nth i) = true := by
  simp only [Tab.all, List.all_eq_true]
  constructor
  · intro h i
    exact h _ (by simp [Tab.nth])
  · intro h x hx
    obtain ⟨i, hi, rfl⟩ := List.getElem_of_mem hx
    simpa [Tab.nth] using h ⟨i, by simpa using hi⟩

end Tab

namespace Machine

/-! ## The updates of one field -/

@[simp] theorem State.updPort_fields (s : State) (p : PortId) (f : Port → Port) :
    (s.updPort p f).ports = s.ports.modify p f ∧ (s.updPort p f).px = s.px ∧ (s.updPort p f).tiles = s.tiles
      ∧ (s.updPort p f).segs = s.segs ∧ (s.updPort p f).intake = s.intake ∧ (s.updPort p f).cal = s.cal
      ∧ (s.updPort p f).placements = s.placements ∧ (s.updPort p f).canvas = s.canvas
      ∧ (s.updPort p f).visit = s.visit ∧ (s.updPort p f).resolve = s.resolve ∧ (s.updPort p f).status = s.status
      ∧ (s.updPort p f).pending = s.pending :=
  ⟨rfl, rfl, rfl, rfl, rfl, rfl, rfl, rfl, rfl, rfl, rfl, rfl⟩

@[simp] theorem State.updPx_fields (s : State) (f : ProductPort → ProductPort) :
    (s.updPx f).ports = s.ports ∧ (s.updPx f).px = f s.px ∧ (s.updPx f).tiles = s.tiles ∧ (s.updPx f).segs = s.segs
      ∧ (s.updPx f).intake = s.intake ∧ (s.updPx f).cal = s.cal ∧ (s.updPx f).placements = s.placements
      ∧ (s.updPx f).canvas = s.canvas ∧ (s.updPx f).visit = s.visit ∧ (s.updPx f).resolve = s.resolve
      ∧ (s.updPx f).status = s.status ∧ (s.updPx f).pending = s.pending :=
  ⟨rfl, rfl, rfl, rfl, rfl, rfl, rfl, rfl, rfl, rfl, rfl, rfl⟩

@[simp] theorem State.setLane_fields (s : State) (p : PortId) (l : Option Lane) :
    (s.setLane p l).ports = s.ports ∧ (s.setLane p l).px = s.px ∧ (s.setLane p l).tiles = s.tiles
      ∧ (s.setLane p l).segs = s.segs ∧ (s.setLane p l).intake = s.intake
      ∧ (s.setLane p l).cal = { s.cal with lanes := s.cal.lanes.put p l } ∧ (s.setLane p l).placements = s.placements
      ∧ (s.setLane p l).canvas = s.canvas ∧ (s.setLane p l).visit = s.visit ∧ (s.setLane p l).resolve = s.resolve
      ∧ (s.setLane p l).status = s.status ∧ (s.setLane p l).pending = s.pending :=
  ⟨rfl, rfl, rfl, rfl, rfl, rfl, rfl, rfl, rfl, rfl, rfl, rfl⟩

@[simp] theorem State.setTile_fields (s : State) (t : TileId) (r : TileRec) :
    (s.setTile t r).ports = s.ports ∧ (s.setTile t r).px = s.px ∧ (s.setTile t r).tiles = s.tiles.put t r
      ∧ (s.setTile t r).segs = s.segs ∧ (s.setTile t r).intake = s.intake ∧ (s.setTile t r).cal = s.cal
      ∧ (s.setTile t r).placements = s.placements ∧ (s.setTile t r).canvas = s.canvas
      ∧ (s.setTile t r).visit = s.visit ∧ (s.setTile t r).resolve = s.resolve ∧ (s.setTile t r).status = s.status
      ∧ (s.setTile t r).pending = s.pending :=
  ⟨rfl, rfl, rfl, rfl, rfl, rfl, rfl, rfl, rfl, rfl, rfl, rfl⟩

@[simp] theorem State.setSeg_fields (s : State) (t : TileId) (g : SegId) (r : SegRec) :
    (s.setSeg t g r).ports = s.ports ∧ (s.setSeg t g r).px = s.px ∧ (s.setSeg t g r).tiles = s.tiles
      ∧ (s.setSeg t g r).segs = s.segs.put (segIndex t g) r ∧ (s.setSeg t g r).intake = s.intake
      ∧ (s.setSeg t g r).cal = s.cal ∧ (s.setSeg t g r).placements = s.placements ∧ (s.setSeg t g r).canvas = s.canvas
      ∧ (s.setSeg t g r).visit = s.visit ∧ (s.setSeg t g r).resolve = s.resolve ∧ (s.setSeg t g r).status = s.status
      ∧ (s.setSeg t g r).pending = s.pending :=
  ⟨rfl, rfl, rfl, rfl, rfl, rfl, rfl, rfl, rfl, rfl, rfl, rfl⟩

@[simp] theorem State.updRecord_fields (s : State) (t : TileId) (f : TileRecord → TileRecord) :
    (s.updRecord t f).ports = s.ports ∧ (s.updRecord t f).px = s.px ∧ (s.updRecord t f).tiles = s.tiles
      ∧ (s.updRecord t f).segs = s.segs
      ∧ (s.updRecord t f).intake = { s.intake with records := s.intake.records.modify t f }
      ∧ (s.updRecord t f).cal = s.cal ∧ (s.updRecord t f).placements = s.placements
      ∧ (s.updRecord t f).canvas = s.canvas ∧ (s.updRecord t f).visit = s.visit
      ∧ (s.updRecord t f).resolve = s.resolve ∧ (s.updRecord t f).status = s.status
      ∧ (s.updRecord t f).pending = s.pending :=
  ⟨rfl, rfl, rfl, rfl, rfl, rfl, rfl, rfl, rfl, rfl, rfl, rfl⟩

@[simp] theorem State.setNextRow_fields (s : State) (t : TileId) (g : SegId) (e : Nat) :
    (s.setNextRow t g e).ports = s.ports ∧ (s.setNextRow t g e).px = s.px ∧ (s.setNextRow t g e).tiles = s.tiles
      ∧ (s.setNextRow t g e).segs = s.segs
      ∧ (s.setNextRow t g e).intake = { s.intake with next := s.intake.next.put (segIndex t g) e }
      ∧ (s.setNextRow t g e).cal = s.cal ∧ (s.setNextRow t g e).placements = s.placements
      ∧ (s.setNextRow t g e).canvas = s.canvas ∧ (s.setNextRow t g e).visit = s.visit
      ∧ (s.setNextRow t g e).resolve = s.resolve ∧ (s.setNextRow t g e).status = s.status
      ∧ (s.setNextRow t g e).pending = s.pending :=
  ⟨rfl, rfl, rfl, rfl, rfl, rfl, rfl, rfl, rfl, rfl, rfl, rfl⟩

@[simp] theorem State.setInFlight_fields (s : State) (t : TileId) (n : Nat) :
    (s.setInFlight t n).ports = s.ports ∧ (s.setInFlight t n).px = s.px ∧ (s.setInFlight t n).tiles = s.tiles
      ∧ (s.setInFlight t n).segs = s.segs
      ∧ (s.setInFlight t n).intake = { s.intake with inFlight := s.intake.inFlight.put t n }
      ∧ (s.setInFlight t n).cal = s.cal ∧ (s.setInFlight t n).placements = s.placements
      ∧ (s.setInFlight t n).canvas = s.canvas ∧ (s.setInFlight t n).visit = s.visit
      ∧ (s.setInFlight t n).resolve = s.resolve ∧ (s.setInFlight t n).status = s.status
      ∧ (s.setInFlight t n).pending = s.pending :=
  ⟨rfl, rfl, rfl, rfl, rfl, rfl, rfl, rfl, rfl, rfl, rfl, rfl⟩

@[simp] theorem State.setStall_fields (s : State) (t : TileId) (x : Timer) :
    (s.setStall t x).ports = s.ports ∧ (s.setStall t x).px = s.px ∧ (s.setStall t x).tiles = s.tiles
      ∧ (s.setStall t x).segs = s.segs ∧ (s.setStall t x).intake = { s.intake with stall := s.intake.stall.put t x }
      ∧ (s.setStall t x).cal = s.cal ∧ (s.setStall t x).placements = s.placements ∧ (s.setStall t x).canvas = s.canvas
      ∧ (s.setStall t x).visit = s.visit ∧ (s.setStall t x).resolve = s.resolve ∧ (s.setStall t x).status = s.status
      ∧ (s.setStall t x).pending = s.pending :=
  ⟨rfl, rfl, rfl, rfl, rfl, rfl, rfl, rfl, rfl, rfl, rfl, rfl⟩

@[simp] theorem State.raiseTile_fields (s : State) (b : Bool) :
    (s.raiseTile b).ports = s.ports ∧ (s.raiseTile b).px = s.px ∧ (s.raiseTile b).tiles = s.tiles
      ∧ (s.raiseTile b).segs = s.segs ∧ (s.raiseTile b).intake = s.intake ∧ (s.raiseTile b).cal = s.cal
      ∧ (s.raiseTile b).placements = s.placements ∧ (s.raiseTile b).canvas = s.canvas
      ∧ (s.raiseTile b).visit = s.visit ∧ (s.raiseTile b).resolve = s.resolve
      ∧ (s.raiseTile b).status = { s.status with tile := s.status.tile || b } ∧ (s.raiseTile b).pending = s.pending :=
  ⟨rfl, rfl, rfl, rfl, rfl, rfl, rfl, rfl, rfl, rfl, rfl, rfl⟩

@[simp] theorem State.updBank_fields (s : State) (b : BankId) (f : Bank → Bank) :
    (s.updBank b f).ports = s.ports ∧ (s.updBank b f).px = s.px ∧ (s.updBank b f).tiles = s.tiles
      ∧ (s.updBank b f).segs = s.segs ∧ (s.updBank b f).intake = s.intake ∧ (s.updBank b f).cal = s.cal
      ∧ (s.updBank b f).placements = s.placements
      ∧ (s.updBank b f).canvas = { s.canvas with banks := s.canvas.banks.modify b f }
      ∧ (s.updBank b f).visit = s.visit ∧ (s.updBank b f).resolve = s.resolve ∧ (s.updBank b f).status = s.status
      ∧ (s.updBank b f).pending = s.pending :=
  ⟨rfl, rfl, rfl, rfl, rfl, rfl, rfl, rfl, rfl, rfl, rfl, rfl⟩

@[simp] theorem State.updFlat_fields (s : State) (t : TileId) (f : FlatMap → FlatMap) :
    (s.updFlat t f).ports = s.ports ∧ (s.updFlat t f).px = s.px ∧ (s.updFlat t f).tiles = s.tiles
      ∧ (s.updFlat t f).segs = s.segs ∧ (s.updFlat t f).intake = s.intake
      ∧ (s.updFlat t f).cal = { s.cal with flats := s.cal.flats.modify t f }
      ∧ (s.updFlat t f).placements = s.placements ∧ (s.updFlat t f).canvas = s.canvas
      ∧ (s.updFlat t f).visit = s.visit ∧ (s.updFlat t f).resolve = s.resolve ∧ (s.updFlat t f).status = s.status
      ∧ (s.updFlat t f).pending = s.pending :=
  ⟨rfl, rfl, rfl, rfl, rfl, rfl, rfl, rfl, rfl, rfl, rfl, rfl⟩

@[simp] theorem State.updResolve_fields (s : State) (f : Resolve → Resolve) :
    (s.updResolve f).ports = s.ports ∧ (s.updResolve f).px = s.px ∧ (s.updResolve f).tiles = s.tiles
      ∧ (s.updResolve f).segs = s.segs ∧ (s.updResolve f).intake = s.intake ∧ (s.updResolve f).cal = s.cal
      ∧ (s.updResolve f).placements = s.placements ∧ (s.updResolve f).canvas = s.canvas
      ∧ (s.updResolve f).visit = s.visit ∧ (s.updResolve f).resolve = f s.resolve ∧ (s.updResolve f).status = s.status
      ∧ (s.updResolve f).pending = s.pending :=
  ⟨rfl, rfl, rfl, rfl, rfl, rfl, rfl, rfl, rfl, rfl, rfl, rfl⟩

/-- A cell write changes its bank's cells and nothing else. -/
@[simp] theorem State.writeCell_eq (s : State) (b : BankId) (place : Nat) (c : Cell) :
    s.writeCell b place c = s.updBank b fun k => { k with cells := Store.insert k.cells place c } := rfl

end Machine

end Sys2Proof
end

