-- ==== Sys2Proof/Laws/Frames.lean ====
section
/-! SUPPORT. Frames: for each shared operation, the blocks of the engine that it leaves as they are. -/

namespace Sys2Proof.Machine

@[simp] theorem State.setFlags_frame (s : State) (p : PortId) (f : PortFlags → PortFlags) :
    (s.setFlags p f).px = s.px ∧ (s.setFlags p f).tiles = s.tiles ∧ (s.setFlags p f).segs = s.segs
      ∧ (s.setFlags p f).intake = s.intake ∧ (s.setFlags p f).cal = s.cal ∧ (s.setFlags p f).placements = s.placements
      ∧ (s.setFlags p f).canvas = s.canvas ∧ (s.setFlags p f).visit = s.visit ∧ (s.setFlags p f).resolve = s.resolve
      ∧ (s.setFlags p f).status = s.status ∧ (s.setFlags p f).pending = s.pending := by
  unfold State.setFlags
  (try dsimp only)
  (repeat' split) <;> simp

@[simp] theorem State.count_frame (s : State) (p : PortId) (f : PortCounters → PortCounters) :
    (s.count p f).px = s.px ∧ (s.count p f).tiles = s.tiles ∧ (s.count p f).segs = s.segs
      ∧ (s.count p f).intake = s.intake ∧ (s.count p f).cal = s.cal ∧ (s.count p f).placements = s.placements
      ∧ (s.count p f).canvas = s.canvas ∧ (s.count p f).visit = s.visit ∧ (s.count p f).resolve = s.resolve
      ∧ (s.count p f).status = s.status ∧ (s.count p f).pending = s.pending := by
  unfold State.count
  (try dsimp only)
  (repeat' split) <;> simp

@[simp] theorem State.setRx_frame (s : State) (p : PortId) (rx : Rx) :
    (s.setRx p rx).px = s.px ∧ (s.setRx p rx).tiles = s.tiles ∧ (s.setRx p rx).segs = s.segs
      ∧ (s.setRx p rx).intake = s.intake ∧ (s.setRx p rx).cal = s.cal ∧ (s.setRx p rx).placements = s.placements
      ∧ (s.setRx p rx).canvas = s.canvas ∧ (s.setRx p rx).visit = s.visit ∧ (s.setRx p rx).resolve = s.resolve
      ∧ (s.setRx p rx).status = s.status ∧ (s.setRx p rx).pending = s.pending := by
  unfold State.setRx
  (try dsimp only)
  (repeat' split) <;> simp

@[simp] theorem State.countDiscard_frame (s : State) (p : PortId) :
    (s.countDiscard p).px = s.px ∧ (s.countDiscard p).tiles = s.tiles ∧ (s.countDiscard p).segs = s.segs
      ∧ (s.countDiscard p).intake = s.intake ∧ (s.countDiscard p).cal = s.cal ∧ (s.countDiscard p).placements = s.placements
      ∧ (s.countDiscard p).canvas = s.canvas ∧ (s.countDiscard p).visit = s.visit ∧ (s.countDiscard p).resolve = s.resolve
      ∧ (s.countDiscard p).status = s.status ∧ (s.countDiscard p).pending = s.pending := by
  unfold State.countDiscard
  (try dsimp only)
  (repeat' split) <;> simp

@[simp] theorem State.endReceive_frame (s : State) (p : PortId) :
    (s.endReceive p).px = s.px ∧ (s.endReceive p).tiles = s.tiles ∧ (s.endReceive p).segs = s.segs
      ∧ (s.endReceive p).intake = s.intake ∧ (s.endReceive p).cal = s.cal ∧ (s.endReceive p).placements = s.placements
      ∧ (s.endReceive p).canvas = s.canvas ∧ (s.endReceive p).visit = s.visit ∧ (s.endReceive p).resolve = s.resolve
      ∧ (s.endReceive p).status = s.status ∧ (s.endReceive p).pending = s.pending := by
  unfold State.endReceive
  (try dsimp only)
  (repeat' split) <;> simp

@[simp] theorem State.discardFrame_frame (s : State) (p : PortId) :
    (s.discardFrame p).px = s.px ∧ (s.discardFrame p).tiles = s.tiles ∧ (s.discardFrame p).segs = s.segs
      ∧ (s.discardFrame p).intake = s.intake ∧ (s.discardFrame p).cal = s.cal
      ∧ (s.discardFrame p).placements = s.placements ∧ (s.discardFrame p).canvas = s.canvas
      ∧ (s.discardFrame p).visit = s.visit ∧ (s.discardFrame p).resolve = s.resolve
      ∧ (s.discardFrame p).status = s.status ∧ (s.discardFrame p).pending = s.pending := by
  unfold State.discardFrame
  (try dsimp only)
  (repeat' split) <;> simp

@[simp] theorem State.discardAtHeader_frame (s : State) (p : PortId) :
    (s.discardAtHeader p).px = s.px ∧ (s.discardAtHeader p).tiles = s.tiles ∧ (s.discardAtHeader p).segs = s.segs
      ∧ (s.discardAtHeader p).intake = s.intake ∧ (s.discardAtHeader p).cal = s.cal ∧ (s.discardAtHeader p).placements = s.placements
      ∧ (s.discardAtHeader p).canvas = s.canvas ∧ (s.discardAtHeader p).visit = s.visit ∧ (s.discardAtHeader p).resolve = s.resolve
      ∧ (s.discardAtHeader p).status = s.status ∧ (s.discardAtHeader p).pending = s.pending := by
  unfold State.discardAtHeader
  (try dsimp only)
  (repeat' split) <;> simp

@[simp] theorem State.cutFrame_frame (s : State) (p : PortId) :
    (s.cutFrame p).px = s.px ∧ (s.cutFrame p).tiles = s.tiles ∧ (s.cutFrame p).segs = s.segs
      ∧ (s.cutFrame p).intake = s.intake ∧ (s.cutFrame p).cal = s.cal ∧ (s.cutFrame p).placements = s.placements
      ∧ (s.cutFrame p).canvas = s.canvas ∧ (s.cutFrame p).visit = s.visit ∧ (s.cutFrame p).resolve = s.resolve
      ∧ (s.cutFrame p).status = s.status ∧ (s.cutFrame p).pending = s.pending := by
  unfold State.cutFrame
  (try dsimp only)
  (repeat' split) <;> simp

@[simp] theorem State.truncate_frame (s : State) (p : PortId) :
    (s.truncate p).px = s.px ∧ (s.truncate p).tiles = s.tiles ∧ (s.truncate p).segs = s.segs
      ∧ (s.truncate p).intake = s.intake ∧ (s.truncate p).cal = s.cal ∧ (s.truncate p).placements = s.placements
      ∧ (s.truncate p).canvas = s.canvas ∧ (s.truncate p).visit = s.visit ∧ (s.truncate p).resolve = s.resolve
      ∧ (s.truncate p).status = s.status ∧ (s.truncate p).pending = s.pending := by
  unfold State.truncate
  (try dsimp only)
  (repeat' split) <;> simp

@[simp] theorem State.awaitHeader_frame (s : State) (p : PortId) :
    (s.awaitHeader p).px = s.px ∧ (s.awaitHeader p).tiles = s.tiles ∧ (s.awaitHeader p).segs = s.segs
      ∧ (s.awaitHeader p).intake = s.intake ∧ (s.awaitHeader p).cal = s.cal
      ∧ (s.awaitHeader p).placements = s.placements ∧ (s.awaitHeader p).canvas = s.canvas
      ∧ (s.awaitHeader p).visit = s.visit ∧ (s.awaitHeader p).resolve = s.resolve
      ∧ (s.awaitHeader p).status = s.status ∧ (s.awaitHeader p).pending = s.pending := by
  unfold State.awaitHeader
  (try dsimp only)
  (repeat' split) <;> simp

@[simp] theorem State.serveLane_frame (s : State) (p : PortId) :
    (s.serveLane p).px = s.px ∧ (s.serveLane p).tiles = s.tiles ∧ (s.serveLane p).segs = s.segs
      ∧ (s.serveLane p).intake = s.intake ∧ (s.serveLane p).cal = s.cal ∧ (s.serveLane p).placements = s.placements
      ∧ (s.serveLane p).canvas = s.canvas ∧ (s.serveLane p).visit = s.visit ∧ (s.serveLane p).resolve = s.resolve
      ∧ (s.serveLane p).status = s.status ∧ (s.serveLane p).pending = s.pending := by
  unfold State.serveLane
  (try dsimp only)
  (repeat' split) <;> simp

@[simp] theorem State.serveAll_frame (s : State) :
    (s.serveAll).px = s.px ∧ (s.serveAll).tiles = s.tiles ∧ (s.serveAll).segs = s.segs
      ∧ (s.serveAll).intake = s.intake ∧ (s.serveAll).cal = s.cal ∧ (s.serveAll).placements = s.placements
      ∧ (s.serveAll).canvas = s.canvas ∧ (s.serveAll).visit = s.visit ∧ (s.serveAll).resolve = s.resolve
      ∧ (s.serveAll).status = s.status ∧ (s.serveAll).pending = s.pending := by
  unfold State.serveAll
  (try dsimp only)
  (repeat' split) <;> simp [allPorts]

@[simp] theorem State.composeRsp_frame (s : State) (p : PortId) (code : Byte) (request : BitVec 16) (result : Result) (data : List Byte) :
    (s.composeRsp p code request result data).px = s.px ∧ (s.composeRsp p code request result data).tiles = s.tiles
      ∧ (s.composeRsp p code request result data).segs = s.segs
      ∧ (s.composeRsp p code request result data).intake = s.intake
      ∧ (s.composeRsp p code request result data).cal = s.cal
      ∧ (s.composeRsp p code request result data).placements = s.placements
      ∧ (s.composeRsp p code request result data).canvas = s.canvas
      ∧ (s.composeRsp p code request result data).visit = s.visit
      ∧ (s.composeRsp p code request result data).resolve = s.resolve
      ∧ (s.composeRsp p code request result data).status = s.status
      ∧ (s.composeRsp p code request result data).pending = s.pending := by
  unfold State.composeRsp
  (try dsimp only)
  (repeat' split) <;> simp

@[simp] theorem State.finishReturnFrame_frame (s : State) (p : PortId) :
    (s.finishReturnFrame p).px = s.px ∧ (s.finishReturnFrame p).tiles = s.tiles
      ∧ (s.finishReturnFrame p).segs = s.segs ∧ (s.finishReturnFrame p).intake = s.intake
      ∧ (s.finishReturnFrame p).cal = s.cal ∧ (s.finishReturnFrame p).placements = s.placements
      ∧ (s.finishReturnFrame p).canvas = s.canvas ∧ (s.finishReturnFrame p).visit = s.visit
      ∧ (s.finishReturnFrame p).resolve = s.resolve ∧ (s.finishReturnFrame p).status = s.status
      ∧ (s.finishReturnFrame p).pending = s.pending := by
  unfold State.finishReturnFrame
  (try dsimp only)
  (repeat' split) <;> simp

@[simp] theorem State.respond_frame (s : State) (p : PortId) (f : CtlFrame) (result : Result) (data : List Byte) :
    (s.respond p f result data).px = s.px ∧ (s.respond p f result data).tiles = s.tiles
      ∧ (s.respond p f result data).segs = s.segs ∧ (s.respond p f result data).intake = s.intake
      ∧ (s.respond p f result data).cal = s.cal ∧ (s.respond p f result data).placements = s.placements
      ∧ (s.respond p f result data).canvas = s.canvas ∧ (s.respond p f result data).visit = s.visit
      ∧ (s.respond p f result data).resolve = s.resolve ∧ (s.respond p f result data).status = s.status
      ∧ (s.respond p f result data).pending = s.pending := by
  unfold State.respond
  (try dsimp only)
  (repeat' split) <;> simp

@[simp] theorem State.ctlHeader_frame (s : State) (p : PortId) (code : Byte) (request : BitVec 16) (len : Nat) :
    (s.ctlHeader p code request len).px = s.px ∧ (s.ctlHeader p code request len).tiles = s.tiles
      ∧ (s.ctlHeader p code request len).segs = s.segs ∧ (s.ctlHeader p code request len).intake = s.intake
      ∧ (s.ctlHeader p code request len).cal = s.cal ∧ (s.ctlHeader p code request len).placements = s.placements
      ∧ (s.ctlHeader p code request len).canvas = s.canvas ∧ (s.ctlHeader p code request len).visit = s.visit
      ∧ (s.ctlHeader p code request len).resolve = s.resolve ∧ (s.ctlHeader p code request len).status = s.status
      ∧ (s.ctlHeader p code request len).pending = s.pending := by
  unfold State.ctlHeader
  (try dsimp only)
  (repeat' split) <;> simp

@[simp] theorem State.unacceptedKind_frame (s : State) (p : PortId) :
    (s.unacceptedKind p).px = s.px ∧ (s.unacceptedKind p).tiles = s.tiles ∧ (s.unacceptedKind p).segs = s.segs
      ∧ (s.unacceptedKind p).intake = s.intake ∧ (s.unacceptedKind p).cal = s.cal
      ∧ (s.unacceptedKind p).placements = s.placements ∧ (s.unacceptedKind p).canvas = s.canvas
      ∧ (s.unacceptedKind p).visit = s.visit ∧ (s.unacceptedKind p).resolve = s.resolve
      ∧ (s.unacceptedKind p).status = s.status ∧ (s.unacceptedKind p).pending = s.pending := by
  unfold State.unacceptedKind
  (try dsimp only)
  (repeat' split) <;> simp

@[simp] theorem State.badCtl_frame (s : State) (p : PortId) (code : Byte) (request : BitVec 16) :
    (s.badCtl p code request).px = s.px ∧ (s.badCtl p code request).tiles = s.tiles
      ∧ (s.badCtl p code request).segs = s.segs ∧ (s.badCtl p code request).intake = s.intake
      ∧ (s.badCtl p code request).cal = s.cal ∧ (s.badCtl p code request).placements = s.placements
      ∧ (s.badCtl p code request).canvas = s.canvas ∧ (s.badCtl p code request).visit = s.visit
      ∧ (s.badCtl p code request).resolve = s.resolve ∧ (s.badCtl p code request).status = s.status
      ∧ (s.badCtl p code request).pending = s.pending := by
  unfold State.badCtl
  (try dsimp only)
  (repeat' split) <;> simp

@[simp] theorem State.admitCtl_frame (s : State) (p : PortId) (f : CtlFrame) :
    (s.admitCtl p f).px = s.px ∧ (s.admitCtl p f).tiles = s.tiles ∧ (s.admitCtl p f).segs = s.segs
      ∧ (s.admitCtl p f).intake = s.intake ∧ (s.admitCtl p f).cal = s.cal ∧ (s.admitCtl p f).placements = s.placements
      ∧ (s.admitCtl p f).canvas = s.canvas ∧ (s.admitCtl p f).visit = s.visit ∧ (s.admitCtl p f).resolve = s.resolve
      ∧ (s.admitCtl p f).status = s.status ∧ (s.admitCtl p f).pending = s.pending := by
  unfold State.admitCtl
  (try dsimp only)
  (repeat' split) <;> simp

@[simp] theorem State.endCtlFrame_frame (s : State) (p : PortId) (code : Byte) (request : BitVec 16) (len : Nat) (received : List Byte) :
    (s.endCtlFrame p code request len received).px = s.px
      ∧ (s.endCtlFrame p code request len received).tiles = s.tiles
      ∧ (s.endCtlFrame p code request len received).segs = s.segs
      ∧ (s.endCtlFrame p code request len received).intake = s.intake
      ∧ (s.endCtlFrame p code request len received).cal = s.cal
      ∧ (s.endCtlFrame p code request len received).placements = s.placements
      ∧ (s.endCtlFrame p code request len received).canvas = s.canvas
      ∧ (s.endCtlFrame p code request len received).visit = s.visit
      ∧ (s.endCtlFrame p code request len received).resolve = s.resolve
      ∧ (s.endCtlFrame p code request len received).status = s.status
      ∧ (s.endCtlFrame p code request len received).pending = s.pending := by
  unfold State.endCtlFrame
  (try dsimp only)
  (repeat' split) <;> simp

@[simp] theorem State.latchLinkDown_frame (s : State) :
    (s.latchLinkDown).ports = s.ports ∧ (s.latchLinkDown).px = s.px ∧ (s.latchLinkDown).tiles = s.tiles
      ∧ (s.latchLinkDown).segs = s.segs ∧ (s.latchLinkDown).intake = s.intake ∧ (s.latchLinkDown).cal = s.cal
      ∧ (s.latchLinkDown).placements = s.placements ∧ (s.latchLinkDown).canvas = s.canvas
      ∧ (s.latchLinkDown).visit = s.visit ∧ (s.latchLinkDown).resolve = s.resolve
      ∧ (s.latchLinkDown).pending = s.pending := by
  unfold State.latchLinkDown
  (try dsimp only)
  (repeat' split) <;> simp

@[simp] theorem State.latchOverrun_frame (s : State) :
    (s.latchOverrun).ports = s.ports ∧ (s.latchOverrun).px = s.px ∧ (s.latchOverrun).tiles = s.tiles
      ∧ (s.latchOverrun).segs = s.segs ∧ (s.latchOverrun).intake = s.intake ∧ (s.latchOverrun).cal = s.cal
      ∧ (s.latchOverrun).placements = s.placements ∧ (s.latchOverrun).canvas = s.canvas
      ∧ (s.latchOverrun).visit = s.visit ∧ (s.latchOverrun).resolve = s.resolve ∧ (s.latchOverrun).pending = s.pending := by
  unfold State.latchOverrun
  (try dsimp only)
  (repeat' split) <;> simp

@[simp] theorem State.setPxRx_frame (s : State) (rx : PxRx) :
    (s.setPxRx rx).ports = s.ports ∧ (s.setPxRx rx).tiles = s.tiles ∧ (s.setPxRx rx).segs = s.segs
      ∧ (s.setPxRx rx).intake = s.intake ∧ (s.setPxRx rx).cal = s.cal ∧ (s.setPxRx rx).placements = s.placements
      ∧ (s.setPxRx rx).canvas = s.canvas ∧ (s.setPxRx rx).visit = s.visit ∧ (s.setPxRx rx).resolve = s.resolve
      ∧ (s.setPxRx rx).status = s.status ∧ (s.setPxRx rx).pending = s.pending := by
  unfold State.setPxRx
  (try dsimp only)
  (repeat' split) <;> simp

@[simp] theorem State.countPxDiscard_frame (s : State) :
    (s.countPxDiscard).ports = s.ports ∧ (s.countPxDiscard).tiles = s.tiles ∧ (s.countPxDiscard).segs = s.segs
      ∧ (s.countPxDiscard).intake = s.intake ∧ (s.countPxDiscard).cal = s.cal ∧ (s.countPxDiscard).placements = s.placements
      ∧ (s.countPxDiscard).canvas = s.canvas ∧ (s.countPxDiscard).visit = s.visit ∧ (s.countPxDiscard).resolve = s.resolve
      ∧ (s.countPxDiscard).status = s.status ∧ (s.countPxDiscard).pending = s.pending := by
  unfold State.countPxDiscard
  (try dsimp only)
  (repeat' split) <;> simp

@[simp] theorem State.endPxFrame_frame (s : State) :
    (s.endPxFrame).ports = s.ports ∧ (s.endPxFrame).tiles = s.tiles ∧ (s.endPxFrame).segs = s.segs
      ∧ (s.endPxFrame).intake = s.intake ∧ (s.endPxFrame).cal = s.cal ∧ (s.endPxFrame).placements = s.placements
      ∧ (s.endPxFrame).canvas = s.canvas ∧ (s.endPxFrame).visit = s.visit ∧ (s.endPxFrame).resolve = s.resolve
      ∧ (s.endPxFrame).status = s.status ∧ (s.endPxFrame).pending = s.pending := by
  unfold State.endPxFrame
  (try dsimp only)
  (repeat' split) <;> simp

@[simp] theorem State.discardPx_frame (s : State) :
    (s.discardPx).ports = s.ports ∧ (s.discardPx).tiles = s.tiles ∧ (s.discardPx).segs = s.segs
      ∧ (s.discardPx).intake = s.intake ∧ (s.discardPx).cal = s.cal ∧ (s.discardPx).placements = s.placements
      ∧ (s.discardPx).canvas = s.canvas ∧ (s.discardPx).visit = s.visit ∧ (s.discardPx).resolve = s.resolve
      ∧ (s.discardPx).status = s.status ∧ (s.discardPx).pending = s.pending := by
  unfold State.discardPx
  (try dsimp only)
  (repeat' split) <;> simp

@[simp] theorem State.truncatePx_frame (s : State) :
    (s.truncatePx).ports = s.ports ∧ (s.truncatePx).tiles = s.tiles ∧ (s.truncatePx).segs = s.segs
      ∧ (s.truncatePx).intake = s.intake ∧ (s.truncatePx).cal = s.cal ∧ (s.truncatePx).placements = s.placements
      ∧ (s.truncatePx).canvas = s.canvas ∧ (s.truncatePx).visit = s.visit ∧ (s.truncatePx).resolve = s.resolve
      ∧ (s.truncatePx).status = s.status ∧ (s.truncatePx).pending = s.pending := by
  unfold State.truncatePx
  (try dsimp only)
  (repeat' split) <;> simp

@[simp] theorem State.lineFall_frame (s : State) (p : PortId) :
    (s.lineFall p).px = s.px ∧ (s.lineFall p).tiles = s.tiles ∧ (s.lineFall p).segs = s.segs
      ∧ (s.lineFall p).intake = s.intake ∧ (s.lineFall p).cal = s.cal ∧ (s.lineFall p).placements = s.placements
      ∧ (s.lineFall p).canvas = s.canvas ∧ (s.lineFall p).visit = s.visit ∧ (s.lineFall p).resolve = s.resolve
      ∧ (s.lineFall p).pending = s.pending := by
  unfold State.lineFall
  (try dsimp only)
  (repeat' split) <;> simp

@[simp] theorem State.startScrub_frame (s : State) (b : BankId) :
    (s.startScrub b).ports = s.ports ∧ (s.startScrub b).px = s.px ∧ (s.startScrub b).tiles = s.tiles
      ∧ (s.startScrub b).segs = s.segs ∧ (s.startScrub b).intake = s.intake ∧ (s.startScrub b).cal = s.cal
      ∧ (s.startScrub b).placements = s.placements ∧ (s.startScrub b).visit = s.visit
      ∧ (s.startScrub b).resolve = s.resolve ∧ (s.startScrub b).status = s.status
      ∧ (s.startScrub b).pending = s.pending := by
  unfold State.startScrub
  (try dsimp only)
  (repeat' split) <;> simp

@[simp] theorem State.leaveRetiring_frame (s : State) (b : BankId) :
    (s.leaveRetiring b).ports = s.ports ∧ (s.leaveRetiring b).px = s.px ∧ (s.leaveRetiring b).tiles = s.tiles
      ∧ (s.leaveRetiring b).segs = s.segs ∧ (s.leaveRetiring b).intake = s.intake ∧ (s.leaveRetiring b).cal = s.cal
      ∧ (s.leaveRetiring b).placements = s.placements ∧ (s.leaveRetiring b).visit = s.visit
      ∧ (s.leaveRetiring b).resolve = s.resolve ∧ (s.leaveRetiring b).status = s.status
      ∧ (s.leaveRetiring b).pending = s.pending := by
  unfold State.leaveRetiring
  (try dsimp only)
  (repeat' split) <;> simp

@[simp] theorem State.retire_frame (s : State) (b : BankId) :
    (s.retire b).ports = s.ports ∧ (s.retire b).px = s.px ∧ (s.retire b).tiles = s.tiles ∧ (s.retire b).segs = s.segs
      ∧ (s.retire b).intake = s.intake ∧ (s.retire b).cal = s.cal ∧ (s.retire b).placements = s.placements
      ∧ (s.retire b).visit = s.visit ∧ (s.retire b).resolve = s.resolve ∧ (s.retire b).status = s.status
      ∧ (s.retire b).pending = s.pending := by
  unfold State.retire
  (try dsimp only)
  (repeat' split) <;> simp

@[simp] theorem State.updEntry_frame (s : State) (i : Fin 8) (f : EntryReport → EntryReport) :
    (s.updEntry i f).ports = s.ports ∧ (s.updEntry i f).px = s.px ∧ (s.updEntry i f).tiles = s.tiles
      ∧ (s.updEntry i f).segs = s.segs ∧ (s.updEntry i f).intake = s.intake ∧ (s.updEntry i f).cal = s.cal
      ∧ (s.updEntry i f).placements = s.placements ∧ (s.updEntry i f).canvas = s.canvas
      ∧ (s.updEntry i f).visit = s.visit ∧ (s.updEntry i f).status = s.status ∧ (s.updEntry i f).pending = s.pending := by
  unfold State.updEntry
  (try dsimp only)
  (repeat' split) <;> simp

@[simp] theorem State.releaseBank_frame (s : State) (b : BankId) :
    (s.releaseBank b).ports = s.ports ∧ (s.releaseBank b).px = s.px ∧ (s.releaseBank b).tiles = s.tiles
      ∧ (s.releaseBank b).segs = s.segs ∧ (s.releaseBank b).intake = s.intake ∧ (s.releaseBank b).cal = s.cal
      ∧ (s.releaseBank b).placements = s.placements ∧ (s.releaseBank b).visit = s.visit
      ∧ (s.releaseBank b).resolve = s.resolve ∧ (s.releaseBank b).status = s.status
      ∧ (s.releaseBank b).pending = s.pending := by
  unfold State.releaseBank
  (try dsimp only)
  (repeat' split) <;> simp

@[simp] theorem State.completePass_frame (s : State) :
    (s.completePass).ports = s.ports ∧ (s.completePass).px = s.px ∧ (s.completePass).tiles = s.tiles
      ∧ (s.completePass).segs = s.segs ∧ (s.completePass).intake = s.intake ∧ (s.completePass).cal = s.cal
      ∧ (s.completePass).placements = s.placements ∧ (s.completePass).visit = s.visit
      ∧ (s.completePass).pending = s.pending := by
  unfold State.completePass
  (try dsimp only)
  (repeat' split) <;> simp

@[simp] theorem State.endPass_frame (s : State) :
    (s.endPass).ports = s.ports ∧ (s.endPass).px = s.px ∧ (s.endPass).tiles = s.tiles ∧ (s.endPass).segs = s.segs
      ∧ (s.endPass).intake = s.intake ∧ (s.endPass).cal = s.cal ∧ (s.endPass).placements = s.placements
      ∧ (s.endPass).visit = s.visit ∧ (s.endPass).status = s.status ∧ (s.endPass).pending = s.pending := by
  unfold State.endPass
  (try dsimp only)
  (repeat' split) <;> simp

@[simp] theorem State.beginRow_frame (s : State) :
    (s.beginRow).ports = s.ports ∧ (s.beginRow).tiles = s.tiles ∧ (s.beginRow).segs = s.segs
      ∧ (s.beginRow).intake = s.intake ∧ (s.beginRow).cal = s.cal ∧ (s.beginRow).placements = s.placements
      ∧ (s.beginRow).canvas = s.canvas ∧ (s.beginRow).visit = s.visit ∧ (s.beginRow).status = s.status
      ∧ (s.beginRow).pending = s.pending := by
  unfold State.beginRow
  (try dsimp only)
  (repeat' split) <;> simp

@[simp] theorem State.standAt_frame (s : State) (i : Fin 8) (row : Nat) :
    (s.standAt i row).ports = s.ports ∧ (s.standAt i row).tiles = s.tiles ∧ (s.standAt i row).segs = s.segs
      ∧ (s.standAt i row).intake = s.intake ∧ (s.standAt i row).cal = s.cal
      ∧ (s.standAt i row).placements = s.placements ∧ (s.standAt i row).canvas = s.canvas
      ∧ (s.standAt i row).visit = s.visit ∧ (s.standAt i row).status = s.status
      ∧ (s.standAt i row).pending = s.pending := by
  unfold State.standAt
  (try dsimp only)
  (repeat' split) <;> simp

@[simp] theorem State.seek_frame (l : List (Fin 8)) (s : State) :
    (State.seek l s).ports = s.ports ∧ (State.seek l s).tiles = s.tiles ∧ (State.seek l s).segs = s.segs
      ∧ (State.seek l s).intake = s.intake ∧ (State.seek l s).cal = s.cal ∧ (State.seek l s).placements = s.placements
      ∧ (State.seek l s).visit = s.visit ∧ (State.seek l s).pending = s.pending := by
  induction l generalizing s with
  | nil => simp [State.seek]
  | cons i rest ih =>
    unfold State.seek
    dsimp only
    (repeat' split) <;> simp [ih]

@[simp] theorem State.resetPass_frame (s : State) (b : BankId) :
    (s.resetPass b).ports = s.ports ∧ (s.resetPass b).px = s.px ∧ (s.resetPass b).tiles = s.tiles
      ∧ (s.resetPass b).segs = s.segs ∧ (s.resetPass b).intake = s.intake ∧ (s.resetPass b).cal = s.cal
      ∧ (s.resetPass b).placements = s.placements ∧ (s.resetPass b).canvas = s.canvas
      ∧ (s.resetPass b).visit = s.visit ∧ (s.resetPass b).status = s.status ∧ (s.resetPass b).pending = s.pending := by
  unfold State.resetPass
  (try dsimp only)
  (repeat' split) <;> simp

@[simp] theorem State.openPass_frame (s : State) (b : BankId) :
    (s.openPass b).ports = s.ports ∧ (s.openPass b).tiles = s.tiles ∧ (s.openPass b).segs = s.segs
      ∧ (s.openPass b).intake = s.intake ∧ (s.openPass b).cal = s.cal ∧ (s.openPass b).placements = s.placements
      ∧ (s.openPass b).visit = s.visit ∧ (s.openPass b).pending = s.pending := by
  unfold State.openPass
  (try dsimp only)
  (repeat' split) <;> simp

@[simp] theorem State.restartPass_frame (s : State) :
    (s.restartPass).ports = s.ports ∧ (s.restartPass).tiles = s.tiles ∧ (s.restartPass).segs = s.segs
      ∧ (s.restartPass).intake = s.intake ∧ (s.restartPass).cal = s.cal ∧ (s.restartPass).placements = s.placements
      ∧ (s.restartPass).visit = s.visit ∧ (s.restartPass).pending = s.pending := by
  unfold State.restartPass
  (try dsimp only)
  (repeat' split) <;> simp

@[simp] theorem State.autoStartUpTo_frame (n : Nat) (s : State) :
    (State.autoStartUpTo n s).ports = s.ports ∧ (State.autoStartUpTo n s).tiles = s.tiles
      ∧ (State.autoStartUpTo n s).segs = s.segs ∧ (State.autoStartUpTo n s).intake = s.intake
      ∧ (State.autoStartUpTo n s).cal = s.cal ∧ (State.autoStartUpTo n s).placements = s.placements
      ∧ (State.autoStartUpTo n s).visit = s.visit ∧ (State.autoStartUpTo n s).pending = s.pending := by
  induction n generalizing s with
  | zero => simp [State.autoStartUpTo]
  | succ n ih =>
    unfold State.autoStartUpTo
    split <;> simp [ih]

@[simp] theorem State.autoStart_frame (s : State) :
    (s.autoStart).ports = s.ports ∧ (s.autoStart).tiles = s.tiles ∧ (s.autoStart).segs = s.segs
      ∧ (s.autoStart).intake = s.intake ∧ (s.autoStart).cal = s.cal ∧ (s.autoStart).placements = s.placements
      ∧ (s.autoStart).visit = s.visit ∧ (s.autoStart).pending = s.pending := by
  unfold State.autoStart
  (try dsimp only)
  (repeat' split) <;> simp

@[simp] theorem State.resumeWalk_frame (s : State) :
    (s.resumeWalk).ports = s.ports ∧ (s.resumeWalk).tiles = s.tiles ∧ (s.resumeWalk).segs = s.segs
      ∧ (s.resumeWalk).intake = s.intake ∧ (s.resumeWalk).cal = s.cal ∧ (s.resumeWalk).placements = s.placements
      ∧ (s.resumeWalk).canvas = s.canvas ∧ (s.resumeWalk).visit = s.visit ∧ (s.resumeWalk).status = s.status
      ∧ (s.resumeWalk).pending = s.pending := by
  unfold State.resumeWalk
  (try dsimp only)
  (repeat' split) <;> simp

@[simp] theorem State.rowSent_frame (s : State) (f : PrdFrame) :
    (s.rowSent f).ports = s.ports ∧ (s.rowSent f).tiles = s.tiles ∧ (s.rowSent f).segs = s.segs
      ∧ (s.rowSent f).intake = s.intake ∧ (s.rowSent f).cal = s.cal ∧ (s.rowSent f).placements = s.placements
      ∧ (s.rowSent f).visit = s.visit ∧ (s.rowSent f).pending = s.pending := by
  unfold State.rowSent
  (try dsimp only)
  (repeat' split) <;> simp

@[simp] theorem State.joinWaiting_frame (s : State) (b : BankId) :
    (s.joinWaiting b).ports = s.ports ∧ (s.joinWaiting b).tiles = s.tiles ∧ (s.joinWaiting b).segs = s.segs
      ∧ (s.joinWaiting b).intake = s.intake ∧ (s.joinWaiting b).cal = s.cal
      ∧ (s.joinWaiting b).placements = s.placements ∧ (s.joinWaiting b).visit = s.visit
      ∧ (s.joinWaiting b).pending = s.pending := by
  unfold State.joinWaiting
  (try dsimp only)
  (repeat' split) <;> simp

@[simp] theorem State.addCredits_frame (s : State) (credits : Byte) :
    (s.addCredits credits).ports = s.ports ∧ (s.addCredits credits).tiles = s.tiles
      ∧ (s.addCredits credits).segs = s.segs ∧ (s.addCredits credits).intake = s.intake
      ∧ (s.addCredits credits).cal = s.cal ∧ (s.addCredits credits).placements = s.placements
      ∧ (s.addCredits credits).canvas = s.canvas ∧ (s.addCredits credits).visit = s.visit
      ∧ (s.addCredits credits).status = s.status ∧ (s.addCredits credits).pending = s.pending := by
  unfold State.addCredits
  (try dsimp only)
  (repeat' split) <;> simp

@[simp] theorem State.pxHeader_frame (s : State) (h : Header) (crcGood : Bool) :
    (s.pxHeader h crcGood).ports = s.ports ∧ (s.pxHeader h crcGood).tiles = s.tiles
      ∧ (s.pxHeader h crcGood).segs = s.segs ∧ (s.pxHeader h crcGood).intake = s.intake
      ∧ (s.pxHeader h crcGood).cal = s.cal ∧ (s.pxHeader h crcGood).placements = s.placements
      ∧ (s.pxHeader h crcGood).canvas = s.canvas ∧ (s.pxHeader h crcGood).visit = s.visit
      ∧ (s.pxHeader h crcGood).status = s.status ∧ (s.pxHeader h crcGood).pending = s.pending := by
  unfold State.pxHeader
  (try dsimp only)
  (repeat' split) <;> simp

@[simp] theorem State.cutRow_frame (s : State) :
    (s.cutRow).ports = s.ports ∧ (s.cutRow).tiles = s.tiles ∧ (s.cutRow).segs = s.segs ∧ (s.cutRow).intake = s.intake
      ∧ (s.cutRow).cal = s.cal ∧ (s.cutRow).placements = s.placements ∧ (s.cutRow).visit = s.visit
      ∧ (s.cutRow).pending = s.pending := by
  unfold State.cutRow
  (try dsimp only)
  (repeat' split) <;> simp

@[simp] theorem State.pxDown_frame (s : State) :
    (s.pxDown).ports = s.ports ∧ (s.pxDown).tiles = s.tiles ∧ (s.pxDown).segs = s.segs ∧ (s.pxDown).intake = s.intake
      ∧ (s.pxDown).cal = s.cal ∧ (s.pxDown).placements = s.placements ∧ (s.pxDown).visit = s.visit
      ∧ (s.pxDown).pending = s.pending := by
  unfold State.pxDown
  (try dsimp only)
  (repeat' split) <;> simp

@[simp] theorem State.markTile_frame (s : State) (t : TileId) (f : TileFlags → TileFlags) :
    (s.markTile t f).ports = s.ports ∧ (s.markTile t f).px = s.px ∧ (s.markTile t f).tiles = s.tiles
      ∧ (s.markTile t f).segs = s.segs ∧ (s.markTile t f).cal = s.cal ∧ (s.markTile t f).placements = s.placements
      ∧ (s.markTile t f).canvas = s.canvas ∧ (s.markTile t f).visit = s.visit ∧ (s.markTile t f).resolve = s.resolve
      ∧ (s.markTile t f).pending = s.pending := by
  unfold State.markTile
  (try dsimp only)
  (repeat' split) <;> simp

@[simp] theorem State.endTile_frame (s : State) (t : TileId) (st : TileState) :
    (s.endTile t st).ports = s.ports ∧ (s.endTile t st).px = s.px ∧ (s.endTile t st).tiles = s.tiles
      ∧ (s.endTile t st).segs = s.segs ∧ (s.endTile t st).cal = s.cal ∧ (s.endTile t st).placements = s.placements
      ∧ (s.endTile t st).canvas = s.canvas ∧ (s.endTile t st).visit = s.visit ∧ (s.endTile t st).resolve = s.resolve
      ∧ (s.endTile t st).pending = s.pending := by
  unfold State.endTile
  (try dsimp only)
  (repeat' split) <;> simp

@[simp] theorem State.settleTile_frame (s : State) (t : TileId) :
    (s.settleTile t).ports = s.ports ∧ (s.settleTile t).px = s.px ∧ (s.settleTile t).tiles = s.tiles
      ∧ (s.settleTile t).segs = s.segs ∧ (s.settleTile t).cal = s.cal ∧ (s.settleTile t).placements = s.placements
      ∧ (s.settleTile t).canvas = s.canvas ∧ (s.settleTile t).visit = s.visit ∧ (s.settleTile t).resolve = s.resolve
      ∧ (s.settleTile t).pending = s.pending := by
  unfold State.settleTile
  (try dsimp only)
  (repeat' split) <;> simp

@[simp] theorem State.restartStall_frame (s : State) (t : TileId) :
    (s.restartStall t).ports = s.ports ∧ (s.restartStall t).px = s.px ∧ (s.restartStall t).tiles = s.tiles
      ∧ (s.restartStall t).segs = s.segs ∧ (s.restartStall t).cal = s.cal
      ∧ (s.restartStall t).placements = s.placements ∧ (s.restartStall t).canvas = s.canvas
      ∧ (s.restartStall t).visit = s.visit ∧ (s.restartStall t).resolve = s.resolve
      ∧ (s.restartStall t).status = s.status ∧ (s.restartStall t).pending = s.pending := by
  unfold State.restartStall
  (try dsimp only)
  (repeat' split) <;> simp

@[simp] theorem State.closeVisit_frame (s : State) :
    (s.closeVisit).ports = s.ports ∧ (s.closeVisit).tiles = s.tiles ∧ (s.closeVisit).segs = s.segs
      ∧ (s.closeVisit).intake = s.intake ∧ (s.closeVisit).cal = s.cal ∧ (s.closeVisit).placements = s.placements
      ∧ (s.closeVisit).pending = s.pending := by
  unfold State.closeVisit
  (try dsimp only)
  (repeat' split) <;> simp

@[simp] theorem State.finishSnap_frame (s : State) :
    (s.finishSnap).ports = s.ports ∧ (s.finishSnap).tiles = s.tiles ∧ (s.finishSnap).segs = s.segs
      ∧ (s.finishSnap).intake = s.intake ∧ (s.finishSnap).cal = s.cal ∧ (s.finishSnap).placements = s.placements
      ∧ (s.finishSnap).pending = s.pending := by
  unfold State.finishSnap
  (try dsimp only)
  (repeat' split) <;> simp

@[simp] theorem State.judgeSnap_frame (s : State) :
    (s.judgeSnap).ports = s.ports ∧ (s.judgeSnap).tiles = s.tiles ∧ (s.judgeSnap).segs = s.segs
      ∧ (s.judgeSnap).intake = s.intake ∧ (s.judgeSnap).cal = s.cal ∧ (s.judgeSnap).placements = s.placements
      ∧ (s.judgeSnap).pending = s.pending := by
  unfold State.judgeSnap
  (try dsimp only)
  (repeat' split) <;> simp

@[simp] theorem State.accountRow_frame (s : State) (t : TileId) (g : SegId) (r : Nat) (damaged : Bool) :
    (s.accountRow t g r damaged).ports = s.ports ∧ (s.accountRow t g r damaged).px = s.px
      ∧ (s.accountRow t g r damaged).tiles = s.tiles ∧ (s.accountRow t g r damaged).segs = s.segs
      ∧ (s.accountRow t g r damaged).cal = s.cal ∧ (s.accountRow t g r damaged).placements = s.placements
      ∧ (s.accountRow t g r damaged).canvas = s.canvas ∧ (s.accountRow t g r damaged).visit = s.visit
      ∧ (s.accountRow t g r damaged).resolve = s.resolve ∧ (s.accountRow t g r damaged).status = s.status
      ∧ (s.accountRow t g r damaged).pending = s.pending := by
  unfold State.accountRow
  (try dsimp only)
  (repeat' split) <;> simp

@[simp] theorem State.keepRow_frame (s : State) (p : PortId) (h : RowHeader) (t : TileId) (g : SegId) (samples : List Sample) :
    (s.keepRow p h t g samples).px = s.px ∧ (s.keepRow p h t g samples).tiles = s.tiles
      ∧ (s.keepRow p h t g samples).segs = s.segs ∧ (s.keepRow p h t g samples).cal = s.cal
      ∧ (s.keepRow p h t g samples).placements = s.placements ∧ (s.keepRow p h t g samples).canvas = s.canvas
      ∧ (s.keepRow p h t g samples).resolve = s.resolve ∧ (s.keepRow p h t g samples).status = s.status
      ∧ (s.keepRow p h t g samples).pending = s.pending := by
  unfold State.keepRow
  (try dsimp only)
  (repeat' split) <;> simp

@[simp] theorem State.applyDecision_frame (s : State) (p : PortId) (h : RowHeader) (samples : List Sample) (t : TileId) (g : SegId) (d : Decision) :
    (s.applyDecision p h samples t g d).px = s.px ∧ (s.applyDecision p h samples t g d).tiles = s.tiles
      ∧ (s.applyDecision p h samples t g d).segs = s.segs ∧ (s.applyDecision p h samples t g d).cal = s.cal
      ∧ (s.applyDecision p h samples t g d).placements = s.placements
      ∧ (s.applyDecision p h samples t g d).canvas = s.canvas
      ∧ (s.applyDecision p h samples t g d).resolve = s.resolve
      ∧ (s.applyDecision p h samples t g d).pending = s.pending := by
  cases d <;> simp [State.applyDecision]
  split <;> simp

@[simp] theorem State.arrive_frame (s : State) (p : PortId) (h : RowHeader) (crcGood : Bool) (samples : List Sample) :
    (s.arrive p h crcGood samples).tiles = s.tiles ∧ (s.arrive p h crcGood samples).segs = s.segs
      ∧ (s.arrive p h crcGood samples).cal = s.cal ∧ (s.arrive p h crcGood samples).placements = s.placements
      ∧ (s.arrive p h crcGood samples).pending = s.pending := by
  unfold State.arrive
  (try dsimp only)
  (repeat' split) <;> simp

@[simp] theorem State.blameOverrun_frame (s : State) (h : RowHeader) :
    (s.blameOverrun h).ports = s.ports ∧ (s.blameOverrun h).px = s.px ∧ (s.blameOverrun h).tiles = s.tiles
      ∧ (s.blameOverrun h).segs = s.segs ∧ (s.blameOverrun h).cal = s.cal
      ∧ (s.blameOverrun h).placements = s.placements ∧ (s.blameOverrun h).canvas = s.canvas
      ∧ (s.blameOverrun h).visit = s.visit ∧ (s.blameOverrun h).resolve = s.resolve
      ∧ (s.blameOverrun h).pending = s.pending := by
  unfold State.blameOverrun
  (try dsimp only)
  (repeat' split) <;> simp

@[simp] theorem State.overrun_frame (s : State) (p : PortId) (h : RowHeader) :
    (s.overrun p h).px = s.px ∧ (s.overrun p h).tiles = s.tiles ∧ (s.overrun p h).segs = s.segs
      ∧ (s.overrun p h).cal = s.cal ∧ (s.overrun p h).placements = s.placements ∧ (s.overrun p h).canvas = s.canvas
      ∧ (s.overrun p h).visit = s.visit ∧ (s.overrun p h).resolve = s.resolve ∧ (s.overrun p h).pending = s.pending := by
  unfold State.overrun
  (try dsimp only)
  (repeat' split) <;> simp

@[simp] theorem State.rowHeader_frame (s : State) (p : PortId) (h : RowHeader) (len : Nat) :
    (s.rowHeader p h len).px = s.px ∧ (s.rowHeader p h len).tiles = s.tiles ∧ (s.rowHeader p h len).segs = s.segs
      ∧ (s.rowHeader p h len).cal = s.cal ∧ (s.rowHeader p h len).placements = s.placements
      ∧ (s.rowHeader p h len).canvas = s.canvas ∧ (s.rowHeader p h len).visit = s.visit
      ∧ (s.rowHeader p h len).resolve = s.resolve ∧ (s.rowHeader p h len).pending = s.pending := by
  unfold State.rowHeader
  (try dsimp only)
  (repeat' split) <;> simp

@[simp] theorem State.ingressHeader_frame (s : State) (p : PortId) (h : Header) (crcGood : Bool) :
    (s.ingressHeader p h crcGood).px = s.px ∧ (s.ingressHeader p h crcGood).tiles = s.tiles
      ∧ (s.ingressHeader p h crcGood).segs = s.segs ∧ (s.ingressHeader p h crcGood).cal = s.cal
      ∧ (s.ingressHeader p h crcGood).placements = s.placements ∧ (s.ingressHeader p h crcGood).canvas = s.canvas
      ∧ (s.ingressHeader p h crcGood).visit = s.visit ∧ (s.ingressHeader p h crcGood).resolve = s.resolve
      ∧ (s.ingressHeader p h crcGood).pending = s.pending := by
  unfold State.ingressHeader
  (try dsimp only)
  (repeat' split) <;> simp

@[simp] theorem State.endRowFrame_frame (s : State) (p : PortId) (h : RowHeader) (len : Nat) (received : List Byte) :
    (s.endRowFrame p h len received).tiles = s.tiles ∧ (s.endRowFrame p h len received).segs = s.segs
      ∧ (s.endRowFrame p h len received).cal = s.cal ∧ (s.endRowFrame p h len received).placements = s.placements
      ∧ (s.endRowFrame p h len received).pending = s.pending := by
  unfold State.endRowFrame
  (try dsimp only)
  (repeat' split) <;> simp

@[simp] theorem State.depositTarget_frame (x : Context) (t : TileId) (kind : PixelKind) (s : State) (g : Target) :
    (State.depositTarget x t kind s g).ports = s.ports ∧ (State.depositTarget x t kind s g).px = s.px
      ∧ (State.depositTarget x t kind s g).tiles = s.tiles ∧ (State.depositTarget x t kind s g).segs = s.segs
      ∧ (State.depositTarget x t kind s g).cal = s.cal ∧ (State.depositTarget x t kind s g).placements = s.placements
      ∧ (State.depositTarget x t kind s g).visit = s.visit ∧ (State.depositTarget x t kind s g).resolve = s.resolve
      ∧ (State.depositTarget x t kind s g).status = s.status ∧ (State.depositTarget x t kind s g).pending = s.pending := by
  unfold State.depositTarget
  (try dsimp only)
  (repeat' split) <;> simp

@[simp] theorem State.countPixel_frame (s : State) (x : Context) (t : TileId) (kind : PixelKind) :
    (s.countPixel x t kind).ports = s.ports ∧ (s.countPixel x t kind).px = s.px
      ∧ (s.countPixel x t kind).tiles = s.tiles ∧ (s.countPixel x t kind).segs = s.segs
      ∧ (s.countPixel x t kind).cal = s.cal ∧ (s.countPixel x t kind).placements = s.placements
      ∧ (s.countPixel x t kind).canvas = s.canvas ∧ (s.countPixel x t kind).visit = s.visit
      ∧ (s.countPixel x t kind).resolve = s.resolve ∧ (s.countPixel x t kind).status = s.status
      ∧ (s.countPixel x t kind).pending = s.pending := by
  unfold State.countPixel
  (try dsimp only)
  (repeat' split) <;> simp

@[simp] theorem State.depositPixel_frame (s : State) (l : Lane) (a : Sample) (entry : Flat) :
    (s.depositPixel l a entry).ports = s.ports ∧ (s.depositPixel l a entry).px = s.px
      ∧ (s.depositPixel l a entry).tiles = s.tiles ∧ (s.depositPixel l a entry).segs = s.segs
      ∧ (s.depositPixel l a entry).cal = s.cal ∧ (s.depositPixel l a entry).placements = s.placements
      ∧ (s.depositPixel l a entry).visit = s.visit ∧ (s.depositPixel l a entry).resolve = s.resolve
      ∧ (s.depositPixel l a entry).status = s.status ∧ (s.depositPixel l a entry).pending = s.pending := by
  simp [State.depositPixel, Placement.targets]

@[simp] theorem State.uncountRow_frame (s : State) (t : TileId) :
    (s.uncountRow t).ports = s.ports ∧ (s.uncountRow t).tiles = s.tiles ∧ (s.uncountRow t).segs = s.segs
      ∧ (s.uncountRow t).cal = s.cal ∧ (s.uncountRow t).placements = s.placements
      ∧ (s.uncountRow t).pending = s.pending := by
  unfold State.uncountRow
  (try dsimp only)
  (repeat' split) <;> simp

@[simp] theorem State.endRow_frame (s : State) (p : PortId) (l : Lane) :
    (s.endRow p l).tiles = s.tiles ∧ (s.endRow p l).segs = s.segs ∧ (s.endRow p l).placements = s.placements
      ∧ (s.endRow p l).pending = s.pending := by
  unfold State.endRow
  (try dsimp only)
  (repeat' split) <;> simp

@[simp] theorem State.nextPixel_frame (s : State) (p : PortId) (l : Lane) :
    (s.nextPixel p l).tiles = s.tiles ∧ (s.nextPixel p l).segs = s.segs ∧ (s.nextPixel p l).placements = s.placements
      ∧ (s.nextPixel p l).pending = s.pending := by
  unfold State.nextPixel
  (try dsimp only)
  (repeat' split) <;> simp

@[simp] theorem State.startRow_frame (s : State) (p : PortId) (w : TakenRow) (rest : List TakenRow) (q : Placement) :
    (s.startRow p w rest q).px = s.px ∧ (s.startRow p w rest q).tiles = s.tiles
      ∧ (s.startRow p w rest q).segs = s.segs ∧ (s.startRow p w rest q).intake = s.intake
      ∧ (s.startRow p w rest q).placements = s.placements ∧ (s.startRow p w rest q).visit = s.visit
      ∧ (s.startRow p w rest q).resolve = s.resolve ∧ (s.startRow p w rest q).status = s.status
      ∧ (s.startRow p w rest q).pending = s.pending := by
  unfold State.startRow
  (try dsimp only)
  (repeat' split) <;> simp

@[simp] theorem State.quarantineNow_frame (s : State) (t : TileId) :
    (s.quarantineNow t).ports = s.ports ∧ (s.quarantineNow t).tiles = s.tiles ∧ (s.quarantineNow t).segs = s.segs
      ∧ (s.quarantineNow t).cal = s.cal ∧ (s.quarantineNow t).placements = s.placements
      ∧ (s.quarantineNow t).pending = s.pending := by
  unfold State.quarantineNow
  (try dsimp only)
  (repeat' split) <;> simp

@[simp] theorem State.openVisit_frame (s : State) (tag : Byte) (expected : Nat) (b : BankId) :
    (s.openVisit tag expected b).ports = s.ports ∧ (s.openVisit tag expected b).px = s.px
      ∧ (s.openVisit tag expected b).tiles = s.tiles ∧ (s.openVisit tag expected b).segs = s.segs
      ∧ (s.openVisit tag expected b).intake = s.intake ∧ (s.openVisit tag expected b).cal = s.cal
      ∧ (s.openVisit tag expected b).placements = s.placements ∧ (s.openVisit tag expected b).resolve = s.resolve
      ∧ (s.openVisit tag expected b).status = s.status ∧ (s.openVisit tag expected b).pending = s.pending := by
  unfold State.openVisit
  (try dsimp only)
  (repeat' split) <;> simp

@[simp] theorem State.openSnap_frame (s : State) (sx sy : Int) :
    (s.openSnap sx sy).ports = s.ports ∧ (s.openSnap sx sy).px = s.px ∧ (s.openSnap sx sy).tiles = s.tiles
      ∧ (s.openSnap sx sy).segs = s.segs ∧ (s.openSnap sx sy).canvas = s.canvas
      ∧ (s.openSnap sx sy).resolve = s.resolve ∧ (s.openSnap sx sy).status = s.status
      ∧ (s.openSnap sx sy).pending = s.pending := by
  unfold State.openSnap
  (try dsimp only)
  (repeat' split) <;> simp

@[simp] theorem State.beginDrain_frame (s : State) :
    (s.beginDrain).ports = s.ports ∧ (s.beginDrain).px = s.px ∧ (s.beginDrain).tiles = s.tiles
      ∧ (s.beginDrain).segs = s.segs ∧ (s.beginDrain).intake = s.intake ∧ (s.beginDrain).cal = s.cal
      ∧ (s.beginDrain).placements = s.placements ∧ (s.beginDrain).canvas = s.canvas
      ∧ (s.beginDrain).resolve = s.resolve ∧ (s.beginDrain).status = s.status ∧ (s.beginDrain).pending = s.pending := by
  unfold State.beginDrain
  (try dsimp only)
  (repeat' split) <;> simp

@[simp] theorem State.abortVisit_frame (s : State) (b : BankId) :
    (s.abortVisit b).px = s.px ∧ (s.abortVisit b).tiles = s.tiles ∧ (s.abortVisit b).segs = s.segs
      ∧ (s.abortVisit b).placements = s.placements ∧ (s.abortVisit b).resolve = s.resolve
      ∧ (s.abortVisit b).status = s.status ∧ (s.abortVisit b).pending = s.pending := by
  unfold State.abortVisit State.abortIntake
  simp

@[simp] theorem State.withdrawVisit_frame (s : State) (b : BankId) :
    (s.withdrawVisit b).ports = s.ports ∧ (s.withdrawVisit b).px = s.px ∧ (s.withdrawVisit b).tiles = s.tiles
      ∧ (s.withdrawVisit b).segs = s.segs ∧ (s.withdrawVisit b).intake = s.intake ∧ (s.withdrawVisit b).cal = s.cal
      ∧ (s.withdrawVisit b).placements = s.placements ∧ (s.withdrawVisit b).status = s.status
      ∧ (s.withdrawVisit b).pending = s.pending := by
  unfold State.withdrawVisit
  (try dsimp only)
  (repeat' split) <;> simp

@[simp] theorem State.restReadHold_frame (s : State) :
    (s.restReadHold).ports = s.ports ∧ (s.restReadHold).px = s.px ∧ (s.restReadHold).tiles = s.tiles
      ∧ (s.restReadHold).segs = s.segs ∧ (s.restReadHold).intake = s.intake ∧ (s.restReadHold).cal = s.cal
      ∧ (s.restReadHold).placements = s.placements ∧ (s.restReadHold).visit = s.visit
      ∧ (s.restReadHold).resolve = s.resolve ∧ (s.restReadHold).status = s.status
      ∧ (s.restReadHold).pending = s.pending := by
  unfold State.restReadHold
  (try dsimp only)
  (repeat' split) <;> simp

@[simp] theorem State.restBank_frame (s : State) (b : BankId) :
    (s.restBank b).ports = s.ports ∧ (s.restBank b).px = s.px ∧ (s.restBank b).tiles = s.tiles
      ∧ (s.restBank b).segs = s.segs ∧ (s.restBank b).intake = s.intake ∧ (s.restBank b).cal = s.cal
      ∧ (s.restBank b).placements = s.placements ∧ (s.restBank b).visit = s.visit ∧ (s.restBank b).resolve = s.resolve
      ∧ (s.restBank b).status = s.status ∧ (s.restBank b).pending = s.pending := by
  unfold State.restBank
  (try dsimp only)
  (repeat' split) <;> simp

@[simp] theorem State.engineRest_frame (s : State) :
    (s.engineRest).tiles = s.tiles ∧ (s.engineRest).segs = s.segs ∧ (s.engineRest).pending = s.pending := by
  unfold State.engineRest
  (try dsimp only)
  (repeat' split) <;> simp

@[simp] theorem State.askRestart_frame (s : State) :
    (s.askRestart).ports = s.ports ∧ (s.askRestart).tiles = s.tiles ∧ (s.askRestart).segs = s.segs
      ∧ (s.askRestart).intake = s.intake ∧ (s.askRestart).cal = s.cal ∧ (s.askRestart).placements = s.placements
      ∧ (s.askRestart).visit = s.visit ∧ (s.askRestart).pending = s.pending := by
  unfold State.askRestart
  (try dsimp only)
  (repeat' split) <;> simp

@[simp] theorem State.askEnd_frame (s : State) :
    (s.askEnd).ports = s.ports ∧ (s.askEnd).tiles = s.tiles ∧ (s.askEnd).segs = s.segs ∧ (s.askEnd).intake = s.intake
      ∧ (s.askEnd).cal = s.cal ∧ (s.askEnd).placements = s.placements ∧ (s.askEnd).visit = s.visit
      ∧ (s.askEnd).pending = s.pending := by
  unfold State.askEnd
  (try dsimp only)
  (repeat' split) <;> simp

@[simp] theorem State.setCanvas_frame (s : State) (w h : Nat) :
    (s.setCanvas w h).ports = s.ports ∧ (s.setCanvas w h).px = s.px ∧ (s.setCanvas w h).tiles = s.tiles
      ∧ (s.setCanvas w h).segs = s.segs ∧ (s.setCanvas w h).intake = s.intake ∧ (s.setCanvas w h).cal = s.cal
      ∧ (s.setCanvas w h).placements = s.placements ∧ (s.setCanvas w h).visit = s.visit
      ∧ (s.setCanvas w h).resolve = s.resolve ∧ (s.setCanvas w h).status = s.status
      ∧ (s.setCanvas w h).pending = s.pending := by
  unfold State.setCanvas
  (try dsimp only)
  (repeat' split) <;> simp

@[simp] theorem State.scrubNext_frame (s : State) (b : BankId) :
    (s.scrubNext b).ports = s.ports ∧ (s.scrubNext b).px = s.px ∧ (s.scrubNext b).tiles = s.tiles
      ∧ (s.scrubNext b).segs = s.segs ∧ (s.scrubNext b).intake = s.intake ∧ (s.scrubNext b).cal = s.cal
      ∧ (s.scrubNext b).placements = s.placements ∧ (s.scrubNext b).visit = s.visit
      ∧ (s.scrubNext b).resolve = s.resolve ∧ (s.scrubNext b).status = s.status ∧ (s.scrubNext b).pending = s.pending := by
  unfold State.scrubNext
  (try dsimp only)
  (repeat' split) <;> simp

@[simp] theorem State.stallTile_frame (s : State) (t : TileId) :
    (s.stallTile t).ports = s.ports ∧ (s.stallTile t).tiles = s.tiles ∧ (s.stallTile t).segs = s.segs
      ∧ (s.stallTile t).cal = s.cal ∧ (s.stallTile t).placements = s.placements ∧ (s.stallTile t).pending = s.pending := by
  unfold State.stallTile
  (try dsimp only)
  (repeat' split) <;> simp

@[simp] theorem State.cutTile_frame (s : State) (t : TileId) :
    (s.cutTile t).ports = s.ports ∧ (s.cutTile t).px = s.px ∧ (s.cutTile t).tiles = s.tiles
      ∧ (s.cutTile t).segs = s.segs ∧ (s.cutTile t).cal = s.cal ∧ (s.cutTile t).placements = s.placements
      ∧ (s.cutTile t).canvas = s.canvas ∧ (s.cutTile t).visit = s.visit ∧ (s.cutTile t).resolve = s.resolve
      ∧ (s.cutTile t).pending = s.pending := by
  unfold State.cutTile
  (try dsimp only)
  (repeat' split) <;> simp

theorem foldl_cutTile_frame (l : List TileId) (s : State) :
    (l.foldl State.cutTile s).ports = s.ports ∧ (l.foldl State.cutTile s).px = s.px
      ∧ (l.foldl State.cutTile s).tiles = s.tiles ∧ (l.foldl State.cutTile s).segs = s.segs
      ∧ (l.foldl State.cutTile s).cal = s.cal ∧ (l.foldl State.cutTile s).placements = s.placements
      ∧ (l.foldl State.cutTile s).canvas = s.canvas ∧ (l.foldl State.cutTile s).visit = s.visit
      ∧ (l.foldl State.cutTile s).resolve = s.resolve ∧ (l.foldl State.cutTile s).pending = s.pending := by
  induction l generalizing s with
  | nil => simp
  | cons t rest ih => simp [ih]

@[simp] theorem State.drainExpires_frame (s : State) :
    (s.drainExpires).ports = s.ports ∧ (s.drainExpires).tiles = s.tiles ∧ (s.drainExpires).segs = s.segs
      ∧ (s.drainExpires).cal = s.cal ∧ (s.drainExpires).placements = s.placements
      ∧ (s.drainExpires).pending = s.pending := by
  unfold State.drainExpires State.stopDrain
  split <;> simp [foldl_cutTile_frame]

@[simp] theorem State.egressExpires_frame (s : State) :
    (s.egressExpires).ports = s.ports ∧ (s.egressExpires).px = s.px ∧ (s.egressExpires).tiles = s.tiles
      ∧ (s.egressExpires).segs = s.segs ∧ (s.egressExpires).intake = s.intake ∧ (s.egressExpires).cal = s.cal
      ∧ (s.egressExpires).placements = s.placements ∧ (s.egressExpires).canvas = s.canvas
      ∧ (s.egressExpires).visit = s.visit ∧ (s.egressExpires).pending = s.pending := by
  unfold State.egressExpires
  (try dsimp only)
  (repeat' split) <;> simp

end Sys2Proof.Machine
end

