-- ==== Sys2Proof/Laws/Banks.lean ====
section
/-! SUPPORT. Visits, banks and passes: each operation of the sequencer keeps them in order (R70, R73, R101, R141, R142). -/

namespace Sys2Proof.Machine

/-- A bank state that neither the visit, nor the waiting list, nor the pass accounts for. -/
def BankState.plain : BankState → Bool
  | .free => true
  | .filling => false
  | .closed => false
  | .resolving => false
  | .resolved => true
  | .retiring => true
  | .scrubbing => true

/-- The part of `PassOk` that holds between the parts of one step: a row in transmission is not asked for. -/
def State.PassCore (s : State) : Prop :=
  (∀ b, (s.bank b).state = .resolving → s.resolve.state ≠ .idle ∧ s.resolve.passBank = b)
    ∧ (s.resolve.state = .running ∨ s.resolve.state = .restarting → (s.bank s.resolve.passBank).state = .resolving)
    ∧ (∀ b, (s.bank b).readHold = true ↔ s.resolve.state ≠ .idle ∧ s.resolve.passBank = b)
    ∧ (s.resolve.snapshot = none ↔ s.resolve.state = .idle)
    ∧ (s.resolve.state = .idle → s.px.lane = none)

/-- The rest of `PassOk`. -/
def State.RowHeld (s : State) : Prop :=
  s.resolve.state = .restarting ∨ s.resolve.state = .ending → s.px.lane ≠ none

theorem State.passOk_iff (s : State) : s.PassOk ↔ s.PassCore ∧ s.RowHeld := by
  simp only [State.PassOk, State.PassCore, State.RowHeld]
  constructor
  · intro h
    exact ⟨⟨h.1, h.2.1, h.2.2.1, h.2.2.2.1, h.2.2.2.2.1⟩, h.2.2.2.2.2⟩
  · intro h
    exact ⟨h.1.1, h.1.2.1, h.1.2.2.1, h.1.2.2.2.1, h.1.2.2.2.2, h.2⟩

/-- What the operations of the sequencer keep. -/
def State.Core (s : State) : Prop := s.VisitOk ∧ s.WaitingOk ∧ s.PassCore

/-- The core is a property of the visit, the bank states and read holds, the waiting list, the pass and the forward lane. -/
theorem State.core_congr {s u : State} (hv : u.visit.state = s.visit.state ∧ u.visit.snap = s.visit.snap
      ∧ u.visit.drain = s.visit.drain ∧ u.visit.bank = s.visit.bank)
    (hb : ∀ b, (u.bank b).state = (s.bank b).state ∧ (u.bank b).readHold = (s.bank b).readHold)
    (hr : u.resolve.state = s.resolve.state ∧ u.resolve.passBank = s.resolve.passBank
      ∧ u.resolve.waiting = s.resolve.waiting ∧ (u.resolve.snapshot = none ↔ s.resolve.snapshot = none))
    (hl : u.px.lane = none ↔ s.px.lane = none) : u.Core ↔ s.Core := by
  simp only [State.Core, State.VisitOk, State.WaitingOk, State.PassCore, hv.1, hv.2.1, hv.2.2.1, hv.2.2.2, (hb _).1, (hb _).2,
    hr.1, hr.2.1, hr.2.2.1, hr.2.2.2, hl]

/-- A bank that moves between plain states keeps the core. -/
theorem State.Core.updBank_plain {s : State} (h : s.Core) (b : BankId) (f : Bank → Bank)
    (h1 : (s.bank b).state.plain = true) (h2 : (f (s.bank b)).state.plain = true)
    (h3 : (f (s.bank b)).readHold = (s.bank b).readHold) : (s.updBank b f).Core := by
  obtain ⟨⟨hv1, hv2, hv3⟩, ⟨hw1, hw2⟩, hp1, hp2, hp3, hp4, hp5⟩ := h
  have hst : ∀ c, ((s.updBank b f).bank c) = if b = c then f (s.bank b) else s.bank c := by
    intro c
    simp [State.bank]
  have hplain : ∀ x, x = BankState.filling ∨ x = .closed ∨ x = .resolving →
      ∀ c, ((s.updBank b f).bank c).state = x ↔ (s.bank c).state = x := by
    intro x hx c
    rw [hst]
    split
    · rename_i hc
      subst hc
      constructor <;> intro he
      · rcases hx with rfl | rfl | rfl <;> simp [he, BankState.plain] at h2
      · rcases hx with rfl | rfl | rfl <;> simp [he, BankState.plain] at h1
    · rfl
  have hrh : ∀ c, ((s.updBank b f).bank c).readHold = (s.bank c).readHold := by
    intro c
    rw [hst]
    split
    · rename_i hc
      subst hc
      exact h3
    · rfl
  refine ⟨⟨hv1, fun c => ?_, hv3⟩, ⟨fun c => ?_, hw2⟩, fun c => ?_, ?_, fun c => ?_, hp4, hp5⟩
  · rw [hplain _ (by simp) c]
    exact hv2 c
  · rw [hplain _ (by simp) c]
    exact hw1 c
  · rw [hplain _ (by simp) c]
    exact hp1 c
  · rw [hplain _ (by simp)]
    exact hp2
  · rw [hrh]
    exact hp3 c

theorem State.Core.startScrub {s : State} (h : s.Core) (b : BankId) (h1 : (s.bank b).state.plain = true) :
    (s.startScrub b).Core := by
  refine h.updBank_plain b _ h1 ?_ rfl
  dsimp only
  split <;> rfl

theorem State.Core.leaveRetiring {s : State} (h : s.Core) (b : BankId) : (s.leaveRetiring b).Core := by
  unfold State.leaveRetiring
  split
  · rename_i hc
    have hp : (s.bank b).state.plain = true := by rw [hc.1]; rfl
    split
    · exact h.startScrub b hp
    · exact h.updBank_plain b _ hp rfl rfl
  · exact h

theorem State.Core.retire {s : State} (h : s.Core) (b : BankId) (h1 : (s.bank b).state.plain = true) :
    (s.retire b).Core := (h.updBank_plain b (fun k => { k with state := .retiring }) h1 rfl rfl).leaveRetiring b

/-- A retirement leaves the bank's read hold, and every other bank, as it was, and ends in a plain state. -/
theorem State.retire_bank (s : State) (b : BankId) :
    (∀ c, b ≠ c → (s.retire b).bank c = s.bank c) ∧ ((s.retire b).bank b).state.plain = true
      ∧ ((s.retire b).bank b).readHold = (s.bank b).readHold := by
  unfold State.retire State.leaveRetiring State.startScrub State.bank
  (repeat' split) <;> refine ⟨fun c hc => ?_, ?_, ?_⟩ <;> simp [BankState.plain, *] <;> split <;> rfl

/-- Leaving RETIRING concerns its own bank only, and moves it from RETIRING to a plain state. -/
theorem State.leaveRetiring_bank (s : State) (b : BankId) :
    (∀ c, b ≠ c → (s.leaveRetiring b).bank c = s.bank c)
      ∧ ((s.leaveRetiring b).bank b).readHold = (s.bank b).readHold
      ∧ (((s.leaveRetiring b).bank b).state = (s.bank b).state
          ∨ (s.bank b).state = .retiring ∧ ((s.leaveRetiring b).bank b).state.plain = true) := by
  unfold State.leaveRetiring State.startScrub State.bank
  (repeat' split) <;> refine ⟨fun c hc => ?_, ?_, ?_⟩ <;> simp [BankState.plain, *] <;> split <;> rfl

/-- The end of a pass for its bank: the read hold is cleared, a RESOLVING bank ends in a plain state, a RETIRING one may move
to another plain state, and nothing else of the banks' states changes (R73). -/
theorem State.releaseBank_bank (s : State) (b : BankId) :
    (∀ c, b ≠ c → (s.releaseBank b).bank c = s.bank c) ∧ ((s.releaseBank b).bank b).readHold = false
      ∧ (((s.releaseBank b).bank b).state.plain = true ∧ ((s.bank b).state = .resolving ∨ (s.bank b).state = .retiring)
          ∨ ((s.releaseBank b).bank b).state = (s.bank b).state ∧ (s.bank b).state ≠ .resolving) := by
  unfold State.releaseBank
  dsimp only
  have h0 : ∀ c, (s.updBank b fun k => { k with readHold := false }).bank c
      = if b = c then { s.bank b with readHold := false } else s.bank c := by
    intro c
    simp [State.bank]
  split
  · rename_i hres
    rw [h0] at hres
    simp at hres
    split
    · obtain ⟨h1, h2, h3⟩ := State.retire_bank (s.updBank b fun k => { k with readHold := false }) b
      refine ⟨fun c hc => ?_, ?_, Or.inl ⟨h2, Or.inl hres⟩⟩
      · rw [h1 c hc, h0, if_neg hc]
      · rw [h3, h0]
        simp
    · refine ⟨fun c hc => ?_, ?_, Or.inl ⟨?_, Or.inl hres⟩⟩
      · simp [State.bank, hc]
      · simp [State.bank]
      · simp [State.bank, BankState.plain]
  · rename_i hne
    rw [h0] at hne
    simp at hne
    obtain ⟨h1, h2, h3⟩ := State.leaveRetiring_bank (s.updBank b fun k => { k with readHold := false }) b
    refine ⟨fun c hc => ?_, ?_, ?_⟩
    · rw [h1 c hc, h0, if_neg hc]
    · rw [h2, h0]
      simp
    · rcases h3 with h3 | h3
      · rw [h0] at h3
        simp at h3
        exact Or.inr ⟨h3, hne⟩
      · have h4 := h3.1
        rw [h0] at h4
        simp at h4
        exact Or.inl ⟨h3.2, Or.inr h4⟩

/-- The end of a pass, on a state whose resolve state has just become IDLE, keeps the core. -/
theorem State.Core.released {s u : State} (h : s.Core) (hl : s.px.lane = none)
    (hc : u.canvas = s.canvas) (hv : u.visit = s.visit) (hx : u.px = s.px) (h1 : u.resolve.state = .idle)
    (h2 : u.resolve.snapshot = none) (h3 : u.resolve.waiting = s.resolve.waiting) :
    (u.releaseBank s.resolve.passBank).Core := by
  obtain ⟨⟨hv1, hv2, hv3⟩, ⟨hw1, hw2⟩, hp1, hp2, hp3, hp4, hp5⟩ := h
  obtain ⟨k1, k2, k3⟩ := State.releaseBank_bank u s.resolve.passBank
  have hb : ∀ c, u.bank c = s.bank c := by
    intro c
    simp [State.bank, hc]
  simp only [hb] at k1 k3
  have f1 : (u.releaseBank s.resolve.passBank).visit = s.visit := by simp [hv]
  have f2 : (u.releaseBank s.resolve.passBank).resolve = u.resolve := by simp
  have f3 : (u.releaseBank s.resolve.passBank).px = s.px := by simp [hx]
  generalize u.releaseBank s.resolve.passBank = w at k1 k2 k3 f1 f2 f3 ⊢
  have hne : ∀ c, (w.bank c).state ≠ .resolving := by
    intro c he
    by_cases hcb : s.resolve.passBank = c
    · subst hcb
      rcases k3 with k3 | k3
      · rw [he] at k3
        simp [BankState.plain] at k3
      · exact k3.2 (k3.1 ▸ he)
    · rw [k1 c hcb] at he
      exact hcb (hp1 c he).2
  have hsame : ∀ x, x = BankState.filling ∨ x = .closed → ∀ c, (w.bank c).state = x ↔ (s.bank c).state = x := by
    intro x hx c
    by_cases hcb : s.resolve.passBank = c
    · subst hcb
      rcases k3 with ⟨k3, k4⟩ | k3
      · constructor <;> intro he
        · rw [he] at k3
          rcases hx with rfl | rfl <;> simp [BankState.plain] at k3
        · rw [he] at k4
          rcases hx with rfl | rfl <;> simp at k4
      · rw [k3.1]
    · rw [k1 c hcb]
  have hrh : ∀ c, (w.bank c).readHold = false := by
    intro c
    by_cases hcb : s.resolve.passBank = c
    · subst hcb
      exact k2
    · rw [k1 c hcb]
      cases hr : (s.bank c).readHold
      · rfl
      · exact absurd ((hp3 c).1 hr).2 hcb
  refine ⟨⟨?_, fun c => ?_, ?_⟩, ⟨fun c => ?_, ?_⟩, fun c he => absurd he (hne c), ?_, fun c => ?_, ?_, ?_⟩
  · rw [f1]
    exact hv1
  · rw [f1, hsame _ (Or.inl rfl)]
    exact hv2 c
  · rw [f1]
    exact hv3
  · rw [f2, h3, hsame _ (Or.inr rfl)]
    exact hw1 c
  · rw [f2, h3]
    exact hw2
  · rw [f2, h1]
    simp
  · rw [hrh, f2, h1]
    simp
  · rw [f2, h1, h2]
    simp
  · intro _
    rw [f3]
    exact hl

/-- A completed pass leaves the sequencer IDLE (R147). -/
theorem State.completePass_resolve (s : State) :
    s.completePass.resolve.state = .idle ∧ s.completePass.resolve.waiting = s.resolve.waiting
      ∧ s.completePass.resolve.trigger = s.resolve.trigger ∧ s.completePass.px = s.px := by
  unfold State.completePass
  simp

theorem State.Core.completePass {s : State} (h : s.Core) (hl : s.px.lane = none) : s.completePass.Core := by
  unfold State.completePass
  exact State.Core.released h hl (by simp) (by simp) (by simp) (by simp) (by simp) (by simp)

/-- A pass that ends leaves the sequencer IDLE (R150). -/
theorem State.endPass_resolve (s : State) :
    s.endPass.resolve.state = .idle ∧ s.endPass.resolve.waiting = s.resolve.waiting
      ∧ s.endPass.resolve.trigger = s.resolve.trigger ∧ s.endPass.px = s.px := by
  unfold State.endPass
  simp

theorem State.Core.endPass {s : State} (h : s.Core) (hl : s.px.lane = none) : s.endPass.Core := by
  unfold State.endPass
  exact State.Core.released h hl (by simp) (by simp) (by simp) (by simp) (by simp) (by simp)

/-! ## The walk -/

/-- What the walk leaves of the sequencer's state while it stays within a pass. -/
def Resolve.SamePass (r q : Resolve) : Prop :=
  q.state = r.state ∧ q.passBank = r.passBank ∧ q.waiting = r.waiting ∧ q.snapshot = r.snapshot ∧ q.trigger = r.trigger

theorem State.updEntry_samePass (s : State) (i : Fin 8) (f : EntryReport → EntryReport) :
    s.resolve.SamePass (s.updEntry i f).resolve := ⟨rfl, rfl, rfl, rfl, rfl⟩

/-- A state in the same pass, with the same banks, visit and forward lane, has the core as well. -/
theorem State.Core.same {s u : State} (h : s.Core) (hr : s.resolve.SamePass u.resolve) (hv : u.visit = s.visit)
    (hc : u.canvas = s.canvas) (hl : u.px.lane = s.px.lane) : u.Core := by
  refine (State.core_congr ?_ ?_ ?_ ?_).2 h
  · simp [hv]
  · intro b
    simp [State.bank, hc]
  · exact ⟨hr.1, hr.2.1, hr.2.2.1, by rw [hr.2.2.2.1]⟩
  · rw [hl]

/-- A row goes into transmission only during a pass (R145). -/
theorem State.Core.beginRow {s : State} (h : s.Core) (hi : s.resolve.state ≠ .idle) : s.beginRow.Core := by
  unfold State.beginRow
  split
  · exact h
  · obtain ⟨⟨hv1, hv2, hv3⟩, ⟨hw1, hw2⟩, hp1, hp2, hp3, hp4, hp5⟩ := h
    exact ⟨⟨hv1, hv2, hv3⟩, ⟨hw1, hw2⟩, hp1, hp2, hp3, hp4, fun he => absurd he hi⟩

theorem State.beginRow_samePass (s : State) : s.resolve.SamePass s.beginRow.resolve := by
  unfold State.beginRow
  split <;> exact ⟨rfl, rfl, rfl, rfl, rfl⟩

theorem State.standAt_samePass (s : State) (i : Fin 8) (row : Nat) : s.resolve.SamePass (s.standAt i row).resolve := by
  unfold State.standAt
  dsimp only
  split
  · exact State.beginRow_samePass (s.updResolve fun r => { r with entry := i, row := row })
  · split <;> exact ⟨rfl, rfl, rfl, rfl, rfl⟩

theorem State.Core.standAt {s : State} (h : s.Core) (hi : s.resolve.state ≠ .idle) (i : Fin 8) (row : Nat) :
    (s.standAt i row).Core := by
  have h1 : (s.updResolve fun r => { r with entry := i, row := row }).Core := h.same ⟨rfl, rfl, rfl, rfl, rfl⟩ rfl rfl rfl
  unfold State.standAt
  dsimp only
  split
  · exact h1.beginRow hi
  · split
    · exact h1
    · exact h1.same ⟨rfl, rfl, rfl, rfl, rfl⟩ rfl rfl rfl

/-- A walk keeps the core, the waiting list and the trigger mode, and leaves the sequencer RUNNING, or IDLE with the pass
completed and nothing in transmission (R144, R147). -/
theorem State.Core.seek (l : List (Fin 8)) {s : State} (h : s.Core) (hi : s.resolve.state = .running)
    (hl : s.px.lane = none) :
    (State.seek l s).Core ∧ (State.seek l s).resolve.waiting = s.resolve.waiting
      ∧ (State.seek l s).resolve.trigger = s.resolve.trigger
      ∧ ((State.seek l s).resolve.state = .running ∨ (State.seek l s).resolve.state = .idle) := by
  induction l generalizing s with
  | nil =>
    obtain ⟨h1, h2, h3, h4⟩ := s.completePass_resolve
    exact ⟨h.completePass hl, h2, h3, Or.inr h1⟩
  | cons i rest ih =>
    unfold State.seek
    dsimp only
    split
    · exact ih (s := s.updEntry i fun x => { x with status := .disabled }) (h.same (s.updEntry_samePass ..) rfl rfl rfl) hi hl
    · split
      · exact ih (s := s.updEntry i fun x => { x with status := .empty }) (h.same (s.updEntry_samePass ..) rfl rfl rfl) hi hl
      · have hs := s.standAt_samePass i 0
        exact ⟨h.standAt (by rw [hi]; simp) i 0, hs.2.2.1, hs.2.2.2.2, Or.inl (hs.1.trans hi)⟩

/-! ## Starts of a pass -/

/-- A pass starts on a waiting or held bank (R143). -/
theorem State.Core.openPass {s : State} (h : s.Core) (hi : s.resolve.state = .idle) (b : BankId)
    (hb : (s.bank b).state = .closed ∨ (s.bank b).state = .resolved) :
    (s.openPass b).Core ∧ (s.openPass b).resolve.waiting = s.resolve.waiting.filter (· != b)
      ∧ (s.openPass b).resolve.trigger = s.resolve.trigger
      ∧ ((s.openPass b).resolve.state = .running ∨ (s.openPass b).resolve.state = .idle) := by
  obtain ⟨⟨hv1, hv2, hv3⟩, ⟨hw1, hw2⟩, hp1, hp2, hp3, hp4, hp5⟩ := h
  have hbank : ∀ c, (s.updBank b fun k => { k with state := .resolving, readHold := true }).bank c
      = if b = c then { s.bank b with state := .resolving, readHold := true } else s.bank c := by
    intro c
    simp [State.bank]
  unfold State.openPass
  dsimp only
  refine State.Core.seek allEntries (s := ((s.updBank b fun k => { k with state := .resolving, readHold := true }).updResolve
    fun r => { r with waiting := r.waiting.filter (· != b) }).resetPass b) ?_ rfl (hp5 hi)
  have hbank2 : ∀ c, (((s.updBank b fun k => { k with state := .resolving, readHold := true }).updResolve
      fun r => { r with waiting := r.waiting.filter (· != b) }).resetPass b).bank c
        = if b = c then { s.bank b with state := .resolving, readHold := true } else s.bank c := hbank
  refine ⟨⟨hv1, fun c => ?_, hv3⟩, ⟨fun c => ?_, ?_⟩, fun c => ?_, ?_, fun c => ?_, ?_, ?_⟩
  · rw [hbank2]
    split
    · rename_i hc
      subst hc
      have := hv2 b
      constructor
      · simp
      · intro hx
        have := this.2 hx
        rcases hb with hb | hb <;> rw [hb] at this <;> simp at this
    · exact hv2 c
  · rw [hbank2]
    show _ ↔ c ∈ s.resolve.waiting.filter (· != b)
    split
    · rename_i hc
      subst hc
      simp
    · rename_i hc
      rw [hw1 c]
      simp [Ne.symm hc]
  · exact hw2.filter _
  · rw [hbank2]
    split
    · rename_i hc
      intro _
      exact ⟨by simp [State.resetPass], hc⟩
    · intro he
      exact absurd hi (hp1 c he).1
  · intro _
    show ((((s.updBank b fun k => { k with state := .resolving, readHold := true }).updResolve
      fun r => { r with waiting := r.waiting.filter (· != b) }).resetPass b).bank b).state = .resolving
    rw [hbank2]
    simp
  · rw [hbank2]
    split
    · rename_i hc
      constructor
      · intro _
        exact ⟨by simp [State.resetPass], hc⟩
      · intro _
        rfl
    · rename_i hc
      constructor
      · intro he
        exact absurd hi ((hp3 c).1 he).1
      · intro he
        exact absurd he.2 hc
  · simp [State.resetPass]
  · simp [State.resetPass]

/-- A restart (R149). -/
theorem State.Core.restartPass {s : State} (h : s.Core)
    (hi : s.resolve.state = .running ∨ s.resolve.state = .restarting) (hl : s.px.lane = none) :
    s.restartPass.Core ∧ s.restartPass.resolve.waiting = s.resolve.waiting
      ∧ s.restartPass.resolve.trigger = s.resolve.trigger
      ∧ (s.restartPass.resolve.state = .running ∨ s.restartPass.resolve.state = .idle) := by
  unfold State.restartPass
  refine State.Core.seek allEntries (s := s.resetPass s.resolve.passBank) ?_ rfl hl
  obtain ⟨⟨hv1, hv2, hv3⟩, ⟨hw1, hw2⟩, hp1, hp2, hp3, hp4, hp5⟩ := h
  have hne : s.resolve.state ≠ .idle := by rcases hi with hi | hi <;> rw [hi] <;> simp
  refine ⟨⟨hv1, hv2, hv3⟩, ⟨hw1, hw2⟩, fun c hc => ⟨by simp [State.resetPass], (hp1 c hc).2⟩, fun _ => hp2 hi, fun c => ?_, ?_, ?_⟩
  · constructor
    · intro hc
      exact ⟨by simp [State.resetPass], ((hp3 c).1 hc).2⟩
    · intro hc
      exact (hp3 c).2 ⟨hne, hc.2⟩
  · simp [State.resetPass]
  · simp [State.resetPass]

/-- The automatic start keeps the core, and ends with the sequencer busy, nothing waiting, or in MANUAL (R142). -/
theorem State.Core.autoStartUpTo (n : Nat) {s : State} (h : s.Core) (hn : s.resolve.waiting.length ≤ n)
    (hr : s.RowHeld) : (State.autoStartUpTo n s).Core ∧ (State.autoStartUpTo n s).RowHeld
      ∧ (State.autoStartUpTo n s).AutoOk := by
  induction n generalizing s with
  | zero =>
    refine ⟨h, hr, ?_⟩
    intro _ _
    show s.resolve.waiting = []
    simpa using hn
  | succ n ih =>
    unfold State.autoStartUpTo
    split
    · rename_i b rest ht hi hw
      have hb : (s.bank b).state = .closed := (h.2.1.1 b).2 (by rw [hw]; simp)
      obtain ⟨h1, h2, h3, h4⟩ := h.openPass hi b (Or.inl hb)
      refine ih h1 ?_ ?_
      · rw [h2, hw]
        rw [hw] at hn
        have : (rest.filter (· != b)).length ≤ rest.length := List.length_filter_le _ _
        simp at hn ⊢
        omega
      · intro he
        rcases h4 with h4 | h4 <;> rw [h4] at he <;> simp at he
    · rename_i hx
      refine ⟨h, hr, ?_⟩
      intro ht hi
      cases hw : s.resolve.waiting with
      | nil => rfl
      | cons b rest => exact absurd hw (hx b rest ht hi)

/-- The automatic start puts visits, banks and passes in order. -/
theorem State.Core.autoStart {s : State} (h : s.Core) (hr : s.RowHeld) : s.autoStart.BanksOk := by
  obtain ⟨h1, h2, h3⟩ := State.Core.autoStartUpTo s.resolve.waiting.length h (Nat.le_refl _) hr
  exact ⟨h1.1, h1.2.1, (State.passOk_iff _).2 ⟨h1.2.2, h2⟩, h3⟩

/-- A sequencer that is RUNNING or IDLE asks nothing of the forward lane. -/
theorem State.rowHeld_of {s : State} (h : s.resolve.state = .running ∨ s.resolve.state = .idle) : s.RowHeld := by
  intro he
  rcases h with h | h <;> rw [h] at he <;> simp at he

/-- Visits, banks and passes in order are the core, with the forward lane and the automatic start. -/
theorem State.banksOk_iff (s : State) : s.BanksOk ↔ s.Core ∧ s.RowHeld ∧ s.AutoOk := by
  rw [State.BanksOk, State.passOk_iff, State.Core]
  constructor
  · intro h
    exact ⟨⟨h.1, h.2.1, h.2.2.1.1⟩, h.2.2.1.2, h.2.2.2⟩
  · intro h
    exact ⟨h.1.1, h.1.2.1, ⟨h.1.2.2, h.2.1⟩, h.2.2⟩

/-! ## Events -/

/-- The end of the row in transmission, its forward lane already idle (R145, R149, R150). -/
theorem State.Core.rowSent {s : State} (h : s.Core) (hl : s.px.lane = none) (hi : s.resolve.state ≠ .idle) (f : PrdFrame) :
    (s.rowSent f).BanksOk := by
  unfold State.rowSent
  split
  · rename_i he
    exact absurd he hi
  · rename_i he
    dsimp only
    split
    · obtain ⟨h1, h2, h3, h4⟩ := State.Core.seek (entriesAfter s.resolve.entry)
        (s := (s.updEntry s.resolve.entry fun e => { e with rows := e.rows + 1, pixels := e.pixels + f.pixels.length }).updEntry
          s.resolve.entry fun e => { e with status := .done })
        (h.same ⟨rfl, rfl, rfl, rfl, rfl⟩ rfl rfl rfl) he hl
      exact h1.autoStart (State.rowHeld_of h4)
    · have h1 : (s.updEntry s.resolve.entry fun e =>
          { e with rows := e.rows + 1, pixels := e.pixels + f.pixels.length }).Core :=
        h.same ⟨rfl, rfl, rfl, rfl, rfl⟩ rfl rfl rfl
      have h2 := h1.standAt hi s.resolve.entry (s.resolve.row + 1)
      have h3 := (s.updEntry s.resolve.entry fun e =>
          { e with rows := e.rows + 1, pixels := e.pixels + f.pixels.length }).standAt_samePass s.resolve.entry (s.resolve.row + 1)
      have h4 := h3.1.trans he
      refine (State.banksOk_iff _).2 ⟨h2, State.rowHeld_of (Or.inl h4), ?_⟩
      intro _ hx
      rw [h4] at hx
      simp at hx
  · rename_i he
    obtain ⟨h1, h2, h3, h4⟩ := h.restartPass (Or.inr he) hl
    exact h1.autoStart (State.rowHeld_of h4)
  · exact (h.endPass hl).autoStart (State.rowHeld_of (Or.inr s.endPass_resolve.1))

/-- A CLOSED bank that is not yet listed joins the waiting list (R141). -/
theorem State.joinWaiting_banksOk {s : State} (b : BankId) (hv : s.VisitOk)
    (hc : ∀ c, (s.bank c).state = .closed ↔ c ∈ s.resolve.waiting ++ [b]) (hn : (s.resolve.waiting ++ [b]).Nodup)
    (hp : s.PassCore) (hr : s.RowHeld) : (s.joinWaiting b).BanksOk := by
  unfold State.joinWaiting
  refine State.Core.autoStart (s := s.updResolve fun r => { r with waiting := r.waiting ++ [b] }) ?_ hr
  exact ⟨hv, ⟨hc, hn⟩, hp⟩

/-- The close of the open visit, between snaps (R110). -/
theorem State.closeVisit_banksOk {s : State} (hs : pairAllowed .noVisit s.visit.snap = true) (hd : s.visit.drain = .stopped)
    (hf : ∀ b, (s.bank b).state = .filling ↔ s.visit.bank = b) (hw : s.WaitingOk) (hp : s.PassCore) (hr : s.RowHeld) :
    s.closeVisit.BanksOk := by
  obtain ⟨hw1, hw2⟩ := hw
  obtain ⟨hp1, hp2, hp3, hp4, hp5⟩ := hp
  have hfb : (s.bank s.visit.bank).state = .filling := (hf _).2 rfl
  unfold State.closeVisit
  dsimp only
  generalize hu : State.mk _ _ _ _ _ _ _ _ _ _ _ _ = u
  have hbank : ∀ c, u.bank c = if s.visit.bank = c then { s.bank s.visit.bank with state := .closed } else s.bank c := by
    intro c
    rw [← hu]
    simp [State.bank]
  have g1 : u.resolve = s.resolve := by rw [← hu]; rfl
  have g2 : u.px = s.px := by rw [← hu]; rfl
  have g3 : u.visit.state = .noVisit ∧ u.visit.snap = s.visit.snap ∧ u.visit.drain = s.visit.drain := by
    rw [← hu]
    exact ⟨rfl, rfl, rfl⟩
  have hst : ∀ x, x ≠ BankState.closed → x ≠ .filling → ∀ c, (u.bank c).state = x ↔ (s.bank c).state = x := by
    intro x hx1 hx2 c
    rw [hbank]
    split
    · rename_i hc
      subst hc
      rw [hfb]
      simp [hx1.symm, hx2.symm]
    · rfl
  have hrh : ∀ c, (u.bank c).readHold = (s.bank c).readHold := by
    intro c
    rw [hbank]
    split
    · rename_i hc
      subst hc
      rfl
    · rfl
  refine State.joinWaiting_banksOk s.visit.bank ⟨?_, fun c => ?_, ?_⟩ (fun c => ?_) ?_ ⟨fun c => ?_, ?_, fun c => ?_, ?_, ?_⟩ ?_
  · rw [g3.1, g3.2.1]
    exact hs
  · rw [hbank, g3.1]
    split
    · simp
    · rename_i hc
      rw [hf c]
      simp [hc]
  · rw [g3.2.2, hd]
    simp
  · rw [hbank, g1]
    split
    · rename_i hc
      subst hc
      simp
    · rename_i hc
      rw [hw1 c]
      simp [Ne.symm hc]
  · rw [g1, List.nodup_append]
    refine ⟨hw2, by simp, ?_⟩
    intro a ha b hb
    simp at hb
    subst hb
    intro he
    have := (hw1 a).2 ha
    rw [he, hfb] at this
    simp at this
  · rw [hst _ (by simp) (by simp), g1]
    exact hp1 c
  · rw [hst _ (by simp) (by simp), g1]
    exact hp2
  · rw [hrh, g1]
    exact hp3 c
  · rw [g1]
    exact hp4
  · rw [g1, g2]
    exact hp5
  · intro he
    rw [g1] at he
    rw [g2]
    exact hr he

/-- The open snap becomes DONE (R109). -/
theorem State.BanksOk.finishSnap {s : State} (h : s.BanksOk) (ho : s.snapOpen = true) : s.finishSnap.BanksOk := by
  obtain ⟨⟨hv1, hv2, hv3⟩, hw, hp, ha⟩ := h
  have hin : s.visit.state = .inSnap := by
    simp [State.snapOpen] at ho
    revert hv1
    cases s.visit.state <;> rcases ho with ho | ho <;> rw [ho] <;> simp [pairAllowed]
  have hp' := (State.passOk_iff s).1 hp
  unfold State.finishSnap
  dsimp only
  split
  · refine State.closeVisit_banksOk (by rfl) rfl ?_ hw hp'.1 hp'.2
    intro b
    have := hv2 b
    rw [hin] at this
    simpa [State.bank] using this
  · refine ⟨⟨by rfl, ?_, ?_⟩, hw, hp, ha⟩
    · intro b
      have := hv2 b
      rw [hin] at this
      simpa [State.bank] using this
    · intro hd
      exact absurd rfl hd

/-- The judgement of the open snap (R108). -/
theorem State.BanksOk.judgeSnap {s : State} (h : s.BanksOk) : s.judgeSnap.BanksOk := by
  unfold State.judgeSnap
  split
  · rename_i hc
    refine h.finishSnap ?_
    simp [State.snapComplete] at hc
    exact hc.1.1
  · exact h

/-- Visits, banks and passes are a property of the Visit Controller, the banks, the sequencer and the forward lane. -/
theorem State.BanksOk.congr {s u : State} (h : s.BanksOk) (hv : u.visit.state = s.visit.state ∧ u.visit.snap = s.visit.snap
      ∧ u.visit.drain = s.visit.drain ∧ u.visit.bank = s.visit.bank)
    (hb : ∀ b, (u.bank b).state = (s.bank b).state ∧ (u.bank b).readHold = (s.bank b).readHold)
    (hr : u.resolve.state = s.resolve.state ∧ u.resolve.passBank = s.resolve.passBank
      ∧ u.resolve.waiting = s.resolve.waiting ∧ (u.resolve.snapshot = none ↔ s.resolve.snapshot = none)
      ∧ u.resolve.trigger = s.resolve.trigger)
    (hl : u.px.lane = none ↔ s.px.lane = none) : u.BanksOk := by
  rw [State.banksOk_iff] at h ⊢
  refine ⟨(State.core_congr hv hb ⟨hr.1, hr.2.1, hr.2.2.1, hr.2.2.2.1⟩ hl).2 h.1, ?_, ?_⟩
  · intro he hx
    rw [hr.1] at he
    exact h.2.1 he (hl.1 hx)
  · intro ht hi
    rw [hr.2.2.1]
    exact h.2.2 (hr.2.2.2.2 ▸ ht) (hr.1 ▸ hi)

/-- The common case: the visit, the banks, the sequencer and the product port are as they were. -/
theorem State.BanksOk.of_eq {s u : State} (h : s.BanksOk) (hv : u.visit = s.visit) (hc : u.canvas = s.canvas)
    (hr : u.resolve = s.resolve) (hl : u.px = s.px) : u.BanksOk := by
  refine h.congr ?_ ?_ ?_ ?_
  · simp [hv]
  · intro b
    simp [State.bank, hc]
  · simp [hr]
  · rw [hl]

end Sys2Proof.Machine
end

