-- ==== Sys2Proof/Laws/Memory.lean ====
section
/-! SUPPORT. The two memories: a write is read back and touches nothing else, every operation keeps the canonical form, and most
operations leave the memories alone. -/

namespace Sys2Proof.Machine

/-! ## Sparse stores -/

namespace Store

variable {α : Type}

theorem above_iff (a : Nat) (m : List (Nat × α)) : above a m = true ↔ ∀ e ∈ m, a < e.1 := by
  simp [above]

theorem above_trans {a b : Nat} {m : List (Nat × α)} (h : above b m = true) (hab : a < b) : above a m = true := by
  rw [above_iff] at *
  intro e he
  exact Nat.lt_trans hab (h e he)

theorem above_insert {a b : Nat} {m : List (Nat × α)} {v : α} (h : above b m = true) (hab : b < a) :
    above b (insert m a v) = true := by
  induction m with
  | nil => simp [insert, above, hab]
  | cons e m ih =>
    obtain ⟨k, w⟩ := e
    simp only [above, List.all_cons, Bool.and_eq_true, decide_eq_true_eq] at h ih
    unfold insert
    (repeat' split)
    · simp only [above, List.all_cons, Bool.and_eq_true, decide_eq_true_eq]
      exact ⟨hab, h.1, h.2⟩
    · simp only [above, List.all_cons, Bool.and_eq_true, decide_eq_true_eq]
      exact ⟨hab, h.2⟩
    · simp only [above, List.all_cons, Bool.and_eq_true, decide_eq_true_eq]
      exact ⟨h.1, ih h.2⟩

/-- Inserting keeps the places rising. -/
theorem rising_insert {a : Nat} {m : List (Nat × α)} {v : α} (h : rising m = true) : rising (insert m a v) = true := by
  induction m with
  | nil => simp [insert, rising, above]
  | cons e m ih =>
    obtain ⟨k, w⟩ := e
    simp only [rising, Bool.and_eq_true] at h
    unfold insert
    (repeat' split)
    · rename_i hlt
      simp only [rising, Bool.and_eq_true]
      refine ⟨?_, h⟩
      simp only [above, List.all_cons, Bool.and_eq_true, decide_eq_true_eq]
      exact ⟨hlt, above_trans h.1 hlt⟩
    · rename_i hne heq
      subst heq
      simp only [rising, Bool.and_eq_true]
      exact h
    · simp only [rising, Bool.and_eq_true]
      exact ⟨above_insert h.1 (by omega), ih h.2⟩

theorem mem_erase {a : Nat} {m : List (Nat × α)} {e : Nat × α} (h : e ∈ erase m a) : e ∈ m := by
  induction m with
  | nil => simp [erase] at h
  | cons x m ih =>
    obtain ⟨k, w⟩ := x
    unfold erase at h
    split at h
    · exact List.mem_cons_of_mem _ h
    · rcases List.mem_cons.1 h with h | h
      · exact h ▸ List.mem_cons_self
      · exact List.mem_cons_of_mem _ (ih h)

/-- Erasing keeps the places rising. -/
theorem rising_erase {a : Nat} {m : List (Nat × α)} (h : rising m = true) : rising (erase m a) = true := by
  induction m with
  | nil => simp [erase, rising]
  | cons e m ih =>
    obtain ⟨k, w⟩ := e
    simp only [rising, Bool.and_eq_true] at h
    unfold erase
    split
    · exact h.2
    · simp only [rising, Bool.and_eq_true]
      refine ⟨?_, ih h.2⟩
      rw [above_iff] at *
      exact fun e he => h.1 e (mem_erase he)

theorem mem_insert {a : Nat} {m : List (Nat × α)} {v : α} {e : Nat × α} (h : e ∈ insert m a v) : e = (a, v) ∨ e ∈ m := by
  induction m with
  | nil => simpa [insert] using h
  | cons x m ih =>
    obtain ⟨k, w⟩ := x
    unfold insert at h
    (repeat' split at h)
    · rcases List.mem_cons.1 h with h | h
      · exact Or.inl h
      · exact Or.inr h
    · rcases List.mem_cons.1 h with h | h
      · exact Or.inl h
      · exact Or.inr (List.mem_cons_of_mem _ h)
    · rcases List.mem_cons.1 h with h | h
      · exact Or.inr (h ▸ List.mem_cons_self)
      · rcases ih h with h | h
        · exact Or.inl h
        · exact Or.inr (List.mem_cons_of_mem _ h)

theorem lookup_above {a b : Nat} {m : List (Nat × α)} (h : above b m = true) (hab : a ≤ b) : lookup m a = none := by
  induction m with
  | nil => rfl
  | cons e m ih =>
    obtain ⟨k, w⟩ := e
    simp only [above, List.all_cons, Bool.and_eq_true, decide_eq_true_eq] at h ih
    unfold lookup
    rw [if_neg (by omega)]
    exact ih h.2

/-- What a store holds after an insertion. -/
theorem lookup_insert {a b : Nat} {m : List (Nat × α)} {v : α} :
    lookup (insert m a v) b = if a = b then some v else lookup m b := by
  induction m with
  | nil => simp [insert, lookup]
  | cons e m ih =>
    obtain ⟨k, w⟩ := e
    unfold insert
    (repeat' split)
    · simp [lookup, *]
    · simp [lookup, *]
    · rename_i h1 h2 h3
      subst h2 h3
      simp [lookup]
    · rename_i h1 h2 h3
      subst h2
      simp [lookup, h3]
    · rename_i h1 h2 h3
      subst h3
      have : k ≠ a := fun h => h2 h.symm
      simp [lookup, this, ih]
    · rename_i h1 h2 h3
      simp [lookup, ih, h3]

/-- What a rising store holds after an erasure. -/
theorem lookup_erase {a b : Nat} {m : List (Nat × α)} (h : rising m = true) :
    lookup (erase m a) b = if a = b then none else lookup m b := by
  induction m with
  | nil => simp [erase, lookup]
  | cons e m ih =>
    obtain ⟨k, w⟩ := e
    simp only [rising, Bool.and_eq_true] at h
    unfold erase
    split
    · rename_i hk
      subst hk
      split
      · rename_i hb
        subst hb
        exact lookup_above h.1 (Nat.le_refl _)
      · rename_i hb
        simp [lookup, hb]
    · rename_i hk
      simp only [lookup, ih h.2]
      by_cases hb : a = b
      · subst hb
        simp [hk]
      · simp [hb]

end Store

/-! ## Flat maps -/

/-- Writing one entry keeps a flat map's canonical form. -/
theorem flatWf_writeEntry {m : List (Nat × Flat)} (h : flatWf m = true) (a : Nat) (f : Flat) :
    flatWf (writeEntry m a f) = true := by
  simp only [flatWf, Bool.and_eq_true, List.all_eq_true] at *
  unfold writeEntry
  split
  · exact ⟨Store.rising_erase h.1, fun e he => h.2 e (Store.mem_erase he)⟩
  · rename_i hf
    refine ⟨Store.rising_insert h.1, fun e he => ?_⟩
    rcases Store.mem_insert he with h' | h'
    · subst h'
      simpa using hf
    · exact h.2 e h'

theorem flatWf_writeRun {m : List (Nat × Flat)} (h : flatWf m = true) (a : Nat) (fs : List Flat) :
    flatWf (writeRun m a fs) = true := by
  induction fs generalizing m a with
  | nil => exact h
  | cons f fs ih => exact ih (flatWf_writeEntry h a f) (a + 1)

/-- An entry written is read back, and every other entry reads as before. -/
theorem lookup_writeEntry {m : List (Nat × Flat)} (h : flatWf m = true) (a b : Nat) (f : Flat) :
    (Store.lookup (writeEntry m a f) b).getD Config.unityFlat
      = if a = b then f else (Store.lookup m b).getD Config.unityFlat := by
  simp only [flatWf, Bool.and_eq_true] at h
  unfold writeEntry
  split
  · rename_i hf
    rw [Store.lookup_erase h.1]
    split <;> simp [hf]
  · rw [Store.lookup_insert]
    split <;> simp

/-! ## The canonical form -/

/-- The canonical form, place by place. -/
theorem Memory.wf_iff (s : State) : Memory.wf s = true ↔
    (∀ t, flatWf (s.cal.flats.nth t).map = true) ∧ ∀ b, Store.rising (s.canvas.banks.nth b).cells = true := by
  simp only [Memory.wf, Bool.and_eq_true, Tab.all_iff]

/-- The reset state has the canonical form. -/
theorem Memory.wf_reset : Memory.wf State.reset = true := by
  rw [Memory.wf_iff]
  constructor <;> intro i <;>
    simp [State.reset, Calibration.reset, Canvas.reset, Bank.reset, flatWf, Store.rising]

/-- The canvas geometry and the cells are untouched. -/
def State.SameCells (s u : State) : Prop :=
  u.canvas.width = s.canvas.width ∧ u.canvas.height = s.canvas.height ∧ u.canvas.powerOns = s.canvas.powerOns
    ∧ ∀ b, (u.canvas.banks.nth b).cells = (s.canvas.banks.nth b).cells

theorem State.SameCells.refl (s : State) : s.SameCells s := ⟨rfl, rfl, rfl, fun _ => rfl⟩

theorem State.SameCells.trans {s u v : State} (h1 : s.SameCells u) (h2 : u.SameCells v) : s.SameCells v :=
  ⟨h2.1.trans h1.1, h2.2.1.trans h1.2.1, h2.2.2.1.trans h1.2.2.1, fun b => (h2.2.2.2 b).trans (h1.2.2.2 b)⟩

theorem State.SameCells.of_eq {s u : State} (h : u.canvas = s.canvas) : s.SameCells u := by simp [State.SameCells, h]

/-- What is stored at a place is a property of the cells. -/
theorem State.SameCells.cellAt {s u : State} (h : s.SameCells u) (b : BankId) (place : Nat) :
    u.cellAt b place = s.cellAt b place := by
  simp only [State.cellAt, State.bank, h.2.2.2 b, h.2.2.1]

/-- The canonical form is a property of the flat maps and the cells. -/
theorem Memory.wf_same {s u : State} (h : Memory.wf s = true) (hf : u.cal.flats = s.cal.flats) (hc : s.SameCells u) :
    Memory.wf u = true := by
  rw [Memory.wf_iff] at *
  rw [hf]
  exact ⟨h.1, fun b => by rw [hc.2.2.2 b]; exact h.2 b⟩

/-- Writing a cell keeps the canonical form. -/
theorem Memory.wf_writeCell {s : State} (h : Memory.wf s = true) (b : BankId) (place : Nat) (c : Cell) :
    Memory.wf (s.writeCell b place c) = true := by
  rw [Memory.wf_iff] at *
  refine ⟨by simpa using h.1, fun k => ?_⟩
  simp only [State.writeCell_eq, State.updBank_fields, Tab.nth_modify]
  split
  · exact Store.rising_insert (h.2 b)
  · exact h.2 k

/-- A cell written is read back, and every other cell reads as before. -/
theorem State.cellAt_writeCell (s : State) (b k : BankId) (place other : Nat) (c : Cell) :
    (s.writeCell b place c).cellAt k other = if b = k ∧ place = other then c else s.cellAt k other := by
  simp only [State.cellAt, State.bank, State.writeCell_eq, State.updBank_fields, Tab.nth_modify]
  by_cases hb : b = k
  · subst hb
    simp only [if_true, Store.lookup_insert, true_and]
    split <;> simp
  · simp [hb]

/-! ## Operations that leave the cells alone -/

theorem State.updBank_sameCells (s : State) (b : BankId) (f : Bank → Bank) (h : ∀ k, (f k).cells = k.cells) :
    s.SameCells (s.updBank b f) := by
  refine ⟨by simp, by simp, by simp, fun k => ?_⟩
  simp only [State.updBank_fields, Tab.nth_modify]
  split
  · rename_i hb
    subst hb
    exact h _
  · rfl

theorem State.startScrub_sameCells (s : State) (b : BankId) : s.SameCells (s.startScrub b) :=
  s.updBank_sameCells b _ (by simp)

theorem State.leaveRetiring_sameCells (s : State) (b : BankId) : s.SameCells (s.leaveRetiring b) := by
  unfold State.leaveRetiring
  (repeat' split)
  · exact s.startScrub_sameCells b
  · exact s.updBank_sameCells b _ (by simp)
  · exact .refl s

theorem State.retire_sameCells (s : State) (b : BankId) : s.SameCells (s.retire b) :=
  (s.updBank_sameCells b (fun k => { k with state := .retiring }) (by simp)).trans (State.leaveRetiring_sameCells _ b)

theorem State.releaseBank_sameCells (s : State) (b : BankId) : s.SameCells (s.releaseBank b) := by
  unfold State.releaseBank
  dsimp only
  refine (s.updBank_sameCells b (fun k => { k with readHold := false }) (by simp)).trans ?_
  (repeat' split)
  · exact State.retire_sameCells _ b
  · exact State.updBank_sameCells _ b _ (by simp)
  · exact State.leaveRetiring_sameCells _ b

theorem State.completePass_sameCells (s : State) : s.SameCells s.completePass := by
  unfold State.completePass
  dsimp only
  exact State.SameCells.trans (.of_eq (by simp)) (State.releaseBank_sameCells _ _)

theorem State.endPass_sameCells (s : State) : s.SameCells s.endPass := by
  unfold State.endPass
  exact State.SameCells.trans (.of_eq (by simp)) (State.releaseBank_sameCells _ _)

theorem State.seek_sameCells (l : List (Fin 8)) (s : State) : s.SameCells (State.seek l s) := by
  induction l generalizing s with
  | nil => exact s.completePass_sameCells
  | cons i rest ih =>
    unfold State.seek
    dsimp only
    (repeat' split)
    · exact State.SameCells.trans (.of_eq (by simp)) (ih _)
    · exact State.SameCells.trans (.of_eq (by simp)) (ih _)
    · exact .of_eq (by simp)

theorem State.openPass_sameCells (s : State) (b : BankId) : s.SameCells (s.openPass b) := by
  unfold State.openPass
  dsimp only
  refine State.SameCells.trans (s.updBank_sameCells b (fun k => { k with state := .resolving, readHold := true }) (by simp)) ?_
  exact State.SameCells.trans (.of_eq (by simp)) (State.seek_sameCells _ _)

theorem State.restartPass_sameCells (s : State) : s.SameCells s.restartPass :=
  State.SameCells.trans (.of_eq (by simp)) (State.seek_sameCells allEntries (s.resetPass s.resolve.passBank))

theorem State.autoStart_sameCells (s : State) : s.SameCells s.autoStart := by
  have key : ∀ (n : Nat) (u : State), u.SameCells (State.autoStartUpTo n u) := by
    intro n
    induction n with
    | zero => exact fun u => .refl u
    | succ n ih =>
      intro u
      unfold State.autoStartUpTo
      split
      · exact (u.openPass_sameCells _).trans (ih _)
      · exact .refl u
  exact key _ s

theorem State.rowSent_sameCells (s : State) (f : PrdFrame) : s.SameCells (s.rowSent f) := by
  unfold State.rowSent
  dsimp only
  (repeat' split)
  · exact .refl s
  · exact State.SameCells.trans (.of_eq (by simp)) ((State.seek_sameCells _ _).trans (State.autoStart_sameCells _))
  · exact .of_eq (by simp)
  · exact s.restartPass_sameCells.trans (State.autoStart_sameCells _)
  · exact s.endPass_sameCells.trans (State.autoStart_sameCells _)

theorem State.joinWaiting_sameCells (s : State) (b : BankId) : s.SameCells (s.joinWaiting b) :=
  State.SameCells.trans (.of_eq (by simp)) (State.autoStart_sameCells (s.updResolve fun r => { r with waiting := r.waiting ++ [b] }))

theorem State.closeVisit_sameCells (s : State) : s.SameCells s.closeVisit := by
  unfold State.closeVisit
  dsimp only
  refine State.SameCells.trans (s.updBank_sameCells s.visit.bank (fun k => { k with state := .closed }) (by simp)) ?_
  exact State.SameCells.trans (.of_eq (by simp)) (State.joinWaiting_sameCells _ _)

theorem State.judgeSnap_sameCells (s : State) : s.SameCells s.judgeSnap := by
  unfold State.judgeSnap State.finishSnap
  dsimp only
  (repeat' split)
  · exact State.SameCells.trans (.of_eq (by simp)) (State.closeVisit_sameCells _)
  · exact .of_eq (by simp)
  · exact .refl s

end Sys2Proof.Machine
end

