-- ==== Sys2Proof/Laws/Commands.lean ====
section
/-! SUPPORT. One spec lemma per step of taking a control command, and the small facts about the codes, locks and byte fields its statements use. -/

namespace Sys2Proof.Machine

/-- What holds of every bank holds of the two there are (R71). -/
theorem forall_bank_iff {P : BankId → Prop} : (∀ b, P b) ↔ P 0 ∧ P 1 := by
  constructor
  · intro h; exact ⟨h 0, h 1⟩
  · rintro ⟨h0, h1⟩ b
    have h01 : ∀ b : BankId, b = 0 ∨ b = 1 := by decide
    rcases h01 b with rfl | rfl <;> assumption

/-- A command frame of the right length at the head of its queue gets the answer its owner gives (R42). -/
theorem command_answers {s : State} {p : PortId} {f : CtlFrame} {code : Byte} {n : Nat} (owner) (h : s.Heads p f code n) (hf : lengthFits f.code f.payload = true) :
   command code owner p s = .next ((owner f.payload s).state.respond p f (owner f.payload s).result (owner f.payload s).data) := by
  obtain ⟨h1, h2, h3⟩ := h
  unfold command State.headFrame
  cases hq : (s.port p).queue with
  | nil => simp [hq] at h1
  | cons g rest =>
    simp [hq] at h1; subst h1
    simp only [h2, if_true]
    simp only [State.carryOut] ; rw [if_pos hf]

/-- The payload length of a command of fixed length fits when the command table lists it. -/
theorem lengthFits_of_fixed {f : CtlFrame} {code : Byte} {n : Nat} (h2 : f.code = code) (h3 : f.payload.length = n) (hc : code ≠ 0x31#8) (hh : fixedLengths.any (fun e => e.1 == code && e.2 == n) = true) : lengthFits f.code f.payload = true := by
  unfold lengthFits; rw [h2, if_neg (show ¬ code = Code.flatWrite from hc), h3]; exact hh

/-- A command of fixed length at the head of its queue answers what its owner answers, as one equation. -/
theorem command_runs {s : State} {p : PortId} {f : CtlFrame} {code : Byte} {n : Nat} (owner) (h : s.Heads p f code n) (hc : code ≠ 0x31#8) (hh : fixedLengths.any (fun e => e.1 == code && e.2 == n) = true)
   {r d} {u : State} (ho : owner f.payload s = ⟨u, r, d⟩) : command code owner p s = .next (u.respond p f r d) := by
  rw [command_answers owner h (lengthFits_of_fixed h.2.1 h.2.2 hc hh), ho]

/-- A command frame whose payload length is wrong is answered so, and does nothing else. -/
theorem command_badLength {s : State} {p : PortId} {f : CtlFrame} {code : Byte} (owner) (h : (s.port p).queue.head? = some f) (hc : f.code = code) (hf : lengthFits f.code f.payload = false) : command code owner p s = .next (s.respond p f .malformed []) := by
  unfold command State.headFrame
  cases hq : (s.port p).queue with
  | nil => simp [hq] at h
  | cons g rest =>
    simp [hq] at h; subst h
    simp only [hc, if_true, State.carryOut]
    rw [if_neg]; simp [← hc, hf]

/-- A command whose frame is not at the head of the queue leaves everything as it is. -/
theorem command_not_at_head {s : State} {p : PortId} {code : Byte} (owner) (h : ∀ f, (s.port p).queue.head? = some f → f.code ≠ code) : command code owner p s = .next s := by
  unfold command State.headFrame
  cases hq : (s.port p).queue with
  | nil => rfl
  | cons g rest => 
    have := h g (by simp [hq])
    simp only [if_neg this]

/-- The visit lock holds while some bank is FILLING. -/
theorem visitLock_iff_filling (s : State) : s.visitLock = true ↔ ∃ b : BankId, (s.bank b).state = .filling := by
  have : (∃ b : BankId, (s.bank b).state = .filling) ↔ (s.bank 0).state = .filling ∨ (s.bank 1).state = .filling := by
    constructor
    · rintro ⟨b, h⟩; have h01 : ∀ b : BankId, b = 0 ∨ b = 1 := by decide
      rcases h01 b with rfl | rfl <;> simp [h]
    · rintro (h | h) <;> exact ⟨_, h⟩
  rw [this]; simp [State.visitLock]

/-- The resolve lock holds while some bank is RESOLVING. -/
theorem resolveLock_iff_resolving (s : State) : s.resolveLock = true ↔ ∃ b : BankId, (s.bank b).state = .resolving := by
  have : (∃ b : BankId, (s.bank b).state = .resolving) ↔ (s.bank 0).state = .resolving ∨ (s.bank 1).state = .resolving := by
    constructor
    · rintro ⟨b, h⟩; have h01 : ∀ b : BankId, b = 0 ∨ b = 1 := by decide
      rcases h01 b with rfl | rfl <;> simp [h]
    · rintro (h | h) <;> exact ⟨_, h⟩
  rw [this]; simp [State.resolveLock]

/-- The flat field of a tile is locked while the visit lock holds and the tile is enabled. -/
theorem flatLocked_iff_enabled (s : State) (t) : s.flatLocked t = true ↔ (s.visitLock = true ∧ (s.tile t).enabled = true) := by simp [State.flatLocked]

/-- A number of two or more names no bank. -/
theorem bankOf_eq_none {n : Nat} (h : 2 ≤ n) : bankOf n = none := by unfold bankOf; rw [dif_neg (by omega)]

/-- A number below two names its bank. -/
theorem bankOf_eq_some {n : Nat} {t : BankId} (h : n = t.val) : bankOf n = some t := by unfold bankOf; subst h; rw [dif_pos t.isLt]

/-- A number of sixteen or more names no tile. -/
theorem tileOf_eq_none {n : Nat} (h : 16 ≤ n) : tileOf n = none := by unfold tileOf; rw [dif_neg (by omega)]

/-- A number below sixteen names its tile. -/
theorem tileOf_eq_some {n : Nat} {t : TileId} (h : n = t.val) : tileOf n = some t := by unfold tileOf; subst h; rw [dif_pos t.isLt]

/-- A number below four names its segment. -/
theorem segOf_eq_some {n : Nat} {t : SegId} (h : n = t.val) : segOf n = some t := by unfold segOf; subst h; rw [dif_pos t.isLt]

/-- The codes 0 and 1 are a yes or no. -/
theorem yesNoOf_of_le {n : Nat} (h : n ≤ 1) : yesNoOf n = some (n == 1) := by
  have : n = 0 ∨ n = 1 := by omega
  rcases this with rfl | rfl <;> rfl

/-- No other code is a yes or no. -/
theorem yesNoOf_of_gt {n : Nat} (h : ¬ n ≤ 1) : yesNoOf n = none := by
  match n, h with
  | 0, h => simp at h
  | 1, h => simp at h
  | n+2, _ => rfl

/-- The codes 0 and 1 name the trigger modes. -/
theorem triggerOfCode_of_le {n : Nat} (h : n ≤ 1) : TriggerMode.ofCode n = some (if n = 0 then .auto else .manual) := by
  have : n = 0 ∨ n = 1 := by omega
  rcases this with rfl | rfl <;> rfl

/-- No other code names a trigger mode. -/
theorem triggerOfCode_of_gt {n : Nat} (h : ¬ n ≤ 1) : TriggerMode.ofCode n = none := by
  match n, h with
  | 0, h => simp at h
  | 1, h => simp at h
  | n+2, _ => rfl

/-- The codes 0 and 1 name the release modes. -/
theorem releaseOfCode_of_le {n : Nat} (h : n ≤ 1) : ReleaseMode.ofCode n = some (if n = 0 then .autoRelease else .hold) := by
  have : n = 0 ∨ n = 1 := by omega
  rcases this with rfl | rfl <;> rfl

/-- No other code names a release mode. -/
theorem releaseOfCode_of_gt {n : Nat} (h : ¬ n ≤ 1) : ReleaseMode.ofCode n = none := by
  match n, h with
  | 0, h => simp at h
  | 1, h => simp at h
  | n+2, _ => rfl

/-- The codes 0 to 2 name the pixel formats. -/
theorem formatOfCode_of_le {n : Nat} (h : n ≤ 2) : PixelFormat.ofCode n = some (if n = 0 then .v else if n = 1 then .vcm else .vwcm) := by
  have : n = 0 ∨ n = 1 ∨ n = 2 := by omega
  rcases this with rfl | rfl | rfl <;> rfl

/-- No other code names a pixel format. -/
theorem formatOfCode_of_gt {n : Nat} (h : ¬ n ≤ 2) : PixelFormat.ofCode n = none := by
  match n, h with
  | 0, h => simp at h
  | 1, h => simp at h
  | 2, h => simp at h
  | n+3, _ => rfl

/-- A tile that is not terminal is WAITING or RECEIVING. -/
theorem terminal_false_iff (x : TileState) : x.terminal = false ↔ x = .waiting ∨ x = .receiving := by cases x <;> simp [TileState.terminal]

/-- Two segments overlap exactly when they share a pixel. -/
theorem overlaps_iff_shared_pixel (a b : SegRec) (h1 : 1 ≤ a.width) (h2 : 1 ≤ a.height) (h3 : 1 ≤ b.width) (h4 : 1 ≤ b.height) : a.overlaps b = true ↔ 
      ∃ u v : Nat, (a.colOrigin ≤ u ∧ u < a.colOrigin + a.width ∧ a.rowOrigin ≤ v ∧ v < a.rowOrigin + a.height)
              ∧ (b.colOrigin ≤ u ∧ u < b.colOrigin + b.width ∧ b.rowOrigin ≤ v ∧ v < b.rowOrigin + b.height) := by
  simp [SegRec.overlaps]
  constructor
  · rintro ⟨⟨⟨h5, h6⟩, h7⟩, h8⟩
    exact ⟨max a.colOrigin b.colOrigin, max a.rowOrigin b.rowOrigin, by omega, by omega⟩
  · rintro ⟨u, v, h5, h6⟩; omega

/-- When a run of entries lies in a tile, as the four tests. -/
theorem covers_iff (r : TileRec) (u0 v c : Nat) : r.covers u0 v c = true ↔ (1 ≤ c ∧ c ≤ 1024 ∧ v < r.height ∧ u0 + c ≤ r.width) := by
  simp [TileRec.covers, and_assoc]

/-- What an address reads as after a run of entries is written. -/
theorem lookup_writeRun {m : List (Nat × Flat)} (h : flatWf m = true) (a b : Nat) (fs : List Flat) :
    (Store.lookup (writeRun m a fs) b).getD Config.unityFlat = if hb : a ≤ b ∧ b < a + fs.length then fs[b - a]'(by omega) else (Store.lookup m b).getD Config.unityFlat := by
  induction fs generalizing m a with
  | nil => rw [dif_neg (by simp only [List.length_nil]; omega)]; rfl
  | cons f fs ih =>
    rw [writeRun, ih (flatWf_writeEntry h a f)]
    have he := lookup_writeEntry h a b f
    by_cases hab : a = b
    · subst hab
      rw [dif_neg (by omega), dif_pos (by simp)]
      simpa using he
    · rw [he]
      by_cases h3 : a + 1 ≤ b ∧ b < a + 1 + fs.length
      · rw [dif_pos h3, dif_pos (by simp; omega)]
        have : b - a = (b - (a+1)) + 1 := by omega
        simp [this]
      · rw [dif_neg h3, dif_neg (by simp; omega), if_neg hab]

/-- A big-endian number read on from an accumulated value. -/
theorem beNat_foldl (bs : List Byte) (a : Nat) : bs.foldl (fun a b => a * 256 + b.toNat) a = a * 256 ^ bs.length + beNat bs := by
  unfold beNat
  induction bs generalizing a with
  | nil => simp
  | cons x xs ih => simp only [List.foldl_cons]; rw [ih, ih (0*256+x.toNat)]; simp [Nat.pow_succ, Nat.add_mul]; rw [Nat.mul_assoc, Nat.mul_comm 256]; omega

/-- How many bytes a field of n bytes has. -/
theorem beBytes_length (n x) : (beBytes n x).length = n := by induction n <;> simp [beBytes, *]

/-- A number that fits its bytes reads back as it was written. -/
theorem beNat_beBytes (n x : Nat) (h : x < 256 ^ n) : beNat (beBytes n x) = x := by
  have gen : ∀ n x : Nat, beNat (beBytes n x) = x % 256 ^ n := by
    intro n
    induction n with
    | zero => intro x; simp [beBytes, beNat, Nat.mod_one]
    | succ n ih =>
      intro x
      rw [beBytes]
      have : beNat (BitVec.ofNat 8 (x / 256 ^ n) :: beBytes n x) = (0*256 + (BitVec.ofNat 8 (x / 256 ^ n)).toNat) * 256 ^ n + beNat (beBytes n x) := by
        conv => lhs; unfold beNat
        rw [List.foldl_cons, beNat_foldl, beBytes_length]
      rw [this, ih]
      simp
      rw [Nat.pow_succ, Nat.mod_mul]
      rw [Nat.mul_comm]; omega
  rw [gen, Nat.mod_eq_of_lt h]

/-- A field between two byte lists reads as its own bytes. -/
theorem field_append (b a : List Byte) (n : Nat) (l : List Byte) (hl : l.length = n) : field (b ++ l ++ a) b.length n = beNat l := by
  subst hl; simp [field]

end Sys2Proof.Machine
end

