-- ==== Sys2Proof/Laws/Visits.lean ====
section
/-! SUPPORT. Visits, banks and passes: the operations of the commands and of the data path keep them in order. -/

namespace Sys2Proof.Machine

/-- Visits, banks and passes are in order when their core is, and the sequencer and PX are as before. -/
theorem State.BanksOk.of_core {s u : State} (h : s.BanksOk) (hc : u.Core) (hr : u.resolve = s.resolve) (hx : u.px = s.px) : u.BanksOk := by
  rw [State.banksOk_iff] at h ⊢
  refine ⟨hc, ?_, ?_⟩
  · intro he; rw [hr] at he; rw [hx]; exact h.2.1 he
  · intro ht hi; rw [hr] at ht hi ⊢; exact h.2.2 ht hi

/-- The core of the order of visits, banks and passes. -/
theorem State.BanksOk.core {s : State} (h : s.BanksOk) : s.Core := ((State.banksOk_iff s).1 h).1

/-- A change of a bank that keeps its state and its read hold keeps the order. -/
theorem State.BanksOk.updBank {s : State} (h : s.BanksOk) (b : BankId) (f : Bank → Bank) (h1 : ∀ k, (f k).state = k.state)
   (h2 : ∀ k, (f k).readHold = k.readHold) : (s.updBank b f).BanksOk := by
  refine h.congr ⟨rfl,rfl,rfl,rfl⟩ ?_ ⟨rfl,rfl,rfl,Iff.rfl,rfl⟩ Iff.rfl
  intro c
  simp [State.bank]
  split
  · subst_vars; simp [h1,h2]
  · simp

/-- The end of RETIRING keeps the order (R75). -/
theorem State.BanksOk.leaveRetiring {s : State} (h : s.BanksOk) (b : BankId) : (s.leaveRetiring b).BanksOk :=
  h.of_core (h.core.leaveRetiring b) (by simp) (by simp)

/-- A settled tile keeps the order. -/
theorem State.BanksOk.settleTile {s : State} (h : s.BanksOk) (t) : (s.settleTile t).BanksOk := h.of_eq (by simp) (by simp) (by simp) (by simp)

/-- A row that leaves the counts of rows in flight keeps the order. -/
theorem State.BanksOk.uncountRow {s : State} (h : s.BanksOk) (t) : (s.uncountRow t).BanksOk := by
  unfold State.uncountRow
  refine State.BanksOk.judgeSnap (State.BanksOk.settleTile ?_ t)
  exact h.congr ⟨rfl,rfl,rfl,rfl⟩ (fun _ => ⟨rfl,rfl⟩) ⟨rfl,rfl,rfl,Iff.rfl,rfl⟩ Iff.rfl

/-- The end of a row keeps the order. -/
theorem State.BanksOk.endRow {s : State} (h : s.BanksOk) (p l) : (s.endRow p l).BanksOk := by
  unfold State.endRow
  dsimp only
  have h1 : (((s.setLane p none).updBank l.context.bank fun k => { k with depositHolds := k.depositHolds - 1 }).leaveRetiring l.context.bank).BanksOk := by
    refine State.BanksOk.leaveRetiring ?_ _
    refine State.BanksOk.updBank ?_ _ _ (fun _ => rfl) (fun _ => rfl)
    exact h.of_eq rfl rfl rfl rfl
  split
  · refine (State.BanksOk.uncountRow h1 l.tile).of_eq ?_ ?_ ?_ ?_ <;> simp
  · exact h1.of_eq (by simp) (by simp) (by simp) (by simp)

/-- A deposit keeps the order. -/
theorem State.BanksOk.depositTarget {s : State} (h : s.BanksOk) (x t k g) : (State.depositTarget x t k s g).BanksOk := by
  unfold State.depositTarget
  dsimp only
  (repeat' split)
  · exact h
  · rw [State.writeCell_eq]; exact h.updBank _ _ (fun _ => rfl) (fun _ => rfl)
  · exact h.of_eq rfl rfl rfl rfl
  · exact h

/-- The deposits of a pixel keep the order. -/
theorem State.BanksOk.depositTargets (l : List Target) {s : State} (h : s.BanksOk) (x t k) : (l.foldl (State.depositTarget x t k) s).BanksOk := by
  induction l generalizing s with
  | nil => exact h
  | cons g l ih => exact ih (State.BanksOk.depositTarget h x t k g)

/-- A pixel keeps the order. -/
theorem State.BanksOk.depositPixel {s : State} (h : s.BanksOk) (l a f) : (s.depositPixel l a f).BanksOk := by
  unfold State.depositPixel
  exact State.BanksOk.depositTargets _ (h.of_eq (by simp) (by simp) (by simp) (by simp)) _ _ _

/-- A lane's next pixel keeps the order. -/
theorem State.BanksOk.nextPixel {s : State} (h : s.BanksOk) (p l) : (s.nextPixel p l).BanksOk := by
  unfold State.nextPixel
  split
  · exact State.BanksOk.endRow h p l
  · dsimp only
    split
    · exact State.BanksOk.endRow (State.BanksOk.depositPixel h _ _ _) _ _
    · exact (State.BanksOk.depositPixel h _ _ _).of_eq rfl rfl rfl rfl

/-- The start of a row keeps the order. -/
theorem State.BanksOk.startRow {s : State} (h : s.BanksOk) (p w r q) : (s.startRow p w r q).BanksOk := by
  unfold State.startRow
  refine State.BanksOk.updBank ?_ _ _ (fun _ => rfl) (fun _ => rfl)
  exact h.of_eq rfl rfl rfl rfl

/-- A tile's end keeps the order. -/
theorem State.BanksOk.endTile {s : State} (h : s.BanksOk) (t st) : (s.endTile t st).BanksOk := h.of_eq rfl rfl rfl rfl

/-- The effect of a decision on an arrival keeps the order. -/
theorem State.BanksOk.applyDecision {s : State} (h : s.BanksOk) (p hd sm t g d) : (s.applyDecision p hd sm t g d).BanksOk := by
  unfold State.applyDecision
  split
  · exact h.of_eq rfl rfl rfl rfl
  · dsimp only; split <;> exact h.of_eq rfl rfl rfl rfl
  · exact h.of_eq rfl rfl rfl rfl
  · exact h.of_eq rfl rfl rfl rfl
  · exact h.of_eq (by simp) (by simp) (by simp) (by simp)
  · exact h.of_eq (by simp) (by simp) (by simp) (by simp)
  · refine State.BanksOk.settleTile ?_ _
    refine h.congr ?_ ?_ ?_ ?_
    · unfold State.keepRow; simp
    · intro b; simp [State.bank]
    · simp
    · simp

/-- An arrival keeps the order. -/
theorem State.BanksOk.arrive {s : State} (h : s.BanksOk) (p hd c sm) : (s.arrive p hd c sm).BanksOk := by
  unfold State.arrive
  split
  · exact h.of_eq rfl rfl rfl rfl
  · exact (State.BanksOk.applyDecision h _ _ _ _ _ _).judgeSnap

/-- A sequencer that takes a credit keeps the order (R145). -/
theorem State.BanksOk.resumeWalk {s : State} (h : s.BanksOk) : s.resumeWalk.BanksOk := by
  unfold State.resumeWalk
  split
  · rename_i hc
    have hr : s.resolve.state = .running := by
      have := hc.1; simp [State.waitsForCredit] at this; exact this.1
    have hs := s.beginRow_samePass
    refine (State.banksOk_iff _).2 ⟨h.core.beginRow (by rw [hr]; simp), State.rowHeld_of (Or.inl (hs.1.trans hr)), ?_⟩
    intro _ hi; rw [hs.1, hr] at hi; simp at hi
  · exact h

/-- A row cut on PX keeps the order (R165). -/
theorem State.BanksOk.cutRow {s : State} (h : s.BanksOk) : s.cutRow.BanksOk := by
  unfold State.cutRow
  split
  · exact h
  · rename_i f hf
    have hc := h.core
    have hi : s.resolve.state ≠ .idle := by
      intro hi; have := hc.2.2.2.2.2.2 hi; rw [hf] at this; simp at this
    refine State.Core.rowSent (s := s.updPx fun x => { x with lane := none, counters := { x.counters with prdCut := bump x.counters.prdCut } }) ?_ rfl hi f
    obtain ⟨hv, hw, hp1,hp2,hp3,hp4,hp5⟩ := hc
    exact ⟨hv, hw, hp1,hp2,hp3,hp4, fun he => absurd he hi⟩

/-- A restart keeps the order (R149). -/
theorem State.BanksOk.askRestart {s : State} (h : s.BanksOk) (hr : s.resolve.state = .running) : s.askRestart.BanksOk := by
  unfold State.askRestart
  split
  · rename_i hl
    obtain ⟨h1,h2,h3,h4⟩ := h.core.restartPass (Or.inl hr) hl
    exact h1.autoStart (State.rowHeld_of h4)
  · rename_i hl
    obtain ⟨hv, hw, ⟨hp1,hp2,hp3,hp4,hp5,hp6⟩, ha⟩ := h
    refine ⟨hv, hw, ⟨fun b hb => ⟨by simp, (hp1 b hb).2⟩, fun _ => hp2 (Or.inl hr), fun b => ?_, ?_, ?_, fun _ => hl⟩, ?_⟩
    · have := hp3 b; rw [hr] at this; simpa [State.bank] using this
    · rw [hr] at hp4; simpa using hp4
    · simp
    · intro _ hi; simp at hi

/-- The end of a pass keeps the order (R150). -/
theorem State.BanksOk.askEnd {s : State} (h : s.BanksOk) (hr : s.resolve.state = .running ∨ s.resolve.state = .restarting) : s.askEnd.BanksOk := by
  unfold State.askEnd
  have hne : s.resolve.state ≠ .idle := by rcases hr with hr | hr <;> rw [hr] <;> simp
  split
  · rename_i hl
    exact (h.core.endPass hl).autoStart (State.rowHeld_of (Or.inr s.endPass_resolve.1))
  · rename_i hl
    obtain ⟨hv, hw, ⟨hp1,hp2,hp3,hp4,hp5,hp6⟩, ha⟩ := h
    refine ⟨hv, hw, ⟨fun b hb => ⟨by simp, (hp1 b hb).2⟩, ?_, fun b => ?_, ?_, ?_, fun _ => hl⟩, ?_⟩
    · simp
    · have := hp3 b; simp [hne] at this; simpa [State.bank] using this
    · simp [hne] at hp4; simpa using hp4
    · simp
    · intro _ hi; simp at hi

/-- VISIT_OPEN keeps the order (R71, R103). -/
theorem State.BanksOk.openVisit {s : State} (h : s.BanksOk) (hl : s.visitLock = false) (tag e) (b : BankId) (hb : s.freeBank = some b) :
   (s.openVisit tag e b).BanksOk := by
  have hfree : (s.bank b).state = .free := by
    unfold State.freeBank at hb
    (repeat' split at hb) <;> simp at hb <;> subst hb <;> assumption
  obtain ⟨⟨hv1,hv2,hv3⟩, ⟨hw1,hw2⟩, ⟨hp1,hp2,hp3,hp4,hp5,hp6⟩, ha⟩ := h
  have hnf : ∀ c, (s.bank c).state ≠ .filling := by
    simp [State.visitLock] at hl
    intro c; revert c; rw [Fin.forall_fin_two]; exact hl
  have hbank : ∀ c, (s.openVisit tag e b).bank c = if b = c then {s.bank b with state := .filling, epoch := (s.bank b).epoch + 1} else s.bank c := by
    intro c; simp [State.openVisit, State.bank]
  have hst : ∀ x, x ≠ BankState.free → x ≠ .filling → ∀ c, ((s.openVisit tag e b).bank c).state = x ↔ (s.bank c).state = x := by
    intro x h1 h2 c
    rw [hbank]; split
    · rename_i hc; subst hc; rw [hfree]; simp [h1.symm, h2.symm]
    · rfl
  have hrh : ∀ c, ((s.openVisit tag e b).bank c).readHold = (s.bank c).readHold := by
    intro c; rw [hbank]; split
    · rename_i hc; subst hc; rfl
    · rfl
  refine ⟨⟨rfl, fun c => ?_, fun hd => absurd rfl hd⟩, ⟨fun c => ?_, hw2⟩, ⟨fun c => ?_, ?_, fun c => ?_, hp4, hp5, hp6⟩, ha⟩
  · rw [hbank]
    show _ ↔ (VisitState.betweenSnaps ≠ .noVisit ∧ b = c)
    split
    · rename_i hc; simp [hc]
    · rename_i hc; simp [hnf c, hc]
  · rw [hst _ (by simp) (by simp)]; exact hw1 c
  · rw [hst _ (by simp) (by simp)]; exact hp1 c
  · rw [hst _ (by simp) (by simp)]; exact hp2
  · rw [hrh]; exact hp3 c

/-- SNAP_OPEN keeps the order (R106). -/
theorem State.BanksOk.openSnap {s : State} (h : s.BanksOk) (hb : s.visit.state = .betweenSnaps) (sx sy) : (s.openSnap sx sy).BanksOk := by
  obtain ⟨⟨hv1,hv2,hv3⟩, hw, hp, ha⟩ := h
  refine ⟨⟨rfl, fun c => ?_, fun hd => absurd rfl hd⟩, hw, hp, ha⟩
  have := hv2 c
  rw [hb] at this
  simpa [State.openSnap, State.bank] using this

/-- SNAP_CLOSE keeps the order (R111). -/
theorem State.BanksOk.beginDrain {s : State} (h : s.BanksOk) (hb : s.visit.snap = .opened) : s.beginDrain.BanksOk := by
  obtain ⟨⟨hv1,hv2,hv3⟩, hw, hp, ha⟩ := h
  have hs : s.visit.state = .inSnap := by
    revert hv1; rw [hb]; cases s.visit.state <;> simp [pairAllowed]
  refine ⟨⟨?_, hv2, fun _ => rfl⟩, hw, hp, ha⟩
  show pairAllowed s.visit.state .draining = true
  rw [hs]; rfl

/-- VISIT_CLOSE keeps the order (R110, R113). -/
theorem State.BanksOk.closeVisit {s : State} (h : s.BanksOk) (hb : s.visit.state = .betweenSnaps) : s.closeVisit.BanksOk := by
  obtain ⟨⟨hv1,hv2,hv3⟩, hw, hp, ha⟩ := h
  have hp' := (State.passOk_iff s).1 hp
  rw [hb] at hv1 hv2
  refine State.closeVisit_banksOk ?_ ?_ ?_ hw hp'.1 hp'.2
  · revert hv1; cases s.visit.snap <;> simp [pairAllowed]
  · refine Decidable.byContradiction fun hd => ?_
    have := hv3 hd
    rw [this] at hv1; simp [pairAllowed] at hv1
  · intro b; simpa using hv2 b

/-- A FILLING or CLOSED bank that retires keeps the order, when the visit and the waiting list let go of it. -/
theorem State.BanksOk.retireVisit {s u : State} (h : s.BanksOk) (b : BankId) (hb : (s.bank b).state = .filling ∨ (s.bank b).state = .closed)
   (hc : u.canvas = s.canvas) (hx : u.px = s.px)
   (hv1 : pairAllowed u.visit.state u.visit.snap = true)
   (hv2 : ∀ c, (b ≠ c ∧ (s.bank c).state = .filling) ↔ u.visit.state ≠ .noVisit ∧ u.visit.bank = c)
   (hv3 : u.visit.drain ≠ .stopped → u.visit.snap = .draining)
   (hr : u.resolve.state = s.resolve.state ∧ u.resolve.passBank = s.resolve.passBank ∧ u.resolve.snapshot = s.resolve.snapshot ∧ u.resolve.trigger = s.resolve.trigger)
   (hw : u.resolve.waiting = s.resolve.waiting.filter (· != b)) : (u.retire b).BanksOk := by
  obtain ⟨hv, ⟨hw1,hw2⟩, ⟨hp1,hp2,hp3,hp4,hp5,hp6⟩, ha⟩ := h
  have hbank : ∀ c, (u.updBank b fun k => { k with state := .retiring }).bank c = if b = c then {s.bank b with state := .retiring} else s.bank c := by
    intro c; simp [State.bank, hc]
  have : (u.updBank b fun k => { k with state := .retiring }).BanksOk := by
    refine ⟨⟨hv1, fun c => ?_, hv3⟩, ⟨fun c => ?_, ?_⟩, ⟨fun c => ?_, ?_, fun c => ?_, ?_, ?_, ?_⟩, ?_⟩
    · rw [hbank]; show _ ↔ u.visit.state ≠ .noVisit ∧ u.visit.bank = c
      rw [← hv2 c]; split <;> simp [*]
    · rw [hbank]; show _ ↔ c ∈ u.resolve.waiting
      rw [hw]; split
      · rename_i hcc; subst hcc; simp
      · rename_i hcc; rw [hw1]; simp [Ne.symm hcc]
    · show u.resolve.waiting.Nodup
      rw [hw]; exact hw2.filter _
    · rw [hbank]; show _ → u.resolve.state ≠ .idle ∧ u.resolve.passBank = c
      rw [hr.1, hr.2.1]
      split
      · simp
      · exact hp1 c
    · show u.resolve.state = .running ∨ u.resolve.state = .restarting → ((u.updBank b fun k => { k with state := .retiring }).bank u.resolve.passBank).state = .resolving
      rw [hr.1, hr.2.1, hbank]
      intro he
      have := hp2 he
      split
      · rename_i hcc; subst hcc; rcases hb with hb | hb <;> rw [hb] at this <;> simp at this
      · exact this
    · rw [hbank]; show _ ↔ u.resolve.state ≠ .idle ∧ u.resolve.passBank = c
      rw [hr.1, hr.2.1]
      split
      · rename_i hcc; subst hcc; exact hp3 b
      · exact hp3 c
    · show u.resolve.snapshot = none ↔ u.resolve.state = .idle
      rw [hr.1, hr.2.2.1]; exact hp4
    · show u.resolve.state = .idle → u.px.lane = none
      rw [hr.1, hx]; exact hp5
    · show _ → u.px.lane ≠ none
      rw [hx]
      show u.resolve.state = .restarting ∨ u.resolve.state = .ending → _
      rw [hr.1]; exact hp6
    · show u.resolve.trigger = .auto → u.resolve.state = .idle → u.resolve.waiting = []
      rw [hr.1, hr.2.2.2, hw]
      intro h1 h2; rw [ha h1 h2]; rfl
  unfold State.retire
  exact this.leaveRetiring b

/-- VISIT_ABORT of the open visit keeps the order (R114). -/
theorem State.BanksOk.abortVisit {s : State} (h : s.BanksOk) (b : BankId) (hb : (s.bank b).state = .filling) : (s.abortVisit b).BanksOk := by
  have hv := h.1
  obtain ⟨hv1,hv2,hv3⟩ := hv
  have hvb := (hv2 b).1 hb
  have hnw : b ∉ s.resolve.waiting := by
    intro hm
    have := (h.2.1.1 b).2 hm
    rw [hb] at this; simp at this
  unfold State.abortVisit
  dsimp only
  generalize hu : State.mk _ _ _ _ _ _ _ _ _ _ _ _ = u
  suffices key : (u.retire b).BanksOk from key.of_eq (by simp) (by simp) (by simp) (by simp)
  subst hu
  refine State.BanksOk.retireVisit (s := s) h b (Or.inl hb) rfl rfl ?_ ?_ ?_ ?_ ?_
  · show pairAllowed .noVisit _ = true
    dsimp only [State.abortIntake]
    split
    · rfl
    · rename_i ho
      simp [State.snapOpen] at ho
      revert hv1
      cases hs : s.visit.snap <;> simp_all [pairAllowed]
  · intro c
    constructor
    · intro hc
      exact absurd (hvb.2.symm.trans ((hv2 c).1 hc.2).2) hc.1
    · intro hc; exact absurd rfl hc.1
  · intro hd; exact absurd rfl hd
  · exact ⟨rfl,rfl,rfl,rfl⟩
  · show s.resolve.waiting = _
    symm
    rw [List.filter_eq_self]
    intro a ha
    simp
    intro he; subst he; exact hnw ha

/-- VISIT_ABORT of a closed visit keeps the order (R115). -/
theorem State.BanksOk.withdrawVisit {s : State} (h : s.BanksOk) (b : BankId) (hb : (s.bank b).state = .closed) : (s.withdrawVisit b).BanksOk := by
  obtain ⟨hv1,hv2,hv3⟩ := h.1
  simp only [State.withdrawVisit]
  refine State.BanksOk.retireVisit (s := s) h b (Or.inr hb) rfl rfl hv1 ?_ hv3 ⟨rfl,rfl,rfl,rfl⟩ rfl
  intro c
  show _ ↔ s.visit.state ≠ .noVisit ∧ s.visit.bank = c
  rw [← hv2 c]
  constructor
  · exact fun hc => hc.2
  · intro hc
    refine ⟨?_, hc⟩
    intro he; subst he; rw [hb] at hc; simp at hc

/-- What ENGINE_RESET does to a bank: only that bank changes, it ends in a state of no visit and no pass, and its read hold stays (R82). -/
theorem restBank_bank (s : State) (b : BankId) :
   (∀ c, b ≠ c → (s.restBank b).bank c = s.bank c) ∧ ((s.restBank b).bank b).state.plain = true ∧ ((s.restBank b).bank b).readHold = (s.bank b).readHold := by
  unfold State.restBank
  split
  · exact s.retire_bank b
  · rename_i hh
    obtain ⟨h1,h2,h3⟩ := s.leaveRetiring_bank b
    refine ⟨h1, ?_, h2⟩
    rcases h3 with h3 | h3
    · rw [h3]; revert hh; cases (s.bank b).state <;> simp [BankState.holdsVisit, BankState.plain]
    · exact h3.2

/-- ENGINE_RESET keeps the order (R180). -/
theorem State.BanksOk.engineRest {s : State} (h : s.BanksOk) : s.engineRest.BanksOk := by
  obtain ⟨hv, ⟨hw1,hw2⟩, ⟨hp1,hp2,hp3,hp4,hp5,hp6⟩, ha⟩ := h
  unfold State.engineRest
  simp only []
  generalize hs2 : State.mk _ _ _ _ _ _ _ _ _ _ _ _ = s2
  have e1 : s2.visit = .reset := by rw [← hs2]
  have e2 : s2.resolve = s.resolve.rest s.px.lane.isSome := by rw [← hs2]; simp
  have e3 : s2.px.lane = s.px.lane := by rw [← hs2]; simp [ProductPort.rest]
  have e4 : ∀ b, (s2.bank b).readHold = (s.restReadHold.bank b).readHold := by intro b; rw [← hs2]; rfl
  have hrh : ∀ b, (s2.bank b).readHold = true ↔ s2.resolve.state ≠ .idle ∧ s2.resolve.passBank = b := by
    intro b
    rw [e4, e2]
    unfold State.restReadHold Resolve.rest
    dsimp only
    have := hp3 b
    split
    · rename_i hc
      rw [this]
      rcases hc with hc | hc
      · simp [hc]
      · have : s.resolve.state ≠ .idle := by
          intro hi; rw [hp5 hi] at hc; simp at hc
        simp [this, hc]
    · rename_i hc
      simp at hc
      simp [State.bank, hc.1, hc.2]
      split
      · subst_vars; simp
      · rename_i hcc
        cases hr : (s.canvas.banks.nth b).readHold
        · rfl
        · exact absurd (this.1 hr).2 hcc
  generalize hw : (s2.restBank 0).restBank 1 = w
  obtain ⟨a1,a2,a3⟩ := restBank_bank s2 0
  obtain ⟨b1,b2,b3⟩ := restBank_bank (s2.restBank 0) 1
  rw [hw] at b1 b2 b3
  have hb : ∀ c, (w.bank c).state.plain = true ∧ (w.bank c).readHold = (s2.bank c).readHold := by
    rw [Fin.forall_fin_two]
    refine ⟨?_, ?_⟩
    · rw [b1 0 (by decide)]; exact ⟨a2,a3⟩
    · refine ⟨b2, ?_⟩
      rw [b3, a1 1 (by decide)]
  have hne : ∀ x, x = BankState.filling ∨ x = .closed ∨ x = .resolving → ∀ c, (w.bank c).state ≠ x := by
    intro x hx c he
    have := (hb c).1
    rw [he] at this
    rcases hx with rfl | rfl | rfl <;> simp [BankState.plain] at this
  have w1 : w.visit = .reset := by rw [← hw]; simp [e1]
  have w2 : w.resolve = s2.resolve := by rw [← hw]; simp
  have w3 : w.px = s2.px := by rw [← hw]; simp
  have : w.BanksOk := by
    refine ⟨⟨by rw [w1]; rfl, fun c => ?_, by rw [w1]; exact fun h => absurd rfl h⟩, ⟨fun c => ?_, ?_⟩, ⟨fun c he => absurd he (hne _ (by simp) c), ?_, fun c => ?_, ?_, ?_, ?_⟩, ?_⟩
    · rw [w1]; simp [hne _ (Or.inl rfl) c, Visit.reset]
    · rw [w2, e2]; simp [hne _ (Or.inr (Or.inl rfl)) c, Resolve.rest]
    · rw [w2, e2]; simp [Resolve.rest]
    · rw [w2, e2]; simp only [Resolve.rest]
      (repeat' split) <;> simp
    · rw [(hb c).2, w2]; exact hrh c
    · rw [w2, e2]; simp only [Resolve.rest]
      (repeat' split) <;> simp_all
    · rw [w2, e2, w3, e3]; simp only [Resolve.rest]
      (repeat' split) <;> simp_all
    · rw [w2, e2, w3, e3]
      intro he hx
      have hs : s.px.lane.isSome = false := by rw [hx]; rfl
      simp [Resolve.rest, hs] at he
    · intro _ _; rw [w2, e2]; rfl
  exact this.of_eq (by simp) (by simp) (by simp) (by simp)

/-- CANVAS_SET on two FREE banks keeps the order (R66). -/
theorem State.BanksOk.setCanvas {s : State} (h : s.BanksOk) (w hh) (h0 : (s.bank 0).state = .free) (h1 : (s.bank 1).state = .free) : (s.setCanvas w hh).BanksOk := by
  have h2 : ({ s with canvas := { s.canvas with width := w, height := hh } } : State).BanksOk := h.congr ⟨rfl,rfl,rfl,rfl⟩ (fun _ => ⟨rfl,rfl⟩) ⟨rfl,rfl,rfl,Iff.rfl,rfl⟩ Iff.rfl
  unfold State.setCanvas
  refine h.of_core ?_ (by simp) (by simp)
  refine State.Core.startScrub ?_ 1 ?_
  · refine State.Core.startScrub h2.core 0 ?_
    show (s.bank 0).state.plain = true
    rw [h0]; rfl
  · have : ((State.startScrub { s with canvas := { s.canvas with width := w, height := hh } } 0).bank 1) = s.bank 1 := by
      simp [State.startScrub, State.bank]
    rw [this, h1]; rfl

/-- A write of a scrub keeps the order (R78). -/
theorem State.BanksOk.scrubNext {s : State} (h : s.BanksOk) (b : BankId) (hb : (s.bank b).state = .scrubbing) : (s.scrubNext b).BanksOk := by
  have h1 : (s.writeCell b (s.bank b).scrubPos (.empty 0)).BanksOk := by
    rw [State.writeCell_eq]; exact h.updBank _ _ (fun _ => rfl) (fun _ => rfl)
  unfold State.scrubNext
  dsimp only
  split
  · refine h1.of_core (h1.core.updBank_plain b _ ?_ rfl rfl) rfl rfl
    simp [State.bank] at hb ⊢; rw [hb]; rfl
  · exact h1.updBank _ _ (fun _ => rfl) (fun _ => rfl)

/-- A response keeps the order. -/
theorem State.BanksOk.respond {s : State} (h : s.BanksOk) (p f r d) : (s.respond p f r d).BanksOk := h.of_eq (by simp) (by simp) (by simp) (by simp)

/-- The tiles that a drain expiry cuts keep the order. -/
theorem State.BanksOk.cutTiles (l : List TileId) {s : State} (h : s.BanksOk) : (l.foldl State.cutTile s).BanksOk := by
  induction l generalizing s with
  | nil => exact h
  | cons g l ih =>
    refine ih ?_
    exact h.of_eq (by simp) (by simp) (by simp) (by simp)

/-- Stopping the drain timer keeps the order. -/
theorem State.BanksOk.stopDrain {s : State} (h : s.BanksOk) : s.stopDrain.BanksOk := by
  obtain ⟨⟨hv1,hv2,hv3⟩, hw, hp, ha⟩ := h
  exact ⟨⟨hv1,hv2,fun hd => absurd rfl hd⟩,hw,hp,ha⟩

end Sys2Proof.Machine
end

