-- ==== Sys2Proof/Laws/Epochs.lean ====
section
/-! SUPPORT. Epochs: every operation on the banks and the cells keeps the epoch law (R68, R71, R76, R78). -/

namespace Sys2Proof.Machine

/-- The epochs stay lawful when cells, epochs and scrub positions stay, no bank starts or ends a scrub, and none becomes FREE. -/
theorem State.EpochsOk.same {s u : State} (h : s.EpochsOk) (hc : s.SameCells u) (hb : ∀ b, (u.bank b).epoch = (s.bank b).epoch ∧ (u.bank b).scrubPos = (s.bank b).scrubPos ∧ ((u.bank b).state = .scrubbing ↔ (s.bank b).state = .scrubbing) ∧ ((u.bank b).state = .free → (s.bank b).state = .free)) : u.EpochsOk := by
  intro b
  obtain ⟨h1,h2,h3⟩ := h b
  obtain ⟨e1,e2,e3,e4⟩ := hb b
  unfold State.BankEpochOk
  rw [e1, e2, hc.1, hc.2.1]
  simp only [hc.cellAt, ne_eq, e3]
  exact ⟨fun hf => h1 (e4 hf), h2, h3⟩

/-- The epochs stay lawful when the canvas memory stays. -/
theorem State.EpochsOk.of_eq {s u : State} (h : s.EpochsOk) (hc : u.canvas = s.canvas) : u.EpochsOk :=
  State.EpochsOk.same h (.of_eq hc) (fun b => by simp [State.bank, hc])

/-- A change of a bank within its epoch keeps the epochs lawful. -/
theorem State.EpochsOk.updBank {s : State} (h : s.EpochsOk) (b : BankId) (f : Bank → Bank) (h1 : ∀ k, (f k).cells = k.cells) (h2 : (f (s.bank b)).epoch = (s.bank b).epoch)
  (h3 : (f (s.bank b)).scrubPos = (s.bank b).scrubPos) (h4 : ((f (s.bank b)).state = .scrubbing ↔ (s.bank b).state = .scrubbing)) (h5 : (f (s.bank b)).state = .free → (s.bank b).state = .free) :
  (s.updBank b f).EpochsOk := by
  refine State.EpochsOk.same h (State.updBank_sameCells s b f h1) (fun c => ?_)
  have : (s.updBank b f).bank c = if b = c then f (s.bank b) else s.bank c := by simp [State.bank]
  rw [this]; split
  · rename_i e; subst e; exact ⟨h2,h3,h4,h5⟩
  · exact ⟨rfl, rfl, Iff.rfl, id⟩

/-- When one bank changes and its own law holds, the epochs stay lawful. -/
theorem State.EpochsOk.set {s u : State} (h : s.EpochsOk) (b : BankId) (hc : s.SameCells u) (ho : ∀ c, b ≠ c → u.bank c = s.bank c) (hb : u.BankEpochOk b) : u.EpochsOk := by
  intro c
  by_cases e : b = c
  · subst e; exact hb
  · obtain ⟨h1,h2,h3⟩ := h c
    unfold State.BankEpochOk
    rw [ho c e, hc.1, hc.2.1]
    simp only [hc.cellAt]
    exact ⟨h1,h2,h3⟩

/-- The start of a scrub keeps the epochs lawful (R78). -/
theorem State.EpochsOk.startScrub {s : State} (h : s.EpochsOk) (b : BankId) : (s.startScrub b).EpochsOk := by
  refine State.EpochsOk.set h b (State.startScrub_sameCells s b) (fun c hc => ?_) ?_
  · simp [State.startScrub, State.bank, hc]
  · have : (s.startScrub b).bank b = { s.bank b with state := if s.canvas.width * s.canvas.height = 0 then .free else .scrubbing, epoch := 0, scrubPos := 0 } := by
      simp [State.startScrub, State.bank]
    unfold State.BankEpochOk
    rw [this]
    show _ ∧ (_ → 0 = 0 ∧ ∀ place, place < s.canvas.width * s.canvas.height → _) ∧ (_ → _ ∧ 0 < s.canvas.width * s.canvas.height ∧ _)
    dsimp only
    split
    · rename_i hz
      rw [hz]
      simp
    · rename_i hz
      generalize s.canvas.width * s.canvas.height = a at hz ⊢
      simp; omega

/-- The end of RETIRING keeps the epochs lawful (R75, R76). -/
theorem State.EpochsOk.leaveRetiring {s : State} (h : s.EpochsOk) (b : BankId) : (s.leaveRetiring b).EpochsOk := by
  unfold State.leaveRetiring
  split
  · rename_i hr
    split
    · exact State.EpochsOk.startScrub h b
    · rename_i he
      refine State.EpochsOk.set h b (State.updBank_sameCells s b _ (fun _ => rfl)) (fun c hc => ?_) ?_
      · simp [State.bank, hc]
      · have e1 : (s.updBank b fun k => { k with state := .free }).bank b = { s.bank b with state := .free } := by simp [State.bank]
        obtain ⟨h1,h2,h3⟩ := h b
        unfold State.BankEpochOk
        rw [e1]
        simp only [(State.updBank_sameCells s b (fun k => { k with state := .free }) (fun _ => rfl)).cellAt]
        refine ⟨fun _ => ?_, fun _ => h2 (by rw [hr.1]; simp), fun hh => by simp at hh⟩
        have : (s.bank b).epoch.toNat ≠ 255 := by
          intro hc; apply he; apply BitVec.eq_of_toNat_eq; rw [hc]; rfl
        have := (s.bank b).epoch.isLt
        show (s.bank b).epoch.toNat < 255
        omega
  · exact h

/-- A bank that is not SCRUBBING retires lawfully. -/
theorem State.EpochsOk.retire {s : State} (h : s.EpochsOk) (b : BankId) (hb : (s.bank b).state ≠ .scrubbing) : (s.retire b).EpochsOk := by
  unfold State.retire
  refine State.EpochsOk.leaveRetiring (State.EpochsOk.updBank h b (fun k => { k with state := .retiring }) (fun _ => rfl) rfl rfl ?_ ?_) b
  · simp [hb]
  · simp

/-- The end of a pass keeps the epochs lawful (R73). -/
theorem State.EpochsOk.releaseBank {s : State} (h : s.EpochsOk) (b : BankId) : (s.releaseBank b).EpochsOk := by
  unfold State.releaseBank
  dsimp only
  have h1 : (s.updBank b fun k => { k with readHold := false }).EpochsOk := State.EpochsOk.updBank h b _ (fun _ => rfl) rfl rfl Iff.rfl id
  split
  · rename_i hr
    split
    · exact State.EpochsOk.retire h1 b (by rw [hr]; simp)
    · refine State.EpochsOk.updBank h1 b _ (fun _ => rfl) rfl rfl ?_ ?_ <;> simp [hr]
  · exact State.EpochsOk.leaveRetiring h1 b

/-- The walk keeps the epochs lawful. -/
theorem State.EpochsOk.seek (l : List (Fin 8)) {s : State} (h : s.EpochsOk) : (State.seek l s).EpochsOk := by
  induction l generalizing s with
  | nil => exact State.EpochsOk.releaseBank (State.EpochsOk.of_eq h (by simp)) _
  | cons i rest ih =>
    unfold State.seek
    dsimp only
    (repeat' split)
    · exact ih (State.EpochsOk.of_eq h rfl)
    · exact ih (State.EpochsOk.of_eq h rfl)
    · exact State.EpochsOk.of_eq h (by simp)

/-- The start of a pass keeps the epochs lawful. -/
theorem State.EpochsOk.openPass {s : State} (h : s.EpochsOk) (b : BankId) (hb : (s.bank b).state ≠ .scrubbing) : (s.openPass b).EpochsOk := by
  unfold State.openPass
  refine State.EpochsOk.seek _ (State.EpochsOk.of_eq (State.EpochsOk.updBank h b (fun k => { k with state := .resolving, readHold := true }) (fun _ => rfl) rfl rfl ?_ ?_) rfl)
  · simp [hb]
  · simp

/-- The walk touches the bank of the pass alone. -/
theorem seek_bank (l : List (Fin 8)) (s : State) (c) (hc : s.resolve.passBank ≠ c) : (State.seek l s).bank c = s.bank c := by
  induction l generalizing s with
  | nil =>
    unfold State.seek State.completePass
    exact (State.releaseBank_bank _ _).1 c hc
  | cons i rest ih =>
    unfold State.seek
    dsimp only
    (repeat' split)
    · exact ih (s.updEntry i _) hc
    · exact ih (s.updEntry i _) hc
    · unfold State.bank; simp

/-- Every bank of the waiting list is CLOSED (R141). -/
def State.WaitingClosed (s : State) : Prop := ∀ b ∈ s.resolve.waiting, (s.bank b).state = .closed

/-- The walk leaves the waiting list. -/
theorem seek_waiting (l : List (Fin 8)) (s : State) : (State.seek l s).resolve.waiting = s.resolve.waiting := by
  induction l generalizing s with
  | nil => exact s.completePass_resolve.2.1
  | cons i rest ih =>
    unfold State.seek
    dsimp only
    (repeat' split)
    · exact ih (s.updEntry i _)
    · exact ih (s.updEntry i _)
    · exact (s.standAt_samePass i 0).2.2.1

/-- The start of a pass leaves CLOSED banks on the waiting list. -/
theorem State.WaitingClosed.openPass {s : State} (h : State.WaitingClosed s) (b) : State.WaitingClosed (s.openPass b) := by
  intro c hc
  unfold State.openPass at hc
  rw [seek_waiting] at hc
  have hc' : c ∈ s.resolve.waiting.filter (· != b) := hc
  simp at hc'
  unfold State.openPass
  rw [seek_bank _ _ _ (fun e => hc'.2 e.symm)]
  show ((s.updBank b fun k => { k with state := .resolving, readHold := true }).bank c).state = _
  have : (s.updBank b fun k => { k with state := .resolving, readHold := true }).bank c = s.bank c := by simp [State.bank, Ne.symm hc'.2]
  rw [this]
  exact h c hc'.1

/-- Automatic starts keep the epochs lawful. -/
theorem State.EpochsOk.autoStartUpTo (n : Nat) {s : State} (h : s.EpochsOk) (hw : State.WaitingClosed s) : (State.autoStartUpTo n s).EpochsOk := by
  induction n generalizing s with
  | zero => exact h
  | succ n ih =>
    unfold State.autoStartUpTo
    split
    · rename_i b rest ht hi hww
      exact ih (State.EpochsOk.openPass h b (by rw [hw b (by rw [hww]; simp)]; simp)) (State.WaitingClosed.openPass hw b)
    · exact h

/-- The automatic start keeps the epochs lawful (R142). -/
theorem State.EpochsOk.autoStart {s : State} (h : s.EpochsOk) (hw : State.WaitingClosed s) : s.autoStart.EpochsOk := State.EpochsOk.autoStartUpTo _ h hw

/-- In order, the waiting list holds CLOSED banks. -/
theorem State.BanksOk.waitingClosed {s : State} (h : s.BanksOk) : State.WaitingClosed s := by
  intro b hb
  exact (h.2.1.1 b).2 hb

/-- The close of a visit keeps the epochs lawful (R72, R110). -/
theorem State.EpochsOk.closeVisit {s : State} (h : s.EpochsOk) (hw : State.WaitingClosed s) (hf : (s.bank s.visit.bank).state = .filling) : s.closeVisit.EpochsOk := by
  unfold State.closeVisit State.joinWaiting
  dsimp only
  refine State.EpochsOk.autoStart ?_ ?_
  · refine State.EpochsOk.of_eq (s := s.updBank s.visit.bank fun k => { k with state := .closed }) (State.EpochsOk.updBank h _ _ (fun _ => rfl) rfl rfl ?_ ?_) rfl
    · simp [hf]
    · simp
  · intro b hb
    have hb' : b ∈ s.resolve.waiting ++ [s.visit.bank] := hb
    show ((s.updBank s.visit.bank fun k => { k with state := .closed }).bank b).state = _
    have : (s.updBank s.visit.bank fun k => { k with state := .closed }).bank b = if s.visit.bank = b then { s.bank s.visit.bank with state := .closed } else s.bank b := by simp [State.bank]
    rw [this]; split
    · rfl
    · rename_i hne
      simp [Ne.symm hne] at hb'
      exact hw b hb'

/-- The judgement of a snap keeps the epochs lawful. -/
theorem State.EpochsOk.judgeSnap {s : State} (h : s.EpochsOk) (hb : s.BanksOk) : s.judgeSnap.EpochsOk := by
  unfold State.judgeSnap
  split
  · rename_i hc
    unfold State.finishSnap
    dsimp only
    split
    · have hns : State.WaitingClosed s := State.BanksOk.waitingClosed hb
      refine State.EpochsOk.closeVisit (State.EpochsOk.of_eq h rfl) hns ?_
      show (s.bank s.visit.bank).state = .filling
      rw [hb.1.2.1]
      refine ⟨?_, rfl⟩
      intro hv
      have h1 := hb.1.1
      rw [hv] at h1
      have : s.snapOpen = true := by unfold State.snapComplete at hc; simp at hc; exact hc.1.1
      simp [State.snapOpen] at this
      rcases this with h | h <;> rw [h] at h1 <;> simp [pairAllowed] at h1
    · exact State.EpochsOk.of_eq h rfl
  · exact h

/-- A write of a cell with its bank's epoch keeps the epochs lawful (R68). -/
theorem State.EpochsOk.writeCell {s : State} (h : s.EpochsOk) (b) (pl : Nat) (c : Cell) (hc : c.epoch = (s.bank b).epoch) : (s.writeCell b pl c).EpochsOk := by
  intro k
  obtain ⟨h1,h2,h3⟩ := h k
  have hb : ((s.writeCell b pl c).bank k).state = (s.bank k).state ∧ ((s.writeCell b pl c).bank k).epoch = (s.bank k).epoch ∧ ((s.writeCell b pl c).bank k).scrubPos = (s.bank k).scrubPos := by
    simp [State.bank]; split
    · rename_i e; subst e; simp
    · simp
  unfold State.BankEpochOk
  rw [hb.1, hb.2.1, hb.2.2]
  have hw : (s.writeCell b pl c).canvas.width = s.canvas.width ∧ (s.writeCell b pl c).canvas.height = s.canvas.height := by simp
  rw [hw.1, hw.2]
  refine ⟨h1, fun hs => ⟨(h2 hs).1, fun place hp => ?_⟩, fun hs => ⟨(h3 hs).1, (h3 hs).2.1, fun place hp => ?_⟩⟩
  · rw [State.cellAt_writeCell]; split
    · rename_i e; exact Nat.le_of_eq (by rw [hc, e.1])
    · exact (h2 hs).2 place hp
  · rw [State.cellAt_writeCell]; split
    · rename_i e; rw [hc, e.1]; exact (h3 hs).1
    · exact (h3 hs).2.2 place hp

/-- A deposit leaves the cell current (R68, R91). -/
theorem depositInto_epoch (e slot kind w c) : (depositInto e slot kind w c).epoch = e := by
  unfold depositInto
  have : (c.asRead e).epoch = e := by unfold Cell.asRead; split <;> simp_all [Cell.empty]
  dsimp only
  split <;> exact this

/-- A pixel keeps the epochs lawful. -/
theorem State.EpochsOk.depositPixel {s : State} (h : s.EpochsOk) (l a f) : (s.depositPixel l a f).EpochsOk := by
  unfold State.depositPixel
  dsimp only
  have h0 : (s.countPixel l.context l.tile (l.pixel a f)).EpochsOk := State.EpochsOk.of_eq h (by simp)
  generalize s.countPixel l.context l.tile (l.pixel a f) = u at h0
  generalize l.context.placement.targets (l.seg.column l.next) (l.seg.tileRow l.row) = ts
  induction ts generalizing u with
  | nil => exact h0
  | cons g rest ih =>
    refine ih _ ?_
    unfold State.depositTarget
    (repeat' split)
    · exact h0
    · exact State.EpochsOk.writeCell h0 _ _ _ (depositInto_epoch ..)
    · exact State.EpochsOk.of_eq h0 (by simp)
    · exact h0

/-- A row that leaves the counts keeps the epochs lawful. -/
theorem State.EpochsOk.uncountRow {u : State} (h2 : u.EpochsOk) (h1 : u.BanksOk) (t) : (u.uncountRow t).EpochsOk := by
  unfold State.uncountRow
  refine State.EpochsOk.judgeSnap (State.EpochsOk.of_eq h2 (by simp)) (State.BanksOk.settleTile ?_ _)
  exact h1.congr ⟨rfl,rfl,rfl,rfl⟩ (fun _ => ⟨rfl,rfl⟩) ⟨rfl,rfl,rfl,Iff.rfl,rfl⟩ Iff.rfl

/-- The end of a row keeps the epochs lawful. -/
theorem State.EpochsOk.endRow {s : State} (h : s.EpochsOk) (hb : s.BanksOk) (p l) : (s.endRow p l).EpochsOk := by
  unfold State.endRow
  dsimp only
  have h1 : (((s.setLane p none).updBank l.context.bank fun k => { k with depositHolds := k.depositHolds - 1 }).leaveRetiring l.context.bank).BanksOk := by
    refine State.BanksOk.leaveRetiring ?_ _
    refine State.BanksOk.updBank ?_ _ _ (fun _ => rfl) (fun _ => rfl)
    exact hb.of_eq rfl rfl rfl rfl
  have h2 : (((s.setLane p none).updBank l.context.bank fun k => { k with depositHolds := k.depositHolds - 1 }).leaveRetiring l.context.bank).EpochsOk := by
    have h3 : (s.setLane p none).EpochsOk := State.EpochsOk.of_eq h (by simp)
    exact State.EpochsOk.leaveRetiring (State.EpochsOk.updBank h3 l.context.bank (fun k => { k with depositHolds := k.depositHolds - 1 }) (fun _ => rfl) rfl rfl Iff.rfl id) _
  generalize (((s.setLane p none).updBank l.context.bank fun k => { k with depositHolds := k.depositHolds - 1 }).leaveRetiring l.context.bank) = u at *
  split
  · exact State.EpochsOk.of_eq (State.EpochsOk.uncountRow h2 h1 l.tile) (by simp)
  · exact State.EpochsOk.of_eq h2 (by simp)

/-- A lane's next pixel keeps the epochs lawful. -/
theorem State.EpochsOk.nextPixel {s : State} (h : s.EpochsOk) (hb : s.BanksOk) (p l) : (s.nextPixel p l).EpochsOk := by
  unfold State.nextPixel
  split
  · exact State.EpochsOk.endRow h hb p l
  · dsimp only
    split
    · exact State.EpochsOk.endRow (State.EpochsOk.depositPixel h _ _ _) (State.BanksOk.depositPixel hb _ _ _) _ _
    · exact State.EpochsOk.of_eq (State.EpochsOk.depositPixel h _ _ _) rfl

/-- A restart keeps the epochs lawful. -/
theorem State.EpochsOk.restartPass {s : State} (h : s.EpochsOk) : s.restartPass.EpochsOk := State.EpochsOk.seek _ (State.EpochsOk.of_eq h rfl)

/-- The end of a pass leaves CLOSED banks on the waiting list. -/
theorem State.WaitingClosed.releaseBank {s : State} (h : State.WaitingClosed s) (b : BankId) : State.WaitingClosed (s.releaseBank b) := by
  intro c hc
  have : (s.releaseBank b).resolve.waiting = s.resolve.waiting := by simp
  rw [this] at hc
  have h0 := h c hc
  obtain ⟨h1, h2, h3⟩ := State.releaseBank_bank s b
  by_cases e : b = c
  · subst e
    rcases h3 with h3 | h3
    · rcases h3.2 with h4 | h4 <;> rw [h0] at h4 <;> simp at h4
    · rw [h3.1]; exact h0
  · rw [h1 c e]; exact h0

/-- The walk leaves CLOSED banks on the waiting list. -/
theorem State.WaitingClosed.seek (l : List (Fin 8)) {s : State} (h : State.WaitingClosed s) : State.WaitingClosed (State.seek l s) := by
  induction l generalizing s with
  | nil => 
    unfold State.seek State.completePass
    refine State.WaitingClosed.releaseBank ?_ _
    exact h
  | cons i rest ih =>
    unfold State.seek
    dsimp only
    (repeat' split)
    · exact ih (s := s.updEntry i _) h
    · exact ih (s := s.updEntry i _) h
    · intro c hc
      rw [(s.standAt_samePass i 0).2.2.1] at hc
      have := h c hc
      unfold State.bank at *; simpa using this

/-- A row that leaves PX keeps the epochs lawful. -/
theorem State.EpochsOk.rowSent {s : State} (h : s.EpochsOk) (hw : State.WaitingClosed s) (f) : (s.rowSent f).EpochsOk := by
  unfold State.rowSent
  split
  · exact h
  · rename_i hr
    dsimp only
    split
    · refine State.EpochsOk.autoStart (State.EpochsOk.seek _ (State.EpochsOk.of_eq h rfl)) (State.WaitingClosed.seek _ ?_)
      exact hw
    · exact State.EpochsOk.of_eq h (by simp)
  · rename_i hr
    refine State.EpochsOk.autoStart (State.EpochsOk.restartPass h) ?_
    unfold State.restartPass
    exact State.WaitingClosed.seek (s := s.resetPass _) _ hw
  · rename_i hr
    unfold State.endPass
    refine State.EpochsOk.autoStart (State.EpochsOk.releaseBank (s := s.updResolve _) (State.EpochsOk.of_eq h rfl) _) (State.WaitingClosed.releaseBank ?_ _)
    exact hw

/-- ENGINE_RESET keeps a bank's epoch lawful (R82). -/
theorem State.EpochsOk.restBank {s : State} (h : s.EpochsOk) (b) : (s.restBank b).EpochsOk := by
  unfold State.restBank
  refine State.EpochsOk.leaveRetiring ?_ b
  split
  · rename_i hh
    refine State.EpochsOk.updBank h b (fun k => { k with state := .retiring }) (fun _ => rfl) rfl rfl ?_ ?_
    · revert hh; cases (s.bank b).state <;> simp [BankState.holdsVisit]
    · simp
  · exact h

/-- ENGINE_RESET keeps the epochs lawful. -/
theorem State.EpochsOk.engineRest {s : State} (h : s.EpochsOk) : s.engineRest.EpochsOk := by
  unfold State.engineRest
  simp only []
  generalize hs2 : State.mk _ _ _ _ _ _ _ _ _ _ _ _ = s2
  have e1 : s2.canvas = s.restReadHold.canvas := by rw [← hs2]
  have h1 : s.restReadHold.EpochsOk := by
    unfold State.restReadHold; split
    · exact h
    · exact State.EpochsOk.updBank h _ _ (fun _ => rfl) rfl rfl Iff.rfl id
  have h2 : s2.EpochsOk := State.EpochsOk.of_eq h1 e1
  exact State.EpochsOk.of_eq (State.EpochsOk.restBank (State.EpochsOk.restBank h2 0) 1) (by simp)

/-- VISIT_OPEN raises the epoch of a FREE bank lawfully (R71). -/
theorem State.EpochsOk.openVisit {s : State} (h : s.EpochsOk) (tag e) (b : BankId) (hb : s.freeBank = some b) : (s.openVisit tag e b).EpochsOk := by
  have hfree : (s.bank b).state = .free := by
    unfold State.freeBank at hb
    (repeat' split at hb) <;> simp at hb <;> subst hb <;> assumption
  refine State.EpochsOk.set (u := s.openVisit tag e b) h b (State.updBank_sameCells s b (fun k => { k with state := .filling, epoch := k.epoch + 1 }) (fun _ => rfl)) (fun c hc => ?_) ?_
  · simp [State.openVisit, State.bank, hc]
  · have e1 : (s.openVisit tag e b).bank b = { s.bank b with state := .filling, epoch := (s.bank b).epoch + 1 } := by simp [State.openVisit, State.bank]
    obtain ⟨h1,h2,h3⟩ := h b
    have hc : ∀ pl, (s.openVisit tag e b).cellAt b pl = s.cellAt b pl := fun pl => (State.updBank_sameCells s b (fun k => { k with state := .filling, epoch := k.epoch + 1 }) (fun _ => rfl)).cellAt b pl
    unfold State.BankEpochOk
    rw [e1]
    simp only [hc]
    refine ⟨by simp, fun _ => ⟨(h2 (by rw [hfree]; simp)).1, fun pl hp => ?_⟩, by simp⟩
    have := (h2 (by rw [hfree]; simp)).2 pl hp
    have h5 := h1 hfree
    have : ((s.bank b).epoch + 1).toNat = (s.bank b).epoch.toNat + 1 := by
      rw [BitVec.toNat_add]; simp; omega
    omega

/-- CANVAS_SET keeps the epochs lawful (R66). -/
theorem State.EpochsOk.setCanvas {s : State} (h : s.EpochsOk) (w hh) (h0 : (s.bank 0).state = .free) (h1 : (s.bank 1).state = .free) : (s.setCanvas w hh).EpochsOk := by
  unfold State.setCanvas
  generalize hu : ({ s with canvas := { s.canvas with width := w, height := hh } } : State) = u
  have law : ∀ (v : State) b, (v.startScrub b).BankEpochOk b := by
    intro s b
    have : (s.startScrub b).bank b = { s.bank b with state := if s.canvas.width * s.canvas.height = 0 then .free else .scrubbing, epoch := 0, scrubPos := 0 } := by
      simp [State.startScrub, State.bank]
    unfold State.BankEpochOk
    rw [this]
    show _ ∧ (_ → 0 = 0 ∧ ∀ place, place < s.canvas.width * s.canvas.height → _) ∧ (_ → _ ∧ 0 < s.canvas.width * s.canvas.height ∧ _)
    dsimp only
    split
    · rename_i hz
      rw [hz]
      simp
    · rename_i hz
      generalize s.canvas.width * s.canvas.height = a at hz ⊢
      simp; omega
  intro b
  revert b
  rw [Fin.forall_fin_two]
  refine ⟨?_, law _ 1⟩
  have := law u 0
  have hs := State.startScrub_sameCells (u.startScrub 0) 1
  have hb : ((u.startScrub 0).startScrub 1).bank 0 = (u.startScrub 0).bank 0 := by
    generalize u.startScrub 0 = v
    simp [State.startScrub, State.bank]
  unfold State.BankEpochOk at *
  rw [hb, hs.1, hs.2.1]
  simp only [hs.cellAt]
  exact this

/-- A write of a scrub keeps the epochs lawful (R78). -/
theorem State.EpochsOk.scrubNext {s : State} (h : s.EpochsOk) (b) (hb : (s.bank b).state = .scrubbing) : (s.scrubNext b).EpochsOk := by
  obtain ⟨h1,h2,h3⟩ := h b
  obtain ⟨h3a, h3b, h3c⟩ := h3 hb
  have hw := State.EpochsOk.writeCell h b (s.bank b).scrubPos (.empty 0) (by rw [h3a]; rfl)
  unfold State.scrubNext
  dsimp only
  generalize hv : s.writeCell b (s.bank b).scrubPos (.empty 0) = v at *
  have hcell : ∀ pl, v.cellAt b pl = if (s.bank b).scrubPos = pl then .empty 0 else s.cellAt b pl := by
    intro pl; rw [← hv, State.cellAt_writeCell]; simp
  have hvb : (v.bank b).epoch = (s.bank b).epoch ∧ (v.bank b).scrubPos = (s.bank b).scrubPos ∧ (v.bank b).state = (s.bank b).state := by rw [← hv]; simp [State.bank]
  have hvc : v.canvas.width = s.canvas.width ∧ v.canvas.height = s.canvas.height := by rw [← hv]; simp
  split
  · rename_i hend
    refine State.EpochsOk.set hw b (State.updBank_sameCells v b (fun k => { k with state := .free, scrubPos := 0 }) (fun _ => rfl)) (fun c hc => ?_) ?_
    · simp [State.bank, hc]
    · have e1 : (v.updBank b fun k => { k with state := .free, scrubPos := 0 }).bank b = { v.bank b with state := .free, scrubPos := 0 } := by simp [State.bank]
      have hs := State.updBank_sameCells v b (fun k => { k with state := .free, scrubPos := 0 }) (fun _ => rfl)
      unfold State.BankEpochOk
      rw [e1, hs.1, hs.2.1, hvc.1, hvc.2]
      simp only [hs.cellAt]
      refine ⟨fun _ => ?_, fun _ => ⟨by trivial, fun pl hp => ?_⟩, by simp⟩
      · show (v.bank b).epoch.toNat < 255
        rw [hvb.1, h3a]; decide
      · rw [hcell]; split
        · simp [Cell.empty]
        · rw [h3c pl (by omega)]; simp
  · rename_i hend
    refine State.EpochsOk.set hw b (State.updBank_sameCells v b (fun k => { k with scrubPos := k.scrubPos + 1 }) (fun _ => rfl)) (fun c hc => ?_) ?_
    · simp [State.bank, hc]
    · have e1 : (v.updBank b fun k => { k with scrubPos := k.scrubPos + 1 }).bank b = { v.bank b with scrubPos := (v.bank b).scrubPos + 1 } := by simp [State.bank]
      have hs := State.updBank_sameCells v b (fun k => { k with scrubPos := k.scrubPos + 1 }) (fun _ => rfl)
      unfold State.BankEpochOk
      rw [e1, hs.1, hs.2.1, hvc.1, hvc.2]
      simp only [hs.cellAt, hvb.1, hvb.2.1, hvb.2.2, hb]
      refine ⟨by simp, by simp, fun _ => ⟨h3a, by omega, fun pl hp => ?_⟩⟩
      rw [hcell]; split
      · rfl
      · exact h3c pl (by omega)

/-- Cut tiles keep the epochs lawful. -/
theorem State.EpochsOk.cutTiles (l : List TileId) {s : State} (h : s.EpochsOk) : (l.foldl State.cutTile s).EpochsOk := by
  induction l generalizing s with
  | nil => exact h
  | cons g l ih => exact ih (State.EpochsOk.of_eq h (by simp))

/-- The tiles that a drain expiry cuts keep the epochs lawful. -/
theorem State.EpochsOk.drain {s : State} (h : s.EpochsOk) : ((List.finRange 16).foldl State.cutTile s.stopDrain).EpochsOk := State.EpochsOk.cutTiles _ (State.EpochsOk.of_eq h rfl)

end Sys2Proof.Machine
end

