-- ==== Sys2Proof/Laws/Flight.lean ====
section
/-! SUPPORT. Rows in flight and deposit holds: the law in its two parts, and every operation that keeps it (R28, R69, R75, R87, R96, R107). -/

namespace Sys2Proof.Machine

/-- Every port is listed. -/
theorem mem_allPorts : ∀ p : PortId, p ∈ allPorts := by decide

/-- The part of the flight law about banks: deposit holds count lanes, and a lane's bank is FILLING while its row counts, RETIRING after. -/
def State.HoldsOk (s : State) : Prop :=
  (∀ b, (s.bank b).depositHolds = s.lanesInto b) ∧ (∀ p l, s.lane p = some l → (s.bank l.context.bank).state = if l.context.counting then .filling else .retiring)

/-- The part of the flight law about counts of rows in flight. -/
def State.CountsOk (s : State) : Prop :=
  (∀ t, s.inFlight t = (allPorts.map (s.rowsHeld t)).sum)
    ∧ s.visit.inFlight = ((List.finRange 16).map s.inFlight).sum
    ∧ (s.visit.state ≠ .inSnap → s.visit.inFlight = 0)

/-- The two parts of the flight law. -/
theorem State.flightOk_iff (s : State) : s.FlightOk ↔ State.CountsOk s ∧ State.HoldsOk s := by
  unfold State.FlightOk State.CountsOk State.HoldsOk; exact ⟨fun h => ⟨⟨h.1, h.2.1, h.2.2.1⟩, h.2.2.2⟩, fun h => ⟨h.1.1, h.1.2.1, h.1.2.2, h.2⟩⟩

/-- No lane deposits into a bank. -/
theorem lanesInto_eq_zero (s : State) (b : BankId) : s.lanesInto b = 0 ↔ ∀ p l, s.lane p = some l → l.context.bank ≠ b := by
  unfold State.lanesInto
  rw [List.countP_eq_zero]
  constructor
  · intro h p l hl e
    have := h p (mem_allPorts p)
    rw [hl] at this; simp [laneBoundTo, e] at this
  · intro h p _
    cases hl : s.lane p with
    | none => simp [laneBoundTo]
    | some l => simpa [laneBoundTo] using h p l hl

/-- The lanes of a bank depend on the lanes alone. -/
theorem lanesInto_congr {s u : State} (h : u.cal.lanes = s.cal.lanes) (b) : u.lanesInto b = s.lanesInto b := by
  unfold State.lanesInto State.lane; rw [h]

/-- The law of the holds goes on where lanes, holds and bank states stay. -/
theorem State.HoldsOk.same {s u : State} (h : State.HoldsOk s) (hl : u.cal.lanes = s.cal.lanes) (hb : ∀ b, (u.bank b).depositHolds = (s.bank b).depositHolds ∧ (u.bank b).state = (s.bank b).state) : State.HoldsOk u := by
  refine ⟨fun b => ?_, fun p l h2 => ?_⟩
  · rw [(hb b).1, lanesInto_congr hl]; exact h.1 b
  · rw [(hb _).2]; refine h.2 p l ?_; unfold State.lane at *; rw [← hl]; exact h2

/-- The law of the holds goes on where lanes and banks stay. -/
theorem State.HoldsOk.of_eq {s u : State} (h : State.HoldsOk s) (hl : u.cal.lanes = s.cal.lanes) (hc : u.canvas = s.canvas) : State.HoldsOk u :=
  State.HoldsOk.same h hl (fun b => by simp [State.bank, hc])

/-- A change of a bank that keeps its holds, and its state unless no lane deposits there, keeps the law. -/
theorem State.HoldsOk.updBank {s : State} (h : State.HoldsOk s) (b) (f : Bank → Bank) (h1 : (f (s.bank b)).depositHolds = (s.bank b).depositHolds)
   (h2 : (f (s.bank b)).state = (s.bank b).state ∨ s.lanesInto b = 0) : State.HoldsOk (s.updBank b f) := by
  have hb : ∀ c, (s.updBank b f).bank c = if b = c then f (s.bank b) else s.bank c := by intro c; simp [State.bank]
  refine ⟨fun c => ?_, fun p l hl => ?_⟩
  · rw [hb]; split
    · rename_i e; subst e; rw [h1]; exact h.1 b
    · exact h.1 c
  · have hl' : s.lane p = some l := hl
    rw [hb]; split
    · rename_i e; subst e
      rcases h2 with h2 | h2
      · rw [h2]; exact h.2 p l hl'
      · exact absurd rfl ((lanesInto_eq_zero s _).1 h2 p l hl')
    · exact h.2 p l hl'

/-- No lane deposits into a bank that is neither FILLING nor RETIRING. -/
theorem State.HoldsOk.lanesInto {s : State} (h : State.HoldsOk s) (b) (h1 : (s.bank b).state ≠ .filling) (h2 : (s.bank b).state ≠ .retiring) : s.lanesInto b = 0 := by
  rw [lanesInto_eq_zero]
  intro p l hl e
  have := h.2 p l hl
  rw [e] at this
  split at this
  · exact h1 this
  · exact h2 this

/-- The end of RETIRING keeps the law of the holds. -/
theorem State.HoldsOk.leaveRetiring {s : State} (h : State.HoldsOk s) (b) : State.HoldsOk (s.leaveRetiring b) := by
  unfold State.leaveRetiring
  split
  · rename_i hr
    have h0 : s.lanesInto b = 0 := by rw [← h.1 b]; exact hr.2.1
    split
    · exact State.HoldsOk.updBank h b _ rfl (Or.inr h0)
    · exact State.HoldsOk.updBank h b _ rfl (Or.inr h0)
  · exact h

/-- A bank without lanes retires within the law. -/
theorem State.HoldsOk.retire {s : State} (h : State.HoldsOk s) (b) (h0 : s.lanesInto b = 0) : State.HoldsOk (s.retire b) := by
  unfold State.retire; exact State.HoldsOk.leaveRetiring (State.HoldsOk.updBank h b (fun k => { k with state := .retiring }) rfl (Or.inr h0)) b

/-- The end of a pass keeps the law of the holds. -/
theorem State.HoldsOk.releaseBank {s : State} (h : State.HoldsOk s) (b) : State.HoldsOk (s.releaseBank b) := by
  unfold State.releaseBank
  dsimp only
  have h1 : State.HoldsOk (s.updBank b fun k => { k with readHold := false }) := State.HoldsOk.updBank h b _ rfl (Or.inl rfl)
  split
  · rename_i hr
    have h0 := State.HoldsOk.lanesInto h1 b (by rw [hr]; simp) (by rw [hr]; simp)
    split
    · exact State.HoldsOk.retire h1 b h0
    · exact State.HoldsOk.updBank h1 b _ rfl (Or.inr h0)
  · exact State.HoldsOk.leaveRetiring h1 b

/-- The walk keeps the law of the holds. -/
theorem State.HoldsOk.seek (l : List (Fin 8)) {s : State} (h : State.HoldsOk s) : State.HoldsOk (State.seek l s) := by
  induction l generalizing s with
  | nil => exact State.HoldsOk.releaseBank (State.HoldsOk.of_eq h (by simp) (by simp)) _
  | cons i rest ih =>
    unfold State.seek
    dsimp only
    (repeat' split)
    · exact ih (State.HoldsOk.of_eq h rfl rfl)
    · exact ih (State.HoldsOk.of_eq h rfl rfl)
    · exact State.HoldsOk.of_eq h (by simp) (by simp)

/-- The start of a pass keeps the law of the holds. -/
theorem State.HoldsOk.openPass {s : State} (h : State.HoldsOk s) (b) (h1 : (s.bank b).state ≠ .filling) (h2 : (s.bank b).state ≠ .retiring) : State.HoldsOk (s.openPass b) := by
  unfold State.openPass
  exact State.HoldsOk.seek _ (State.HoldsOk.of_eq (State.HoldsOk.updBank h b (fun k => { k with state := .resolving, readHold := true }) rfl (Or.inr (State.HoldsOk.lanesInto h b h1 h2))) rfl rfl)

/-- Automatic starts keep the law of the holds. -/
theorem State.HoldsOk.autoStartUpTo (n : Nat) {s : State} (h : State.HoldsOk s) (hw : State.WaitingClosed s) : State.HoldsOk (State.autoStartUpTo n s) := by
  induction n generalizing s with
  | zero => exact h
  | succ n ih =>
    unfold State.autoStartUpTo
    split
    · rename_i b rest ht hi hww
      have hb := hw b (by rw [hww]; simp)
      exact ih (State.HoldsOk.openPass h b (by rw [hb]; simp) (by rw [hb]; simp)) (State.WaitingClosed.openPass hw b)
    · exact h

/-- The automatic start keeps the law of the holds. -/
theorem State.HoldsOk.autoStart {s : State} (h : State.HoldsOk s) (hw : State.WaitingClosed s) : State.HoldsOk s.autoStart := State.HoldsOk.autoStartUpTo _ h hw

/-- The close of a visit without lanes keeps the law of the holds. -/
theorem State.HoldsOk.closeVisit {s : State} (h : State.HoldsOk s) (hw : State.WaitingClosed s) (h0 : s.lanesInto s.visit.bank = 0) : State.HoldsOk s.closeVisit := by
  unfold State.closeVisit State.joinWaiting
  dsimp only
  refine State.HoldsOk.autoStart ?_ ?_
  · exact State.HoldsOk.of_eq (s := s.updBank s.visit.bank fun k => { k with state := .closed }) (State.HoldsOk.updBank h _ _ rfl (Or.inr h0)) rfl rfl
  · intro b hb
    have hb' : b ∈ s.resolve.waiting ++ [s.visit.bank] := hb
    show ((s.updBank s.visit.bank fun k => { k with state := .closed }).bank b).state = _
    have : (s.updBank s.visit.bank fun k => { k with state := .closed }).bank b = if s.visit.bank = b then { s.bank s.visit.bank with state := .closed } else s.bank b := by simp [State.bank]
    rw [this]; split
    · rfl
    · rename_i hne
      simp [Ne.symm hne] at hb'
      exact hw b hb'

/-- The law of the counts goes on where taken rows, lanes and counts stay. -/
theorem State.CountsOk.same {s u : State} (h : State.CountsOk s) (hp : ∀ p, (u.ports.nth p).taken = (s.ports.nth p).taken) (hl : u.cal.lanes = s.cal.lanes) (hi : u.intake.inFlight = s.intake.inFlight)
   (hv : u.visit.inFlight = s.visit.inFlight) (hs : u.visit.state = s.visit.state) : State.CountsOk u := by
  have hr : ∀ t p, u.rowsHeld t p = s.rowsHeld t p := by
    intro t p; unfold State.rowsHeld State.lane State.port; rw [hp, hl]
  have hf : ∀ t, u.inFlight t = s.inFlight t := by intro t; unfold State.inFlight; rw [hi]
  refine ⟨fun t => ?_, ?_, ?_⟩
  · rw [hf, h.1 t]; congr 1; exact List.map_congr_left fun p _ => (hr t p).symm
  · rw [hv, h.2.1]; congr 1; exact List.map_congr_left fun t _ => (hf t).symm
  · rw [hs, hv]; exact h.2.2

/-- A sum is 0 when every term is. -/
theorem sum_eq_zero_iff {α} (l : List α) (f : α → Nat) : (l.map f).sum = 0 ↔ ∀ a ∈ l, f a = 0 := by
  induction l with
  | nil => simp
  | cons a l ih => simp [ih]

/-- With no row in flight no port holds a counted row. -/
theorem State.CountsOk.rowsHeld_zero {s : State} (h : State.CountsOk s) (h0 : s.visit.inFlight = 0) (t p) : s.rowsHeld t p = 0 := by
  have := h.2.1
  rw [h0] at this
  have h2 := (sum_eq_zero_iff _ _).1 this.symm t (List.mem_finRange t)
  rw [h.1 t] at h2
  exact (sum_eq_zero_iff _ _).1 h2 p (mem_allPorts p)

/-- With no row in flight no lane counts. -/
theorem State.CountsOk.not_counting {s : State} (h : State.CountsOk s) (h0 : s.visit.inFlight = 0) (p l) (hl : s.lane p = some l) : l.context.counting = false := by
  have := State.CountsOk.rowsHeld_zero h h0 l.tile p
  unfold State.rowsHeld at this
  rw [hl] at this
  have h2 : (laneCounts l.tile (some l)).toNat = 0 := by omega
  simpa [laneCounts] using h2

/-- With no row in flight no row waits for its lane. -/
theorem State.CountsOk.no_taken {s : State} (h : State.CountsOk s) (h0 : s.visit.inFlight = 0) (p) : (s.port p).taken = [] := by
  cases ht : (s.port p).taken with
  | nil => rfl
  | cons w rest =>
    have := State.CountsOk.rowsHeld_zero h h0 w.tile p
    unfold State.rowsHeld at this
    rw [ht] at this
    simp at this

/-- With no row in flight no lane deposits into a FILLING bank. -/
theorem State.FlightOk.lanesInto {s : State} (h : s.FlightOk) (h0 : s.visit.inFlight = 0) (b) (hb : (s.bank b).state = .filling) : s.lanesInto b = 0 := by
  rw [State.flightOk_iff] at h
  rw [lanesInto_eq_zero]
  intro p l hl e
  have h1 := h.2.2 p l hl
  rw [State.CountsOk.not_counting h.1 h0 p l hl, e, hb] at h1
  simp at h1

/-- The flight law goes on where everything that it reads stays. -/
theorem State.FlightOk.same {s u : State} (h : s.FlightOk) (hp : ∀ p, (u.ports.nth p).taken = (s.ports.nth p).taken) (hl : u.cal.lanes = s.cal.lanes) (hi : u.intake.inFlight = s.intake.inFlight)
   (hv : u.visit.inFlight = s.visit.inFlight) (hs : u.visit.state = s.visit.state) (hc : u.canvas = s.canvas) : u.FlightOk := by
  rw [State.flightOk_iff] at *
  exact ⟨State.CountsOk.same h.1 hp hl hi hv hs, State.HoldsOk.of_eq h.2 hl hc⟩

/-- The flight law goes on where ports, lanes, visit and banks stay. -/
theorem State.FlightOk.of_eq {s u : State} (h : s.FlightOk) (hp : u.ports = s.ports) (hl : u.cal.lanes = s.cal.lanes) (hi : u.intake.inFlight = s.intake.inFlight)
   (hv : u.visit = s.visit) (hc : u.canvas = s.canvas) : u.FlightOk := State.FlightOk.same h (by simp [hp]) hl hi (by rw [hv]) (by rw [hv]) hc

/-- The close of a visit with no row in flight keeps the flight law. -/
theorem State.FlightOk.closeVisit {s : State} (h : s.FlightOk) (hw : State.WaitingClosed s) (h0 : s.visit.inFlight = 0) (hf : (s.bank s.visit.bank).state = .filling) : s.closeVisit.FlightOk := by
  have hn := State.FlightOk.lanesInto h h0 _ hf
  rw [State.flightOk_iff] at *
  refine ⟨?_, State.HoldsOk.closeVisit h.2 hw hn⟩
  have hv : s.closeVisit.visit = { s.visit with state := .noVisit, records := s.visit.records.put s.visit.bank (some ⟨s.visit.tag, s.visit.snapsDone⟩), counter := bump s.visit.counter } := by
    unfold State.closeVisit; simp
  obtain ⟨c1,c2,c3⟩ := h.1
  have hr : ∀ t p, s.closeVisit.rowsHeld t p = s.rowsHeld t p := by
    intro t p; unfold State.rowsHeld State.lane State.port; simp
  have hi : ∀ t, s.closeVisit.inFlight t = s.inFlight t := by intro t; unfold State.inFlight; simp
  refine ⟨fun t => ?_, ?_, fun _ => ?_⟩
  · rw [hi, c1 t]; congr 1; exact List.map_congr_left fun p _ => (hr t p).symm
  · rw [hv]; show s.visit.inFlight = _
    rw [c2]; congr 1; exact List.map_congr_left fun t _ => (hi t).symm
  · rw [hv]; exact h0

/-- While a snap is open the visit is in it, and its bank is FILLING (R101). -/
theorem State.BanksOk.inSnap {s : State} (hb : s.BanksOk) (ho : s.snapOpen = true) : s.visit.state = .inSnap ∧ (s.bank s.visit.bank).state = .filling := by
  have h1 := hb.1.1
  have hv : s.visit.state = .inSnap := by
    simp [State.snapOpen] at ho
    revert h1
    rcases ho with h | h <;> rw [h] <;> cases s.visit.state <;> simp [pairAllowed]
  exact ⟨hv, (hb.1.2.1 _).2 ⟨by rw [hv]; simp, rfl⟩⟩

/-- The judgement of a snap keeps the flight law. -/
theorem State.FlightOk.judgeSnap {s : State} (h : s.FlightOk) (hb : s.BanksOk) : s.judgeSnap.FlightOk := by
  unfold State.judgeSnap
  split
  · rename_i hc
    simp [State.snapComplete] at hc
    obtain ⟨hi, hf⟩ := State.BanksOk.inSnap hb hc.1.1
    have hns : State.WaitingClosed s := State.BanksOk.waitingClosed hb
    unfold State.finishSnap
    dsimp only
    split
    · refine State.FlightOk.closeVisit ?_ hns hc.2 hf
      exact State.FlightOk.same h (fun _ => rfl) rfl rfl rfl rfl rfl
    · have h2 := (State.flightOk_iff s).1 h
      rw [State.flightOk_iff]
      refine ⟨⟨h2.1.1, h2.1.2.1, fun _ => hc.2⟩, h2.2⟩
  · exact h

/-- The four ingress ports. -/
theorem port_cases (p : PortId) : p = 0 ∨ p = 1 ∨ p = 2 ∨ p = 3 := by revert p; decide

/-- A sum over the ports. -/
theorem sum_allPorts (f : PortId → Nat) : (allPorts.map f).sum = f 0 + f 1 + f 2 + f 3 := by simp [allPorts]; omega

/-- A sum over the ports in which one term changes. -/
theorem sum_allPorts_upd (f g : PortId → Nat) (p : PortId) (h : ∀ q, q ≠ p → g q = f q) : (allPorts.map g).sum + f p = (allPorts.map f).sum + g p := by
  rw [sum_allPorts, sum_allPorts]
  rcases port_cases p with rfl | rfl | rfl | rfl <;> simp [h] <;> omega

/-- A sum over a list without repetition in which one term changes. -/
theorem sum_upd (l : List TileId) (hn : l.Nodup) (f g : TileId → Nat) (t : TileId) (hm : t ∈ l) (h : ∀ q, q ≠ t → g q = f q) : (l.map g).sum + f t = (l.map f).sum + g t := by
  induction l with
  | nil => simp at hm
  | cons a l ih =>
    simp only [List.map_cons, List.sum_cons]
    rw [List.nodup_cons] at hn
    by_cases e : a = t
    · subst e
      have : l.map g = l.map f := by
        apply List.map_congr_left; intro q hq; apply h; intro e; subst e; exact hn.1 hq
      rw [this]; omega
    · rw [h a e]
      have hm' : t ∈ l := by
        rcases List.mem_cons.1 hm with h | h
        · exact absurd h.symm e
        · exact h
      have := ih hn.2 hm'
      omega

/-- The tiles are listed once. -/
theorem nodup_finRange16 : (List.finRange 16).Nodup := by decide

/-- A sum over the tiles in which one term changes. -/
theorem sum_tiles_upd (f g : TileId → Nat) (t : TileId) (h : ∀ q, q ≠ t → g q = f q) : ((List.finRange 16).map g).sum + f t = ((List.finRange 16).map f).sum + g t :=
  sum_upd _ nodup_finRange16 f g t (List.mem_finRange t) h

/-- The lanes of a bank as a sum. -/
theorem lanesInto_sum (s : State) (b) : s.lanesInto b = (allPorts.map fun p => (laneBoundTo b (s.lane p)).toNat).sum := by
  unfold State.lanesInto
  rw [sum_allPorts]
  simp only [allPorts, List.countP_cons, List.countP_nil]
  cases laneBoundTo b (s.lane 0) <;> cases laneBoundTo b (s.lane 1) <;> cases laneBoundTo b (s.lane 2) <;> cases laneBoundTo b (s.lane 3) <;> rfl

/-- The lanes after one is set. -/
theorem lane_setLane (s : State) (p q : PortId) (l) : (s.setLane p l).lane q = if p = q then l else s.lane q := by simp [State.lane]

/-- The lanes of a bank when one lane changes. -/
theorem lanesInto_upd {s u : State} (p : PortId) (b) (h : ∀ q, q ≠ p → u.lane q = s.lane q) :
   u.lanesInto b + (laneBoundTo b (s.lane p)).toNat = s.lanesInto b + (laneBoundTo b (u.lane p)).toNat := by
  rw [lanesInto_sum, lanesInto_sum]
  exact sum_allPorts_upd (fun q => (laneBoundTo b (s.lane q)).toNat) (fun q => (laneBoundTo b (u.lane q)).toNat) p (fun q hq => by simp [h q hq])

/-- A taken row waits only in a snap. -/
theorem State.CountsOk.inSnap {s : State} (h : State.CountsOk s) (p) (w rest) (ht : (s.port p).taken = w :: rest) : s.visit.state = .inSnap := by
  by_cases hv : s.visit.state = .inSnap
  · exact hv
  · have := State.CountsOk.no_taken h (h.2.2 hv) p
    rw [ht] at this; simp at this

/-- A change of a port that keeps its taken rows keeps every port's. -/
theorem updPort_taken (s : State) (p) (f : Port → Port) (hf : ∀ q, (f q).taken = q.taken) : ∀ q, ((s.updPort p f).ports.nth q).taken = (s.ports.nth q).taken := by
  intro q; simp; split
  · rename_i e; subst e; exact hf _
  · rfl

/-- Serving a return lane keeps the taken rows. -/
theorem serveLane_taken (s : State) (p) : ∀ q, ((s.serveLane p).ports.nth q).taken = (s.ports.nth q).taken := by
  unfold State.serveLane
  (repeat' split) <;> first | exact fun _ => rfl | exact updPort_taken _ _ _ fun _ => rfl

/-- Composing a response keeps the taken rows. -/
theorem composeRsp_taken (s : State) (p c r a d) : ∀ q, ((s.composeRsp p c r a d).ports.nth q).taken = (s.ports.nth q).taken := by
  unfold State.composeRsp
  (repeat' split) <;> exact updPort_taken _ _ _ fun _ => rfl

/-- A response keeps the taken rows. -/
theorem respond_taken (s : State) (p f a d) : ∀ q, ((s.respond p f a d).ports.nth q).taken = (s.ports.nth q).taken := by
  intro q; unfold State.respond; rw [serveLane_taken]
  generalize hc : s.composeRsp p f.code f.request a d = u
  rw [← composeRsp_taken s p f.code f.request a d q, hc]
  exact updPort_taken u p (fun q => { q with queue := q.queue.tail }) (fun _ => rfl) q

/-- The start of a row keeps the flight law (R75, R87). -/
theorem State.FlightOk.startRow {s : State} (h : s.FlightOk) (hb : s.BanksOk) (p w rest q) (hl : s.lane p = none) (ht : (s.port p).taken = w :: rest) : (s.startRow p w rest q).FlightOk := by
  rw [State.flightOk_iff] at *
  have hin := State.CountsOk.inSnap h.1 p w rest ht
  have hfill : (s.bank s.visit.bank).state = .filling := (hb.1.2.1 _).2 ⟨by rw [hin]; simp, rfl⟩
  obtain ⟨c1,c2,c3⟩ := h.1
  obtain ⟨d1,d2⟩ := h.2
  generalize hu : s.startRow p w rest q = u
  have hlane : ∃ l, l.tile = w.tile ∧ l.context.counting = true ∧ l.context.bank = s.visit.bank ∧ ∀ r, u.lane r = if p = r then some l else s.lane r := by
    refine ⟨s.startedLane w q (settleBias (s.seg w.tile w.seg) (s.cal.bias.nth (segIndex w.tile w.seg)) (rowBias (s.seg w.tile w.seg) w.samples)).2, rfl, rfl, rfl, fun r => ?_⟩
    rw [← hu]; simp [State.startRow, State.lane]
  obtain ⟨l, hl1, hl2, hl3, hl4⟩ := hlane
  have htak : ∀ r, (u.port r).taken = if p = r then rest else (s.port r).taken := by
    intro r; rw [← hu]; simp [State.startRow, State.port]; split <;> simp_all
  have hi : ∀ t, u.inFlight t = s.inFlight t := by intro t; rw [← hu]; simp [State.startRow, State.inFlight]
  have hv : u.visit = s.visit := by rw [← hu]; simp
  have hbank : ∀ c, u.bank c = if s.visit.bank = c then { s.bank s.visit.bank with depositHolds := (s.bank s.visit.bank).depositHolds + 1 } else s.bank c := by
    intro c; rw [← hu]; simp [State.startRow, State.bank]
  have hheld : ∀ t r, u.rowsHeld t r = s.rowsHeld t r := by
    intro t r
    unfold State.rowsHeld
    rw [htak, hl4]; split
    · rename_i e; subst e
      rw [hl, ht]
      simp [laneCounts, hl1, hl2, List.countP_cons]
      split <;> simp_all
    · rfl
  refine ⟨⟨fun t => ?_, ?_, ?_⟩, fun b => ?_, fun r l2 hr => ?_⟩
  · rw [hi, c1 t]; congr 1; exact List.map_congr_left fun r _ => (hheld t r).symm
  · rw [hv, c2]; congr 1; exact List.map_congr_left fun t _ => (hi t).symm
  · rw [hv]; exact c3
  · have := lanesInto_upd (s := s) (u := u) p b (fun r hr => by rw [hl4]; simp [Ne.symm hr])
    rw [hl, hl4] at this
    simp [laneBoundTo, hl3] at this
    rw [hbank]; split
    · rename_i e; subst e
      show (s.bank s.visit.bank).depositHolds + 1 = _
      rw [d1]; simp only [beq_self_eq_true, Bool.toNat_true] at this; omega
    · rename_i e
      rw [d1]; simp only [beq_eq_false_iff_ne.2 e, Bool.toNat_false] at this; omega
  · have hst : ∀ c, (u.bank c).state = (s.bank c).state := by
      intro c; rw [hbank]; split
      · rename_i e; subst e; rfl
      · rfl
    rw [hst]
    rw [hl4] at hr
    split at hr
    · simp at hr; subst hr; rw [hl3, hl2]; exact hfill
    · exact d2 r l2 hr

/-- A pixel leaves lanes, visit and ports. -/
theorem depositPixel_calVisitPorts (s : State) (l a f) : (s.depositPixel l a f).cal = s.cal ∧ (s.depositPixel l a f).visit = s.visit ∧ (s.depositPixel l a f).ports = s.ports := by simp

/-- A deposit leaves the counts, the bank states and the holds. -/
theorem depositTarget_flight (x : Context) (t k) (s : State) (g) : (State.depositTarget x t k s g).intake.inFlight = s.intake.inFlight ∧ ∀ b, ((State.depositTarget x t k s g).bank b).state = (s.bank b).state ∧ ((State.depositTarget x t k s g).bank b).depositHolds = (s.bank b).depositHolds := by
  unfold State.depositTarget
  dsimp only
  (repeat' split)
  · exact ⟨rfl, fun _ => ⟨rfl, rfl⟩⟩
  · refine ⟨by simp, fun b => ?_⟩
    simp [State.bank]; split
    · rename_i e; subst e; simp
    · simp
  · exact ⟨rfl, fun _ => ⟨rfl, rfl⟩⟩
  · exact ⟨rfl, fun _ => ⟨rfl, rfl⟩⟩

/-- A pixel leaves the counts, the bank states and the holds. -/
theorem depositPixel_flight (s : State) (l a f) : (s.depositPixel l a f).intake.inFlight = s.intake.inFlight ∧ ∀ b, ((s.depositPixel l a f).bank b).state = (s.bank b).state ∧ ((s.depositPixel l a f).bank b).depositHolds = (s.bank b).depositHolds := by
  unfold State.depositPixel
  dsimp only
  have h0 : (s.countPixel l.context l.tile (l.pixel a f)).intake.inFlight = s.intake.inFlight ∧ ∀ b, ((s.countPixel l.context l.tile (l.pixel a f)).bank b).state = (s.bank b).state ∧ ((s.countPixel l.context l.tile (l.pixel a f)).bank b).depositHolds = (s.bank b).depositHolds := by
    unfold State.countPixel; split <;> exact ⟨rfl, fun _ => ⟨rfl, rfl⟩⟩
  generalize s.countPixel l.context l.tile (l.pixel a f) = u at h0
  generalize l.context.placement.targets (l.seg.column l.next) (l.seg.tileRow l.row) = ts
  induction ts generalizing u with
  | nil => exact h0
  | cons g rest ih =>
    refine ih _ ?_
    have := depositTarget_flight l.context l.tile (l.pixel a f) u g
    exact ⟨this.1.trans h0.1, fun b => ⟨(this.2 b).1.trans (h0.2 b).1, (this.2 b).2.trans (h0.2 b).2⟩⟩

/-- A pixel keeps the flight law. -/
theorem State.FlightOk.depositPixel {s : State} (h : s.FlightOk) (l a f) : (s.depositPixel l a f).FlightOk := by
  rw [State.flightOk_iff] at *
  exact ⟨State.CountsOk.same h.1 (by simp) (by simp) (depositPixel_flight s l a f).1 (by simp) (by simp), State.HoldsOk.same h.2 (by simp) (fun b => ⟨((depositPixel_flight s l a f).2 b).2, ((depositPixel_flight s l a f).2 b).1⟩)⟩

/-- A lane that goes on with the same row keeps the flight law. -/
theorem State.FlightOk.setLane {s : State} (h : s.FlightOk) (p l l1) (hl : s.lane p = some l) (h1 : l1.tile = l.tile) (h2 : l1.context = l.context) : (s.setLane p (some l1)).FlightOk := by
  rw [State.flightOk_iff] at *
  obtain ⟨c1,c2,c3⟩ := h.1
  obtain ⟨d1,d2⟩ := h.2
  have hh : ∀ t r, (s.setLane p (some l1)).rowsHeld t r = s.rowsHeld t r := by
    intro t r
    unfold State.rowsHeld
    rw [lane_setLane]; split
    · rename_i e; subst e; rw [hl]; simp [laneCounts, h1, h2, State.port]
    · rfl
  refine ⟨⟨fun t => ?_, c2, c3⟩, fun b => ?_, fun r l2 hr => ?_⟩
  · show s.inFlight t = _
    rw [c1 t]; congr 1; exact List.map_congr_left fun r _ => (hh t r).symm
  · have := lanesInto_upd (s := s) (u := s.setLane p (some l1)) p b (fun r hr => by rw [lane_setLane]; simp [Ne.symm hr])
    rw [lane_setLane, hl] at this
    simp [laneBoundTo, h2] at this
    show (s.bank b).depositHolds = _
    rw [d1]; omega
  · show (s.bank _).state = _
    rw [lane_setLane] at hr
    split at hr
    · simp at hr; subst hr; rw [h2]; exact d2 p l hl
    · exact d2 r l2 hr

/-- A lane that is freed with its hold keeps the law of the holds, and its port holds one counted row less if the row counts. -/
theorem State.FlightOk.freeLane {s : State} (h : s.FlightOk) (p) (l l' : Lane) (hl : s.lane p = some l) (ht : l'.tile = l.tile) (hc : l'.context = l.context) :
   let u := ((s.setLane p none).updBank l'.context.bank fun k => { k with depositHolds := k.depositHolds - 1 })
   State.HoldsOk u ∧ (∀ t r, (u.rowsHeld t r + if r = p then (laneCounts t (some l)).toNat else 0) = s.rowsHeld t r) := by
  rw [State.flightOk_iff] at h
  obtain ⟨d1,d2⟩ := h.2
  rw [hc]
  intro u
  have hlane : ∀ r, u.lane r = if p = r then none else s.lane r := fun r => lane_setLane s p r none
  have hbank : ∀ c, u.bank c = if l.context.bank = c then { s.bank l.context.bank with depositHolds := (s.bank l.context.bank).depositHolds - 1 } else s.bank c := by
    intro c; simp [u, State.bank]
  refine ⟨⟨fun b => ?_, fun r l2 hr => ?_⟩, fun t r => ?_⟩
  · have := lanesInto_upd (s := s) (u := u) p b (fun r hr => by rw [hlane]; simp [Ne.symm hr])
    rw [hlane, hl] at this
    simp [laneBoundTo] at this
    rw [hbank]; split
    · rename_i e; subst e
      show (s.bank l.context.bank).depositHolds - 1 = _
      rw [d1]; simp only [beq_self_eq_true, Bool.toNat_true] at this; omega
    · rename_i e
      rw [d1]; simp only [beq_eq_false_iff_ne.2 e, Bool.toNat_false] at this; omega
  · rw [hlane] at hr
    split at hr
    · simp at hr
    · rw [hbank]; split
      · rename_i e; rw [← d2 r l2 hr, ← e]
      · exact d2 r l2 hr
  · unfold State.rowsHeld
    rw [hlane]
    by_cases e : p = r
    · subst e; rw [hl]; simp [laneCounts]; rfl
    · simp [e, Ne.symm e]; rfl

/-- A settled tile keeps the flight law. -/
theorem State.FlightOk.settleTile {s : State} (h : s.FlightOk) (t) : (s.settleTile t).FlightOk := by
  refine State.FlightOk.same h (by simp) (by simp) ?_ (by simp) (by simp) (by simp)
  unfold State.settleTile; (repeat' split) <;> rfl

/-- The end of a row keeps the flight law (R28, R93, R107). -/
theorem State.FlightOk.endRow {s : State} (h : s.FlightOk) (hb : s.BanksOk) (p) (l l' : Lane) (hl : s.lane p = some l) (ht : l'.tile = l.tile) (hc : l'.context = l.context) : (s.endRow p l').FlightOk := by
  obtain ⟨hh, hr⟩ := State.FlightOk.freeLane h p l l' hl ht hc
  have hk := State.HoldsOk.leaveRetiring hh l'.context.bank
  have h1 : (((s.setLane p none).updBank l'.context.bank fun k => { k with depositHolds := k.depositHolds - 1 }).leaveRetiring l'.context.bank).BanksOk := by
    refine State.BanksOk.leaveRetiring ?_ _
    refine State.BanksOk.updBank ?_ _ _ (fun _ => rfl) (fun _ => rfl)
    exact hb.of_eq rfl rfl rfl rfl
  unfold State.endRow
  dsimp only at *
  generalize hv : ((s.setLane p none).updBank l'.context.bank fun k => { k with depositHolds := k.depositHolds - 1 }) = v at *
  have v1 : v.visit = s.visit := by rw [← hv]; simp
  have v2 : v.intake = s.intake := by rw [← hv]; simp
  generalize hu : v.leaveRetiring l'.context.bank = u at *
  have u1 : u.visit = s.visit := by rw [← hu]; simp [v1]
  have u2 : u.intake = s.intake := by rw [← hu]; simp [v2]
  have u3 : ∀ t r, u.rowsHeld t r = v.rowsHeld t r := by
    intro t r; rw [← hu]; unfold State.rowsHeld State.lane State.port; simp
  have hf : ∀ t, u.inFlight t = s.inFlight t := by intro t; unfold State.inFlight; rw [u2]
  obtain ⟨⟨c1,c2,c3⟩, d⟩ := (State.flightOk_iff s).1 h
  have sumr : ∀ t, (allPorts.map (u.rowsHeld t)).sum + (laneCounts t (some l)).toNat = s.inFlight t := by
    intro t
    rw [c1 t]
    have := sum_allPorts_upd (s.rowsHeld t) (u.rowsHeld t) p (fun q hq => by rw [u3]; have := hr t q; simpa [hq] using this)
    have h2 := hr t p
    rw [if_pos rfl] at h2
    rw [u3] at this
    omega
  have serve : ∀ {x : State}, x.FlightOk → (x.serveLane p).FlightOk := fun hx => State.FlightOk.same hx (serveLane_taken _ p) (by simp) (by simp) (by simp) (by simp) (by simp)
  refine serve ?_
  rw [hc, ht]
  split
  · rename_i hcount
    unfold State.uncountRow
    refine State.FlightOk.judgeSnap (State.FlightOk.settleTile ?_ _) ?_
    · rw [State.flightOk_iff]
      refine ⟨⟨fun t => ?_, ?_, fun hs => ?_⟩, ?_⟩
      · have e1 := sumr t
        simp [laneCounts, hcount] at e1
        have e2 : ∀ x : State, x.inFlight t = x.intake.inFlight.nth t := fun _ => rfl
        rw [e2]
        simp only [State.setInFlight, Tab.nth_put]
        show (if l.tile = t then _ else _) = (allPorts.map (u.rowsHeld t)).sum
        split
        · rename_i e; subst e; rw [hf]; simp only [beq_self_eq_true, Bool.toNat_true] at e1; omega
        · rename_i e; simp only [beq_eq_false_iff_ne.2 e, Bool.toNat_false] at e1; have : u.intake.inFlight.nth t = s.inFlight t := hf t; omega
      · show u.visit.inFlight - 1 = _
        rw [u1, c2]
        have e3 := sum_tiles_upd s.inFlight (fun t => if l.tile = t then s.inFlight l.tile - 1 else s.inFlight t) l.tile (fun q hq => by simp [Ne.symm hq])
        simp at e3
        have e4 : 1 ≤ s.inFlight l.tile := by
          have := sumr l.tile
          simp [laneCounts, hcount] at this; omega
        have e5 : (List.map (State.inFlight { u.setInFlight l.tile (u.inFlight l.tile - 1) with visit := { (u.setInFlight l.tile (u.inFlight l.tile - 1)).visit with inFlight := (u.setInFlight l.tile (u.inFlight l.tile - 1)).visit.inFlight - 1 } }) (List.finRange 16)) = (List.map (fun t => if l.tile = t then s.inFlight l.tile - 1 else s.inFlight t) (List.finRange 16)) := by
          apply List.map_congr_left
          intro t _
          have := hf t
          have h6 := hf l.tile
          simp [State.inFlight] at this h6 ⊢
          rw [this, h6]
        rw [e5]; omega
      · show u.visit.inFlight - 1 = 0
        rw [u1, c3 (by rw [← u1]; exact hs)]
      · exact State.HoldsOk.same hk rfl (fun _ => ⟨rfl, rfl⟩)
    · refine State.BanksOk.settleTile ?_ _
      exact h1.congr ⟨rfl,rfl,rfl,rfl⟩ (fun _ => ⟨rfl,rfl⟩) ⟨rfl,rfl,rfl,Iff.rfl,rfl⟩ Iff.rfl
  · rename_i hcount
    rw [State.flightOk_iff]
    refine ⟨⟨fun t => ?_, ?_, ?_⟩, hk⟩
    · have := sumr t
      simp [laneCounts, hcount] at this
      rw [hf]; exact this.symm
    · rw [u1, c2]; congr 1; exact List.map_congr_left fun t _ => (hf t).symm
    · rw [u1]; exact c3

/-- A lane's next pixel keeps the flight law. -/
theorem State.FlightOk.nextPixel {s : State} (h : s.FlightOk) (hb : s.BanksOk) (p) (l : Lane) (hl : s.lane p = some l) : (s.nextPixel p l).FlightOk := by
  unfold State.nextPixel
  split
  · exact State.FlightOk.endRow h hb p l l hl rfl rfl
  · rename_i a f rest _
    have h1 := State.FlightOk.depositPixel h l a f
    have hl1 : (s.depositPixel l a f).lane p = some l := by unfold State.lane; simpa [State.lane] using hl
    dsimp only
    split
    · exact State.FlightOk.endRow h1 (State.BanksOk.depositPixel hb _ _ _) p l _ hl1 rfl rfl
    · exact State.FlightOk.setLane h1 p l _ hl1 rfl rfl

/-- A taken row keeps the flight law (R27, R107). -/
theorem State.FlightOk.keepRow {s : State} (h : s.FlightOk) (hin : s.visit.state = .inSnap) (p hd t g sm) : (s.keepRow p hd t g sm).FlightOk := by
  obtain ⟨⟨c1,c2,c3⟩, d⟩ := (State.flightOk_iff s).1 h
  rw [State.flightOk_iff]
  generalize hu : s.keepRow p hd t g sm = u
  have htak : ∀ r, (u.port r).taken = if p = r then (s.port p).taken ++ [⟨t, g, hd.row.toNat, s.visit.slot, sm⟩] else (s.port r).taken := by
    intro r; rw [← hu]; simp [State.keepRow, State.port]; split
    · rename_i e; subst e; rfl
    · rfl
  have hlane : ∀ r, u.lane r = s.lane r := by intro r; rw [← hu]; rfl
  have hheld : ∀ t' r, u.rowsHeld t' r = s.rowsHeld t' r + if r = p then (if t = t' then 1 else 0) else 0 := by
    intro t' r
    unfold State.rowsHeld
    rw [htak, hlane]
    by_cases e : p = r
    · subst e
      simp only [if_true, List.countP_append, List.countP_cons, List.countP_nil]
      by_cases e2 : t = t'
      · subst e2; simp only [beq_self_eq_true, if_true]; omega
      · simp only [beq_eq_false_iff_ne.2 e2, e2, if_false]; simp
    · simp [e, Ne.symm e]
  have hi : ∀ t', u.inFlight t' = if t = t' then s.inFlight t + 1 else s.inFlight t' := by
    intro t'; rw [← hu]; simp [State.keepRow, State.inFlight]
  refine ⟨⟨fun t' => ?_, ?_, fun hs => ?_⟩, ?_⟩
  · have := sum_allPorts_upd (s.rowsHeld t') (u.rowsHeld t') p (fun q hq => by rw [hheld]; simp [hq])
    rw [hheld, if_pos rfl, ← c1 t'] at this
    rw [hi]; split
    · rename_i e; subst e; simp at this; omega
    · rename_i e; simp [e] at this; omega
  · have e3 := sum_tiles_upd s.inFlight u.inFlight t (fun q hq => by rw [hi]; simp [Ne.symm hq])
    rw [hi, if_pos rfl] at e3
    have : u.visit.inFlight = s.visit.inFlight + 1 := by rw [← hu]; rfl
    omega
  · have : u.visit.state = s.visit.state := by rw [← hu]; rfl
    rw [this, hin] at hs; simp at hs
  · rw [← hu]; exact State.HoldsOk.same d rfl (fun _ => ⟨rfl, rfl⟩)

/-- A header of the open snap means that a snap is open. -/
theorem ofOpenSnap_open {s : State} {hd} (h : ¬ s.ofOpenSnap hd = false) : s.snapOpen = true := by
  simp [State.ofOpenSnap] at h
  exact h.1

/-- Accounting for a row keeps the flight law. -/
theorem State.FlightOk.accountRow {s : State} (h : s.FlightOk) (t g r d) : (s.accountRow t g r d).FlightOk :=
  State.FlightOk.of_eq h (by simp) (by simp) (by unfold State.accountRow; rfl) (by simp) (by simp)

/-- A flag keeps the flight law. -/
theorem State.FlightOk.markTile {s : State} (h : s.FlightOk) (t f) : (s.markTile t f).FlightOk :=
  State.FlightOk.of_eq h (by simp) (by simp) rfl (by simp) (by simp)

/-- A counter keeps the flight law. -/
theorem State.FlightOk.count {s : State} (h : s.FlightOk) (p f) : (s.count p f).FlightOk :=
  State.FlightOk.same h (updPort_taken _ _ _ fun _ => rfl) (by simp) (by simp) (by simp) (by simp) (by simp)

/-- An arrival keeps the flight law. -/
theorem State.FlightOk.arrive {s : State} (h : s.FlightOk) (hb : s.BanksOk) (p hd c sm) : (s.arrive p hd c sm).FlightOk := by
  unfold State.arrive
  split
  · exact State.FlightOk.count h _ _
  · rename_i t g _
    refine State.FlightOk.judgeSnap ?_ (State.BanksOk.applyDecision hb _ _ _ _ _ _)
    have hin : s.decision hd c t g = .taken → s.visit.state = .inSnap := by
      intro hd'
      unfold State.decision at hd'
      (repeat' split at hd') <;> try simp at hd'
      exact (State.BanksOk.inSnap hb (ofOpenSnap_open (by assumption))).1
    generalize s.decision hd c t g = d at hin
    unfold State.applyDecision
    cases d <;> dsimp only
    · exact State.FlightOk.count h _ _
    · split
      · exact State.FlightOk.count h _ _
      · exact State.FlightOk.markTile (State.FlightOk.count h _ _) _ _
    · exact State.FlightOk.markTile h _ _
    · exact State.FlightOk.markTile h _ _
    · exact State.FlightOk.settleTile (State.FlightOk.markTile (State.FlightOk.accountRow h _ _ _ _) _ _) _
    · exact State.FlightOk.settleTile (State.FlightOk.markTile (State.FlightOk.accountRow h _ _ _ _) _ _) _
    · refine State.FlightOk.settleTile (State.FlightOk.keepRow (State.FlightOk.accountRow h _ _ _ _) ?_ _ _ _ _ _) _
      have : (s.accountRow t g hd.row.toNat false).visit = s.visit := by simp
      rw [this]; exact hin rfl

/-- Serving lanes keeps the taken rows. -/
theorem serveLanes_taken (l : List PortId) (s : State) : ∀ q, ((l.foldl State.serveLane s).ports.nth q).taken = (s.ports.nth q).taken := by
  induction l generalizing s with
  | nil => exact fun _ => rfl
  | cons a l ih => intro q; exact (ih _ q).trans (serveLane_taken s a q)

/-- Serving every lane keeps the flight law. -/
theorem State.FlightOk.serveAll {s : State} (h : s.FlightOk) : s.serveAll.FlightOk :=
  State.FlightOk.same h (serveLanes_taken _ _) (by simp) (by simp) (by simp) (by simp) (by simp)

/-- With nothing taken, no lane counting and every count 0, the law of the counts holds. -/
theorem State.CountsOk.rest {u : State} (ht : ∀ r, (u.port r).taken = []) (hl : ∀ r l, u.lane r = some l → l.context.counting = false) (hi : ∀ t, u.inFlight t = 0) (hv : u.visit.inFlight = 0) : State.CountsOk u := by
  have hh : ∀ t r, u.rowsHeld t r = 0 := by
    intro t r
    unfold State.rowsHeld
    rw [ht r]
    cases hx : u.lane r with
    | none => simp [laneCounts]
    | some l => simp [laneCounts, hl r l hx]
  refine ⟨fun t => ?_, ?_, fun _ => hv⟩
  · rw [hi]; exact ((sum_eq_zero_iff _ _).2 fun r _ => hh t r).symm
  · rw [hv]; exact ((sum_eq_zero_iff _ _).2 fun t _ => hi t).symm

/-- VISIT_ABORT of the open visit keeps the flight law (R40, R96). -/
theorem State.FlightOk.abortVisit {s : State} (h : s.FlightOk) (hb : s.BanksOk) (b) (hf : (s.bank b).state = .filling) : (s.abortVisit b).FlightOk := by
  obtain ⟨c, ⟨d1,d2⟩⟩ := (State.flightOk_iff s).1 h
  have hvb := ((hb.1.2.1 b).1 hf).2
  unfold State.abortVisit
  simp only []
  generalize hu : State.mk _ _ _ _ _ _ _ _ _ _ _ _ = u
  have hlane : ∀ r, u.lane r = (s.lane r).map (Lane.abortedOn b) := by intro r; rw [← hu]; simp [State.lane, State.abortIntake]
  have hbank : ∀ k, u.bank k = s.bank k := by intro k; rw [← hu]; rfl
  have hcnt : ∀ r l, s.lane r = some l → (Lane.abortedOn b l).context.counting = false ∧ (Lane.abortedOn b l).context.bank = l.context.bank := by
    intro r l hl
    unfold Lane.abortedOn; split
    · exact ⟨rfl, rfl⟩
    · rename_i hne
      refine ⟨?_, rfl⟩
      have := d2 r l hl
      cases hc : l.context.counting with
      | false => rfl
      | true =>
        rw [hc] at this
        have := ((hb.1.2.1 _).1 this).2
        exact absurd (this.symm.trans hvb) hne
  have hlt : ∀ k, u.lanesInto k = s.lanesInto k := by
    intro k
    rw [lanesInto_sum, lanesInto_sum]; congr 1
    apply List.map_congr_left
    intro r _
    rw [hlane]
    cases hx : s.lane r with
    | none => rfl
    | some l => simp [laneBoundTo, (hcnt r l hx).2]
  refine State.FlightOk.serveAll ?_
  rw [State.flightOk_iff]
  constructor
  · have : State.CountsOk u := by
      refine State.CountsOk.rest ?_ ?_ ?_ ?_
      · intro r; rw [← hu]; simp [State.port, State.abortIntake]
      · intro r l hl; rw [hlane] at hl
        cases hx : s.lane r with
        | none => rw [hx] at hl; simp at hl
        | some l0 => rw [hx] at hl; simp at hl; rw [← hl]; exact (hcnt r l0 hx).1
      · intro t; rw [← hu]; simp [State.inFlight, State.abortIntake]
      · rw [← hu]
    exact State.CountsOk.same this (by simp) (by simp) (by simp) (by simp) (by simp)
  · unfold State.retire
    refine State.HoldsOk.leaveRetiring ?_ b
    have hbk : ∀ k, (u.updBank b fun k => { k with state := .retiring }).bank k = if b = k then { s.bank b with state := .retiring } else s.bank k := by
      intro k
      have : (u.updBank b fun k => { k with state := .retiring }).bank k = if b = k then { u.bank b with state := .retiring } else u.bank k := by simp [State.bank]
      rw [this, hbank, hbank]
    refine ⟨fun k => ?_, fun r l hl => ?_⟩
    · rw [hbk]; refine Eq.trans ?_ (lanesInto_congr (s := u) rfl k).symm; rw [hlt, ← d1 k]; split
      · rename_i e; subst e; rfl
      · rfl
    · have hl' : u.lane r = some l := hl
      rw [hlane] at hl'
      cases hx : s.lane r with
      | none => rw [hx] at hl'; simp at hl'
      | some l0 =>
        rw [hx] at hl'; simp at hl'
        obtain ⟨e1,e2⟩ := hcnt r l0 hx
        rw [hl'] at e1 e2
        rw [e1, e2, hbk]
        split
        · rfl
        · rename_i hne
          have h3 := d2 r l0 hx
          cases hc : l0.context.counting with
          | false => rw [hc] at h3; exact h3
          | true =>
            rw [hc] at h3
            exact absurd (((hb.1.2.1 _).1 h3).2.symm.trans hvb).symm hne

/-- What ENGINE_RESET does to a bank's hold, and to the bank of a lane (R82). -/
theorem restBank_flight {s : State} (b) (h1 : (s.bank b).depositHolds = s.lanesInto b) (h2 : ∀ p l, s.lane p = some l → l.context.bank = b → (s.bank b).state = .filling ∨ (s.bank b).state = .retiring) :
   (∀ c, b ≠ c → (s.restBank b).bank c = s.bank c) ∧ ((s.restBank b).bank b).depositHolds = s.lanesInto b ∧ ∀ p l, s.lane p = some l → l.context.bank = b → ((s.restBank b).bank b).state = .retiring := by
  have hp : ∀ p l, s.lane p = some l → l.context.bank = b → s.lanesInto b ≠ 0 := by
    intro p l hl hb h0
    exact (lanesInto_eq_zero s b).1 h0 p l hl hb
  refine ⟨(restBank_bank s b).1, ?_, ?_⟩
  · rw [← h1]
    unfold State.restBank State.leaveRetiring State.startScrub
    (repeat' split) <;> simp [State.bank]
  · intro p l hl hb
    have hn : (s.bank b).depositHolds ≠ 0 := by rw [h1]; exact hp p l hl hb
    have hs := h2 p l hl hb
    unfold State.restBank
    have : ∀ u : State, (u.bank b).depositHolds ≠ 0 → u.leaveRetiring b = u := by
      intro u hu; unfold State.leaveRetiring; rw [if_neg]; intro hc; exact hu hc.2.1
    rcases hs with hs | hs
    · rw [if_pos (by rw [hs]; rfl), this _ (by simpa [State.bank] using hn)]
      simp [State.bank]
    · rw [if_neg (by rw [hs]; simp [BankState.holdsVisit]), this _ hn]; exact hs

/-- ENGINE_RESET keeps the flight law (R42, R97). -/
theorem State.FlightOk.engineRest {s : State} (h : s.FlightOk) : s.engineRest.FlightOk := by
  obtain ⟨c, ⟨d1,d2⟩⟩ := (State.flightOk_iff s).1 h
  unfold State.engineRest
  simp only []
  generalize hu : State.mk _ _ _ _ _ _ _ _ _ _ _ _ = u
  have hlane : ∀ r, u.lane r = (s.lane r).map Lane.uncounted := by
    intro r; rw [← hu]; simp [State.lane, Calibration.rest]
  have hbank : ∀ k, (u.bank k).depositHolds = (s.bank k).depositHolds ∧ (u.bank k).state = (s.bank k).state := by
    intro k; rw [← hu]
    show (s.restReadHold.bank k).depositHolds = _ ∧ (s.restReadHold.bank k).state = _
    unfold State.restReadHold; split
    · exact ⟨rfl, rfl⟩
    · simp [State.bank]; split
      · rename_i e; subst e; exact ⟨rfl, rfl⟩
      · exact ⟨rfl, rfl⟩
  have hlt : ∀ k, u.lanesInto k = s.lanesInto k := by
    intro k
    rw [lanesInto_sum, lanesInto_sum]; congr 1
    apply List.map_congr_left
    intro r _
    rw [hlane]
    cases hx : s.lane r with
    | none => rfl
    | some l => rfl
  have hst : ∀ b p l, u.lane p = some l → l.context.bank = b → (u.bank b).state = .filling ∨ (u.bank b).state = .retiring := by
    intro b p l hl hb
    rw [hlane] at hl
    cases hx : s.lane p with
    | none => rw [hx] at hl; simp at hl
    | some l0 =>
      rw [hx] at hl; simp at hl
      have h3 := d2 p l0 hx
      have e : l0.context.bank = b := by rw [← hb, ← hl]; rfl
      rw [(hbank b).2, ← e, h3]; split <;> simp
  have hcnt : ∀ r l, u.lane r = some l → l.context.counting = false := by
    intro r l hl; rw [hlane] at hl
    cases hx : s.lane r with
    | none => rw [hx] at hl; simp at hl
    | some l0 => rw [hx] at hl; simp at hl; rw [← hl]; rfl
  obtain ⟨a1,a2,a3⟩ := restBank_flight (s := u) 0 (by rw [(hbank 0).1, hlt]; exact d1 0) (hst 0)
  have hl0 : ∀ r, (u.restBank 0).lane r = u.lane r := by intro r; unfold State.lane; simp
  have hi0 : ∀ k, (u.restBank 0).lanesInto k = u.lanesInto k := fun k => lanesInto_congr (by simp) k
  obtain ⟨b1,b2,b3⟩ := restBank_flight (s := u.restBank 0) 1 (by rw [a1 1 (by decide), (hbank 1).1, hi0, hlt]; exact d1 1)
     (fun p l hl hb => by rw [a1 1 (by decide)]; rw [hl0] at hl; exact hst 1 p l hl hb)
  refine State.FlightOk.serveAll ?_
  rw [State.flightOk_iff]
  have hl1 : ∀ r, ((u.restBank 0).restBank 1).lane r = u.lane r := by intro r; unfold State.lane; simp
  constructor
  · have : State.CountsOk u := by
      refine State.CountsOk.rest ?_ hcnt ?_ ?_
      · intro r; rw [← hu]; simp [State.port, Port.rest]
      · intro t; rw [← hu]; simp [State.inFlight, Intake.rest, Intake.reset]
      · rw [← hu]; rfl
    exact State.CountsOk.same this (by simp) (by simp) (by simp) (by simp) (by simp)
  · refine ⟨?_, fun p l hl => ?_⟩
    · rw [Fin.forall_fin_two]
      refine ⟨?_, ?_⟩
      · rw [b1 0 (by decide), a2]; exact (lanesInto_congr (by simp) 0).symm
      · rw [b2, hi0]; exact (lanesInto_congr (by simp) 1).symm
    · rw [hl1] at hl
      rw [hcnt p l hl]
      have h2 : l.context.bank = 0 ∨ l.context.bank = 1 := by revert l; intro l _; generalize l.context.bank = x; revert x; decide
      rcases h2 with e | e
      · rw [e, b1 0 (by decide)]; exact a3 p l hl e
      · rw [e]; exact b3 p l (by rw [hl0]; exact hl) e

/-- VISIT_OPEN keeps the flight law. -/
theorem State.FlightOk.openVisit {s : State} (h : s.FlightOk) (hb : s.BanksOk) (hl : s.visitLock = false) (tag e) (b : BankId) (hf : s.freeBank = some b) : (s.openVisit tag e b).FlightOk := by
  have hfree : (s.bank b).state = .free := by
    unfold State.freeBank at hf
    (repeat' split at hf) <;> simp at hf <;> subst hf <;> assumption
  have hnv : s.visit.state = .noVisit := by
    refine Decidable.byContradiction fun hn => ?_
    have h1 := (hb.1.2.1 s.visit.bank).2 ⟨hn, rfl⟩
    simp [State.visitLock] at hl
    have : s.visit.bank = 0 ∨ s.visit.bank = 1 := by generalize s.visit.bank = x; revert x; decide
    rcases this with e | e <;> rw [e] at h1
    · exact hl.1 h1
    · exact hl.2 h1
  obtain ⟨c, d⟩ := (State.flightOk_iff s).1 h
  have h0 := c.2.2 (by rw [hnv]; simp)
  have hz := State.HoldsOk.lanesInto d b (by rw [hfree]; simp) (by rw [hfree]; simp)
  rw [State.flightOk_iff]
  refine ⟨⟨fun t => c.1 t, ?_, fun _ => rfl⟩, ?_⟩
  · show 0 = _
    rw [← h0]; exact c.2.1
  · exact State.HoldsOk.same (State.HoldsOk.updBank d b (fun k => { k with state := .filling, epoch := k.epoch + 1 }) rfl (Or.inr hz)) rfl (fun _ => ⟨rfl, rfl⟩)

/-- SNAP_OPEN keeps the flight law. -/
theorem State.FlightOk.openSnap {s : State} (h : s.FlightOk) (hb : s.visit.state = .betweenSnaps) (sx sy) : (s.openSnap sx sy).FlightOk := by
  obtain ⟨c, d⟩ := (State.flightOk_iff s).1 h
  have h0 := c.2.2 (by rw [hb]; simp)
  rw [State.flightOk_iff]
  refine ⟨⟨fun t => c.1 t, ?_, fun _ => rfl⟩, State.HoldsOk.same d rfl (fun _ => ⟨rfl, rfl⟩)⟩
  show 0 = _
  rw [← h0]; exact c.2.1

/-- `setFlags` keeps the taken rows of every port. -/
theorem setFlags_taken (s : State) (p f) : ∀ q, ((s.setFlags p f).ports.nth q).taken = (s.ports.nth q).taken := updPort_taken _ _ _ fun _ => rfl

/-- `count` keeps the taken rows of every port. -/
theorem count_taken (s : State) (p f) : ∀ q, ((s.count p f).ports.nth q).taken = (s.ports.nth q).taken := updPort_taken _ _ _ fun _ => rfl

/-- `setRx` keeps the taken rows of every port. -/
theorem setRx_taken (s : State) (p rx) : ∀ q, ((s.setRx p rx).ports.nth q).taken = (s.ports.nth q).taken :=
  updPort_taken _ _ _ fun _ => rfl

/-- `countDiscard` keeps the taken rows of every port. -/
theorem countDiscard_taken (s : State) (p) : ∀ q, ((s.countDiscard p).ports.nth q).taken = (s.ports.nth q).taken :=
  count_taken _ _ _

/-- `endReceive` keeps the taken rows of every port. -/
theorem endReceive_taken (s : State) (p) : ∀ q, ((s.endReceive p).ports.nth q).taken = (s.ports.nth q).taken := updPort_taken _ _ _ fun _ => rfl

/-- `awaitHeader` keeps the taken rows of every port. -/
theorem awaitHeader_taken (s : State) (p) : ∀ q, ((s.awaitHeader p).ports.nth q).taken = (s.ports.nth q).taken := updPort_taken _ _ _ fun _ => rfl

/-- `discardFrame` keeps the taken rows of every port. -/
theorem discardFrame_taken (s : State) (p) : ∀ q, ((s.discardFrame p).ports.nth q).taken = (s.ports.nth q).taken := by
  intro q; unfold State.discardFrame; rw [countDiscard_taken, endReceive_taken]

/-- `discardAtHeader` keeps the taken rows of every port. -/
theorem discardAtHeader_taken (s : State) (p) : ∀ q, ((s.discardAtHeader p).ports.nth q).taken = (s.ports.nth q).taken := by
  intro q; unfold State.discardAtHeader; rw [countDiscard_taken, setRx_taken]

/-- `cutFrame` keeps the taken rows of every port. -/
theorem cutFrame_taken (s : State) (p) : ∀ q, ((s.cutFrame p).ports.nth q).taken = (s.ports.nth q).taken := by
  intro q; unfold State.cutFrame; split
  · rw [discardFrame_taken]
  · rw [endReceive_taken]

/-- `truncate` keeps the taken rows of every port. -/
theorem truncate_taken (s : State) (p) : ∀ q, ((s.truncate p).ports.nth q).taken = (s.ports.nth q).taken := by
  intro q; unfold State.truncate; split
  · rfl
  · rw [cutFrame_taken, setFlags_taken]

/-- `lineFall` keeps the taken rows of every port. -/
theorem lineFall_taken (s : State) (p) : ∀ q, ((s.lineFall p).ports.nth q).taken = (s.ports.nth q).taken := by
  intro q; unfold State.lineFall
  refine Eq.trans (updPort_taken _ p (fun q => { q with link := .down, lane := none, counters := { q.counters with rspLost := q.counters.rspLost + BitVec.ofNat 32 q.backlog.length }, backlog := [], owed := 0, granted := 0 }) (fun _ => rfl) q) ?_
  rw [cutFrame_taken]

/-- `blameOverrun` keeps the taken rows of every port. -/
theorem blameOverrun_taken (s : State) (h) : (s.blameOverrun h).ports = s.ports := by simp

/-- `overrun` keeps the taken rows of every port. -/
theorem overrun_taken (s : State) (p h) : ∀ q, ((s.overrun p h).ports.nth q).taken = (s.ports.nth q).taken := by
  intro q; unfold State.overrun
  rw [blameOverrun_taken]
  have hl : ∀ u : State, u.latchOverrun.ports = u.ports := fun _ => rfl
  rw [hl, count_taken, setRx_taken, setFlags_taken]

/-- `rowHeader` keeps the taken rows of every port. -/
theorem rowHeader_taken (s : State) (p h n) : ∀ q, ((s.rowHeader p h n).ports.nth q).taken = (s.ports.nth q).taken := by
  have h0 := updPort_taken s p (fun q => { q with granted := q.granted - 1 }) fun _ => rfl
  intro q; rw [← h0]
  unfold State.rowHeader
  dsimp only
  generalize (s.updPort p fun q => { q with granted := q.granted - 1 }) = u
  split
  · rw [discardAtHeader_taken, setFlags_taken]
  · split
    · exact updPort_taken u p (fun q => { q with rx := .row h n, flags := { q.flags with noCredit := q.flags.noCredit || ((s.port p).granted == 0) } }) (fun _ => rfl) q
    · rw [overrun_taken]

/-- `ingressHeader` keeps the taken rows of every port. -/
theorem ingressHeader_taken (s : State) (p h c) : ∀ q, ((s.ingressHeader p h c).ports.nth q).taken = (s.ports.nth q).taken := by
  intro q; unfold State.ingressHeader
  split
  · split
    · rw [rowHeader_taken]
    · unfold State.ctlHeader
      apply updPort_taken; intro _; rfl
    all_goals (unfold State.unacceptedKind; rw [discardAtHeader_taken, setFlags_taken])
  · rw [discardAtHeader_taken, setFlags_taken]

/-- `badCtl` keeps the taken rows of every port. -/
theorem badCtl_taken (s : State) (p c r) : ∀ q, ((s.badCtl p c r).ports.nth q).taken = (s.ports.nth q).taken := by
  intro q; unfold State.badCtl; rw [composeRsp_taken, discardFrame_taken]

/-- `admitCtl` keeps the taken rows of every port. -/
theorem admitCtl_taken (s : State) (p f) : ∀ q, ((s.admitCtl p f).ports.nth q).taken = (s.ports.nth q).taken := by
  intro q
  have h0 : ((((s.endReceive p).count p fun c => { c with ctlIn := bump c.ctlIn }).ports.nth q).taken) = (s.ports.nth q).taken := by rw [count_taken, endReceive_taken]
  unfold State.admitCtl; dsimp only
  generalize ((s.endReceive p).count p fun c => { c with ctlIn := bump c.ctlIn }) = u at h0
  rw [← h0]
  split
  · exact updPort_taken u p (fun q => { q with queue := q.queue ++ [f] }) (fun _ => rfl) q
  · rw [count_taken, setFlags_taken]

/-- `endCtlFrame` keeps the taken rows of every port. -/
theorem endCtlFrame_taken (s : State) (p c r n b) : ∀ q, ((s.endCtlFrame p c r n b).ports.nth q).taken = (s.ports.nth q).taken := by
  intro q; unfold State.endCtlFrame
  (repeat' split)
  · rw [badCtl_taken, setFlags_taken]
  · rw [badCtl_taken, setFlags_taken]
  · rw [badCtl_taken, setFlags_taken]
  · rw [admitCtl_taken]

/-- `finishReturnFrame` keeps the taken rows of every port. -/
theorem finishReturnFrame_taken (s : State) (p) : ∀ q, ((s.finishReturnFrame p).ports.nth q).taken = (s.ports.nth q).taken := by
  intro q; unfold State.finishReturnFrame
  split
  · rfl
  · rw [serveLane_taken]; exact updPort_taken s p (fun q => { q with lane := none, owed := q.backlog.length }) (fun _ => rfl) q
  · rw [serveLane_taken]; exact updPort_taken s p (fun q => { q with lane := none }) (fun _ => rfl) q

/-- A row that leaves PX keeps the flight law. -/
theorem State.FlightOk.rowSent {s : State} (h : s.FlightOk) (hw : State.WaitingClosed s) (f) : (s.rowSent f).FlightOk := by
  obtain ⟨c, d⟩ := (State.flightOk_iff s).1 h
  rw [State.flightOk_iff]
  refine ⟨State.CountsOk.same c (by simp) (by simp) (by simp) (by simp) (by simp), ?_⟩
  unfold State.rowSent
  split
  · exact d
  · dsimp only
    split
    · refine State.HoldsOk.autoStart (State.HoldsOk.seek _ (State.HoldsOk.of_eq d rfl rfl)) (State.WaitingClosed.seek _ ?_)
      exact hw
    · exact State.HoldsOk.of_eq d (by simp) (by simp)
  · refine State.HoldsOk.autoStart (State.HoldsOk.seek _ (State.HoldsOk.of_eq d rfl rfl)) ?_
    unfold State.restartPass
    exact State.WaitingClosed.seek (s := s.resetPass _) _ hw
  · unfold State.endPass
    refine State.HoldsOk.autoStart (State.HoldsOk.releaseBank (s := s.updResolve _) (State.HoldsOk.of_eq d rfl rfl) _) (State.WaitingClosed.releaseBank ?_ _)
    exact hw

/-- The flight law follows from the law of the holds where everything else stays. -/
theorem State.FlightOk.of_holds {s u : State} (h : s.FlightOk) (hp : u.ports = s.ports) (hl : u.cal = s.cal) (hi : u.intake = s.intake) (hv : u.visit = s.visit) (hh : State.HoldsOk u) : u.FlightOk := by
  rw [State.flightOk_iff] at *
  exact ⟨State.CountsOk.same h.1 (by simp [hp]) (by rw [hl]) (by rw [hi]) (by rw [hv]) (by rw [hv]), hh⟩

/-- Cut tiles keep the flight law. -/
theorem State.FlightOk.cutTiles (l : List TileId) {s : State} (h : s.FlightOk) : (l.foldl State.cutTile s).FlightOk := by
  induction l generalizing s with
  | nil => exact h
  | cons g l ih =>
    refine ih (State.FlightOk.of_eq h (by simp) (by simp) ?_ (by simp) (by simp))
    unfold State.cutTile; (repeat' split) <;> rfl

/-- A tile's end keeps the flight law. -/
theorem State.FlightOk.endTile {s : State} (h : s.FlightOk) (t st) : (s.endTile t st).FlightOk := State.FlightOk.of_eq h (by simp) (by simp) rfl (by simp) (by simp)

end Sys2Proof.Machine
end

