-- ==== Sys2Proof/Laws/Intake.lean ====
section
/-! SUPPORT. Row Intake: which operations leave the row sequence alone, and how an arrival moves it (R26, R27). -/

namespace Sys2Proof.Machine

/-- The row sequence is untouched: every e, and every count of rows taken and missing. -/
def State.SameRows (s u : State) : Prop :=
  u.intake.next = s.intake.next
    ∧ ∀ t, (u.intake.records.nth t).taken = (s.intake.records.nth t).taken
      ∧ (u.intake.records.nth t).missing = (s.intake.records.nth t).missing

theorem State.SameRows.refl (s : State) : s.SameRows s := ⟨rfl, fun _ => ⟨rfl, rfl⟩⟩

theorem State.SameRows.trans {s u v : State} (h1 : s.SameRows u) (h2 : u.SameRows v) : s.SameRows v :=
  ⟨h2.1.trans h1.1, fun t => ⟨(h2.2 t).1.trans (h1.2 t).1, (h2.2 t).2.trans (h1.2 t).2⟩⟩

theorem State.SameRows.of_eq {s u : State} (h : u.intake = s.intake) : s.SameRows u := by
  simp [State.SameRows, h]

/-- The law of R27 is a property of the row sequence. -/
theorem State.RowsAccounted.of_same {s u : State} (h : s.RowsAccounted) (hs : s.SameRows u) : u.RowsAccounted := by
  intro t g
  have := h t g
  simp only [State.record, State.nextRow] at this ⊢
  rw [(hs.2 t).1, (hs.2 t).2, hs.1]
  exact this

theorem State.updRecord_sameRows (s : State) (t : TileId) (f : TileRecord → TileRecord)
    (h : ∀ r, (f r).taken = r.taken ∧ (f r).missing = r.missing) : s.SameRows (s.updRecord t f) := by
  refine ⟨by simp, fun u => ?_⟩
  simp only [State.updRecord_fields, Tab.nth_modify]
  split
  · rename_i ht
    subst ht
    exact h _
  · exact ⟨rfl, rfl⟩

theorem State.markTile_sameRows (s : State) (t : TileId) (f : TileFlags → TileFlags) : s.SameRows (s.markTile t f) :=
  (s.updRecord_sameRows t (fun r => { r with flags := f r.flags }) (by simp)).trans
    (.of_eq (by simp [State.markTile]))

theorem State.endTile_sameRows (s : State) (t : TileId) (st : TileState) : s.SameRows (s.endTile t st) := by
  refine (s.updRecord_sameRows t (fun r => { r with state := st }) (by simp)).trans ?_
  unfold State.endTile
  refine State.SameRows.trans (u := (s.updRecord t fun r => { r with state := st }).setStall t .stopped) ?_ (.of_eq (by simp))
  exact ⟨by simp, fun _ => ⟨by simp, by simp⟩⟩

theorem State.setStall_sameRows (s : State) (t : TileId) (x : Timer) : s.SameRows (s.setStall t x) :=
  ⟨by simp, fun _ => ⟨by simp, by simp⟩⟩

theorem State.settleTile_sameRows (s : State) (t : TileId) : s.SameRows (s.settleTile t) := by
  unfold State.settleTile
  (repeat' split)
  · exact s.endTile_sameRows t _
  · exact s.setStall_sameRows t _
  · exact .refl s

theorem State.cutTile_sameRows (s : State) (t : TileId) : s.SameRows (s.cutTile t) := by
  unfold State.cutTile
  (repeat' split)
  all_goals first | exact s.endTile_sameRows t _ | exact .refl s

theorem State.foldl_cutTile_sameRows (l : List TileId) (s : State) : s.SameRows (l.foldl State.cutTile s) := by
  induction l generalizing s with
  | nil => exact .refl s
  | cons t rest ih => exact (s.cutTile_sameRows t).trans (ih _)

theorem State.countPixel_sameRows (s : State) (x : Context) (t : TileId) (kind : PixelKind) :
    s.SameRows (s.countPixel x t kind) := by
  unfold State.countPixel
  split
  · refine s.updRecord_sameRows t _ ?_
    cases kind <;> simp
  · exact .refl s

theorem State.depositTarget_sameRows (x : Context) (t : TileId) (kind : PixelKind) (s : State) (g : Target) :
    s.SameRows (State.depositTarget x t kind s g) := by
  unfold State.depositTarget
  (repeat' split)
  · exact .refl s
  · exact .of_eq (by simp)
  · exact s.updRecord_sameRows t _ (by simp)
  · exact .refl s

theorem State.depositPixel_sameRows (s : State) (l : Lane) (a : Sample) (entry : Flat) :
    s.SameRows (s.depositPixel l a entry) := by
  unfold State.depositPixel
  dsimp only
  refine (s.countPixel_sameRows l.context l.tile (l.pixel a entry)).trans ?_
  generalize s.countPixel l.context l.tile (l.pixel a entry) = u
  generalize l.context.placement.targets (l.seg.column l.next) (l.seg.tileRow l.row) = ts
  induction ts generalizing u with
  | nil => exact .refl u
  | cons g rest ih => exact (State.depositTarget_sameRows _ _ _ u g).trans (ih _)

theorem State.uncountRow_sameRows (s : State) (t : TileId) : s.SameRows (s.uncountRow t) := by
  unfold State.uncountRow
  refine State.SameRows.trans ?_ (.of_eq (by simp; rfl))
  refine State.SameRows.trans ?_ (State.settleTile_sameRows _ t)
  exact ⟨by simp, fun _ => ⟨by simp, by simp⟩⟩

theorem State.nextPixel_sameRows (s : State) (p : PortId) (l : Lane) : s.SameRows (s.nextPixel p l) := by
  have hend : ∀ (u : State) (l : Lane), u.SameRows (u.endRow p l) := by
    intro u l
    unfold State.endRow
    dsimp only
    split
    · refine State.SameRows.trans ?_ (.of_eq (by simp; rfl))
      exact State.SameRows.trans (.of_eq (by simp)) (State.uncountRow_sameRows _ _)
    · exact .of_eq (by simp)
  unfold State.nextPixel
  split
  · exact hend s l
  · dsimp only
    split
    · exact (s.depositPixel_sameRows ..).trans (hend _ _)
    · rename_i a f _ _ _
      exact (s.depositPixel_sameRows l a f).trans (.of_eq (by simp))

/-- Accounting for row `r`, from a segment whose e is at most r, keeps the law of R27. -/
theorem State.RowsAccounted.accountRow {s : State} (h : s.RowsAccounted) {t : TileId} {g : SegId} {r : Nat}
    (hr : s.nextRow t g ≤ r) (damaged : Bool) : (s.accountRow t g r damaged).RowsAccounted := by
  intro t' g'
  have h0 := h t' g'
  have hseg : segIndex t g = segIndex t' g' ↔ t = t' ∧ g = g' := by
    simp only [segIndex, Fin.ext_iff]
    omega
  simp only [State.record, State.nextRow] at h0 hr
  simp only [State.accountRow, State.restartStall, State.record, State.nextRow, State.setStall_fields,
    State.setNextRow_fields, State.updRecord_fields, Tab.nth_modify, Tab.nth_put, hseg]
  by_cases ht : t = t'
  · subst ht
    by_cases hg : g = g'
    · subst hg
      cases damaged <;> simp <;> omega
    · simp [hg]
      exact h0
  · simp [ht]
    exact h0

/-- Deciding an arrival keeps the law of R27. -/
theorem State.RowsAccounted.arrive {s : State} (h : s.RowsAccounted) (p : PortId) (hd : RowHeader) (crcGood : Bool)
    (samples : List Sample) : (s.arrive p hd crcGood samples).RowsAccounted := by
  unfold State.arrive
  split
  · exact h.of_same (.of_eq (by simp))
  · rename_i t g _
    refine State.RowsAccounted.of_same (s := s.applyDecision p hd samples t g (s.decision hd crcGood t g)) ?_
      (.of_eq (by simp))
    have hge : ∀ d, s.decision hd crcGood t g = d → (d = .dataError ∨ d = .badLength ∨ d = .taken) →
        s.nextRow t g ≤ hd.row.toNat := by
      intro d hd' hc
      subst hd'
      unfold State.decision at hc
      (repeat' split at hc) <;> simp_all
    unfold State.applyDecision
    split
    · exact h.of_same (.of_eq (by simp))
    · dsimp only
      split
      · exact h.of_same (.of_eq (by simp))
      · exact h.of_same (State.SameRows.trans (.of_eq (by simp)) (State.markTile_sameRows _ _ _))
    · exact h.of_same (s.markTile_sameRows _ _)
    · exact h.of_same (s.markTile_sameRows _ _)
    · rename_i he
      refine (h.accountRow (hge _ he (by simp)) true).of_same ?_
      exact (State.markTile_sameRows _ _ _).trans (State.settleTile_sameRows _ _)
    · rename_i he
      refine (h.accountRow (hge _ he (by simp)) true).of_same ?_
      exact (State.markTile_sameRows _ _ _).trans (State.settleTile_sameRows _ _)
    · rename_i he
      refine (h.accountRow (hge _ he (by simp)) false).of_same ?_
      refine State.SameRows.trans ?_ (State.settleTile_sameRows _ _)
      exact ⟨by simp [State.keepRow], fun _ => by simp [State.keepRow]⟩

end Sys2Proof.Machine
end

