-- ==== Sys2Proof/Laws/Layouts.lean ====
section
/-! SUPPORT. Byte layouts: how many bytes each item has, where an item stands among equal ones, and what a packed flag byte holds
(R177, R184, R186). -/

namespace Sys2Proof.Machine

/-! ## Fields -/

/-- A signed field of n bytes has n bytes. -/
theorem beInt_length (n : Nat) (x : Int) : (beInt n x).length = n := beBytes_length _ _

/-- A field of one byte is that byte. -/
theorem beBytes_one (x : Nat) : beBytes 1 x = [BitVec.ofNat 8 x] := by simp [beBytes]

/-- A field at its place among other bytes reads as the number written there. -/
theorem field_at {before after l : List Byte} {k n x : Nat} (e : l = before ++ beBytes n x ++ after) (hk : before.length = k)
    (hx : x < 256 ^ n) : field l k n = x := by
  subst hk
  rw [e, field_append _ _ _ _ (beBytes_length n x)]
  exact beNat_beBytes n x hx

/-- A byte of eight packed flags holds flag i in bit i (R186). -/
theorem packBits_eight (a b c d e f g h : Bool) (i : Fin 8) :
    (packBits [a, b, c, d, e, f, g, h]).getLsbD i.val = [a, b, c, d, e, f, g, h][i] := by
  revert a b c d e f g h i
  decide +kernel

/-! ## Items of one size -/

/-- A list of items of k bytes each has k bytes for each. -/
theorem length_flatMap_of_length {α β : Type} {f : α → List β} {k : Nat} (h : ∀ a, (f a).length = k) (l : List α) :
    (l.flatMap f).length = k * l.length := by
  induction l with
  | nil => rfl
  | cons a l ih =>
    rw [List.flatMap_cons, List.length_append, h, ih, List.length_cons, Nat.mul_succ, Nat.add_comm]

/-- Item i of a list of items of k bytes each stands at byte k * i, whatever follows the items. -/
theorem item_of_flatMap {α β : Type} {f : α → List β} {k : Nat} (h : ∀ a, (f a).length = k) {l : List α} {i : Nat} {a : α}
    (e : l[i]? = some a) (rest : List β) : ((l.flatMap f ++ rest).drop (k * i)).take k = f a := by
  induction l generalizing i with
  | nil => simp at e
  | cons b l ih =>
    cases i with
    | zero =>
      simp only [List.getElem?_cons_zero, Option.some.injEq] at e
      subst e
      rw [Nat.mul_zero, List.drop_zero, List.flatMap_cons, List.append_assoc, ← h b]
      exact List.take_left
    | succ i =>
      rw [List.getElem?_cons_succ] at e
      rw [Nat.mul_succ, Nat.add_comm, ← List.drop_drop, List.flatMap_cons, List.append_assoc]
      have hd : (f b ++ (l.flatMap f ++ rest)).drop k = l.flatMap f ++ rest := by
        rw [← h b]
        exact List.drop_left
      rw [hd]
      exact ih e

/-- The entries of a table, in order. -/
theorem Tab.getElem?_toList {n : Nat} {α : Type} (v : Tab n α) (i : Fin n) : v.toList[i.val]? = some (v.nth i) := by
  have h : i.val < v.toList.length := by simp
  rw [List.getElem?_eq_getElem h]
  simp [Tab.nth]

/-- The entries of a table, in order, as a function of the place. -/
theorem Tab.toList_eq_ofFn {n : Nat} {α : Type} (v : Tab n α) : v.toList = List.ofFn v.nth := by
  apply List.ext_getElem
  · simp
  · intro i h1 h2
    simp [Tab.nth]

/-- The four entries of a table of four. -/
theorem Tab.toList_four {α : Type} (v : Tab 4 α) : v.toList = [v.nth 0, v.nth 1, v.nth 2, v.nth 3] :=
  Tab.toList_eq_ofFn v

/-- The eight entries of a table of eight. -/
theorem Tab.toList_eight {α : Type} (v : Tab 8 α) :
    v.toList = [v.nth 0, v.nth 1, v.nth 2, v.nth 3, v.nth 4, v.nth 5, v.nth 6, v.nth 7] :=
  Tab.toList_eq_ofFn v

/-! ## Sizes of the items of a section (R177, R186) -/

/-- A bank visit record has 3 bytes. -/
theorem bankVisitBytes_length (v : Option BankVisit) : (bankVisitBytes v).length = 3 := by
  cases v <;> rfl

/-- A bank has 11 bytes in section ENGINE. -/
theorem State.bankBytes_length (s : State) (b : BankId) : (s.bankBytes b).length = 11 := by
  simp only [State.bankBytes, List.length_append, beBytes_length, bankVisitBytes_length, List.length_cons, List.length_nil]

/-- A tile has 38 bytes in section TILES. -/
theorem State.tileBytes_length (s : State) (t : TileId) : (s.tileBytes t).length = 38 := by
  simp [State.tileBytes, Tab.toList_four, beBytes_length]

/-- An ingress port has 40 bytes in section PORTS. -/
theorem State.portBytes_length (s : State) (p : PortId) : (s.portBytes p).length = 40 := by
  simp [State.portBytes, State.counterBytes, beBytes_length]

/-- An entry has 41 bytes in section SUMMARY. -/
theorem EntryReport.bytes_length (e : EntryReport) : e.bytes.length = 41 := by
  simp [EntryReport.bytes, Tab.toList_eight, beBytes_length]

/-! ## Responses (R183, R186) -/

/-- The status word has 21 bytes. -/
theorem StatusWord.bytes_length (w : StatusWord) : w.bytes.length = 21 := by
  simp [StatusWord.bytes, beBytes_length]

/-- An RSP's payload has the 21 bytes of the status word and those of the data part. -/
theorem Rsp.payload_length (r : Rsp) : r.payload.length = 21 + r.data.length := by
  rw [Rsp.payload, List.length_append, StatusWord.bytes_length]

end Sys2Proof.Machine
end

