-- ==== Sys2Proof/Laws/Ports.lean ====
section
/-! SUPPORT. The ingress ports: what each operation of the links does to one port, and why the bounds of R155, R162 and R167
hold throughout. -/

namespace Sys2Proof.Machine

/-- The part of a port's order that does not ask that its lane has been served. -/
def State.PortSafe (s : State) (p : PortId) : Prop := (s.port p).DownIsQuiet ∧ s.PortBounds p

/-- A port is in order. -/
def State.PortOk (s : State) (p : PortId) : Prop := (s.port p).DownIsQuiet ∧ s.PortBounds p ∧ s.LaneServed p

theorem State.portsOk_iff (s : State) : s.PortsOk ↔ ∀ p, s.PortOk p := Iff.rfl

theorem State.PortOk.safe {s : State} {p : PortId} (h : s.PortOk p) : s.PortSafe p := ⟨h.1, h.2.1⟩

/-- The order of a port is a property of the port and its lane. -/
theorem State.portOk_congr {s u : State} {p : PortId} (hp : u.ports.nth p = s.ports.nth p)
    (hl : u.cal.lanes.nth p = s.cal.lanes.nth p) : u.PortOk p ↔ s.PortOk p := by
  simp only [State.PortOk, State.PortBounds, State.LaneServed, State.occupied, State.port, State.lane, hp, hl]

theorem State.portSafe_congr {s u : State} {p : PortId} (hp : u.ports.nth p = s.ports.nth p)
    (hl : u.cal.lanes.nth p = s.cal.lanes.nth p) : u.PortSafe p ↔ s.PortSafe p := by
  simp only [State.PortSafe, State.PortBounds, State.occupied, State.port, State.lane, hp, hl]

/-! ## Serving the return lane -/

/-- Serving a lane concerns its own port only. -/
theorem State.serveLane_other (s : State) {p q : PortId} (h : p ≠ q) : (s.serveLane p).ports.nth q = s.ports.nth q := by
  unfold State.serveLane
  (repeat' split) <;> simp [h]

/-- After its lane is served a safe port is in order (R162). -/
theorem State.serveLane_ok {s : State} {p : PortId} (h : s.PortSafe p) : (s.serveLane p).PortOk p := by
  obtain ⟨hd, hb, hq, hr⟩ := h
  unfold State.serveLane
  split
  · rename_i hc
    have hu : (s.port p).link = .up := hc.1
    split
    · rename_i hn
      refine ⟨?_, ?_, ?_⟩
      · intro hx
        simp [State.port] at hx
        simp [State.port] at hu
        simp [hu] at hx
      · refine ⟨?_, ?_, ?_⟩
        · simp [State.occupied, State.port, State.lane, State.ungranted] at *
          omega
        · simpa [State.port] using hq
        · simpa [State.port] using hr
      · intro _ hx
        simp [State.port] at hx
    · rename_i hn
      split
      · rename_i hb0
        refine ⟨hd, ⟨hb, hq, hr⟩, ?_⟩
        intro _ _
        refine ⟨?_, hb0⟩
        have hn' : ¬(s.occupied p + (s.port p).granted < Config.rowBuffers) := by
          intro h
          have h0 : 0 < Config.rowBuffers - (s.occupied p + (s.port p).granted) := by omega
          apply hn
          simp only [State.crdNext, hb0, State.ungranted, h0, List.isEmpty_nil, Bool.or_true, Bool.true_and, decide_true]
        omega
      · rename_i r rest hb0
        refine ⟨?_, ?_, ?_⟩
        · intro hx
          simp [State.port] at hx hu
          simp [hu] at hx
        · refine ⟨?_, ?_, ?_⟩
          · simpa [State.occupied, State.port, State.lane] using hb
          · simpa [State.port] using hq
          · simp only [State.port] at hr hb0
            simp [hb0] at hr
            simp [State.port]
            omega
        · intro _ hx
          simp [State.port] at hx
  · rename_i hc
    refine ⟨hd, ⟨hb, hq, hr⟩, ?_⟩
    intro h1 h2
    exact absurd ⟨h1, h2⟩ hc

/-- What serving its lane makes of a port with n ungranted free buffers (R162). -/
theorem State.serveLane_port (s : State) (p : PortId) :
    (s.serveLane p).port p
      = (fun (q : Port) (n : Nat) =>
          if q.link = .up ∧ q.lane = none then
            if (q.owed == 0 || q.backlog.isEmpty) && decide (0 < n) then
              { q with lane := some (.crd n), granted := q.granted + n }
            else
              match q.backlog with
              | [] => q
              | r :: rest => { q with lane := some (.rsp r), backlog := rest, owed := q.owed - 1 }
          else q) (s.port p) (s.ungranted p) := by
  unfold State.serveLane State.crdNext
  dsimp only
  split
  · split
    · simp [State.port]
    · cases (s.port p).backlog with
      | nil => rfl
      | cons r rest => simp [State.port]
  · rfl

/-- Serving a port's lane depends on that port and its calibration lane alone. -/
theorem State.serveLane_congr {s u : State} {p : PortId} (hp : u.ports.nth p = s.ports.nth p) (hl : u.cal = s.cal) :
    (u.serveLane p).ports.nth p = (s.serveLane p).ports.nth p := by
  have hq : u.port p = s.port p := hp
  have hf : u.ungranted p = s.ungranted p := by
    simp only [State.ungranted, State.occupied, State.lane, hq, hl]
  have hu := u.serveLane_port p
  rw [hq, hf] at hu
  exact hu.trans (s.serveLane_port p).symm

/-- `serveAll` serves the lane of each port, once, and changes nothing else (R162). -/
theorem State.serveAll_ports (s : State) (p : PortId) : s.serveAll.ports.nth p = (s.serveLane p).ports.nth p := by
  have law : ∀ (l : List PortId) (u : State), l.Nodup → u.cal = s.cal →
      (∀ q ∈ l, u.ports.nth q = s.ports.nth q) →
      ((p ∈ l → (l.foldl State.serveLane u).ports.nth p = (s.serveLane p).ports.nth p)
        ∧ (p ∉ l → (l.foldl State.serveLane u).ports.nth p = u.ports.nth p)) := by
    intro l
    induction l with
    | nil => intro u _ _ _; simp
    | cons a l ih =>
      intro u hn hc hp
      rw [List.nodup_cons] at hn
      have hrest := ih (u.serveLane a) hn.2 (by simpa using hc) (fun q hq => by
        have ha : a ≠ q := fun e => hn.1 (by rw [e]; exact hq)
        rw [State.serveLane_other u ha, hp q (List.mem_cons_of_mem a hq)])
      rw [List.foldl_cons]
      by_cases ha : p = a
      · subst ha
        refine ⟨fun _ => ?_, fun h => absurd List.mem_cons_self h⟩
        rw [hrest.2 hn.1]
        exact State.serveLane_congr (hp p List.mem_cons_self) hc
      · refine ⟨fun h => ?_, fun h => ?_⟩
        · exact hrest.1 ((List.mem_cons.1 h).resolve_left ha)
        · rw [hrest.2 fun hm => h (List.mem_cons_of_mem a hm)]
          exact State.serveLane_other u fun e => ha e.symm
  have hall : ∀ q : PortId, q ∈ allPorts := by decide
  exact (law allPorts s (by decide) rfl fun _ _ => rfl).1 (hall p)

/-- Serving every lane puts every safe port in order. -/
theorem State.serveAll_ok {s : State} (h : ∀ p, s.PortSafe p) : s.serveAll.PortsOk := by
  intro q
  have key : ∀ (l : List PortId) (u : State), (∀ p, u.PortSafe p) → (∀ p, p ∈ l ∨ u.PortOk p) →
      (l.foldl State.serveLane u).PortOk q := by
    intro l
    induction l with
    | nil =>
      intro u _ ho
      rcases ho q with h | h
      · simp at h
      · exact h
    | cons p l ih =>
      intro u hs ho
      have hlane : ∀ r, (u.serveLane p).cal.lanes.nth r = u.cal.lanes.nth r := by simp
      have step : ∀ r, r = p ∨ ((u.serveLane p).ports.nth r = u.ports.nth r) := by
        intro r
        by_cases hr : p = r
        · exact Or.inl hr.symm
        · exact Or.inr (u.serveLane_other hr)
      refine ih _ ?_ ?_
      · intro r
        rcases step r with rfl | hr
        · exact (State.serveLane_ok (hs r)).safe
        · exact (State.portSafe_congr hr (hlane r)).2 (hs r)
      · intro r
        rcases step r with rfl | hr
        · exact Or.inr (State.serveLane_ok (hs r))
        · rcases ho r with h | h
          · rcases List.mem_cons.1 h with rfl | h
            · exact Or.inr (State.serveLane_ok (hs r))
            · exact Or.inl h
          · exact Or.inr ((State.portOk_congr hr (hlane r)).2 h)
  exact key allPorts s h (fun p => Or.inl (by revert p; decide))

/-- A served port of a state whose other ports are in order. -/
theorem State.serveLane_portsOk {s u : State} {p : PortId} (hs : s.PortsOk) (hsafe : u.PortSafe p)
    (hports : ∀ q, p ≠ q → u.ports.nth q = s.ports.nth q) (hlanes : ∀ q, p ≠ q → u.cal.lanes.nth q = s.cal.lanes.nth q) :
    (u.serveLane p).PortsOk := by
  intro q
  by_cases h : p = q
  · subst h
    exact State.serveLane_ok hsafe
  · refine (State.portOk_congr ?_ ?_).2 (hs q)
    · rw [State.serveLane_other _ h, hports q h]
    · simp [hlanes q h]

/-- A state with the ports and lanes of a state in order is in order. -/
theorem State.portsOk_same {s u : State} (hs : s.PortsOk) (hp : u.ports = s.ports) (hl : u.cal.lanes = s.cal.lanes) :
    u.PortsOk := fun q => (State.portOk_congr (by rw [hp]) (by rw [hl])).2 (hs q)

/-! ## Responses -/

/-- Composing an RSP concerns its own port only. -/
theorem State.composeRsp_other (s : State) {p q : PortId} (h : p ≠ q) (code : Byte) (request : BitVec 16) (r : Result)
    (d : List Byte) : (s.composeRsp p code request r d).ports.nth q = s.ports.nth q := by
  unfold State.composeRsp
  split <;> simp [h]

/-- Composing an RSP keeps a port safe: the backlog grows only below its bound (R162). -/
theorem State.composeRsp_safe {s : State} {p : PortId} (h : s.PortSafe p) (code : Byte) (request : BitVec 16) (r : Result)
    (d : List Byte) : (s.composeRsp p code request r d).PortSafe p := by
  obtain ⟨hd, hb, hq, hr⟩ := h
  unfold State.composeRsp
  split
  · rename_i hc
    simp only [State.port] at hc hd hb hq hr
    refine ⟨?_, ?_, ?_, ?_⟩
    · intro hx
      simp [State.port, hc.1] at hx
    · simpa [State.occupied, State.port, State.lane] using hb
    · simpa [State.port] using hq
    · simp [State.port]
      omega
  · simp only [State.port] at hd hb hq hr
    refine ⟨?_, ?_, ?_, ?_⟩
    · intro hx
      simp [State.port] at hx ⊢
      exact hd hx
    · simpa [State.occupied, State.port, State.lane] using hb
    · simpa [State.port] using hq
    · simpa [State.port] using hr

/-- Answering a command keeps the ports in order. -/
theorem State.respond_portsOk {s : State} (h : s.PortsOk) (p : PortId) (f : CtlFrame) (r : Result) (d : List Byte) :
    (s.respond p f r d).PortsOk := by
  have hs : (s.composeRsp p f.code f.request r d).PortSafe p := State.composeRsp_safe (State.PortOk.safe (h p)) ..
  refine State.serveLane_portsOk h ?_ ?_ (by simp)
  · obtain ⟨hd, hb, hq, hr⟩ := hs
    simp only [State.port] at hd hb hq hr
    refine ⟨?_, ?_, ?_, ?_⟩
    · intro hx
      simp [State.port] at hx ⊢
      exact hd hx
    · simpa [State.occupied, State.port, State.lane] using hb
    · simp [State.port]
      omega
    · simpa [State.port] using hr
  · intro q hq
    simp [hq, State.composeRsp_other]

/-- A command whose owner keeps the ports in order keeps the ports in order. -/
theorem command_portsOk {code : Byte} {owner : List Byte → State → Answer} {p : PortId} {s : State} (h : s.PortsOk)
    (ho : ∀ b, (owner b s).state.PortsOk) : ∃ t, command code owner p s = .next t ∧ t.PortsOk := by
  unfold command
  split
  · exact ⟨_, rfl, h⟩
  · refine ⟨_, rfl, ?_⟩
    unfold State.carryOut
    split
    · exact State.respond_portsOk (ho _) _ _ _ _
    · exact State.respond_portsOk h _ _ _ _

/-! ## Updates of a port -/

/-- The bound of R155, as a sum of the three holders of buffers and the granted credits. -/
theorem State.PortSafe.sum {s : State} {p : PortId} (h : s.PortSafe p) :
    (s.port p).rx.buffers + (s.port p).taken.length + laneBuffers (s.lane p) + (s.port p).granted ≤ Config.rowBuffers := by
  have := h.2.1
  simpa [State.occupied] using this

/-- An update of a port keeps it safe when the updated port keeps each bound. -/
theorem State.updPort_safe {s : State} {p : PortId} {f : Port → Port} (h1 : (f (s.port p)).DownIsQuiet)
    (h2 : (f (s.port p)).rx.buffers + (f (s.port p)).taken.length + laneBuffers (s.lane p) + (f (s.port p)).granted
      ≤ Config.rowBuffers)
    (h3 : (f (s.port p)).queue.length ≤ Config.queueFrames)
    (h4 : (f (s.port p)).backlog.length ≤ Config.backlogFrames) : (s.updPort p f).PortSafe p := by
  refine ⟨?_, ?_, ?_, ?_⟩
  · simpa [State.port] using h1
  · simpa [State.occupied, State.port, State.lane] using h2
  · simpa [State.port] using h3
  · simpa [State.port] using h4

theorem State.updPort_other (s : State) {p q : PortId} (h : p ≠ q) (f : Port → Port) :
    (s.updPort p f).ports.nth q = s.ports.nth q := by simp [h]

theorem State.setFlags_safe {s : State} {p : PortId} (h : s.PortSafe p) (f : PortFlags → PortFlags) :
    (s.setFlags p f).PortSafe p := State.updPort_safe h.1 h.sum h.2.2.1 h.2.2.2

theorem State.count_safe {s : State} {p : PortId} (h : s.PortSafe p) (f : PortCounters → PortCounters) :
    (s.count p f).PortSafe p := State.updPort_safe h.1 h.sum h.2.2.1 h.2.2.2

/-- Going on to receive something that holds no row buffer keeps a port safe (R155). A port that is DOWN receives nothing. -/
theorem State.setRx_safe {s : State} {p : PortId} {rx : Rx} (h : s.PortSafe p) (hb : rx.buffers = 0)
    (hd : (s.port p).link = .down → rx = .idle) : (s.setRx p rx).PortSafe p := by
  have hs := h.sum
  refine State.updPort_safe ?_ ?_ h.2.2.1 h.2.2.2
  · intro hx
    have := h.1 hx
    simp_all
  · dsimp only
    omega

theorem State.setRx_other (s : State) {p q : PortId} (h : p ≠ q) (rx : Rx) : (s.setRx p rx).ports.nth q = s.ports.nth q :=
  State.updPort_other s h _

theorem State.endReceive_safe {s : State} {p : PortId} (h : s.PortSafe p) : (s.endReceive p).PortSafe p :=
  State.setRx_safe h rfl fun _ => rfl

theorem State.countDiscard_safe {s : State} {p : PortId} (h : s.PortSafe p) : (s.countDiscard p).PortSafe p :=
  State.count_safe h _

theorem State.discardFrame_safe {s : State} {p : PortId} (h : s.PortSafe p) : (s.discardFrame p).PortSafe p :=
  State.countDiscard_safe (State.endReceive_safe h)

theorem State.discardFrame_other (s : State) {p q : PortId} (h : p ≠ q) :
    (s.discardFrame p).ports.nth q = s.ports.nth q := by
  simp [State.discardFrame, State.countDiscard, State.count, State.endReceive, State.setRx, h]

/-- A frame discarded at its header holds no buffer (R157, R158). -/
theorem State.discardAtHeader_safe {s : State} {p : PortId} (h : s.PortSafe p) (hu : (s.port p).link = .up) :
    (s.discardAtHeader p).PortSafe p :=
  State.countDiscard_safe (State.setRx_safe h rfl fun hd => by simp [hu] at hd)

theorem State.discardAtHeader_other (s : State) {p q : PortId} (h : p ≠ q) :
    (s.discardAtHeader p).ports.nth q = s.ports.nth q := by
  simp [State.discardAtHeader, State.countDiscard, State.count, State.setRx, h]

theorem State.cutFrame_safe {s : State} {p : PortId} (h : s.PortSafe p) : (s.cutFrame p).PortSafe p := by
  unfold State.cutFrame
  split
  · exact State.discardFrame_safe h
  · exact State.endReceive_safe h

theorem State.cutFrame_other (s : State) {p q : PortId} (h : p ≠ q) : (s.cutFrame p).ports.nth q = s.ports.nth q := by
  unfold State.cutFrame
  split <;> simp [State.discardFrame, State.countDiscard, State.count, State.endReceive, State.setRx, h]

theorem State.truncate_safe {s : State} {p : PortId} (h : s.PortSafe p) : (s.truncate p).PortSafe p := by
  unfold State.truncate
  split
  · exact h
  · exact State.cutFrame_safe (State.setFlags_safe h _)

theorem State.truncate_other (s : State) {p q : PortId} (h : p ≠ q) : (s.truncate p).ports.nth q = s.ports.nth q := by
  unfold State.truncate
  split
  · rfl
  · rw [State.cutFrame_other _ h]
    simp [State.setFlags, h]

/-! ## Frames cut and discarded, as equations -/

/-- A frame cut short: the port receives nothing, and LINE_DISCARD counts the frame if it does not count it yet (R156, R163). -/
theorem State.cutFrame_eq (s : State) (p : PortId) :
    s.cutFrame p
      = s.updPort p fun q =>
          { q with
            rx := .idle
            counters := { q.counters with
              lineDiscard := q.counters.lineDiscard + (if (s.port p).rx.uncounted then 1 else 0) } } := by
  unfold State.cutFrame
  split <;>
    simp [State.discardFrame, State.endReceive, State.setRx, State.countDiscard, State.count, State.updPort, Tab.modify,
      Tab.put_put, bump]

/-- A frame truncated: TRUNCATED is set, and the frame is cut (R156). -/
theorem State.truncate_eq (s : State) (p : PortId) (h : (s.port p).rx ≠ .idle) :
    s.truncate p
      = s.updPort p fun q =>
          { q with
            rx := .idle
            flags := { q.flags with truncated := true }
            counters := { q.counters with
              lineDiscard := q.counters.lineDiscard + (if (s.port p).rx.uncounted then 1 else 0) } } := by
  unfold State.truncate
  have hx : ∀ f, ((s.setFlags p f).port p).rx = (s.port p).rx := by simp [State.setFlags, State.port]
  rw [if_neg h, State.cutFrame_eq, hx]
  simp [State.setFlags, State.updPort, Tab.modify, Tab.put_put]

/-- A frame discarded at its header: it is counted, and its rest is ignored (R157, R158). -/
theorem State.discardAtHeader_eq (s : State) (p : PortId) :
    s.discardAtHeader p
      = s.updPort p fun q =>
          { q with
            rx := .rest true
            counters := { q.counters with lineDiscard := q.counters.lineDiscard + 1 } } := by
  simp [State.discardAtHeader, State.setRx, State.countDiscard, State.count, State.updPort, Tab.modify, Tab.put_put, bump]

/-- A frame truncated on PX: LINE_DISCARD counts it if it does not count it yet (R156, R165). -/
theorem State.truncatePx_eq (s : State) :
    s.truncatePx
      = s.updPx fun x =>
          { x with
            rx := .idle
            counters := { x.counters with
              lineDiscard := x.counters.lineDiscard + (if s.px.rx.uncounted then 1 else 0) } } := by
  unfold State.truncatePx
  split <;> simp [State.setPxRx, State.countPxDiscard, State.updPx, bump]

/-! ## Arrivals -/

/-- Keeping a row takes the buffer that its frame has given up (R28). -/
theorem State.keepRow_safe {s : State} {p : PortId} {h : RowHeader} {t : TileId} {g : SegId} {samples : List Sample}
    (hs : (s.port p).rx.buffers + 1 + (s.port p).taken.length + laneBuffers (s.lane p) + (s.port p).granted
      ≤ Config.rowBuffers) (h1 : s.PortSafe p) : (s.keepRow p h t g samples).PortSafe p := by
  have key : (s.updPort p fun q => { q with taken := q.taken ++ [⟨t, g, h.row.toNat, s.visit.slot, samples⟩] }).PortSafe p := by
    refine State.updPort_safe h1.1 ?_ h1.2.2.1 h1.2.2.2
    simp
    omega
  unfold State.keepRow
  exact (State.portSafe_congr (by simp) (by simp)).2 key

theorem State.arrive_other {s : State} {p q : PortId} (h : p ≠ q) (hd : RowHeader) (crcGood : Bool)
    (samples : List Sample) : (s.arrive p hd crcGood samples).ports.nth q = s.ports.nth q := by
  unfold State.arrive
  split
  · simp [State.count, h]
  · simp
    unfold State.applyDecision
    split <;> simp [State.count, State.keepRow, h]
    split <;> simp [h]

/-- Deciding an arrival keeps its port safe, whatever the decision (R29). -/
theorem State.arrive_safe {s : State} {p : PortId} (hd : RowHeader) (crcGood : Bool) (samples : List Sample)
    (h1 : s.PortSafe p)
    (hs : (s.port p).rx.buffers + 1 + (s.port p).taken.length + laneBuffers (s.lane p) + (s.port p).granted
      ≤ Config.rowBuffers) : (s.arrive p hd crcGood samples).PortSafe p := by
  unfold State.arrive
  split
  · exact State.count_safe h1 _
  · rename_i t g _
    refine (State.portSafe_congr (s := s.applyDecision p hd samples t g (s.decision hd crcGood t g))
      (by simp) (by simp)).2 ?_
    unfold State.applyDecision
    split
    · exact State.count_safe h1 _
    · dsimp only
      split
      · exact State.count_safe h1 _
      · have h2 := State.count_safe h1 (fun c => { c with afterEnd := bump c.afterEnd })
        exact (State.portSafe_congr (by simp) (by simp)).2 h2
    · exact (State.portSafe_congr (by simp) (by simp)).2 h1
    · exact (State.portSafe_congr (by simp) (by simp)).2 h1
    · exact (State.portSafe_congr (by simp) (by simp)).2 h1
    · exact (State.portSafe_congr (by simp) (by simp)).2 h1
    · have h2 := State.keepRow_safe (s := s.accountRow t g hd.row.toNat false) (p := p) (h := hd) (t := t) (g := g)
        (samples := samples) (by simpa [State.port, State.lane] using hs)
        ((State.portSafe_congr (by simp) (by simp)).2 h1)
      exact (State.portSafe_congr (by simp) (by simp)).2 h2

end Sys2Proof.Machine
end

