-- ==== Sys2Proof/Laws/Snaps.lean ====
section
/-! SUPPORT. The judgement of the open snap: what it sees, and what leaves it alone (R108). -/

namespace Sys2Proof.Machine

/-- The condition of R108, read tile by tile. -/
theorem snapComplete_iff (s : State) : s.snapComplete = true ↔ s.snapOpen = true ∧ (∀ t, (s.record t).state.terminal = true) ∧ s.visit.inFlight = 0 := by
  unfold State.snapComplete
  simp [Tab.all_iff, State.record, and_assoc]

/-- Two states look the same to the judgement of the open snap: snap state, rows in flight, and the state of every tile. -/
def State.SameJudge (s u : State) : Prop := u.visit.snap = s.visit.snap ∧ u.visit.inFlight = s.visit.inFlight ∧ ∀ t, (u.record t).state = (s.record t).state

/-- `SameJudge` goes on through two operations. -/
theorem State.SameJudge.trans {s u v : State} (h : s.SameJudge u) (h2 : u.SameJudge v) : s.SameJudge v := ⟨h2.1.trans h.1, h2.2.1.trans h.2.1, fun t => (h2.2.2 t).trans (h.2.2 t)⟩

/-- An operation that leaves the visit and the records alone leaves the judgement alone. -/
theorem State.SameJudge.of_eq {s u : State} (h1 : u.visit = s.visit) (h2 : u.intake.records = s.intake.records) : s.SameJudge u := by
  unfold State.SameJudge State.record; rw [h1, h2]; exact ⟨rfl, rfl, fun _ => rfl⟩

/-- A judged snap stays judged when the judgement sees the same. -/
theorem State.SnapJudged.same {s u : State} (h : s.SnapJudged) (hs : s.SameJudge u) : u.SnapJudged := by
  unfold State.SnapJudged at *
  rw [Bool.eq_false_iff] at *
  intro hc; apply h
  rw [snapComplete_iff] at *
  obtain ⟨a,b,c⟩ := hs
  refine ⟨?_, fun t => ?_, ?_⟩
  · have := hc.1; unfold State.snapOpen at *; rwa [a] at this
  · rw [← c]; exact hc.2.1 t
  · rw [← b]; exact hc.2.2

/-- With no snap open there is nothing to judge. -/
theorem State.SnapJudged.of_closed {u : State} (h : u.snapOpen = false) : u.SnapJudged := by
  unfold State.SnapJudged State.snapComplete; simp [h]

/-- The close of a visit leaves the snap state. -/
theorem closeVisit_snap (s : State) : s.closeVisit.visit.snap = s.visit.snap := by
  unfold State.closeVisit; simp

/-- The close of a visit leaves the snap's rows in flight. -/
theorem closeVisit_flight (s : State) : s.closeVisit.visit.inFlight = s.visit.inFlight := by
  unfold State.closeVisit; simp

/-- After the judgement no complete snap is open (R108). -/
theorem judgeSnap_judged (s : State) : s.judgeSnap.SnapJudged := by
  unfold State.judgeSnap
  split
  · refine State.SnapJudged.of_closed ?_
    unfold State.snapOpen State.finishSnap
    dsimp only
    split
    · rw [closeVisit_snap]; rfl
    · rfl
  · rename_i h; simpa [State.SnapJudged] using h

/-- Serving a return lane leaves the judgement alone. -/
theorem State.SameJudge.serveLane (s : State) (p) : s.SameJudge (s.serveLane p) := State.SameJudge.of_eq (by simp) (by simp)

/-- A change of a record that keeps its state leaves the judgement alone. -/
theorem State.SameJudge.updRecord (s : State) (t : TileId) (f : TileRecord → TileRecord) (hf : ∀ r, (f r).state = r.state) : s.SameJudge (s.updRecord t f) := by
  refine ⟨rfl, rfl, fun t' => ?_⟩
  simp [State.record]; split
  · rename_i e; subst e; simp [hf]
  · rfl

/-- Setting a tile's flags leaves the judgement alone. -/
theorem State.SameJudge.markTile (s : State) (t f) : s.SameJudge (s.markTile t f) := by
  unfold State.markTile
  exact State.SameJudge.trans (State.SameJudge.updRecord s t (fun r => { r with flags := f r.flags }) fun _ => rfl) (State.SameJudge.of_eq rfl rfl)

/-- A pixel leaves the judgement alone. -/
theorem State.SameJudge.depositPixel (s : State) (l a f) : s.SameJudge (s.depositPixel l a f) := by
  unfold State.depositPixel
  dsimp only
  have h0 : s.SameJudge (s.countPixel l.context l.tile (l.pixel a f)) := by
    unfold State.countPixel; split
    · apply State.SameJudge.updRecord; intro r; split <;> rfl
    · exact State.SameJudge.of_eq rfl rfl
  generalize s.countPixel l.context l.tile (l.pixel a f) = u at h0
  generalize l.context.placement.targets (l.seg.column l.next) (l.seg.tileRow l.row) = ts
  induction ts generalizing u with
  | nil => exact h0
  | cons g rest ih =>
    refine ih _ (State.SameJudge.trans h0 ?_)
    unfold State.depositTarget
    (repeat' split)
    · exact State.SameJudge.of_eq rfl rfl
    · exact State.SameJudge.of_eq (by simp) (by simp)
    · apply State.SameJudge.updRecord; intro r; rfl
    · exact State.SameJudge.of_eq rfl rfl

/-- The end of a row judges the snap (R107, R108). -/
theorem State.SnapJudged.endRow {s : State} (h : s.SnapJudged) (p l) : (s.endRow p l).SnapJudged := by
  unfold State.endRow
  dsimp only
  split
  · refine State.SnapJudged.same ?_ (State.SameJudge.serveLane _ _)
    exact judgeSnap_judged _
  · exact State.SnapJudged.same h (State.SameJudge.of_eq (by simp) (by simp))

/-- A pixel leaves no complete snap open. -/
theorem State.SnapJudged.nextPixel {s : State} (h : s.SnapJudged) (p l) : (s.nextPixel p l).SnapJudged := by
  unfold State.nextPixel
  split
  · exact State.SnapJudged.endRow h p l
  · dsimp only
    split
    · exact State.SnapJudged.endRow (State.SnapJudged.same h (State.SameJudge.depositPixel s _ _ _)) _ _
    · exact State.SnapJudged.same (State.SnapJudged.same h (State.SameJudge.depositPixel s _ _ _)) (State.SameJudge.of_eq rfl rfl)

end Sys2Proof.Machine
end

