-- ==== Sys2Proof/Laws/Tables.lean ====
section
/-! SUPPORT. The focal-plane tables: what keeps their records in range and the layouts consistent (R3, R7, R11 to R13). -/

namespace Sys2Proof.Machine

/-- The tables are in order after an operation that leaves them alone. -/
theorem State.TablesOk.of_eq {s u : State} (h : s.TablesOk) (h1 : u.tiles = s.tiles) (h2 : u.segs = s.segs) : u.TablesOk := by
  unfold State.TablesOk State.tile State.layout State.seg at *

  rw [h1, h2]; exact h

/-- The place of a segment in the segment table determines the tile and the segment (R178). -/
theorem segIndex_inj {t t' : TileId} {g g' : SegId} (h : segIndex t g = segIndex t' g') : t = t' ∧ g = g' := by
  have := congrArg Fin.val h
  simp [segIndex] at this
  constructor <;> apply Fin.ext <;> omega

/-- A tile record that TILE_SET carries is in range (R3, R10). -/
theorem tileFields_known {b q r} (h : tileFields b q = some r) : r.Known := by
  unfold tileFields at h
  split at h
  · simp at h
  · dsimp only at h
    split at h
    · rename_i hc
      simp at h; subst h
      unfold TileRec.Known
      dsimp only at *
      exact ⟨by omega, by omega, by omega, by omega, by omega, by omega, by omega, by omega, by omega, by omega, fun _ => by omega⟩
    · simp at h

/-- A segment record that SEGMENT_SET carries is in range (R7, R12). -/
theorem segFields_known {b r} (h : segFields b = some r) : r.Known := by
  unfold segFields at h
  split at h
  · dsimp only at h
    split at h
    · rename_i hc
      simp at h; subst h
      unfold SegRec.Known
      dsimp only at *
      omega
    · simp at h
  · simp at h

/-- A tile record is no part of any layout's segments. -/
theorem layout_setTile (s : State) (t r t' n) : (s.setTile t r).layout t' n = s.layout t' n := rfl

/-- A tile record in range, consistent when enabled, keeps the tables in order (R11). -/
theorem State.TablesOk.setTile {s : State} (h : s.TablesOk) (t) (r : TileRec) (hk : r.Known) (hl : r.enabled = true → consistentLayout r.width r.height (s.layout t r.segCount) = true) : (s.setTile t r).TablesOk := by
  have ht : ∀ t', (s.setTile t r).tile t' = if t = t' then r else s.tile t' := by intro t'; simp [State.tile]
  refine ⟨fun t' => ?_, h.2.1, fun t' => ?_⟩
  · rw [ht]; split
    · exact hk
    · exact h.1 t'
  · rw [ht, layout_setTile]; split
    · rename_i e; subst e; exact hl
    · exact h.2.2 t'

/-- A segment record in range that SEGMENT_SET allows keeps the tables in order (R12, R13). -/
theorem State.TablesOk.setSeg {s : State} (h : s.TablesOk) (t g) (r : SegRec) (hk : r.Known) (ha : s.segmentAllowed t g r = true) : (s.setSeg t g r).TablesOk := by
  have hs : ∀ t' g', (s.setSeg t g r).seg t' g' = if segIndex t g = segIndex t' g' then r else s.seg t' g' := by intro t' g'; simp [State.seg]
  refine ⟨h.1, fun t' g' => ?_, fun t' he => ?_⟩
  · rw [hs]; split
    · exact hk
    · exact h.2.1 t' g'
  · have he' : (s.tile t').enabled = true := he
    show consistentLayout (s.tile t').width (s.tile t').height ((s.setSeg t g r).layout t' (s.tile t').segCount) = true
    have same : (t ≠ t' ∨ ¬ g.val < (s.tile t').segCount) → (s.setSeg t g r).layout t' (s.tile t').segCount = s.layout t' (s.tile t').segCount := by
      intro hd
      unfold State.layout
      apply List.map_congr_left
      intro g' hg'
      rw [hs, if_neg]
      intro hc
      obtain ⟨e1, e2⟩ := segIndex_inj hc
      subst e1; subst e2
      simp at hg'
      rcases hd with hd | hd
      · exact hd rfl
      · exact hd hg'.2
    by_cases ht : t = t'
    · subst ht
      by_cases hg : g.val < (s.tile t).segCount
      · unfold State.segmentAllowed at ha
        simpa [he', hg] using ha
      · rw [same (Or.inr hg)]; exact h.2.2 t he'
    · rw [same (Or.inl ht)]; exact h.2.2 t' he'

/-- The quarantine state is no part of the tables' order (R14, R16). -/
theorem State.TablesOk.setQuarantine {s : State} (h : s.TablesOk) (t q) : (s.setQuarantine t q).TablesOk := by
  refine State.TablesOk.setTile h t _ ?_ ?_
  · exact h.1 t
  · exact h.2.2 t

end Sys2Proof.Machine
end

