-- ==== Sys2Proof/WellFormed.lean ====
section
/-! DEFINITION. When a step is well formed: its operands can come from the link.
Operand widths and indices are in the types; what is left is the kind byte of a header that names no kind. -/


namespace Sys2Proof

/-- A kind byte that names no kind (R182: "every other value names no kind"). -/
def namesNoKind (k : Byte) : Bool := k ∉ [1#8, 2#8, 3#8, 4#8, 5#8]

/-- A header is well formed when a header of unknown kind does not carry the code of a known one (R182, R183). -/
def Header.wellFormed : Header → Bool
  | .unknown kind _ => namesNoKind kind
  | _ => true

/-- A step is well formed when its header is. Every other operand is well formed by its type. -/
def Instr.wellFormed : Instr → Bool
  | .frameHeader _ h _ => h.wellFormed
  | _ => true

end Sys2Proof
end

