-- ==== Sys2Proof/Tests/Slice0.lean ====
section
/-! SUPPORT. The model's own tests: the refused ill-formed step, worked examples of the spec, and for every obligation that has
hypotheses a witness: concrete states and operands that meet the hypotheses of each clause together, at the boundaries of their
ranges. -/

namespace Sys2Proof.Tests

open Sys2Proof Sys2Proof.Machine

set_option Elab.async false

/-! ## Well-formedness -/

/-- A header of unknown kind with a known kind's byte is ill-formed, and is refused; a kind byte that names no kind is not. -/
theorem test_ill_formed_header_is_refused :
    (Instr.frameHeader .px (.unknown 1 0) 0).wellFormed = false ∧ (Instr.frameHeader .px (.unknown 5 0) 0).wellFormed = false
      ∧ (Instr.frameHeader .px (.unknown 0 0) 0).wellFormed = true ∧ (Instr.frameHeader .px (.unknown 6 0) 0).wellFormed = true := by
  decide +kernel

/-! ## Small states -/

/-- A state with port P0 changed. -/
def onP0 (f : Port → Port) (s : State) : State := s.updPort 0 f

/-- P0 UP, its return lane busy with the announcement of every buffer, and one CTL frame waiting. -/
def asked (code : Byte) (payload : List Byte) (s : State) : State :=
  onP0 (fun q => { q with link := .up, lane := some (.crd 32), granted := 32, queue := [⟨code, 7, payload⟩] }) s

/-- The result and the data part of the last response that waits on P0 after a step. -/
def answer (i : Instr) (s : State) : Option (Result × List Byte) :=
  match exec i s with
  | .next t => (t.port 0).backlog.getLast?.map fun r => (r.word.result, r.data)
  | _ => none

/-- The frame of `asked` heads its queue: a witness of `State.Heads` for every command, payload and state. -/
theorem test_asked_heads (code : Byte) (payload : List Byte) (s : State) :
    (asked code payload s).Heads 0 ⟨code, 7, payload⟩ code payload.length := by
  refine ⟨?_, rfl, rfl⟩
  simp [asked, onP0, State.port, State.updPort]

/-- A tile of four columns and two rows, read out by one segment. -/
def tile0 : TileRec := { TileRec.reset with enabled := true, width := 4, height := 2, segCount := 1 }

/-- The segment of `tile0`. -/
def seg0 : SegRec := { SegRec.reset with width := 4, height := 2 }

/-- Tile 0 is enabled, over a canvas of two columns and two rows whose cells are empty. -/
def focal : State :=
  let s := (State.reset.setTile 0 tile0).setSeg 0 0 seg0
  let empty := Cell.empty 0
  { s with canvas := { s.canvas with
      width := 2, height := 2, banks := .fill 2 { Bank.reset with cells := [(0, empty), (1, empty), (2, empty), (3, empty)] } } }

/-- A visit of three snaps is open on bank 0, between snaps. -/
def visiting : State :=
  let s := focal.updBank 0 fun k => { k with state := .filling, epoch := 1 }
  { s with visit := { s.visit with
      state := .betweenSnaps, tag := 9, expected := 3, records := s.visit.records.put 0 (some ⟨9, 0⟩) } }

/-- A snap is open, and tile 0 is in a given state of it. -/
def snapping (st : TileState) : State :=
  let s := visiting.updRecord 0 fun _ => .cleared st
  { s with
    visit := { s.visit with state := .inSnap, snap := .opened }
    placements := s.placements.put 0 (some (placeTile tile0 0 0)) }

/-- A row of tile 0. -/
def row0 : TakenRow := ⟨0, 0, 0, 0, [100, 200, 262143, 400]⟩

/-- A started row of tile 0 with the given samples still to do. -/
def lane0 (todo : List (Sample × Flat)) : Lane where
  tile := 0
  row := 0
  seg := seg0
  flatState := .unloaded
  bias := 0
  next := 4 - todo.length
  todo := todo
  context := { placement := placeTile tile0 0 0, slot := 0, bank := 0, counting := true }

/-- The row of `lane0` is in P0's lane, and its next pixel waits to be deposited. -/
def depositing (todo : List (Sample × Flat)) : State :=
  let s := ((snapping .receiving).setLane 0 (some (lane0 todo))).setInFlight 0 1
  let s1 := s.updBank 0 fun k => { k with depositHolds := 1 }
  { s1 with visit := { s1.visit with inFlight := 1 }, pending := [.pixelDeposit 0] }

/-- A product of one row of two pixels. -/
def product0 : Product := { Product.reset with enabled := true, id := 5, x1 := 1 }

/-- Bank 0 is CLOSED and waits, in MANUAL, with one product in the list. -/
def closedBank : State :=
  let s := focal.updBank 0 fun k => { k with state := .closed, epoch := 1 }
  { s with
    visit := { s.visit with records := s.visit.records.put 0 (some ⟨9, 1⟩) }
    resolve := { s.resolve with trigger := .manual, waiting := [0], products := s.resolve.products.put 0 product0 } }

/-- A pass on bank 0 is in the given state, with the given rows on PX and credits. -/
def passing (st : ResolveState) (lane : Option PrdFrame) (credits : Nat) : State :=
  let s := closedBank.updBank 0 fun k => { k with state := .resolving, readHold := true }
  { s with
    px := { s.px with link := .up, lane := lane, credits := credits }
    resolve := { s.resolve with
      state := st, waiting := [], snapshot := some (s.takeSnapshot 0), building := some (s.freshReport 0 1), passNumber := 1 } }

/-- A row of `product0` on PX. -/
def frame0 (last : Bool) : PrdFrame := ⟨5, 9, 1, 0, last, .v, []⟩

/-! ## Arithmetic and encodings -/

/-- The examples of R1, and a quotient exactly halfway for the second clause. -/
theorem test_rounding_witness :
    roundDiv 5 2 = 3 ∧ roundDiv (-5) 2 = -3 ∧ floorDiv (-1) 2 = -1 ∧ (0 : Int) < 2
      ∧ (2 * ((5 : Int) - 2 * roundDiv 5 2)).natAbs = (2 : Int).natAbs := by decide +kernel

/-- The CRC of R2 of the nine bytes "123456789" is 29B1h, the known value of this generator and start. -/
theorem test_crc_check_value :
    crc16 [0x31, 0x32, 0x33, 0x34, 0x35, 0x36, 0x37, 0x38, 0x39] = 0x29B1#16 ∧ ([0x31#8] : List Byte) ≠ [] := by decide +kernel

/-- Values at the ends of two-byte fields, and the two lengths at which packed samples change. -/
theorem test_field_witness :
    0 < 256 ^ 0 ∧ 65535 < 256 ^ 2 ∧ -(256 ^ 2 / 2 : Nat) ≤ (-32768 : Int) ∧ (32767 : Int) < (256 ^ 2 / 2 : Nat)
      ∧ signedField (beInt 2 (-32768)) 0 2 = -32768 ∧ signedField (beInt 2 32767) 0 2 = 32767
      ∧ (List.replicate 8 (0 : Byte)).length < 9 ∧ (List.replicate 9 (0 : Byte)).length = packedSize 1
      ∧ (List.replicate 9 (0 : Byte)).length = packedSize 4 ∧ (List.replicate 18 (0 : Byte)).length = packedSize 5
      ∧ ([] : List Byte).length = packedSize 0 := by decide +kernel

/-- The first and the last of four samples in nine bytes (R184). -/
theorem test_samples_are_unpacked :
    unpackSamples 4 [0xFF, 0xFF, 0xC0, 0, 0, 0, 0, 0, 1] = [0x3FFFF, 0, 0, 1]
      ∧ unpackSamples 1 [0, 0, 0x40, 0, 0, 0, 0, 0, 0] = [1] := by decide +kernel

/-- A status word at power-on and one with every latched fault have attention codes within 4. -/
theorem test_status_word_witness :
    (State.reset.statusWord 0 0 0 .ok).attention ≤ 4
      ∧ ({ State.reset with status := ⟨true, true, true, true, true, true⟩ }.statusWord 0 0 0 .ok).attention ≤ 4
      ∧ ({ State.reset with status := ⟨false, false, false, false, false, true⟩ }.statusWord 0 0 0 .ok).attention = 4 := by
  decide +kernel

/-- Each condition alone, and FAULT over all of them. -/
theorem test_attention_witness :
    (⟨true, false, false, true, true, true⟩ : Status).fault = true
      ∧ (⟨false, false, false, true, true, true⟩ : Status).fault = false
      ∧ (⟨false, false, false, true, true, true⟩ : Status).attentionCode = 2
      ∧ (⟨false, false, false, false, true, true⟩ : Status).attentionCode = 3
      ∧ (⟨false, false, false, false, false, true⟩ : Status).attentionCode = 4
      ∧ (⟨false, false, false, false, false, false⟩ : Status).attentionCode = 0 := by decide +kernel

/-! ## Lines and frames -/

/-- P0 UP with its lane in a given state. -/
def lined (f : Port → Port) : State := onP0 (fun q => f { q with link := .up }) State.reset

/-- A response. -/
def rsp0 : Rsp := ⟨State.reset.statusWord 0 0 7 .ok, []⟩

/-- The return lane: DOWN; busy; free buffers and nothing owed, or nothing waiting; no free buffer and an RSP waiting; an RSP
owed; nothing to send. -/
theorem test_return_lane_witness :
    (State.reset.port 0).link = .down
      ∧ ((lined fun q => { q with lane := some (.crd 1) }).port 0).lane = some (.crd 1)
      ∧ ((lined fun q => { q with lane := some (.rsp rsp0) }).port 0).lane = some (.rsp rsp0)
      ∧ (let q := (lined fun q => { q with granted := 31, backlog := [rsp0] }).port 0
         q.link = .up ∧ q.lane = none ∧ 0 < 32 - q.granted ∧ q.owed = 0)
      ∧ (let q := (lined fun q => { q with granted := 31, owed := 1 }).port 0
         q.link = .up ∧ q.lane = none ∧ 0 < 32 - q.granted ∧ q.backlog = [])
      ∧ (let q := (lined fun q => { q with granted := 32, backlog := [rsp0] }).port 0
         q.link = .up ∧ q.lane = none ∧ q.backlog = [rsp0] ∧ 32 - q.granted = 0)
      ∧ (let q := (lined fun q => { q with granted := 31, backlog := [rsp0], owed := 1 }).port 0
         q.link = .up ∧ q.lane = none ∧ q.backlog = [rsp0] ∧ q.owed ≠ 0)
      ∧ (let q := (lined fun q => { q with granted := 32 }).port 0
         q.link = .up ∧ q.lane = none ∧ 32 - q.granted = 0 ∧ q.backlog = []) := by decide +kernel

/-- Responses: UP with a backlog of seven, UP with eight, and DOWN. -/
theorem test_response_witness :
    (let q := (lined fun q => { q with backlog := List.replicate 7 rsp0 }).port 0
     q.link = .up ∧ q.backlog.length < 8)
      ∧ 8 ≤ ((lined fun q => { q with backlog := List.replicate 8 rsp0 }).port 0).backlog.length
      ∧ (State.reset.port 0).link = .down := by decide +kernel

/-- Line events: UP; DOWN with 31 buffers occupied, and with 32, a quiet port. -/
theorem test_line_event_witness :
    ((lined id).port 0).link = .up
      ∧ (let s := onP0 (fun q => { q with taken := List.replicate 31 row0 }) State.reset
         (s.port 0).link = .down ∧ s.occupied 0 < 32 ∧ (s.port 0).rx = .idle ∧ (s.port 0).lane = none
           ∧ (s.port 0).backlog = [] ∧ (s.port 0).granted = 0)
      ∧ (let s := onP0 (fun q => { q with taken := List.replicate 32 row0 }) State.reset
         (s.port 0).link = .down ∧ 32 ≤ s.occupied 0 ∧ (s.port 0).rx = .idle ∧ (s.port 0).lane = none
           ∧ (s.port 0).backlog = [] ∧ (s.port 0).granted = 0) := by decide +kernel

/-- PX with a frame in progress that waits for its header. -/
def receivingPx (s : State) : State := s.updPx fun x => { x with link := .up, rx := .awaitingHeader }

/-- Line events of PX: DOWN; UP and idle; UP with a row in transmission. Headers: no frame in progress; a bad CRC; a kind that
is not CRD; a good CRD for a sequencer that waits (one credit), for one that does not, and with no credit. -/
theorem test_product_port_witness :
    (State.reset.px.link = .down ∧ State.reset.px.rx = .idle ∧ ((receivingPx State.reset).setPxRx (.rest true)).px.rx = .rest true)
      ∧ ((passing .running none 0).px.link = .up ∧ (passing .running none 0).px.lane = none)
      ∧ (passing .running (some (frame0 true)) 0).px.lane = some (frame0 true)
      ∧ ((receivingPx State.reset).px.rx = .awaitingHeader ∧ crc16 (headerBytes (.crd 0 1)) ≠ 0)
      ∧ (∀ n : Byte, Header.rsp 0 ≠ .crd 0 n) ∧ (∀ n : Byte, Header.crd 1 0 ≠ .crd 0 n)
      ∧ (let s := receivingPx (passing .running none 0)
         s.px.rx = .awaitingHeader ∧ s.resolve.state = .running ∧ s.px.lane = none ∧ 1 ≤ s.px.credits + (1#8 : Byte).toNat)
      ∧ (let s := receivingPx (passing .running none 0)
         s.px.rx = .awaitingHeader ∧ min 65535 (s.px.credits + (0#8 : Byte).toNat) = 0)
      ∧ (receivingPx State.reset).resolve.state ≠ .running
      ∧ (receivingPx (passing .running (some (frame0 true)) 0)).px.lane ≠ none :=
  ⟨by decide +kernel, by decide +kernel, by decide +kernel, by decide +kernel, nofun, by simp, by decide +kernel,
    by decide +kernel, by decide +kernel, by decide +kernel⟩

/-- Frames in progress on P0: none, one that waits for its header, and none on a line that is DOWN; headers that an ingress port
does not accept. -/
theorem test_bad_frame_witness :
    ((lined id).port 0).rx = .idle ∧ ((lined fun q => { q with rx := .awaitingHeader }).port 0).rx ≠ .idle
      ∧ ((lined fun q => { q with rx := .awaitingHeader }).port 0).rx = .awaitingHeader
      ∧ (State.reset.port 0).link = .down ∧ State.reset.px.link = .down ∧ (receivingPx State.reset).px.link = .up
      ∧ crc16 (headerBytes (.rsp 0)) ≠ 0
      ∧ (∀ len tile seg tag slot row count, Header.rsp 0 ≠ .row len tile seg tag slot row count)
      ∧ (∀ len code request, Header.rsp 0 ≠ .ctl len code request)
      ∧ ((lined fun q => { q with rx := .rest true }).port 0).rx = .rest true :=
  ⟨by decide +kernel, by decide +kernel, by decide +kernel, by decide +kernel, by decide +kernel, by decide +kernel,
    by decide +kernel, nofun, nofun, by decide +kernel⟩

/-- The state after a step that answers a next state. -/
def after (i : Instr) (s : State) : State :=
  match exec i s with
  | .next t => t
  | _ => s

/-- A frame of no kind on P0 is counted once, when its header arrives; a new start delimiter before its end sets TRUNCATED, an end
delimiter ends it (R156, R157; log 5). -/
theorem test_ignored_rest :
    let h := Header.unknown 9 0
    let u := after (.frameHeader (.ingress 0) h (crc16 (headerBytes h)))
      (lined fun q => { q with rx := .awaitingHeader, granted := 32 })
    let cut := (after (.startDelimiter (.ingress 0)) u).port 0
    let done := (after (.rowEndDelimiter (.ingress 0) []) u).port 0
    (u.port 0).flags.unknownKind = true ∧ (u.port 0).counters.lineDiscard = 1 ∧ (u.port 0).rx = .rest true
      ∧ cut.flags.truncated = true ∧ cut.counters.lineDiscard = 1 ∧ cut.rx = .awaitingHeader
      ∧ done.flags.truncated = false ∧ done.rx = .idle := by decide +kernel

/-- A CRD on PX gives its credits at its header; an idle line before its end delimiter counts it in LINE_DISCARD (R156, R165). -/
theorem test_truncated_crd :
    let h := Header.crd 0 5
    let u := after (.frameHeader .px h (crc16 (headerBytes h))) (receivingPx State.reset)
    let cut := (after (.lineIdleTruncation .px) u).px
    let done := (after (.ctlEndDelimiter .px []) u).px
    u.px.credits = 5 ∧ u.px.counters.crdIn = 1 ∧ u.px.counters.lineDiscard = 0
      ∧ cut.credits = 5 ∧ cut.counters.lineDiscard = 1 ∧ cut.rx = .idle
      ∧ done.counters.lineDiscard = 0 ∧ done.rx = .idle := by decide +kernel

/-- ROW headers: 4,160 samples and 9,360 bytes fit, one more or one less of either does not; 31 buffers occupied, and 32. -/
theorem test_row_header_witness :
    ((4160#16).toNat ≤ 4160 ∧ (9360#24).toNat = 9 * (((4160#16).toNat + 3) / 4))
      ∧ ¬(4161#16).toNat ≤ 4160 ∧ (9359#24).toNat ≠ 9 * (((4160#16).toNat + 3) / 4)
      ∧ (let s := lined fun q => { q with rx := .awaitingHeader, taken := List.replicate 31 row0 }
         (s.port 0).rx = .awaitingHeader ∧ s.occupied 0 < 32)
      ∧ (let s := lined fun q => { q with rx := .awaitingHeader, taken := List.replicate 32 row0 }
         (s.port 0).rx = .awaitingHeader ∧ 32 ≤ s.occupied 0)
      ∧ (let s := snapping .waiting
         (s.tile 0).enabled = true ∧ 0 < (s.tile 0).segCount ∧ s.snapOpen = true ∧ s.visit.tag = 9 ∧ s.visit.slot = 0
           ∧ (s.record 0).state = .waiting)
      ∧ (State.reset.tile 15).enabled = false ∧ (snapping .off).snapOpen = true
      ∧ ((snapping .absent).record 0).state.terminal = true ∧ 16 ≤ (16#8).toNat := by decide +kernel

/-- A ROW frame of one sample: 11 bytes are whole and 10 are not; a good and a bad CRC; a frame declared empty. -/
theorem test_row_frame_end_witness :
    (let s := lined fun q => { q with rx := .row ⟨0, 0, 9, 0, 0, 1⟩ 9 }
     (s.port 0).rx = .row ⟨0, 0, 9, 0, 0, 1⟩ 9)
      ∧ (List.replicate 11 (0 : Byte)).length = 9 + 2 ∧ (List.replicate 10 (0 : Byte)).length ≠ 9 + 2
      ∧ (crc16 (List.replicate 9 0)).toNat = field (List.replicate 9 0 ++ beBytes 2 (crc16 (List.replicate 9 0)).toNat) 9 2
      ∧ (crc16 (List.replicate 9 0)).toNat ≠ field (List.replicate 11 0) 9 2 ∧ ([] : List Byte) = [] := by decide +kernel

/-- A CTL frame of one byte: whole and good, whole and bad, not whole; lengths at the limit; queues of one and of two frames. -/
theorem test_ctl_frame_witness :
    (let s := lined fun q => { q with rx := .ctl 0x54 7 1, queue := [⟨0, 1, []⟩] }
     (s.port 0).rx = .ctl 0x54 7 1 ∧ (s.port 0).queue.length < 2)
      ∧ (let s := lined fun q => { q with rx := .ctl 0x54 7 1, queue := [⟨0, 1, []⟩, ⟨0, 2, []⟩] }
         (s.port 0).rx = .ctl 0x54 7 1 ∧ 2 ≤ (s.port 0).queue.length)
      ∧ ([1, 0, 0] : List Byte).length = 1 + 2 ∧ ([1, 0] : List Byte).length ≠ 1 + 2
      ∧ (crc16 [1]).toNat = field (1 :: beBytes 2 (crc16 [1]).toNat) 1 2 ∧ (crc16 [1]).toNat ≠ field [1, 0, 0] 1 2
      ∧ 2055 ≤ 2055 ∧ ¬2056 ≤ 2055
      ∧ ((lined fun q => { q with rx := .awaitingHeader }).port 0).rx = .awaitingHeader := by decide +kernel

/-! ## Row Intake -/

/-- Arrivals that are dropped: tile 16; tile 1, which is not enabled; segment 1, not in use; no snap open; a tile after its end
in each way; a row below the next expected one; a row at the segment's height. Each state is judged. -/
theorem test_dropped_arrival_witness :
    16 ≤ (16#8).toNat ∧ ((snapping .waiting).tile 1).enabled = false ∧ ((snapping .waiting).tile 0).segCount ≤ (1#8).toNat
      ∧ (visiting.snapOpen = false ∧ visiting.snapComplete = false ∧ (visiting.tile 0).enabled = true)
      ∧ ((snapping .waiting).snapComplete = false ∧ (9#8 : Byte) = (snapping .waiting).visit.tag)
      ∧ (∀ st ∈ [TileState.complete, .short, .stalled, .absent, .quarantined, .off],
          let s := (snapping st).updRecord 1 fun r => { r with state := .waiting }
          s.snapOpen = true ∧ s.snapComplete = false ∧ (s.record 0).state = st)
      ∧ (let s := (snapping .receiving).setNextRow 0 0 1
         s.snapComplete = false ∧ (0#16).toNat < s.nextRow 0 0)
      ∧ ((snapping .waiting).nextRow 0 0 ≤ (2#16).toNat ∧ ((snapping .waiting).seg 0 0).height ≤ (2#16).toNat) := by decide +kernel

/-- Arrivals that move the tile: the first and the last row of the segment, a good payload and a bad one, the right sample count
and a wrong one. A tile received in full with no row in flight, with one, and a tile not received in full. -/
theorem test_moving_arrival_witness :
    (let s := snapping .waiting
     (s.tile 0).enabled = true ∧ 0 < (s.tile 0).segCount ∧ s.snapOpen = true ∧ (9#8 : Byte) = s.visit.tag ∧ s.visit.slot = 0
       ∧ (s.record 0).state = .waiting ∧ s.nextRow 0 0 ≤ (0#16).toNat ∧ (1#16).toNat < (s.seg 0 0).height
       ∧ (4#16).toNat = (s.seg 0 0).width + (s.seg 0 0).overscan ∧ (5#16).toNat ≠ (s.seg 0 0).width + (s.seg 0 0).overscan)
      ∧ (let s := (snapping .receiving).setNextRow 0 0 2
         (s.record 0).state = .receiving ∧ (∀ g : SegId, g.val < (s.tile 0).segCount → s.nextRow 0 g = (s.seg 0 g).height)
           ∧ s.inFlight 0 = 0 ∧ (s.setInFlight 0 1).inFlight 0 ≠ 0)
      ∧ (let s := (snapping .receiving).setNextRow 0 0 1
         ¬∀ g : SegId, g.val < (s.tile 0).segCount → s.nextRow 0 g = (s.seg 0 g).height) := by decide +kernel

/-- Expiries: a stall timer stopped, and running on a RECEIVING tile; a drain timer stopped, and running while a snap drains,
with tiles WAITING, RECEIVING in part, terminal, and RECEIVING in full. -/
theorem test_expiry_witness :
    (State.reset.stallTimer 0 = .stopped ∧ State.reset.visit.drain = .stopped)
      ∧ (let s := (snapping .receiving).setStall 0 (.running 50)
         s.stallTimer 0 = .running 50 ∧ (s.record 0).state = .receiving)
      ∧ (∀ st ∈ [TileState.waiting, .receiving, .short],
          let s := (snapping st).beginDrain
          s.visit.drain = .running 200 ∧ s.visit.snap = .draining ∧ (s.record 0).state = st
            ∧ (s.record 1).state.terminal = true
            ∧ ¬∀ g : SegId, g.val < (s.tile 0).segCount → s.nextRow 0 g = (s.seg 0 g).height)
      ∧ (let s := ((snapping .receiving).setNextRow 0 0 2).beginDrain
         s.visit.snap = .draining ∧ (s.record 0).state = .receiving
           ∧ ∀ g : SegId, g.val < (s.tile 0).segCount → s.nextRow 0 g = (s.seg 0 g).height) := by decide +kernel

/-- INTAKE_SET at the ends of both ranges: 0 and 255, 1 and 1000; and just outside. -/
theorem test_intake_set_witness :
    answer (.intakeSet 0) (asked 0x10 [0, 0, 0, 1] focal) = some (.ok, [])
      ∧ answer (.intakeSet 0) (asked 0x10 [0, 255, 3, 0xE8] focal) = some (.ok, [])
      ∧ answer (.intakeSet 0) (asked 0x10 [1, 0, 0, 1] focal) = some (.range, [])
      ∧ answer (.intakeSet 0) (asked 0x10 [0, 0, 0, 0] focal) = some (.range, [])
      ∧ answer (.intakeSet 0) (asked 0x10 [0, 0, 3, 0xE9] focal) = some (.range, []) := by decide +kernel

/-! ## Tables and memories -/

/-- Two segments side by side share no pixel; one column over, they do. -/
theorem test_layout_is_consistent :
    consistentLayout 8 2 [seg0, { seg0 with colOrigin := 4 }] = true
      ∧ consistentLayout 8 2 [seg0, { seg0 with colOrigin := 3 }] = false
      ∧ consistentLayout 7 2 [seg0, { seg0 with colOrigin := 4 }] = false := by decide +kernel

/-- A TILE_SET payload: tile, enabled, width, height, one segment, no offset, no fine position, orientation 0. -/
def tileSetBytes (tile enabled width height orientation : Byte) : List Byte :=
  [tile, enabled, 0, width, 0, height, 1, 0, 0, 0, 0, 0, 0, orientation]

/-- TILE_SET: tile 16; the visit lock; a field out of range; a layout that does not fit; a record set, enabled or not. -/
theorem test_tile_set_witness :
    answer (.tileSet 0) (asked 0x20 (tileSetBytes 16 1 4 2 0) focal) = some (.range, [])
      ∧ answer (.tileSet 0) (asked 0x20 (tileSetBytes 15 0 4 2 0) visiting) = some (.locked, [])
      ∧ visiting.visitLock = true ∧ focal.visitLock = false
      ∧ answer (.tileSet 0) (asked 0x20 (tileSetBytes 0 2 4 2 0) focal) = some (.range, [])
      ∧ answer (.tileSet 0) (asked 0x20 (tileSetBytes 0 1 4 2 8) focal) = some (.range, [])
      ∧ answer (.tileSet 0) (asked 0x20 (tileSetBytes 0 1 3 2 7) focal) = some (.range, [])
      ∧ answer (.tileSet 0) (asked 0x20 (tileSetBytes 0 0 3 2 7) focal) = some (.ok, [])
      ∧ answer (.tileSet 0) (asked 0x20 (tileSetBytes 0 1 4 2 7) focal) = some (.ok, []) := by decide +kernel

/-- A SEGMENT_SET payload: tile, segment, origin 0 and 0, width, height, not reversed, no overscan, k, then the limits. -/
def segmentSetBytes (tile seg width height shift : Byte) : List Byte :=
  [tile, seg, 0, 0, 0, 0, 0, width, 0, height, 0, 0, 0, 0, shift, 0, 0, 0, 16, 0, 3, 0xFF, 0xFF, 0xF8, 0, 0, 0]

/-- SEGMENT_SET: tile 16 and segment 4; the visit lock for an enabled tile, and not for another; a field out of range; a
segment in use that does not fit, the same segment not in use, and one that fits. -/
theorem test_segment_set_witness :
    answer (.segmentSet 0) (asked 0x23 (segmentSetBytes 16 0 4 2 7) focal) = some (.range, [])
      ∧ answer (.segmentSet 0) (asked 0x23 (segmentSetBytes 0 4 4 2 7) focal) = some (.range, [])
      ∧ answer (.segmentSet 0) (asked 0x23 (segmentSetBytes 0 0 4 2 7) visiting) = some (.locked, [])
      ∧ answer (.segmentSet 0) (asked 0x23 (segmentSetBytes 1 3 4 2 7) visiting) = some (.ok, [])
      ∧ answer (.segmentSet 0) (asked 0x23 (segmentSetBytes 0 0 4 2 8) focal) = some (.range, [])
      ∧ answer (.segmentSet 0) (asked 0x23 (segmentSetBytes 0 0 5 2 7) focal) = some (.range, [])
      ∧ answer (.segmentSet 0) (asked 0x23 (segmentSetBytes 0 1 5 2 7) focal) = some (.ok, [])
      ∧ answer (.segmentSet 0) (asked 0x23 (segmentSetBytes 0 0 3 2 7) focal) = some (.ok, []) := by decide +kernel

/-- TILE_QUARANTINE: tile 16; a WAITING and a RECEIVING tile of an open snap; a tile after its end; no snap open. TILE_RESTORE:
tiles 15 and 16. -/
theorem test_quarantine_witness :
    answer (.tileQuarantine 0) (asked 0x21 [16] focal) = some (.range, [])
      ∧ ((snapping .waiting).snapOpen = true ∧ ((snapping .waiting).record 0).state = .waiting)
      ∧ ((snapping .receiving).record 0).state = .receiving ∧ ((snapping .short).record 0).state.terminal = true
      ∧ visiting.snapOpen = false
      ∧ answer (.tileQuarantine 0) (asked 0x21 [0] (snapping .waiting)) = some (.ok, [])
      ∧ answer (.tileRestore 0) (asked 0x22 [16] focal) = some (.range, [])
      ∧ answer (.tileRestore 0) (asked 0x22 [15] focal) = some (.ok, []) := by decide +kernel

/-- `focal` with the flat of tile 0 in a given state. -/
def flatted (st : FlatState) : State := focal.updFlat 0 fun m => { m with state := st }

/-- FLAT_CLEAR: tile 16; the lock; not locked. FLAT_CLEAR_END: CLEARING, and not. -/
theorem test_flat_clear_witness :
    answer (.flatClear 0) (asked 0x30 [16] focal) = some (.range, [])
      ∧ answer (.flatClear 0) (asked 0x30 [0] visiting) = some (.locked, [])
      ∧ answer (.flatClear 0) (asked 0x30 [15] visiting) = some (.ok, [])
      ∧ ((flatted .clearing).flat 0).state = .clearing ∧ ((flatted .loaded).flat 0).state ≠ .clearing := by decide +kernel

/-- FLAT_WRITE: tile 16; the lock; a flat that is not LOADED; a run one column too long, a row too high and an empty run; a run
inside, over tables and memories in order. -/
theorem test_flat_write_witness :
    answer (.flatWrite 0) (asked 0x31 [16, 0, 0, 0, 0, 0, 1, 1, 2] focal) = some (.range, [])
      ∧ answer (.flatWrite 0) (asked 0x31 [0, 0, 0, 0, 0, 0, 1, 1, 2] visiting) = some (.locked, [])
      ∧ answer (.flatWrite 0) (asked 0x31 [0, 0, 0, 0, 0, 0, 1, 1, 2] (flatted .clearing)) = some (.state, [])
      ∧ answer (.flatWrite 0) (asked 0x31 [0, 0, 1, 0, 3, 0, 2, 1, 2, 3, 4] (flatted .loaded)) = some (.range, [])
      ∧ answer (.flatWrite 0) (asked 0x31 [0, 0, 2, 0, 3, 0, 1, 1, 2] (flatted .loaded)) = some (.range, [])
      ∧ answer (.flatWrite 0) (asked 0x31 [0, 0, 1, 0, 3, 0, 0] (flatted .loaded)) = some (.range, [])
      ∧ answer (.flatWrite 0) (asked 0x31 [0, 0, 1, 0, 3, 0, 1, 1, 2] (flatted .loaded)) = some (.ok, [])
      ∧ Memory.wf (asked 0x31 [0, 0, 1, 0, 3, 0, 1, 1, 2] (flatted .loaded)) = true := by decide +kernel

/-- The tables of `focal` are in order, as FLAT_WRITE's last clause and the invariant of the tables ask. -/
theorem test_tables_witness (st : FlatState) : (asked 0x31 [0, 0, 1, 0, 3, 0, 1, 1, 2] (flatted st)).TablesOk := by
  unfold State.TablesOk TileRec.Known SegRec.Known
  cases st <;> decide +kernel

/-- FLAT_READ: tile 16; CLEARING; outside; inside a flat that is UNLOADED and one that is LOADED. -/
theorem test_flat_read_witness :
    answer (.flatRead 0) (asked 0x32 [16, 0, 0, 0, 0, 0, 1] focal) = some (.range, [])
      ∧ answer (.flatRead 0) (asked 0x32 [0, 0, 0, 0, 0, 0, 1] (flatted .clearing)) = some (.state, [])
      ∧ answer (.flatRead 0) (asked 0x32 [0, 0, 0, 0, 4, 0, 1] (flatted .loaded)) = some (.range, [])
      ∧ answer (.flatRead 0) (asked 0x32 [0, 0, 1, 0, 3, 0, 1] focal) = some (.ok, [0, 0, 1, 0, 3, 0, 1, 0x40, 0])
      ∧ answer (.flatRead 0) (asked 0x32 [0, 0, 1, 0, 3, 0, 1] ((flatted .loaded).writeFlat 0 3 1 [0x1234]))
          = some (.ok, [0, 0, 1, 0, 3, 0, 1, 0x12, 0x34]) := by decide +kernel

/-- CANVAS_SET: a bank that is not FREE; 0 and 16,385; 1 and 16,384. The scrub: a position before the last, the last, and a bank
that is not SCRUBBING. -/
theorem test_canvas_witness :
    answer (.canvasSet 0) (asked 0x40 [0, 1, 0, 1] visiting) = some (.state, [])
      ∧ answer (.canvasSet 0) (asked 0x40 [0, 0, 0, 1] focal) = some (.range, [])
      ∧ answer (.canvasSet 0) (asked 0x40 [0, 1, 0x40, 1] focal) = some (.range, [])
      ∧ answer (.canvasSet 0) (asked 0x40 [0, 1, 0x40, 0] focal) = some (.ok, [])
      ∧ (∀ b, (focal.bank b).state = .free) ∧ (visiting.bank 0).state ≠ .free
      ∧ (let s := focal.updBank 0 fun k => { k with state := .scrubbing, scrubPos := 2 }
         (s.bank 0).state = .scrubbing ∧ (s.bank 0).scrubPos + 1 < s.canvas.width * s.canvas.height)
      ∧ (let s := focal.updBank 0 fun k => { k with state := .scrubbing, scrubPos := 3 }
         (s.bank 0).state = .scrubbing ∧ s.canvas.width * s.canvas.height ≤ (s.bank 0).scrubPos + 1)
      ∧ (focal.bank 0).state ≠ .scrubbing := by decide +kernel

/-- CELL_PEEK: bank 2; a column and a row off the canvas; the last cell, not current while the visit is open. -/
theorem test_cell_peek_witness :
    answer (.cellPeek 0) (asked 0x41 [2, 0, 0, 0, 0] focal) = some (.range, [])
      ∧ answer (.cellPeek 0) (asked 0x41 [0, 0, 2, 0, 0] focal) = some (.range, [])
      ∧ answer (.cellPeek 0) (asked 0x41 [0, 0, 0, 0, 2] focal) = some (.range, [])
      ∧ answer (.cellPeek 0) (asked 0x41 [0, 0, 1, 0, 1] visiting)
          = some (.ok, [0, 0, 1, 0, 1, 1, 0, 0, 0] ++ List.replicate 24 0) := by decide +kernel

/-- A RETIRING bank: without a hold, at epochs 254 and 255; with a deposit hold; with a read hold; and a bank that is not
RETIRING. -/
theorem test_retiring_witness :
    (let s := focal.updBank 0 fun k => { k with state := .retiring, epoch := 254 }
     (s.bank 0).state = .retiring ∧ (s.bank 0).depositHolds = 0 ∧ (s.bank 0).readHold = false ∧ (s.bank 0).epoch ≠ 255)
      ∧ (let s := focal.updBank 0 fun k => { k with state := .retiring, epoch := 255 }
         (s.bank 0).state = .retiring ∧ (s.bank 0).depositHolds = 0 ∧ (s.bank 0).readHold = false ∧ (s.bank 0).epoch = 255
           ∧ 0 < s.canvas.width * s.canvas.height)
      ∧ (let s := State.reset.updBank 0 fun k => { k with state := .retiring, epoch := 255 }
         (s.bank 0).state = .retiring ∧ (s.bank 0).depositHolds = 0 ∧ (s.bank 0).readHold = false ∧ (s.bank 0).epoch = 255
           ∧ s.canvas.width * s.canvas.height = 0)
      ∧ ((depositing []).bank 0).depositHolds ≠ 0 ∧ ((passing .running none 0).bank 0).readHold = true
      ∧ (focal.bank 0).state ≠ .retiring := by decide +kernel

/-! ## Calibration and deposit -/

/-- Segments of one usable overscan sample and of none, with rows of their length; a worked row bias; ROW_START with a taken
row, a busy lane and no row. -/
theorem test_row_start_witness :
    (let r := { seg0 with overscan := 1 }
     [1, 2, 3, 4, (5 : Sample)].length = r.width + r.overscan ∧ r.skip < r.overscan ∧ rowBias r [1, 2, 3, 4, 5] = some 80)
      ∧ (let r := { seg0 with overscan := 1, skip := 1 }
         [1, 2, 3, 4, (5 : Sample)].length = r.width + r.overscan ∧ r.overscan ≤ r.skip ∧ rowBias r [1, 2, 3, 4, 5] = none)
      ∧ settleBias { seg0 with shift := 1 } (some 10) (some 5) = (some 7, 7)
      ∧ (let s := onP0 (fun q => { q with taken := [row0] }) (snapping .receiving)
         s.lane 0 = none ∧ (s.port 0).taken = [row0] ∧ s.placements.nth row0.tile = some (placeTile tile0 0 0))
      ∧ (depositing [(1, 1)]).lane 0 ≠ none ∧ (State.reset.port 0).taken = [] ∧ seg0.shift = 0 := by decide +kernel

/-- A pixel at the saturation threshold, one below it with flat value 0, and one with a value; a negative value is LOW. -/
theorem test_pixel_witness :
    (lane0 []).pixel 262143 0 = .sat ∧ (seg0.satThreshold ≤ (262143#18).toNat ∧ (262142#18).toNat < seg0.satThreshold)
      ∧ { lane0 [] with flatState := .loaded }.pixel 262142 0 = .defect
      ∧ (lane0 []).pixel 100 0 = .value 1600 false false
      ∧ { lane0 [] with bias := 1601, seg := { seg0 with lowThreshold := 0 } }.pixel 100 0 = .value (-1) false true := by
  decide +kernel

/-- The ends of the fine position and the offsets of the manual's examples (R84, R85). -/
theorem test_placement_witness :
    (let q := placeTile { tile0 with fx := 15, fy := 0 } 1024 (-1024)
     q.baseX = 64 ∧ q.rx = 15 ∧ q.baseY = -64 ∧ q.ry = 0 ∧ q.w00 = 16 ∧ q.w10 = 240 ∧ q.w01 = 0 ∧ q.w11 = 0)
      ∧ (let q := placeTile { tile0 with fx := 12, fy := 12 } (-20) 0
         q.baseX = -1 ∧ q.rx = 8 ∧ q.ry = 12 ∧ q.w00 = 32 ∧ q.w10 = 32 ∧ q.w01 = 96 ∧ q.w11 = 96)
      ∧ (15 : Nat) ≤ 15 ∧ (-1024 : Int) ≤ 1024 ∧ (-16384 : Int) ≤ tile0.ox ∧ tile0.ox ≤ 32767 := by decide +kernel

/-- The last pixel of a tile of four columns and two rows under every orientation. -/
theorem test_orientation_witness :
    (7 : Nat) ≤ 7 ∧ (0 : Int) ≤ 3 ∧ (3 : Int) < 4 ∧ (1 : Int) < 2
      ∧ (List.range 8).map (fun o => placementOffset o 4 2 3 1)
          = [(3, 1), (0, 1), (3, 0), (0, 0), (1, 3), (0, 3), (1, 0), (0, 0)] := by decide +kernel

/-- Targets: weight 0; the last cell of the canvas; one column and one row off it; a row that is counted and one that is not; a
SAT, a DEF and a value deposited. -/
theorem test_target_witness :
    (⟨1, 1, 0⟩ : Target).weight = 0 ∧ (⟨1, 1, 256⟩ : Target).weight ≠ 0
      ∧ (0 ≤ (1 : Int) ∧ (1 : Int) < focal.canvas.width ∧ (1 : Int) < focal.canvas.height)
      ∧ ¬(2 : Int) < focal.canvas.width ∧ ¬0 ≤ (-1 : Int)
      ∧ (lane0 []).context.counting = true ∧ (lane0 []).uncounted.context.counting = false
      ∧ ((State.depositTarget (lane0 []).context 0 (.value (-3) true false) visiting ⟨1, 1, 256⟩).cellAt 0 3)
          = { epoch := 1, mask := ⟨false, false, true, false⟩, slots := (Tab.fill 3 ⟨0, 0⟩).put 0 ⟨BitVec.ofInt 48 (-768), 256⟩ }
      ∧ ((State.depositTarget (lane0 []).context 0 .sat visiting ⟨2, 1, 256⟩).record 0).spilled = 256 := by decide +kernel

/-- PIXEL_DEPOSIT: an idle lane; a sample that is not the row's last, and the last one; a row counted and a row not counted. -/
theorem test_pixel_deposit_witness :
    State.reset.lane 0 = none ∧ (depositing [(1, 1), (2, 1)]).lane 0 = some (lane0 [(1, 1), (2, 1)])
      ∧ (lane0 [(1, 1), (2, 1)]).todo = (1, 1) :: [(2, 1)] ∧ (lane0 [(2, 1)]).todo = (2, 1) :: []
      ∧ (depositing [(2, 1)]).lane 0 = some (lane0 [(2, 1)]) ∧ (lane0 []).uncounted.context.counting = false := by decide +kernel

/-! ## Visits and snaps -/

/-- VISIT_OPEN: a FILLING bank; 0 and 4 snaps; an enabled tile CLEARING; no FREE bank; bank 0 FREE, and only bank 1 FREE. -/
theorem test_visit_open_witness :
    answer (.visitOpen 0) (asked 0x50 [9, 1] visiting) = some (.state, [])
      ∧ answer (.visitOpen 0) (asked 0x50 [9, 0] focal) = some (.range, [])
      ∧ answer (.visitOpen 0) (asked 0x50 [9, 4] focal) = some (.range, [])
      ∧ answer (.visitOpen 0) (asked 0x50 [9, 3] (flatted .clearing)) = some (.state, [])
      ∧ answer (.visitOpen 0)
          (asked 0x50 [9, 3] ((closedBank.updBank 1 fun k => { k with state := .scrubbing }))) = some (.noBank, [])
      ∧ answer (.visitOpen 0) (asked 0x50 [9, 1] focal) = some (.ok, [0, 1])
      ∧ answer (.visitOpen 0) (asked 0x50 [9, 3] closedBank) = some (.ok, [1, 1]) := by decide +kernel

/-- SNAP_OPEN: no visit; all snaps done; an offset of 1025; offsets of −1024 and 1024. -/
theorem test_snap_open_witness :
    answer (.snapOpen 0) (asked 0x51 [0, 0, 0, 0] focal) = some (.state, [])
      ∧ answer (.snapOpen 0) (asked 0x51 [0, 0, 0, 0] { visiting with visit := { visiting.visit with snapsDone := 3 } })
          = some (.state, [])
      ∧ answer (.snapOpen 0) (asked 0x51 [4, 1, 0, 0] visiting) = some (.range, [])
      ∧ answer (.snapOpen 0) (asked 0x51 [0xFC, 0, 4, 0] visiting) = some (.ok, [0])
      ∧ ((0 : SlotId).val = visiting.visit.snapsDone) := by decide +kernel

/-- SNAP_CLOSE in every snap state; VISIT_CLOSE between snaps and in a snap; VISIT_ABORT of bank 2, of a FREE bank, of a CLOSED
one, and of a FILLING one with a row in its lane. -/
theorem test_visit_end_witness :
    answer (.snapClose 0) (asked 0x52 [] (snapping .waiting)) = some (.ok, [])
      ∧ answer (.snapClose 0) (asked 0x52 [] (snapping .waiting).beginDrain) = some (.ok, [])
      ∧ answer (.snapClose 0) (asked 0x52 [] visiting) = some (.state, [])
      ∧ answer (.visitClose 0) (asked 0x53 [] visiting) = some (.ok, [])
      ∧ answer (.visitClose 0) (asked 0x53 [] (snapping .waiting)) = some (.state, [])
      ∧ answer (.visitAbort 0) (asked 0x54 [2] visiting) = some (.range, [])
      ∧ answer (.visitAbort 0) (asked 0x54 [1] visiting) = some (.state, [])
      ∧ answer (.visitAbort 0) (asked 0x54 [0] closedBank) = some (.ok, [])
      ∧ answer (.visitAbort 0) (asked 0x54 [0] (depositing [(1, 1)])) = some (.ok, [])
      ∧ (lane0 [(1, 1)]).context.bank = 0 ∧ (lane0 [(1, 1)]).context.bank ≠ 1 := by decide +kernel

/-- The open snap: not complete; complete as one of three; complete as the last one. -/
theorem test_snap_done_witness :
    (∃ t, ((snapping .waiting).record t).state = .waiting)
      ∧ (∀ n ∈ [1, 3], let s := { snapping .short with visit := { (snapping .short).visit with expected := n } }
          s.visit.snap = .opened ∧ (∀ t, (s.record t).state ≠ .waiting ∧ (s.record t).state ≠ .receiving) ∧ s.visit.inFlight = 0)
      ∧ (snapping .short).visit.snapsDone + 1 = 1 ∧ (snapping .short).visit.snapsDone + 1 ≠ 3 := by decide +kernel

/-! ## Resolution and products -/

/-- A pass snapshot of the power-on parameters. -/
def snapshot0 (snapsUsed : Nat) : Snapshot := ⟨128, 320, 4, 9, snapsUsed⟩

/-- A current cell with the given fluxes and weights. -/
def cell0 (a b c : Int × Nat) : Cell :=
  ⟨1, .clear, #v[⟨BitVec.ofInt 48 a.1, a.2⟩, ⟨BitVec.ofInt 48 b.1, b.2⟩, ⟨BitVec.ofInt 48 c.1, c.2⟩]⟩

/-- One cell of each class, with weights at Wmin and one below. -/
theorem test_class_witness :
    (resolveCell (snapshot0 3) 7 (cell0 (0, 127) (0, 0) (0, 0))).cls = .nodata
      ∧ (resolveCell (snapshot0 1) 7 (cell0 (128, 128) (0, 256) (0, 256))).cls = .single
      ∧ (resolveCell (snapshot0 2) 7 (cell0 (256, 256) (512, 256) (0, 0))).cls = .pair
      ∧ (resolveCell (snapshot0 2) 7 (cell0 (0, 256) (256000, 256) (0, 0))).cls = .split
      ∧ (resolveCell (snapshot0 3) 7 (cell0 (0, 256) (0, 256) (81920, 256))).cls = .full
      ∧ (resolveCell (snapshot0 3) 7 (cell0 (0, 256) (0, 256) (256000, 256))).cls = .majority
      ∧ (resolveCell (snapshot0 3) 7 (cell0 (0, 256) (256000, 256) (2560000, 256))).cls = .discord := by decide +kernel

/-- Positions at the corners of the canvas and just off them; a canvas without cells; a cell that is current and one that is
not. -/
theorem test_padding_witness :
    ((1 : Int) < focal.canvas.width ∧ (1 : Int) < focal.canvas.height) ∧ ¬(2 : Int) < focal.canvas.width
      ∧ State.reset.canvas.width = 0 ∧ (focal.cellAt 0 3).epoch = (focal.bank 0).epoch
      ∧ (visiting.cellAt 0 3).epoch ≠ (visiting.bank 0).epoch
      ∧ (focal.resolveAt (snapshot0 1) 0 7 2 0).cls = .padding ∧ (focal.resolveAt (snapshot0 1) 0 7 1 1).cls = .nodata := by
  decide +kernel

/-- The widest tolerance of R127, and parameters of 0. -/
theorem test_agreement_witness :
    tolerance ⟨128, 1048575, 255, 0, 3⟩ ⟨0, 1, 134217728⟩ ⟨0, 1, -134217728⟩ = 134742015
      ∧ (1048575 : Nat) ≤ 1048575 ∧ (255 : Nat) ≤ 255 ∧ ((134217728 : Int)).natAbs ≤ 134217728
      ∧ agree ⟨128, 0, 0, 0, 3⟩ ⟨0, 1, 5⟩ ⟨0, 2, 5⟩ = true ∧ agree ⟨128, 0, 0, 0, 3⟩ ⟨0, 1, 5⟩ ⟨0, 2, 6⟩ = false := by
  decide +kernel

/-- Windows: empty; of one pixel; the widest one of R139. -/
theorem test_window_witness :
    { product0 with x1 := -1 }.emptyWindow = true ∧ product0.emptyWindow = false ∧ 1 ≤ product0.stride
      ∧ { product0 with x1 := 0 }.pixelCount = 1 ∧ product0.pixelCount = 2
      ∧ { product0 with y0 := -16384, y1 := 32767 }.rowCount = 49152
      ∧ { product0 with x1 := 3, stride := 2 }.pixelCount = 2 := by decide +kernel

/-- RESOLVE_SET: locked; Wmin 0 and a trigger code of 2; the ends of every range. PRODUCT_SET: entry 8; locked; stride 3; an id
taken; set. -/
theorem test_resolve_set_witness :
    answer (.resolveSet 0) (asked 0x60 [0, 1, 0, 0, 0, 0, 0, 0] (passing .running none 0)) = some (.locked, [])
      ∧ answer (.resolveSet 0) (asked 0x60 [0, 0, 0, 0, 0, 0, 0, 0] focal) = some (.range, [])
      ∧ answer (.resolveSet 0) (asked 0x60 [0, 1, 0, 0, 0, 0, 2, 0] focal) = some (.range, [])
      ∧ answer (.resolveSet 0) (asked 0x60 [16, 0, 0x0F, 0xFF, 0xFF, 255, 1, 1] focal) = some (.ok, [])
      ∧ answer (.productSet 0) (asked 0x61 [8, 1, 5, 0, 0, 0, 0, 0, 1, 0, 0, 1, 0, 0, 0, 0, 0] focal) = some (.range, [])
      ∧ answer (.productSet 0)
          (asked 0x61 [7, 1, 5, 0, 0, 0, 0, 0, 1, 0, 0, 1, 0, 0, 0, 0, 0] (passing .running none 0)) = some (.locked, [])
      ∧ answer (.productSet 0) (asked 0x61 [7, 1, 5, 0, 0, 0, 0, 0, 1, 0, 0, 3, 0, 0, 0, 0, 0] focal) = some (.range, [])
      ∧ answer (.productSet 0) (asked 0x61 [7, 1, 5, 0, 0, 0, 0, 0, 1, 0, 0, 1, 0, 0, 0, 0, 0] closedBank) = some (.range, [])
      ∧ answer (.productSet 0) (asked 0x61 [0, 1, 5, 0, 0, 0, 0, 0, 1, 0, 0, 8, 2, 0, 0, 0, 0] closedBank) = some (.ok, []) := by
  decide +kernel

/-- RESOLVE_START in every row of its table. -/
theorem test_resolve_start_witness :
    answer (.resolveStart 0) (asked 0x62 [2] focal) = some (.range, [])
      ∧ answer (.resolveStart 0) (asked 0x62 [0] (passing .running none 0)) = some (.ok, [])
      ∧ answer (.resolveStart 0) (asked 0x62 [0] (passing .running (some (frame0 true)) 0)) = some (.ok, [])
      ∧ answer (.resolveStart 0) (asked 0x62 [0] (passing .restarting (some (frame0 true)) 0)) = some (.ok, [])
      ∧ answer (.resolveStart 0) (asked 0x62 [0] (passing .ending (some (frame0 true)) 0)) = some (.busy, [])
      ∧ answer (.resolveStart 0) (asked 0x62 [1] (passing .running none 0)) = some (.busy, [])
      ∧ answer (.resolveStart 0) (asked 0x62 [0] closedBank) = some (.ok, [])
      ∧ answer (.resolveStart 0) (asked 0x62 [1] closedBank) = some (.state, []) := by decide +kernel

/-- RESOLVE_ABORT in every state; BANK_RELEASE of bank 2, of a RESOLVED bank, and of another. -/
theorem test_resolve_abort_witness :
    answer (.resolveAbort 0) (asked 0x63 [] closedBank) = some (.state, [])
      ∧ answer (.resolveAbort 0) (asked 0x63 [] (passing .ending (some (frame0 true)) 0)) = some (.ok, [])
      ∧ answer (.resolveAbort 0) (asked 0x63 [] (passing .running none 0)) = some (.ok, [])
      ∧ answer (.resolveAbort 0) (asked 0x63 [] (passing .restarting (some (frame0 true)) 0)) = some (.ok, [])
      ∧ answer (.bankRelease 0) (asked 0x64 [2] focal) = some (.range, [])
      ∧ answer (.bankRelease 0) (asked 0x64 [0] (focal.updBank 0 fun k => { k with state := .resolved })) = some (.ok, [])
      ∧ answer (.bankRelease 0) (asked 0x64 [0] closedBank) = some (.state, []) := by decide +kernel

/-- Starts of a pass: a bank with its visit record; a restart of the pass's own bank; AUTO and idle with one bank waiting, and
each of the three conditions that stop the automatic start. -/
theorem test_pass_start_witness :
    closedBank.visit.records.nth 0 = some ⟨9, 1⟩ ∧ (passing .running none 0).resolve.passBank = 0
      ∧ closedBank.resolve.trigger = .manual ∧ (passing .running none 0).resolve.state ≠ .idle ∧ focal.resolve.waiting = []
      ∧ (let r := { closedBank.resolve with trigger := .auto }
         r.state = .idle ∧ r.waiting = 0 :: [] ∧ r.waiting.Nodup) := by decide +kernel

/-- The walk: a disabled entry, an empty one, one to begin; a credit and none; the egress mark set and clear. The egress timer:
stopped; running while the sequencer waits, and while it does not. -/
theorem test_walk_witness :
    (passing .running none 0).resolve.building ≠ none ∧ (passing .running none 0).resolve.snapshot = some ⟨128, 320, 4, 9, 1⟩
      ∧ Product.reset.enabled = false ∧ product0.enabled = true ∧ { product0 with x1 := -1 }.x1 < product0.x0
      ∧ (product0.x0 ≤ product0.x1 ∧ product0.y0 ≤ product0.y1)
      ∧ 1 ≤ (passing .running none 1).px.credits ∧ (passing .running none 0).px.credits = 0
      ∧ (passing .running none 0).resolve.egressMark = false
      ∧ ((passing .running none 0).updResolve fun r => { r with egressMark := true }).resolve.egressMark = true
      ∧ State.reset.resolve.egressTimer = .stopped
      ∧ (let s := (passing .running none 0).updResolve fun r => { r with egressTimer := .running 100 }
         s.resolve.egressTimer = .running 100 ∧ s.resolve.state = .running ∧ s.px.lane = none)
      ∧ (passing .running (some (frame0 true)) 0).px.lane ≠ none := by decide +kernel

/-- Rows that leave PX: the last of an entry and one before it, in each state of the pass; banks that a pass leaves, in both
release modes, at epochs below 255 and at 255, and one that is no longer RESOLVING. -/
theorem test_row_sent_witness :
    State.reset.px.lane = none ∧ (passing .running (some (frame0 true)) 0).px.lane = some (frame0 true)
      ∧ (passing .restarting (some (frame0 true)) 0).resolve.state = .restarting
      ∧ (passing .ending (some (frame0 true)) 0).resolve.state = .ending
      ∧ (passing .running (some (frame0 false)) 0).resolve.building ≠ none ∧ (frame0 false).last = false
      ∧ (frame0 true).last = true
      ∧ (let s := passing .running none 0
         (s.bank 0).state = .resolving ∧ s.resolve.release = .autoRelease ∧ (s.bank 0).depositHolds = 0 ∧ (s.bank 0).epoch ≠ 255)
      ∧ (let s := (passing .running none 0).updBank 0 fun k => { k with epoch := 255 }
         (s.bank 0).state = .resolving ∧ s.resolve.release = .autoRelease ∧ (s.bank 0).depositHolds = 0 ∧ (s.bank 0).epoch = 255
           ∧ 0 < s.canvas.width * s.canvas.height)
      ∧ (let s := State.reset.updBank 0 fun k => { k with state := .resolving, epoch := 255 }
         (s.bank 0).state = .resolving ∧ s.resolve.release = .autoRelease ∧ (s.bank 0).depositHolds = 0 ∧ (s.bank 0).epoch = 255
           ∧ s.canvas.width * s.canvas.height = 0)
      ∧ (let s := State.reset.updBank 0 fun k => { k with state := .resolving, depositHolds := 1 }
         (s.bank 0).state = .resolving ∧ s.resolve.release = .autoRelease ∧ (s.bank 0).depositHolds ≠ 0)
      ∧ (let s := (passing .running none 0).updResolve fun r => { r with release := .hold }
         (s.bank 0).state = .resolving ∧ s.resolve.release = .hold)
      ∧ (focal.bank 0).state ≠ .resolving := by decide +kernel

/-- Output pixels at the ends of the value range, and the bytes of one in the format VWCM (R184). -/
theorem test_pixel_bytes :
    let x : OutPixel := { cls := .split, value := -2147483648, weight := 12288, mask := ⟨⟨true, false, false, true⟩, true, false, true⟩ }
    let y : OutPixel := { x with value := 2147483647, weight := 65535 }
    (-2147483648 : Int) ≤ x.value ∧ x.value ≤ 2147483647 ∧ x.weight ≤ 65535 ∧ y.value ≤ 2147483647 ∧ y.weight ≤ 65535
      ∧ x.bytes .vwcm = [0x80, 0, 0, 0, 0x30, 0, 3, 0x59] := by decide +kernel

/-! ## Engine-wide commands -/

/-- A command code that names nothing; a payload too long for NOP and one too short for FLAT_WRITE; a frame of another command;
an empty queue. -/
theorem test_control_witness :
    answer (.unknownCommand 0) (asked 0x05 [] focal) = some (.unknown, [])
      ∧ answer (.nop 0) (asked 0x00 [1] focal) = some (.malformed, [])
      ∧ answer (.flatWrite 0) (asked 0x31 [0, 0, 0, 0, 0, 0, 1, 1] focal) = some (.malformed, [])
      ∧ answer (.nop 0) (asked 0x01 [0] focal) = none ∧ answer (.unknownCommand 0) (asked 0x01 [0] focal) = none
      ∧ (focal.port 0).queue = [] := by decide +kernel

/-- NOP on a line that is UP with seven responses waiting, with eight, and on a line that is DOWN. -/
theorem test_nop_witness :
    answer (.nop 0) (asked 0x00 [] focal) = some (.ok, [])
      ∧ (let s := onP0 (fun q => { q with backlog := List.replicate 7 rsp0 }) (asked 0x00 [] focal)
         (s.port 0).queue = [⟨0x00, 7, []⟩] ∧ (s.port 0).link = .up ∧ (s.port 0).backlog.length < 8)
      ∧ (let s := onP0 (fun q => { q with backlog := List.replicate 8 rsp0 }) (asked 0x00 [] focal)
         8 ≤ (s.port 0).backlog.length)
      ∧ (let s := onP0 (fun q => { q with link := .down }) (asked 0x00 [] focal)
         (s.port 0).queue = [⟨0x00, 7, []⟩] ∧ (s.port 0).link = .down) := by decide +kernel

/-- The lengths of the four sections, and section 4; the first and the last index of each table, and the next ones. -/
theorem test_status_and_table_witness :
    ([0, 1, 2, 3].map fun n => (answer (.statusRead 0) (asked 0x01 [n] focal)).map fun a => (a.1, a.2.length))
        = [some (.ok, 41), some (.ok, 608), some (.ok, 179), some (.ok, 334)]
      ∧ answer (.statusRead 0) (asked 0x01 [4] focal) = some (.range, [])
      ∧ ([(0, 15), (1, 63), (2, 7), (3, 0), (4, 0), (5, 0)].map fun e =>
            (answer (.tableRead 0) (asked 0x02 [e.1, e.2] focal)).map fun a => (a.1, a.2.length))
          = [some (.ok, 14), some (.ok, 25), some (.ok, 16), some (.ok, 4), some (.ok, 8), some (.ok, 4)]
      ∧ ([(0, 16), (1, 64), (2, 8), (3, 1), (4, 1), (5, 1), (6, 0)].map fun e =>
            answer (.tableRead 0) (asked 0x02 [e.1, e.2] focal)) = List.replicate 7 (some (.range, []))
      ∧ answer (.faultClear 0) (asked 0x03 [] focal) = some (.ok, []) := by decide +kernel

/-- ENGINE_RESET with a row in a lane; with a pass that waits, and with a pass that has a row on PX; bank states of each kind. -/
theorem test_engine_reset_witness :
    answer (.engineReset 0) (asked 0x04 [] (depositing [(1, 1)])) = some (.ok, [])
      ∧ answer (.engineReset 0) (asked 0x04 [] (passing .running none 0)) = some (.ok, [])
      ∧ answer (.engineReset 0) (asked 0x04 [] (passing .running (some (frame0 true)) 0)) = some (.ok, [])
      ∧ ((depositing [(1, 1)]).bank 0).depositHolds ≠ 0 ∧ (closedBank.bank 0).state = .closed ∧ (closedBank.bank 1).state = .free
      ∧ (let s := asked 0x04 [] (State.reset.updBank 0 fun k => { k with state := .retiring, epoch := 255 })
         let u := after (.engineReset 0) s
         (s.bank 0).state = .retiring ∧ (s.bank 0).epoch = 255 ∧ s.canvas.width * s.canvas.height = 0
           ∧ (u.bank 0).depositHolds = 0 ∧ (u.bank 0).readHold = false ∧ (u.bank 0).state = .free) := by
  decide +kernel

/-! ## Invariants -/

/-- What a step of a state answers, when it is a next state. -/
def isNext : Host.Outcome State Fault Refusal → Bool
  | .next _ => true
  | _ => false

/-- P0 UP with every buffer announced, the other ports DOWN: the ports are in order. -/
theorem test_ports_witness :
    let s := { lined fun q => { q with lane := some (.crd 32), granted := 32 } with pending := [.lineDown 0] }
    s.PortsOk ∧ isNext (step s) = true := by
  unfold State.PortsOk Port.DownIsQuiet State.PortBounds State.LaneServed
  decide +kernel

/-- A row taken and deposited in part: rows accounted, memories canonical, tables consistent, snaps judged. -/
theorem test_row_witness :
    let s := (depositing [(1, 1)]).accountRow 0 0 0 false
    s.RowsAccounted ∧ Memory.wf s = true ∧ s.TablesOk ∧ s.SnapJudged ∧ isNext (step s) = true := by
  unfold State.RowsAccounted State.SnapJudged State.TablesOk TileRec.Known SegRec.Known
  decide +kernel

/-- An open visit with a row in a lane, and a pass: visits, banks and passes are in order, and a step goes on. -/
theorem test_banks_witness :
    (depositing [(1, 1)]).BanksOk ∧ (passing .running none 0).BanksOk ∧ isNext (step (depositing [(1, 1)])) = true := by
  refine ⟨⟨?_, ?_, ?_, ?_⟩, ⟨?_, ?_, ?_, ?_⟩, by decide +kernel⟩
  all_goals first | unfold State.VisitOk | unfold State.WaitingOk | unfold State.PassOk | unfold State.AutoOk
  all_goals decide +kernel

/-- The epochs of that visit are lawful. -/
theorem test_epochs_witness : (depositing [(1, 1)]).EpochsOk ∧ (passing .running none 0).EpochsOk := by
  unfold State.EpochsOk State.BankEpochOk
  decide +kernel

/-- The rows in flight and the deposit holds of that visit are what they count. -/
theorem test_flight_witness : (depositing [(1, 1)]).FlightOk := by
  refine ⟨by decide +kernel, by decide +kernel, by decide +kernel, by decide +kernel, ?_⟩
  intro p l h
  have hp : ∀ q : PortId, (depositing [(1, 1)]).lane q = if q = 0 then some (lane0 [(1, 1)]) else none := by decide +kernel
  rw [hp] at h
  split at h
  · cases h
    decide +kernel
  · cases h

end Sys2Proof.Tests
end

section
/-! SUPPORT. The manual's rounding, its cyclic redundancy check and the bytes of a header (R1, R2, R182, R183). -/

namespace Sys2Proof.Machine

/-! ## Rounding (R1) -/

/-- Rounding a value of 0 or above: the product with the divisor lies within half a divisor, the lower end excluded. -/
theorem roundDiv_bounds_of_nonneg {a b : Int} (ha : 0 ≤ a) (hb : 0 < b) :
    2 * a - b < 2 * (b * roundDiv a b) ∧ 2 * (b * roundDiv a b) ≤ 2 * a + b := by
  have hlow : 2 * b * ((2 * a + b) / (2 * b)) ≤ 2 * a + b := Int.mul_ediv_self_le (by omega)
  have hhigh : 2 * a + b < 2 * b * ((2 * a + b) / (2 * b)) + 2 * b := Int.lt_mul_ediv_self_add (by omega)
  rw [Int.mul_assoc] at hlow hhigh
  rw [roundDiv, if_pos ha]
  omega

/-- Below 0 rounding mirrors rounding above 0, which is what sends halves away from zero on both sides. -/
theorem roundDiv_of_neg {a : Int} (ha : a < 0) (b : Int) : roundDiv a b = -roundDiv (-a) b := by
  rw [roundDiv, roundDiv, if_neg (by omega), if_pos (by omega)]

/-- Rounding a value below 0: the product with the divisor lies within half a divisor, the upper end excluded. -/
theorem roundDiv_bounds_of_neg {a b : Int} (ha : a < 0) (hb : 0 < b) :
    2 * a - b ≤ 2 * (b * roundDiv a b) ∧ 2 * (b * roundDiv a b) < 2 * a + b := by
  have hmirror := roundDiv_bounds_of_nonneg (show 0 ≤ -a by omega) hb
  rw [roundDiv_of_neg ha, Int.mul_neg]
  omega

/-- *round* is to a nearest integer, and of two that are equally near to the one farther from zero. -/
theorem roundDiv_nearest (a : Int) {b : Int} (hb : 0 < b) :
    (2 * (a - b * roundDiv a b)).natAbs ≤ b.natAbs
      ∧ ((2 * (a - b * roundDiv a b)).natAbs = b.natAbs → a.natAbs < (b * roundDiv a b).natAbs) := by
  rcases Int.lt_or_le a 0 with ha | ha
  · have hbounds := roundDiv_bounds_of_neg ha hb
    omega
  · have hbounds := roundDiv_bounds_of_nonneg ha hb
    omega

/-- *floor* is the largest integer not above the quotient. -/
theorem floorDiv_bounds (a : Int) {b : Int} (hb : 0 < b) : b * floorDiv a b ≤ a ∧ a < b * floorDiv a b + b :=
  ⟨Int.mul_ediv_self_le (Int.ne_of_gt hb), Int.lt_mul_ediv_self_add hb⟩

/-- Settles O4: the bounds of the two divisions, rounding split at 0. -/
theorem roundingToNearestAndFloor : Obligations.RoundingToNearestAndFloor := by
  intro a b hb
  obtain ⟨hnear, haway⟩ := roundDiv_nearest a hb
  exact ⟨hnear, haway, floorDiv_bounds a hb⟩

/-! ## The CRC register (R2) -/

/-- One bit of the CRC in the manual's words: the exclusive-OR is made when the bit shifted out differs from the data bit. -/
theorem crcBit_eq (reg : BitVec 16) (bit : Bool) :
    crcBit reg bit = if reg.msb ≠ bit then (reg <<< 1) ^^^ 0x1021#16 else reg <<< 1 := by
  rw [crcBit, ite_not]

/-- A byte more is taken into the register that the bytes before it left. -/
theorem crc16_concat (bs : List Byte) (b : Byte) : crc16 (bs ++ [b]) = crcByte (crc16 bs) b := by
  rw [crc16, crc16, List.foldl_append, List.foldl_cons, List.foldl_nil]

/-! ## Headers and frames (R182, R183) -/

/-- A word of 16 bits in two bytes: its upper byte, then its lower byte. -/
theorem beBytes_two (c : BitVec 16) : beBytes 2 c.toNat = [c.extractLsb' 8 8, c.extractLsb' 0 8] := by
  have hupper : BitVec.ofNat 8 (c.toNat / 256) = c.extractLsb' 8 8 := by
    apply BitVec.eq_of_toNat_eq
    simp [Nat.shiftRight_eq_div_pow]
  have hlower : BitVec.ofNat 8 c.toNat = c.extractLsb' 0 8 := by
    apply BitVec.eq_of_toNat_eq
    simp
  simp [beBytes, hupper, hlower]

/-- A word of n bytes reads back as it was written. -/
theorem beNat_beBytes_toNat (n : Nat) (v : BitVec (8 * n)) : beNat (beBytes n v.toNat) = v.toNat := by
  apply beNat_beBytes
  have hv : v.toNat < 2 ^ (8 * n) := v.isLt
  rwa [Nat.pow_mul] at hv

/-- A frame without a payload is its header and the header CRC. -/
theorem frameBytes_nil (h : Header) :
    frameBytes h []
      = headerBytes h ++ [(crc16 (headerBytes h)).extractLsb' 8 8, (crc16 (headerBytes h)).extractLsb' 0 8] := by
  rw [frameBytes, if_pos rfl, List.append_nil, beBytes_two]

/-- A payload follows the header CRC, and its own CRC follows it. -/
theorem frameBytes_of_ne_nil (h : Header) {payload : List Byte} (hp : payload ≠ []) :
    frameBytes h payload
      = frameBytes h [] ++ payload ++ [(crc16 payload).extractLsb' 8 8, (crc16 payload).extractLsb' 0 8] := by
  rw [frameBytes_nil, frameBytes, if_neg hp, beBytes_two, beBytes_two, List.append_assoc _ payload]

/-- Settles O5: the register takes the bytes one by one; a frame is its header and payload, each with its CRC behind it; and the
header of each kind is a list of known length, in which every field of more than one byte is the bytes of one word. -/
theorem crcRegisterOfCoveredBytes : Obligations.CrcRegisterOfCoveredBytes := by
  refine ⟨rfl, fun bs b => ?byte, fun h payload =>
    ⟨frameBytes_nil h, frameBytes_of_ne_nil h, ?row, ?ctl, ?rsp, ?crd, ?prd, ?unknown⟩⟩
  case byte => simp only [crc16_concat, crcByte, crcBit_eq]
  case row =>
    rintro len tile seg tag slot row count rfl
    exact ⟨rfl, rfl, beNat_beBytes_toNat 3 len, rfl, rfl, rfl, rfl, beNat_beBytes_toNat 2 row,
      beNat_beBytes_toNat 2 count⟩
  case ctl =>
    rintro len code request rfl
    exact ⟨rfl, rfl, beNat_beBytes_toNat 3 len, rfl, beNat_beBytes_toNat 2 request⟩
  case rsp =>
    rintro len rfl
    exact ⟨rfl, rfl, beNat_beBytes_toNat 3 len⟩
  case crd =>
    rintro len credits rfl
    exact ⟨rfl, rfl, beNat_beBytes_toNat 3 len, rfl⟩
  case prd =>
    rintro len product tag pass row flags pixels rfl
    exact ⟨rfl, rfl, beNat_beBytes_toNat 3 len, rfl, rfl, beNat_beBytes_toNat 2 pass,
      beNat_beBytes_toNat 2 row, rfl, beNat_beBytes_toNat 2 pixels⟩
  case unknown =>
    rintro kind len rfl
    exact ⟨rfl, rfl, beNat_beBytes_toNat 3 len⟩

end Sys2Proof.Machine
end

section
/-! SUPPORT. The engine right after power-on, block by block (R3, R7, R42, R64, R70, R82, R100, R119, R136, R137, R154, R155,
R181). -/

namespace Sys2Proof.Machine

/-! ## The tables of the state after power-on -/

@[simp] theorem State.reset_port (p : PortId) : State.reset.port p = .reset := by simp [State.port, State.reset]

@[simp] theorem State.reset_tile (t : TileId) : State.reset.tile t = .reset := by simp [State.tile, State.reset]

@[simp] theorem State.reset_seg (t : TileId) (g : SegId) : State.reset.seg t g = .reset := by simp [State.seg, State.reset]

@[simp] theorem State.reset_record (t : TileId) : State.reset.record t = .cleared .off := by
  simp [State.record, State.reset, Intake.reset]

@[simp] theorem State.reset_nextRow (t : TileId) (g : SegId) : State.reset.nextRow t g = 0 := by
  simp [State.nextRow, State.reset, Intake.reset]

@[simp] theorem State.reset_inFlight (t : TileId) : State.reset.inFlight t = 0 := by
  simp [State.inFlight, State.reset, Intake.reset]

@[simp] theorem State.reset_stallTimer (t : TileId) : State.reset.stallTimer t = .stopped := by
  simp [State.stallTimer, State.reset, Intake.reset]

@[simp] theorem State.reset_lane (p : PortId) : State.reset.lane p = none := by
  simp [State.lane, State.reset, Calibration.reset]

@[simp] theorem State.reset_flat (t : TileId) : State.reset.flat t = ⟨.unloaded, []⟩ := by
  simp [State.flat, State.reset, Calibration.reset]

@[simp] theorem State.reset_bias (i : Fin 64) : State.reset.cal.bias.nth i = none := by
  simp [State.reset, Calibration.reset]

@[simp] theorem State.reset_placement (t : TileId) : State.reset.placements.nth t = none := by simp [State.reset]

@[simp] theorem State.reset_bank (b : BankId) : State.reset.bank b = .reset := by
  simp [State.bank, State.reset, Canvas.reset]

@[simp] theorem State.reset_visitRecord (b : BankId) : State.reset.visit.records.nth b = none := by
  simp [State.reset, Visit.reset]

@[simp] theorem State.reset_product (i : Fin 8) : State.reset.resolve.products.nth i = .reset := by
  simp [State.reset, Resolve.reset]

/-- A port holds no row buffer at power-on (R155). -/
theorem State.reset_occupied (p : PortId) : State.reset.occupied p = 0 := by
  simp [State.occupied, Port.reset, Rx.buffers, laneBuffers]

/-- A cleared record counts no row of any segment (R32, R42). -/
@[simp] theorem TileRecord.cleared_rows (st : TileState) (g : SegId) :
    (TileRecord.cleared st).taken.nth g = 0 ∧ (TileRecord.cleared st).missing.nth g = 0 := by
  simp [TileRecord.cleared]

/-- Settles O3: each table's entries by its lemma above, the blocks without a table by their definitions. -/
theorem powerOnValues : Obligations.PowerOnValues := by
  refine ⟨fun p => ⟨State.reset_port p, State.reset_occupied p, State.reset_lane p⟩, rfl, fun t => ?tile, fun t g => ?segment,
    rfl, rfl, rfl, rfl, fun b => ?bank, ⟨_, rfl⟩, State.reset_product, ⟨_, rfl⟩, rfl, rfl, rfl, fun _ => rfl⟩
  case tile =>
    rw [State.reset_record, State.reset_flat]
    exact ⟨State.reset_tile t, rfl, rfl, rfl, rfl, rfl, rfl, State.reset_inFlight t, State.reset_stallTimer t, rfl,
      State.reset_placement t⟩
  case segment =>
    rw [State.reset_record]
    exact ⟨State.reset_seg t g, State.reset_nextRow t g, (TileRecord.cleared_rows _ g).1, (TileRecord.cleared_rows _ g).2,
      State.reset_bias _⟩
  case bank =>
    rw [State.reset_bank]
    exact ⟨rfl, rfl, rfl, rfl, rfl, State.reset_visitRecord b⟩

end Sys2Proof.Machine
end

section
/-! SUPPORT. What a step can do, said once: the effects of the commands' owners and of the steps, each with the condition under
which it comes about. A law that every effect keeps is a law that every step keeps. -/

namespace Sys2Proof.Machine

/-! ## The effects -/

/-- What the owner of a control command can leave (R168). A refusal, and a command that only reads, leave the state as it is. -/
inductive OwnerEffect (s : State) : State → Prop
  | stays : OwnerEffect s s
  | setStatus (u : Status) : OwnerEffect s { s with status := u }
  | engineRest : OwnerEffect s s.engineRest
  | setIntake (stallTime drainTime : Nat) (hstall : stallTime ≤ 255) (hdrain : 1 ≤ drainTime ∧ drainTime ≤ 1000) :
      OwnerEffect s (s.setIntake stallTime drainTime)
  | setTile (t : TileId) (r : TileRec) (hlock : s.visitLock = false)
      (hfields : ∃ b, tileFields b (s.tile t).quarantined = some r)
      (hfits : r.enabled = true → consistentLayout r.width r.height (s.layout t r.segCount) = true) :
      OwnerEffect s (s.setTile t r)
  | setSeg (t : TileId) (g : SegId) (r : SegRec) (hlock : (s.visitLock && (s.tile t).enabled) = false)
      (hfields : ∃ b, segFields b = some r) (hfits : s.segmentAllowed t g r = true) : OwnerEffect s (s.setSeg t g r)
  | quarantine (t : TileId) : OwnerEffect s ((s.setQuarantine t true).quarantineNow t)
  | restore (t : TileId) : OwnerEffect s (s.setQuarantine t false)
  | startClear (t : TileId) (hlock : s.flatLocked t = false) : OwnerEffect s (s.startClear t)
  | writeFlat (t : TileId) (u0 v : Nat) (b : List Byte) (hlock : s.flatLocked t = false)
      (hloaded : (s.flat t).state = .loaded) (hcovers : (s.tile t).covers u0 v (field b 5 2) = true) :
      OwnerEffect s (s.writeFlat t u0 v (flatEntries b))
  | setCanvas (w h : Nat) (hfree0 : (s.bank 0).state = .free) (hfree1 : (s.bank 1).state = .free)
      (hw : 1 ≤ w ∧ w ≤ 16384) (hh : 1 ≤ h ∧ h ≤ 16384) : OwnerEffect s (s.setCanvas w h)
  | openVisit (tag : Byte) (expected : Nat) (b : BankId) (hlock : s.visitLock = false)
      (hexpected : 1 ≤ expected ∧ expected ≤ 3) (hclear : s.clearingTile = false) (hfree : s.freeBank = some b) :
      OwnerEffect s (s.openVisit tag expected b)
  | openSnap (sx sy : Int) (hbetween : s.visit.state = .betweenSnaps) (hleft : s.visit.snapsDone < s.visit.expected)
      (hx : offsetInRange sx = true) (hy : offsetInRange sy = true) : OwnerEffect s (s.openSnap sx sy).judgeSnap
  | beginDrain (hopen : s.visit.snap = .opened) : OwnerEffect s s.beginDrain
  | closeVisit (hbetween : s.visit.state = .betweenSnaps) : OwnerEffect s s.closeVisit
  | abortVisit (b : BankId) (hfilling : (s.bank b).state = .filling) : OwnerEffect s (s.abortVisit b)
  | withdrawVisit (b : BankId) (hclosed : (s.bank b).state = .closed) : OwnerEffect s (s.withdrawVisit b)
  | setResolve (f : ResolveFields) (hlock : s.resolveLock = false) : OwnerEffect s (s.setResolve f).autoStart
  | setProduct (i : Fin 8) (e : Product) (hlock : s.resolveLock = false) (hfree : (e.enabled && s.idTaken i e) = false) :
      OwnerEffect s (s.setProduct i e)
  | openPass (b : BankId) (hidle : s.resolve.state = .idle)
      (hbank : (s.bank b).state = .closed ∨ (s.bank b).state = .resolved) : OwnerEffect s (s.openPass b).autoStart
  | askRestart (hrunning : s.resolve.state = .running) : OwnerEffect s s.askRestart
  | askEnd (hpass : s.resolve.state = .running ∨ s.resolve.state = .restarting) : OwnerEffect s s.askEnd
  | retire (b : BankId) (hresolved : (s.bank b).state = .resolved) : OwnerEffect s (s.retire b)

/-- What a step can leave. A step that does not happen in the state that it meets leaves the state as it is (log 2). -/
inductive StepEffect (s : State) : State → Prop
  | stays : StepEffect s s
  | powerOn :
      StepEffect s
        { State.reset with canvas := { Canvas.reset with powerOns := s.canvas.powerOns + 1 }, pending := s.pending }
  | lineUp (p : PortId) (hdown : (s.port p).link ≠ .up) :
      StepEffect s ((s.updPort p fun q => { q with link := .up }).serveLane p)
  | lineFall (p : PortId) (hup : (s.port p).link ≠ .down) : StepEffect s (s.lineFall p)
  | pxLineUp : StepEffect s (s.updPx fun x => { x with link := .up })
  | pxDown (hup : s.px.link ≠ .down) : StepEffect s s.pxDown
  | startFrame (p : PortId) (hup : (s.port p).link = .up) : StepEffect s (((s.truncate p).awaitHeader p).serveLane p)
  | startPxFrame (hup : s.px.link = .up) : StepEffect s (s.truncatePx.setPxRx .awaitingHeader)
  | idleLine (p : PortId) (hbusy : (s.port p).rx ≠ .idle) : StepEffect s ((s.truncate p).serveLane p)
  | idlePxLine : StepEffect s s.truncatePx
  | ingressHeader (p : PortId) (h : Header) (crcGood : Bool) (hawaits : (s.port p).rx = .awaitingHeader) :
      StepEffect s ((s.ingressHeader p h crcGood).serveLane p)
  | pxHeader (h : Header) (crcGood : Bool) (hawaits : s.px.rx = .awaitingHeader) : StepEffect s (s.pxHeader h crcGood)
  | endRowFrame (p : PortId) (h : RowHeader) (len : Nat) (received : List Byte) (hrx : (s.port p).rx = .row h len) :
      StepEffect s ((s.endRowFrame p h len received).serveLane p)
  | endCtlFrame (p : PortId) (code : Byte) (request : BitVec 16) (len : Nat) (received : List Byte)
      (hrx : (s.port p).rx = .ctl code request len) :
      StepEffect s ((s.endCtlFrame p code request len received).serveLane p)
  | endRest (p : PortId) (counted : Bool) (hrx : (s.port p).rx = .rest counted) : StepEffect s (s.endReceive p)
  | endPxFrame : StepEffect s s.endPxFrame
  | finishReturnFrame (p : PortId) : StepEffect s (s.finishReturnFrame p)
  | command (p : PortId) (f : CtlFrame) (u : State) (r : Result) (data : List Byte)
      (hhead : (s.port p).queue.head? = some f) (howner : OwnerEffect s u) : StepEffect s (u.respond p f r data)
  | stallTile (t : TileId) (ms : Nat) (hruns : s.stallTimer t = .running ms) : StepEffect s (s.stallTile t)
  | drainExpires (ms : Nat) (hruns : s.visit.drain = .running ms) : StepEffect s s.drainExpires
  | egressExpires (ms : Nat) (hruns : s.resolve.egressTimer = .running ms) : StepEffect s s.egressExpires
  | startRow (p : PortId) (w : TakenRow) (rest : List TakenRow) (q : Placement) (hidle : s.lane p = none)
      (htaken : (s.port p).taken = w :: rest) (hplaced : s.placements.nth w.tile = some q) :
      StepEffect s (s.startRow p w rest q)
  | nextPixel (p : PortId) (l : Lane) (hbusy : s.lane p = some l) : StepEffect s (s.nextPixel p l)
  | finishClear (t : TileId) (hclearing : (s.flat t).state = .clearing) : StepEffect s (s.finishClear t)
  | scrubNext (b : BankId) (hscrubbing : (s.bank b).state = .scrubbing) : StepEffect s (s.scrubNext b)
  | rowLeaves (f : PrdFrame) (hlane : s.px.lane = some f) :
      StepEffect s ((s.updPx fun x =>
        { x with lane := none, counters := { x.counters with prdSent := bump x.counters.prdSent } }).rowSent f)

/-! ## The owners of the commands
The state that each owner leaves is one of the effects above, with the tests that it has passed. -/

theorem takeNop_effect (b : List Byte) (s : State) : OwnerEffect s (takeNop b s).state := .stays

theorem takeStatusRead_effect (b : List Byte) (s : State) : OwnerEffect s (takeStatusRead b s).state := by
  unfold takeStatusRead
  split
  · exact .setStatus _
  · exact .setStatus _
  · exact .stays
  · exact .setStatus _
  · exact .stays

theorem takeTableRead_effect (b : List Byte) (s : State) : OwnerEffect s (takeTableRead b s).state := by
  unfold takeTableRead
  split <;> exact .stays

theorem takeFaultClear_effect (b : List Byte) (s : State) : OwnerEffect s (takeFaultClear b s).state := .setStatus _

theorem takeEngineReset_effect (b : List Byte) (s : State) : OwnerEffect s (takeEngineReset b s).state := by
  simp only [takeEngineReset, Answer.ok]
  exact .engineRest

theorem takeIntakeSet_effect (b : List Byte) (s : State) : OwnerEffect s (takeIntakeSet b s).state := by
  unfold takeIntakeSet
  split
  case isTrue => exact .stays
  case isFalse hrange => exact .setIntake _ _ (by omega) (by omega)

theorem takeTileSet_effect (b : List Byte) (s : State) : OwnerEffect s (takeTileSet b s).state := by
  unfold takeTileSet
  split
  case h_1 => exact .stays
  case h_2 t _ =>
    split
    case isTrue => exact .stays
    case isFalse hlock =>
      split
      case h_1 => exact .stays
      case h_2 r hfields =>
        split
        case isTrue => exact .stays
        case isFalse hfits =>
          exact .setTile t r (Bool.of_not_eq_true hlock) ⟨b, hfields⟩ fun he =>
            Bool.of_not_eq_false fun hc => hfits ⟨he, hc⟩

theorem takeSegmentSet_effect (b : List Byte) (s : State) : OwnerEffect s (takeSegmentSet b s).state := by
  unfold takeSegmentSet
  split
  case h_1 t g _ _ =>
    split
    case isTrue => exact .stays
    case isFalse hlock =>
      split
      case h_1 => exact .stays
      case h_2 r hfields =>
        split
        case isTrue hfits => exact .setSeg t g r (Bool.of_not_eq_true hlock) ⟨b, hfields⟩ hfits
        case isFalse => exact .stays
  case h_2 => exact .stays

theorem takeTileQuarantine_effect (b : List Byte) (s : State) : OwnerEffect s (takeTileQuarantine b s).state := by
  unfold takeTileQuarantine
  split
  · exact .stays
  · exact .quarantine _

theorem takeTileRestore_effect (b : List Byte) (s : State) : OwnerEffect s (takeTileRestore b s).state := by
  unfold takeTileRestore
  split
  · exact .stays
  · exact .restore _

theorem takeFlatClear_effect (b : List Byte) (s : State) : OwnerEffect s (takeFlatClear b s).state := by
  unfold takeFlatClear
  split
  case h_1 => exact .stays
  case h_2 t _ =>
    split
    case isTrue => exact .stays
    case isFalse hlock => exact .startClear t (Bool.of_not_eq_true hlock)

theorem takeFlatWrite_effect (b : List Byte) (s : State) : OwnerEffect s (takeFlatWrite b s).state := by
  unfold takeFlatWrite
  split
  case h_1 => exact .stays
  case h_2 t _ =>
    split
    case isTrue => exact .stays
    case isFalse hlock =>
      split
      case isTrue => exact .stays
      case isFalse hloaded =>
        split
        case isTrue hcovers =>
          exact .writeFlat t _ _ b (Bool.of_not_eq_true hlock) (Decidable.of_not_not hloaded) hcovers
        case isFalse => exact .stays

theorem takeFlatRead_effect (b : List Byte) (s : State) : OwnerEffect s (takeFlatRead b s).state := by
  unfold takeFlatRead
  (repeat' split) <;> exact .stays

theorem takeCanvasSet_effect (b : List Byte) (s : State) : OwnerEffect s (takeCanvasSet b s).state := by
  unfold takeCanvasSet
  split
  case isTrue => exact .stays
  case isFalse hfree =>
    obtain ⟨hfree0, hfree1⟩ := not_or.1 hfree
    split
    case isTrue hrange =>
      obtain ⟨hw1, hw2, hh1, hh2⟩ := hrange
      exact .setCanvas _ _ (Decidable.of_not_not hfree0) (Decidable.of_not_not hfree1) ⟨hw1, hw2⟩ ⟨hh1, hh2⟩
    case isFalse => exact .stays

theorem takeCellPeek_effect (b : List Byte) (s : State) : OwnerEffect s (takeCellPeek b s).state := by
  unfold takeCellPeek
  (repeat' split) <;> exact .stays

theorem takeVisitOpen_effect (b : List Byte) (s : State) : OwnerEffect s (takeVisitOpen b s).state := by
  unfold takeVisitOpen
  split
  case isTrue => exact .stays
  case isFalse hlock =>
    split
    case isTrue => exact .stays
    case isFalse hexpected =>
      split
      case isTrue => exact .stays
      case isFalse hclear =>
        split
        case h_1 => exact .stays
        case h_2 k hfree =>
          exact .openVisit _ _ k (Bool.of_not_eq_true hlock) (by omega) (Bool.of_not_eq_true hclear) hfree

theorem takeSnapOpen_effect (b : List Byte) (s : State) : OwnerEffect s (takeSnapOpen b s).state := by
  unfold takeSnapOpen
  split
  case isTrue hmay =>
    split
    case isTrue hrange =>
      obtain ⟨hx, hy⟩ := Bool.and_eq_true_iff.1 hrange
      exact .openSnap _ _ hmay.1 hmay.2 hx hy
    case isFalse => exact .stays
  case isFalse => exact .stays

theorem takeSnapClose_effect (b : List Byte) (s : State) : OwnerEffect s (takeSnapClose b s).state := by
  unfold takeSnapClose
  split
  case h_1 hopen => exact .beginDrain hopen
  all_goals exact .stays

theorem takeVisitClose_effect (b : List Byte) (s : State) : OwnerEffect s (takeVisitClose b s).state := by
  unfold takeVisitClose
  split
  case isTrue hbetween => exact .closeVisit hbetween
  case isFalse => exact .stays

theorem takeVisitAbort_effect (b : List Byte) (s : State) : OwnerEffect s (takeVisitAbort b s).state := by
  unfold takeVisitAbort
  split
  case h_1 => exact .stays
  case h_2 k _ =>
    split
    case h_1 hfilling =>
      simp only [Answer.ok]
      exact .abortVisit k hfilling
    case h_2 hclosed => exact .withdrawVisit k hclosed
    all_goals exact .stays

theorem takeResolveSet_effect (b : List Byte) (s : State) : OwnerEffect s (takeResolveSet b s).state := by
  unfold takeResolveSet
  split
  case isTrue => exact .stays
  case isFalse hlock =>
    split
    case h_1 => exact .stays
    case h_2 f _ => exact .setResolve f (Bool.of_not_eq_true hlock)

theorem takeProductSet_effect (b : List Byte) (s : State) : OwnerEffect s (takeProductSet b s).state := by
  unfold takeProductSet
  split
  case h_1 => exact .stays
  case h_2 i _ =>
    split
    case isTrue => exact .stays
    case isFalse hlock =>
      split
      case h_1 => exact .stays
      case h_2 e _ =>
        split
        case isTrue => exact .stays
        case isFalse hfree => exact .setProduct i e (Bool.of_not_eq_true hlock) (Bool.of_not_eq_true hfree)

theorem takeResolveStart_effect (b : List Byte) (s : State) : OwnerEffect s (takeResolveStart b s).state := by
  unfold takeResolveStart
  split
  case h_1 => exact .stays
  case h_2 k _ =>
    split
    case h_1 hrunning =>
      split
      case isTrue => exact .askRestart hrunning
      case isFalse => exact .stays
    case h_2 => split <;> exact .stays
    case h_3 => exact .stays
    case h_4 hidle =>
      split
      case isTrue hbank => exact .openPass k hidle hbank
      case isFalse => exact .stays

theorem takeResolveAbort_effect (b : List Byte) (s : State) : OwnerEffect s (takeResolveAbort b s).state := by
  unfold takeResolveAbort
  split
  case h_1 => exact .stays
  case h_2 => exact .stays
  case h_3 hrunning => exact .askEnd (.inl hrunning)
  case h_4 hrestarting => exact .askEnd (.inr hrestarting)

theorem takeBankRelease_effect (b : List Byte) (s : State) : OwnerEffect s (takeBankRelease b s).state := by
  unfold takeBankRelease
  split
  case h_1 => exact .stays
  case h_2 k _ =>
    split
    case isTrue hresolved => exact .retire k hresolved
    case isFalse => exact .stays

/-! ## The steps -/

/-- A command's step leaves the state as it is, or answers the frame at the head of its queue on what the owner leaves; of a
frame with a wrong length the owner is not asked (R168). -/
theorem command_effect {code : Byte} {owner : List Byte → State → Answer} {p : PortId} {s t : State}
    (howner : ∀ b, OwnerEffect s (owner b s).state) (h : command code owner p s = .next t) : StepEffect s t := by
  unfold command at h
  split at h
  case h_1 =>
    cases h
    exact .stays
  case h_2 f hframe =>
    cases h
    have hhead : (s.port p).queue.head? = some f := by
      unfold State.headFrame at hframe
      split at hframe
      · simp at hframe
      · rename_i hq
        split at hframe <;> simp_all
    unfold State.carryOut
    split
    · exact .command p f _ _ _ hhead (howner _)
    · exact .command p f _ _ _ hhead .stays

/-- Every step's effect is one of the list. -/
theorem exec_effect {c : Instr} {s t : State} (h : exec c s = .next t) : StepEffect s t := by
  cases c with
  | powerOn => cases h; exact .powerOn
  | lineUp p =>
    simp only [exec, execLineUp] at h
    split at h <;> cases h
    · exact .stays
    · exact .lineUp p ‹_›
  | lineDown p =>
    simp only [exec, execLineDown] at h
    split at h <;> cases h
    · exact .stays
    · exact .lineFall p ‹_›
  | pxLineUp => cases h; exact .pxLineUp
  | pxLineDown =>
    simp only [exec, execPxLineDown] at h
    split at h <;> cases h
    · exact .stays
    · exact .pxDown ‹_›
  | startDelimiter port =>
    cases port with
    | ingress p =>
      simp only [exec, execStartDelimiter] at h
      split at h <;> cases h
      · exact .startFrame p ‹_›
      · exact .stays
    | px =>
      simp only [exec, execStartDelimiter] at h
      split at h <;> cases h
      · exact .startPxFrame ‹_›
      · exact .stays
  | lineIdleTruncation port =>
    cases port with
    | ingress p =>
      simp only [exec, execLineIdleTruncation] at h
      split at h <;> cases h
      · exact .stays
      · exact .idleLine p ‹_›
    | px => cases h; exact .idlePxLine
  | frameHeader port header crc =>
    cases port with
    | ingress p =>
      simp only [exec, execFrameHeader] at h
      split at h <;> cases h
      · exact .ingressHeader p header _ ‹_›
      · exact .stays
    | px =>
      simp only [exec, execFrameHeader] at h
      split at h <;> cases h
      · exact .pxHeader header _ ‹_›
      · exact .stays
  | rowEndDelimiter port received =>
    cases port with
    | px => cases h; exact .endPxFrame
    | ingress p =>
      simp only [exec, execRowEndDelimiter] at h
      split at h <;> cases h
      · exact .endRowFrame p _ _ received ‹_›
      · exact .endRest p _ ‹_›
      all_goals exact .stays
  | ctlEndDelimiter port received =>
    cases port with
    | px => cases h; exact .endPxFrame
    | ingress p =>
      simp only [exec, execCtlEndDelimiter] at h
      split at h <;> cases h
      · exact .endCtlFrame p _ _ _ received ‹_›
      · exact .endRest p _ ‹_›
      all_goals exact .stays
  | returnLaneFrameSent p => cases h; exact .finishReturnFrame p
  | nop p => exact command_effect (fun b => takeNop_effect b s) h
  | statusRead p => exact command_effect (fun b => takeStatusRead_effect b s) h
  | tableRead p => exact command_effect (fun b => takeTableRead_effect b s) h
  | faultClear p => exact command_effect (fun b => takeFaultClear_effect b s) h
  | engineReset p => exact command_effect (fun b => takeEngineReset_effect b s) h
  | unknownCommand p =>
    simp only [exec, execUnknownCommand] at h
    split at h
    · cases h
      exact .stays
    · rename_i hq
      split at h <;> cases h
      · exact .stays
      · exact .command p _ s _ _ (by rw [hq]; rfl) .stays
  | intakeSet p => exact command_effect (fun b => takeIntakeSet_effect b s) h
  | tileSet p => exact command_effect (fun b => takeTileSet_effect b s) h
  | segmentSet p => exact command_effect (fun b => takeSegmentSet_effect b s) h
  | tileQuarantine p => exact command_effect (fun b => takeTileQuarantine_effect b s) h
  | tileRestore p => exact command_effect (fun b => takeTileRestore_effect b s) h
  | flatClear p => exact command_effect (fun b => takeFlatClear_effect b s) h
  | flatWrite p => exact command_effect (fun b => takeFlatWrite_effect b s) h
  | flatRead p => exact command_effect (fun b => takeFlatRead_effect b s) h
  | canvasSet p => exact command_effect (fun b => takeCanvasSet_effect b s) h
  | cellPeek p => exact command_effect (fun b => takeCellPeek_effect b s) h
  | visitOpen p => exact command_effect (fun b => takeVisitOpen_effect b s) h
  | snapOpen p => exact command_effect (fun b => takeSnapOpen_effect b s) h
  | snapClose p => exact command_effect (fun b => takeSnapClose_effect b s) h
  | visitClose p => exact command_effect (fun b => takeVisitClose_effect b s) h
  | visitAbort p => exact command_effect (fun b => takeVisitAbort_effect b s) h
  | resolveSet p => exact command_effect (fun b => takeResolveSet_effect b s) h
  | productSet p => exact command_effect (fun b => takeProductSet_effect b s) h
  | resolveStart p => exact command_effect (fun b => takeResolveStart_effect b s) h
  | resolveAbort p => exact command_effect (fun b => takeResolveAbort_effect b s) h
  | bankRelease p => exact command_effect (fun b => takeBankRelease_effect b s) h
  | stallTimerExpiry t =>
    simp only [exec, execStallTimerExpiry] at h
    split at h <;> cases h
    · exact .stays
    · exact .stallTile t _ ‹_›
  | drainTimerExpiry =>
    simp only [exec, execDrainTimerExpiry] at h
    split at h <;> cases h
    · exact .stays
    · exact .drainExpires _ ‹_›
  | egressTimerExpiry =>
    simp only [exec, execEgressTimerExpiry] at h
    split at h <;> cases h
    · exact .stays
    · exact .egressExpires _ ‹_›
  | rowStart p =>
    simp only [exec, execRowStart] at h
    split at h
    · rename_i hidle htaken
      split at h <;> cases h
      · exact .startRow p _ _ _ hidle htaken ‹_›
      · exact .stays
    all_goals
      cases h
      exact .stays
  | pixelDeposit p =>
    simp only [exec, execPixelDeposit] at h
    split at h <;> cases h
    · exact .stays
    · exact .nextPixel p _ ‹_›
  | flatClearEnd t =>
    simp only [exec, execFlatClearEnd] at h
    split at h <;> cases h
    · exact .finishClear t ‹_›
    · exact .stays
  | scrubCellWrite b =>
    simp only [exec, execScrubCellWrite] at h
    split at h <;> cases h
    · exact .scrubNext b ‹_›
    · exact .stays
  | prdFrameSent =>
    simp only [exec, execPrdFrameSent] at h
    split at h <;> cases h
    · exact .stays
    · exact .rowLeaves _ ‹_›

/-- A law that does not speak of the queue, and that every effect keeps, is kept by every step. -/
theorem step_keeps {P : State → Prop} (hqueue : ∀ (s : State) (q : List Instr), P s → P { s with pending := q })
    (heffect : ∀ s t, P s → StepEffect s t → P t) {s t : State} (hs : P s) (h : step s = .next t) : P t := by
  unfold step at h
  split at h
  · cases h
    exact hs
  · exact heffect _ t (hqueue s _ hs) (exec_effect h)

end Sys2Proof.Machine
end

section
/-! SUPPORT. The tables, the visits, the banks and the passes stay in order along every step (R3, R7, R13, R18, R70, R73, R101,
R103, R141, R142). -/

namespace Sys2Proof.Machine

/-! ## The tables -/

/-- The tables are in order at power-on (R3, R7): every record is the reset record, and no tile is enabled. -/
theorem State.reset_tablesOk : State.reset.TablesOk := by
  refine ⟨fun t => ?_, fun t g => ?_, fun t henabled => ?_⟩
  · rw [State.reset_tile]
    simp [TileRec.Known, TileRec.reset]
  · rw [State.reset_seg]
    simp [SegRec.Known, SegRec.reset]
  · rw [State.reset_tile] at henabled
    cases henabled

/-- Only TILE_SET, SEGMENT_SET, TILE_QUARANTINE and TILE_RESTORE touch the tables. -/
theorem OwnerEffect.tablesOk {s u : State} (h : OwnerEffect s u) (hs : s.TablesOk) : u.TablesOk := by
  cases h with
  | setTile t r _ hfields hfits =>
    obtain ⟨b, hfields⟩ := hfields
    exact hs.setTile t r (tileFields_known hfields) hfits
  | setSeg t g r _ hfields hfits =>
    obtain ⟨b, hfields⟩ := hfields
    exact hs.setSeg t g r (segFields_known hfields) hfits
  | quarantine t => exact (hs.setQuarantine t true).of_eq (by simp) (by simp)
  | restore t => exact hs.setQuarantine t false
  | stays => exact hs
  | setStatus | setIntake | startClear | writeFlat | setProduct => exact hs.of_eq rfl rfl
  | setResolve => exact hs.of_eq (by simp [State.setResolve]) (by simp [State.setResolve])
  | _ => exact hs.of_eq (by simp) (by simp)

/-- Outside the commands only POWER_ON touches the tables (R3, R7). -/
theorem StepEffect.tablesOk {s t : State} (h : StepEffect s t) (hs : s.TablesOk) : t.TablesOk := by
  cases h with
  | powerOn => exact State.reset_tablesOk.of_eq rfl rfl
  | command p f u r data _ howner => exact (howner.tablesOk hs).of_eq (by simp) (by simp)
  | finishClear => exact hs.of_eq rfl rfl
  | _ => exact hs.of_eq (by simp) (by simp)

/-- Settles O55: only four commands write the tables, and each writes what its tests let through. -/
theorem stepKeepsTablesConsistent : Obligations.StepKeepsTablesConsistent := fun _ _ hs h =>
  step_keeps (fun _ _ hq => hq.of_eq rfl rfl) (fun _ _ hq heffect => heffect.tablesOk hq) hs h

/-! ## Visits, banks and passes -/

/-- Visits, banks and passes are in order at power-on (R82, R119, R154): both banks are FREE, and no visit and no pass is under
way. -/
theorem State.reset_banksOk : State.reset.BanksOk := by
  have hbank : ∀ b, (State.reset.bank b).state = .free ∧ (State.reset.bank b).readHold = false := fun b => by
    rw [State.reset_bank]
    exact ⟨rfl, rfl⟩
  have hvisit : State.reset.VisitOk := by
    refine ⟨rfl, fun b => ?_, fun h => absurd rfl h⟩
    rw [(hbank b).1]
    simp [State.reset, Visit.reset]
  have hwaiting : State.reset.WaitingOk := by
    refine ⟨fun b => ?_, List.nodup_nil⟩
    rw [(hbank b).1]
    simp [State.reset, Resolve.reset]
  have hpass : State.reset.PassCore := by
    refine ⟨fun b => ?_, ?_, fun b => ?_, ?_, fun _ => rfl⟩
    · rw [(hbank b).1]
      simp
    · simp [State.reset, Resolve.reset]
    · rw [(hbank b).2]
      simp [State.reset, Resolve.reset]
    · simp [State.reset, Resolve.reset]
  exact (State.banksOk_iff _).2 ⟨⟨hvisit, hwaiting, hpass⟩, State.rowHeld_of (.inr rfl), fun _ _ => rfl⟩

/-- The row in transmission leaves PX, sent or cut, and the sequencer goes on (R145). -/
theorem State.BanksOk.rowLeaves {s : State} (h : s.BanksOk) {f : PrdFrame} (hlane : s.px.lane = some f)
    (counters : PxCounters) :
    ((s.updPx fun x => { x with lane := none, counters := counters }).rowSent f).BanksOk := by
  obtain ⟨hvisit, hwaiting, hresolving, hbank, hhold, hsnapshot, hidle⟩ := h.core
  have hpass : s.resolve.state ≠ .idle := fun he => by simp [hidle he] at hlane
  have hcore : (s.updPx fun x => { x with lane := none, counters := counters }).Core :=
    ⟨hvisit, hwaiting, hresolving, hbank, hhold, hsnapshot, fun _ => rfl⟩
  exact hcore.rowSent rfl hpass f

/-- New resolve settings and modes, and the automatic start that they may call for (R121, R142). -/
theorem State.BanksOk.setResolve {s : State} (h : s.BanksOk) (f : ResolveFields) : (s.setResolve f).autoStart.BanksOk := by
  obtain ⟨hcore, hrow, -⟩ := (State.banksOk_iff s).1 h
  have hset : (s.setResolve f).Core := (State.core_congr ⟨rfl, rfl, rfl, rfl⟩ (fun _ => ⟨rfl, rfl⟩)
    ⟨rfl, rfl, rfl, Iff.rfl⟩ Iff.rfl).2 hcore
  exact hset.autoStart hrow

/-- A pass started by command, and the passes that follow it at once (R142, R148). -/
theorem State.BanksOk.openPass {s : State} (h : s.BanksOk) (hidle : s.resolve.state = .idle) (b : BankId)
    (hbank : (s.bank b).state = .closed ∨ (s.bank b).state = .resolved) : (s.openPass b).autoStart.BanksOk := by
  obtain ⟨hcore, -, -, hstate⟩ := h.core.openPass hidle b hbank
  exact hcore.autoStart (State.rowHeld_of hstate)

/-- Every command keeps visits, banks and passes in order. -/
theorem OwnerEffect.banksOk {s u : State} (h : OwnerEffect s u) (hs : s.BanksOk) : u.BanksOk := by
  cases h with
  | stays => exact hs
  | engineRest => exact hs.engineRest
  | quarantine t =>
    have hset : (s.setQuarantine t true).BanksOk := hs.of_eq rfl rfl rfl rfl
    unfold State.quarantineNow
    split
    · exact (hset.endTile t .quarantined).judgeSnap
    · exact hset
  | setCanvas w h hfree0 hfree1 => exact hs.setCanvas w h hfree0 hfree1
  | openVisit tag expected b hlock _ _ hfree => exact hs.openVisit hlock tag expected b hfree
  | openSnap sx sy hbetween => exact (hs.openSnap hbetween sx sy).judgeSnap
  | beginDrain hopen => exact hs.beginDrain hopen
  | closeVisit hbetween => exact hs.closeVisit hbetween
  | abortVisit b hfilling => exact hs.abortVisit b hfilling
  | withdrawVisit b hclosed => exact hs.withdrawVisit b hclosed
  | setResolve f => exact hs.setResolve f
  | setProduct => exact hs.congr ⟨rfl, rfl, rfl, rfl⟩ (fun _ => ⟨rfl, rfl⟩) ⟨rfl, rfl, rfl, Iff.rfl, rfl⟩ Iff.rfl
  | openPass b hidle hbank => exact hs.openPass hidle b hbank
  | askRestart hrunning => exact hs.askRestart hrunning
  | askEnd hpass => exact hs.askEnd hpass
  | retire b hresolved => exact hs.of_core (hs.core.retire b (by rw [hresolved]; rfl)) (by simp) (by simp)
  | setStatus | setIntake | setTile | setSeg | restore | startClear | writeFlat => exact hs.of_eq rfl rfl rfl rfl

/-- Of the product port the order asks no more than which row its forward lane holds. -/
theorem State.BanksOk.of_lane {s u : State} (h : s.BanksOk) (hv : u.visit = s.visit) (hc : u.canvas = s.canvas)
    (hr : u.resolve = s.resolve) (hl : u.px.lane = s.px.lane) : u.BanksOk := by
  refine h.congr ?_ ?_ ?_ ?_
  · simp [hv]
  · simp [State.bank, hc]
  · simp [hr]
  · rw [hl]

/-- A truncation on PX's reverse lane leaves the row on its forward lane (R156). -/
theorem State.truncatePx_lane (s : State) : s.truncatePx.px.lane = s.px.lane := by
  unfold State.truncatePx
  split <;> rfl

/-- A header on PX keeps the order: a good CRD may give the sequencer its credit (R145, R157, R165). -/
theorem State.BanksOk.pxHeader {s : State} (h : s.BanksOk) (hd : Header) (crcGood : Bool) :
    (s.pxHeader hd crcGood).BanksOk := by
  have hdiscard : s.discardPx.BanksOk := h.of_lane rfl rfl rfl rfl
  cases hd with
  | crd len credits =>
    unfold State.pxHeader
    dsimp only
    split
    · exact State.BanksOk.resumeWalk (h.of_lane rfl rfl rfl rfl)
    · exact hdiscard
  | _ => exact hdiscard

/-- The end of a frame on PX keeps the order (R157). -/
theorem State.BanksOk.endPxFrame {s : State} (h : s.BanksOk) : s.endPxFrame.BanksOk := by
  unfold State.endPxFrame
  split
  · exact h
  · exact h
  · exact h.of_lane rfl rfl rfl rfl

/-- The egress timer's expiry keeps the order (R146). -/
theorem State.BanksOk.egressExpires {s : State} (h : s.BanksOk) : s.egressExpires.BanksOk := by
  unfold State.egressExpires
  dsimp only
  split <;> exact h.congr ⟨rfl, rfl, rfl, rfl⟩ (fun _ => ⟨rfl, rfl⟩) ⟨rfl, rfl, rfl, Iff.rfl, rfl⟩ Iff.rfl

/-- A stall timer's expiry keeps the order (R37). -/
theorem State.BanksOk.stallTile {s : State} (h : s.BanksOk) (t : TileId) : (s.stallTile t).BanksOk := by
  unfold State.stallTile
  split
  · exact (h.endTile t .stalled).judgeSnap
  · exact h.of_eq rfl rfl rfl rfl

/-- The drain timer's expiry keeps the order (R38, R112). -/
theorem State.BanksOk.drainExpires {s : State} (h : s.BanksOk) : s.drainExpires.BanksOk := by
  unfold State.drainExpires
  split
  · exact (h.stopDrain.cutTiles _).judgeSnap
  · exact h.stopDrain

/-- The end of a ROW frame keeps the order, whatever Row Intake decides on it (R21, R159). -/
theorem State.BanksOk.endRowFrame {s : State} (h : s.BanksOk) (p : PortId) (hd : RowHeader) (len : Nat)
    (received : List Byte) : (s.endRowFrame p hd len received).BanksOk := by
  unfold State.endRowFrame
  split
  · exact h.of_eq (by simp) (by simp) (by simp) (by simp)
  · exact State.BanksOk.arrive (h.of_eq (by simp) (by simp) (by simp) (by simp)) p hd _ _

/-- Every step's effect keeps visits, banks and passes in order. -/
theorem StepEffect.banksOk {s t : State} (h : StepEffect s t) (hs : s.BanksOk) : t.BanksOk := by
  cases h with
  | stays => exact hs
  | powerOn =>
    exact State.reset_banksOk.congr ⟨rfl, rfl, rfl, rfl⟩ (fun _ => ⟨rfl, rfl⟩) ⟨rfl, rfl, rfl, Iff.rfl, rfl⟩ Iff.rfl
  | pxLineUp => exact hs.of_lane rfl rfl rfl rfl
  | pxDown =>
    refine State.BanksOk.cutRow (hs.of_lane ?_ ?_ ?_ s.truncatePx_lane) <;> simp
  | startPxFrame => exact hs.of_lane (by simp) (by simp) (by simp) s.truncatePx_lane
  | idlePxLine => exact hs.of_lane (by simp) (by simp) (by simp) s.truncatePx_lane
  | pxHeader hd crcGood => exact hs.pxHeader hd crcGood
  | endPxFrame => exact hs.endPxFrame
  | endRowFrame p hd len received =>
    exact (hs.endRowFrame p hd len received).of_eq (by simp) (by simp) (by simp) (by simp)
  | command p f u r data _ howner => exact (howner.banksOk hs).respond p f r data
  | stallTile t => exact hs.stallTile t
  | drainExpires => exact hs.drainExpires
  | egressExpires => exact hs.egressExpires
  | startRow p w rest q => exact hs.startRow p w rest q
  | nextPixel p l => exact hs.nextPixel p l
  | finishClear => exact hs.of_eq rfl rfl rfl rfl
  | scrubNext b hscrubbing => exact hs.scrubNext b hscrubbing
  | rowLeaves f hlane => exact hs.rowLeaves hlane _
  | lineUp | lineFall | startFrame | idleLine | ingressHeader | endCtlFrame | endRest | finishReturnFrame =>
    exact hs.of_eq (by simp) (by simp) (by simp) (by simp)

/-- Settles O56: each effect, under the condition under which it comes about, keeps the order. -/
theorem stepKeepsBanksInOrder : Obligations.StepKeepsBanksInOrder := fun _ _ hs h =>
  step_keeps (fun _ _ hq => hq.of_eq rfl rfl rfl rfl) (fun _ _ hq heffect => heffect.banksOk hq) hs h

end Sys2Proof.Machine
end

section
/-! SUPPORT. The focal-plane tables' own commands and layouts: the layout test (R4), TILE_SET and SEGMENT_SET (R10 to R13, R17,
R18), TILE_QUARANTINE and TILE_RESTORE (R14, R16, R35, R108). -/

namespace Sys2Proof.Machine

/-! ## Layouts (R4) -/

/-- A segment covers a tile pixel: the pixel's column and row lie in the segment's spans (R4). -/
def SegRec.Covers (a : SegRec) (u v : Nat) : Prop :=
  a.colOrigin ≤ u ∧ u < a.colOrigin + a.width ∧ a.rowOrigin ≤ v ∧ v < a.rowOrigin + a.height

/-- The first test of a layout, written out (R4). -/
theorem SegRec.fits_iff (r : SegRec) (width height : Nat) :
    r.fits width height = true
      ↔ 1 ≤ r.width ∧ 1 ≤ r.height ∧ r.colOrigin + r.width ≤ width ∧ r.rowOrigin + r.height ≤ height := by
  simp [SegRec.fits, and_assoc]

/-- The second test of a layout, as a law of every pair of segments (R4). -/
theorem disjointSegs_iff (segs : List SegRec) :
    disjointSegs segs = true ↔ segs.Pairwise fun a b => a.overlaps b = false := by
  induction segs with
  | nil => simp [disjointSegs]
  | cons r rs ih => simp [disjointSegs, ih]

/-- Segments with at least one row and one column share no pixel exactly when their spans do not overlap in both directions. -/
theorem SegRec.overlaps_eq_false_iff {a b : SegRec} (ha : 1 ≤ a.width ∧ 1 ≤ a.height) (hb : 1 ≤ b.width ∧ 1 ≤ b.height) :
    a.overlaps b = false ↔ ¬∃ u v, a.Covers u v ∧ b.Covers u v := by
  rw [← Bool.not_eq_true, overlaps_iff_shared_pixel a b ha.1 ha.2 hb.1 hb.2]
  rfl

/-- Settles O21: the pairwise test reads as the sharing of a pixel only of segments that are not empty, which the first test says
of every one. -/
theorem consistentLayoutsShareNoPixel : Obligations.ConsistentLayoutsShareNoPixel := by
  intro width height segs
  simp only [consistentLayout, Bool.and_eq_true, List.all_eq_true, SegRec.fits_iff, disjointSegs_iff]
  refine and_congr_right fun hfits => List.Pairwise.iff_of_mem fun {a b} ha hb => ?_
  obtain ⟨hwa, hha, -⟩ := hfits a ha
  obtain ⟨hwb, hhb, -⟩ := hfits b hb
  exact SegRec.overlaps_eq_false_iff ⟨hwa, hha⟩ ⟨hwb, hhb⟩

/-! ## TILE_SET and SEGMENT_SET (R10 to R13) -/

/-- The tile record that a TILE_SET payload spells, in range or not (R10, R185). -/
def tileCarried (b : List Byte) (quarantined : Bool) : TileRec :=
  { enabled := field b 1 1 == 1, width := field b 2 2, height := field b 4 2, segCount := field b 6 1
    ox := signedField b 7 2, oy := signedField b 9 2, fx := field b 11 1, fy := field b 12 1
    orientation := field b 13 1, quarantined := quarantined }

/-- The ranges of the fields of a TILE_SET payload (R3, R10). -/
def TileInRange (b : List Byte) : Prop :=
  field b 1 1 ≤ 1 ∧ 1 ≤ field b 2 2 ∧ field b 2 2 ≤ 4096 ∧ 1 ≤ field b 4 2 ∧ field b 4 2 ≤ 4096 ∧ 1 ≤ field b 6 1
    ∧ field b 6 1 ≤ 4 ∧ -16384 ≤ signedField b 7 2 ∧ signedField b 7 2 ≤ 32767 ∧ -16384 ≤ signedField b 9 2
    ∧ signedField b 9 2 ≤ 32767 ∧ field b 11 1 ≤ 15 ∧ field b 12 1 ≤ 15 ∧ field b 13 1 ≤ 7

/-- A payload in range carries its record (R10). -/
theorem tileFields_of_inRange {b : List Byte} (h : TileInRange b) (q : Bool) : tileFields b q = some (tileCarried b q) := by
  obtain ⟨hyes, hranges⟩ := h
  unfold tileFields
  rw [yesNoOf_of_le hyes]
  exact if_pos hranges

/-- A payload out of range carries none (R10). -/
theorem tileFields_of_not_inRange {b : List Byte} (h : ¬TileInRange b) (q : Bool) : tileFields b q = none := by
  unfold tileFields
  by_cases hyes : field b 1 1 ≤ 1
  · rw [yesNoOf_of_le hyes]
    exact if_neg fun hranges => h ⟨hyes, hranges⟩
  · rw [yesNoOf_of_gt hyes]

/-- The segment record that a SEGMENT_SET payload spells, in range or not (R12, R185). -/
def segCarried (b : List Byte) : SegRec :=
  { colOrigin := field b 2 2, rowOrigin := field b 4 2, width := field b 6 2, height := field b 8 2
    colReversed := field b 10 1 == 1, rowReversed := field b 11 1 == 1, overscan := field b 12 1
    skip := field b 13 1, shift := field b 14 1, defaultBias := field b 15 3, gain := field b 18 2
    satThreshold := field b 20 3, lowThreshold := signedField b 23 4 }

/-- The ranges of the fields of a SEGMENT_SET payload (R7, R12). -/
def SegInRange (b : List Byte) : Prop :=
  field b 10 1 ≤ 1 ∧ field b 11 1 ≤ 1 ∧ field b 2 2 ≤ 4095 ∧ field b 4 2 ≤ 4095 ∧ 1 ≤ field b 6 2 ∧ field b 6 2 ≤ 4096
    ∧ 1 ≤ field b 8 2 ∧ field b 8 2 ≤ 4096 ∧ field b 12 1 ≤ 64 ∧ field b 13 1 ≤ 15 ∧ field b 14 1 ≤ 7
    ∧ field b 15 3 ≤ 4194303 ∧ 1 ≤ field b 18 2 ∧ field b 18 2 ≤ 65535 ∧ 1 ≤ field b 20 3 ∧ field b 20 3 ≤ 262143
    ∧ -134217728 ≤ signedField b 23 4 ∧ signedField b 23 4 ≤ 134217727

/-- A payload in range carries its record (R12). -/
theorem segFields_of_inRange {b : List Byte} (h : SegInRange b) : segFields b = some (segCarried b) := by
  obtain ⟨hcol, hrow, hranges⟩ := h
  unfold segFields
  rw [yesNoOf_of_le hcol, yesNoOf_of_le hrow]
  exact if_pos hranges

/-- A payload out of range carries none (R12). -/
theorem segFields_of_not_inRange {b : List Byte} (h : ¬SegInRange b) : segFields b = none := by
  unfold segFields
  by_cases hcol : field b 10 1 ≤ 1
  · by_cases hrow : field b 11 1 ≤ 1
    · rw [yesNoOf_of_le hcol, yesNoOf_of_le hrow]
      exact if_neg fun hranges => h ⟨hcol, hrow, hranges⟩
    · rw [yesNoOf_of_le hcol, yesNoOf_of_gt hrow]
  · rw [yesNoOf_of_gt hcol]

/-- A number of four or more names no segment (R7). -/
theorem segOf_eq_none {n : Nat} (h : 4 ≤ n) : segOf n = none := dif_neg (by omega)

/-- A segment record is allowed when its tile is not enabled, when it is not in use, or when the layout with it in place is
consistent (R12, R13). -/
theorem State.segmentAllowed_iff (s : State) (t : TileId) (g : SegId) (r : SegRec) :
    s.segmentAllowed t g r = true
      ↔ (s.tile t).enabled = false ∨ (s.tile t).segCount ≤ g.val
        ∨ consistentLayout (s.tile t).width (s.tile t).height ((s.setSeg t g r).layout t (s.tile t).segCount) = true := by
  simp [State.segmentAllowed, or_assoc]

/-- TILE_SET's owner: its tests in their order (R10, R11, R18). -/
theorem takeTileSet_eq {b : List Byte} {t : TileId} (ht : field b 0 1 = t.val) (s : State) :
    let r := tileCarried b (s.tile t).quarantined
    let fits := r.enabled = false ∨ consistentLayout r.width r.height (s.layout t r.segCount) = true
    (s.visitLock = true → takeTileSet b s = .refuse s .locked)
      ∧ (s.visitLock = false → ¬(TileInRange b ∧ fits) → takeTileSet b s = .refuse s .range)
      ∧ (s.visitLock = false → TileInRange b → fits → takeTileSet b s = .ok (s.setTile t r)) := by
  intro r fits
  unfold takeTileSet
  rw [tileOf_eq_some ht]
  refine ⟨fun hlock => if_pos hlock, fun hfree hbad => ?_, fun hfree hrange hfits => ?_⟩
  · simp only [hfree, Bool.false_eq_true, if_false]
    by_cases hrange : TileInRange b
    · rw [tileFields_of_inRange hrange]
      refine if_pos ?_
      simpa [fits, r, hrange] using hbad
    · rw [tileFields_of_not_inRange hrange]
  · simp only [hfree, Bool.false_eq_true, if_false]
    rw [tileFields_of_inRange hrange]
    refine if_neg ?_
    rintro ⟨henabled, hinconsistent⟩
    rcases hfits with hoff | hconsistent
    · exact Bool.false_ne_true (hoff.symm.trans henabled)
    · exact Bool.false_ne_true (hinconsistent.symm.trans hconsistent)

/-- SEGMENT_SET's owner: its tests in their order (R12, R13, R18). -/
theorem takeSegmentSet_eq {b : List Byte} {t : TileId} {g : SegId} (ht : field b 0 1 = t.val) (hg : field b 1 1 = g.val)
    (s : State) :
    let r := segCarried b
    let fits := s.segmentAllowed t g r = true
    let locked := s.visitLock = true ∧ (s.tile t).enabled = true
    (locked → takeSegmentSet b s = .refuse s .locked)
      ∧ (¬locked → ¬(SegInRange b ∧ fits) → takeSegmentSet b s = .refuse s .range)
      ∧ (¬locked → SegInRange b → fits → takeSegmentSet b s = .ok (s.setSeg t g r)) := by
  intro r fits locked
  unfold takeSegmentSet
  rw [tileOf_eq_some ht, segOf_eq_some hg]
  simp only [Bool.and_eq_true]
  refine ⟨fun hlock => if_pos hlock, fun hfree hbad => ?_, fun hfree hrange hfits => ?_⟩
  · rw [if_neg hfree]
    by_cases hrange : SegInRange b
    · rw [segFields_of_inRange hrange]
      exact if_neg fun hfits => hbad ⟨hrange, hfits⟩
    · rw [segFields_of_not_inRange hrange]
  · rw [if_neg hfree, segFields_of_inRange hrange]
    exact if_pos hfits

/-- A TILE_SET for an id that names no tile. -/
theorem takeTileSet_badTile {b : List Byte} (h : 16 ≤ field b 0 1) (s : State) : takeTileSet b s = .refuse s .range := by
  unfold takeTileSet
  rw [tileOf_eq_none h]

/-- A SEGMENT_SET for ids that name no segment. -/
theorem takeSegmentSet_badIds {b : List Byte} (h : 16 ≤ field b 0 1 ∨ 4 ≤ field b 1 1) (s : State) :
    takeSegmentSet b s = .refuse s .range := by
  unfold takeSegmentSet
  rcases h with h | h
  · rw [tileOf_eq_none h]
  · rw [segOf_eq_none h]
    cases tileOf (field b 0 1) <;> rfl

theorem execTileSet_of {s : State} {p : PortId} {f : CtlFrame} (hhead : s.Heads p f 0x20#8 14) {u : State} {r : Result}
    {d : List Byte} (howner : takeTileSet f.payload s = ⟨u, r, d⟩) : exec (.tileSet p) s = .next (u.respond p f r d) :=
  command_runs takeTileSet hhead (by decide) (by decide) howner

theorem execSegmentSet_of {s : State} {p : PortId} {f : CtlFrame} (hhead : s.Heads p f 0x23#8 27) {u : State} {r : Result}
    {d : List Byte} (howner : takeSegmentSet f.payload s = ⟨u, r, d⟩) : exec (.segmentSet p) s = .next (u.respond p f r d) :=
  command_runs takeSegmentSet hhead (by decide) (by decide) howner

/-- Settles O22: each clause is a clause of the owner's equation, carried through the response. -/
theorem focalPlaneTablesAreSet : Obligations.FocalPlaneTablesAreSet := by
  refine ⟨fun s p f hhead => ⟨fun hbad => ?_, fun t ht => ?_⟩, fun s p f hhead => ⟨fun hbad => ?_, fun t g ht hg => ?_⟩⟩
  · exact execTileSet_of hhead (takeTileSet_badTile hbad s)
  · obtain ⟨hlocked, hrange, hset⟩ := takeTileSet_eq ht s
    exact ⟨fun hl => execTileSet_of hhead (hlocked hl), fun hl hbad => execTileSet_of hhead (hrange hl hbad),
      fun hl hr hf => execTileSet_of hhead (hset hl hr hf)⟩
  · exact execSegmentSet_of hhead (takeSegmentSet_badIds hbad s)
  · obtain ⟨hlocked, hrange, hset⟩ := takeSegmentSet_eq ht hg s
    simp only [State.segmentAllowed_iff] at hrange hset
    exact ⟨fun hl => execSegmentSet_of hhead (hlocked hl), fun hl hbad => execSegmentSet_of hhead (hrange hl hbad),
      fun hl hr hf => execSegmentSet_of hhead (hset hl hr hf)⟩

/-! ## TILE_QUARANTINE and TILE_RESTORE (R14, R16) -/

/-- The end of a tile as QUARANTINED, written out: its stall timer stops, and TILE is raised (R33, R35, R36). -/
theorem State.endTile_quarantined (s : State) (t : TileId) :
    s.endTile t .quarantined
      = { s with
          intake := { s.intake with
            records := s.intake.records.put t { s.record t with state := .quarantined }
            stall := s.intake.stall.put t .stopped }
          status := { s.status with tile := true } } := by
  simp [State.endTile, State.raiseTile, State.setStall, State.updRecord, State.raisesTile, Tab.modify, State.record]

/-- While a snap is open, a tile that has not ended its snap ends it, and the snap is judged (R14, R108). -/
theorem State.quarantineNow_of_running {s : State} {t : TileId} (hopen : s.snapOpen = true)
    (hrunning : (s.record t).state = .waiting ∨ (s.record t).state = .receiving) :
    s.quarantineNow t = (s.endTile t .quarantined).judgeSnap := if_pos ⟨hopen, (terminal_false_iff _).2 hrunning⟩

/-- Outside a snap, and of a tile that has ended its snap, nothing changes (R14). -/
theorem State.quarantineNow_of_rest {s : State} {t : TileId}
    (h : s.snapOpen = false ∨ (s.record t).state.terminal = true) : s.quarantineNow t = s := by
  refine if_neg ?_
  rintro ⟨hopen, hterminal⟩
  rcases h with h | h
  · rw [h] at hopen
    cases hopen
  · rw [h] at hterminal
    cases hterminal

theorem takeTileQuarantine_eq {b : List Byte} {t : TileId} (ht : field b 0 1 = t.val) (s : State) :
    takeTileQuarantine b s = .ok ((s.setQuarantine t true).quarantineNow t) := by
  unfold takeTileQuarantine
  rw [tileOf_eq_some ht]

theorem takeTileRestore_eq {b : List Byte} {t : TileId} (ht : field b 0 1 = t.val) (s : State) :
    takeTileRestore b s = .ok (s.setQuarantine t false) := by
  unfold takeTileRestore
  rw [tileOf_eq_some ht]

theorem takeTileQuarantine_badTile {b : List Byte} (h : 16 ≤ field b 0 1) (s : State) :
    takeTileQuarantine b s = .refuse s .range := by
  unfold takeTileQuarantine
  rw [tileOf_eq_none h]

theorem takeTileRestore_badTile {b : List Byte} (h : 16 ≤ field b 0 1) (s : State) :
    takeTileRestore b s = .refuse s .range := by
  unfold takeTileRestore
  rw [tileOf_eq_none h]

theorem execTileQuarantine_of {s : State} {p : PortId} {f : CtlFrame} (hhead : s.Heads p f 0x21#8 1) {u : State} {r : Result}
    {d : List Byte} (howner : takeTileQuarantine f.payload s = ⟨u, r, d⟩) :
    exec (.tileQuarantine p) s = .next (u.respond p f r d) :=
  command_runs takeTileQuarantine hhead (by decide) (by decide) howner

theorem execTileRestore_of {s : State} {p : PortId} {f : CtlFrame} (hhead : s.Heads p f 0x22#8 1) {u : State} {r : Result}
    {d : List Byte} (howner : takeTileRestore f.payload s = ⟨u, r, d⟩) :
    exec (.tileRestore p) s = .next (u.respond p f r d) :=
  command_runs takeTileRestore hhead (by decide) (by decide) howner

/-- Settles O23: the quarantine state is set first, and the snap sees neither it nor the table. -/
theorem quarantineActsOnTheOpenSnap : Obligations.QuarantineActsOnTheOpenSnap := by
  refine fun s p f => ⟨fun hhead => ⟨fun hbad => ?_, fun t ht => ⟨fun hopen hrunning => ?_, fun hrest => ?_⟩⟩,
    fun hhead => ⟨fun hbad => ?_, fun t ht => ?_⟩⟩
  · exact execTileQuarantine_of hhead (takeTileQuarantine_badTile hbad s)
  · rw [execTileQuarantine_of hhead (takeTileQuarantine_eq ht s),
      State.quarantineNow_of_running (s := s.setQuarantine t true) hopen hrunning, State.endTile_quarantined]
    rfl
  · rw [execTileQuarantine_of hhead (takeTileQuarantine_eq ht s),
      State.quarantineNow_of_rest (s := s.setQuarantine t true) hrest]
    rfl
  · exact execTileRestore_of hhead (takeTileRestore_badTile hbad s)
  · exact execTileRestore_of hhead (takeTileRestore_eq ht s)

end Sys2Proof.Machine
end

section
/-! SUPPORT. The flat maps' own commands, FLAT_CLEAR, its end and FLAT_WRITE (R18, R58, R59, R60, R63). -/

namespace Sys2Proof.Machine

/-! ## Clears (R58, R59) -/

theorem takeFlatClear_badTile {b : List Byte} (h : 16 ≤ field b 0 1) (s : State) : takeFlatClear b s = .refuse s .range := by
  unfold takeFlatClear
  rw [tileOf_eq_none h]

/-- FLAT_CLEAR's owner: the visit lock, then the clear (R18, R58). -/
theorem takeFlatClear_eq {b : List Byte} {t : TileId} (ht : field b 0 1 = t.val) (s : State) :
    let locked := s.visitLock = true ∧ (s.tile t).enabled = true
    (locked → takeFlatClear b s = .refuse s .locked) ∧ (¬locked → takeFlatClear b s = .ok (s.startClear t)) := by
  intro locked
  unfold takeFlatClear
  rw [tileOf_eq_some ht]
  simp only [flatLocked_iff_enabled]
  exact ⟨fun hlock => if_pos hlock, fun hfree => if_neg hfree⟩

theorem execFlatClear_of {s : State} {p : PortId} {f : CtlFrame} (hhead : s.Heads p f 0x30#8 1) {u : State} {r : Result}
    {d : List Byte} (howner : takeFlatClear f.payload s = ⟨u, r, d⟩) : exec (.flatClear p) s = .next (u.respond p f r d) :=
  command_runs takeFlatClear hhead (by decide) (by decide) howner

/-- A flat map in which nothing is listed reads as unity everywhere (R59; log 10). -/
theorem FlatMap.entry_of_nil (x : FlatState) (u v : Nat) : (⟨x, []⟩ : FlatMap).entry u v = 16384#16 := rfl

/-! ## Writes (R60) -/

/-- Entries of a map have places of their own as long as columns stay inside the map (R56). -/
theorem flatPlace_inj {u v u' v' : Nat} (hu : u < 4096) (hu' : u' < 4096) (h : flatPlace u v = flatPlace u' v') :
    u = u' ∧ v = v' := by
  simp only [flatPlace, Config.flatSide] at h
  omega

/-- Along a row of a map the places go up by one (R56). -/
theorem flatPlace_add (u v i : Nat) : flatPlace (u + i) v = flatPlace u v + i := by
  simp only [flatPlace]
  omega

theorem flatEntries_length (b : List Byte) : (flatEntries b).length = field b 5 2 := by simp [flatEntries]

/-- An entry of the run that a write covers reads as the value carried (R60). -/
theorem FlatMap.entry_writeRun_inside {m : FlatMap} (hwf : flatWf m.map = true) (b : List Byte) (u0 v : Nat) {i : Nat}
    (hi : i < field b 5 2) :
    FlatMap.entry { m with map := writeRun m.map (flatPlace u0 v) (flatEntries b) } (u0 + i) v
      = BitVec.ofNat 16 (field b (7 + 2 * i) 2) := by
  unfold FlatMap.entry
  rw [lookup_writeRun hwf, flatPlace_add, dif_pos (by rw [flatEntries_length]; omega)]
  simp [flatEntries]

/-- An entry outside the run reads as before (R60). -/
theorem FlatMap.entry_writeRun_outside {m : FlatMap} (hwf : flatWf m.map = true) (b : List Byte) {u0 v x y : Nat}
    (hrun : u0 + field b 5 2 ≤ 4096) (hx : x < 4096) (hout : ¬(y = v ∧ u0 ≤ x ∧ x < u0 + field b 5 2)) :
    FlatMap.entry { m with map := writeRun m.map (flatPlace u0 v) (flatEntries b) } x y = m.entry x y := by
  unfold FlatMap.entry
  rw [lookup_writeRun hwf, dif_neg]
  rw [flatEntries_length]
  rintro ⟨hlow, hhigh⟩
  obtain ⟨i, hplace⟩ := Nat.exists_eq_add_of_le hlow
  rw [← flatPlace_add] at hplace
  have hi : i < field b 5 2 := by
    rw [hplace, flatPlace_add] at hhigh
    omega
  obtain ⟨hcolumn, hrow⟩ := flatPlace_inj hx (by omega) hplace
  exact hout (by omega)

theorem takeFlatWrite_badTile {b : List Byte} (h : 16 ≤ field b 0 1) (s : State) : takeFlatWrite b s = .refuse s .range := by
  unfold takeFlatWrite
  rw [tileOf_eq_none h]

/-- FLAT_WRITE's owner: its tests in their order (R18, R60, R63). -/
theorem takeFlatWrite_eq {b : List Byte} {t : TileId} (ht : field b 0 1 = t.val) (s : State) :
    let locked := s.visitLock = true ∧ (s.tile t).enabled = true
    let inside := 1 ≤ field b 5 2 ∧ field b 5 2 ≤ 1024 ∧ field b 1 2 < (s.tile t).height
      ∧ field b 3 2 + field b 5 2 ≤ (s.tile t).width
    (locked → takeFlatWrite b s = .refuse s .locked)
      ∧ (¬locked → (s.flat t).state ≠ .loaded → takeFlatWrite b s = .refuse s .state)
      ∧ (¬locked → (s.flat t).state = .loaded → ¬inside → takeFlatWrite b s = .refuse s .range)
      ∧ (¬locked → (s.flat t).state = .loaded → inside →
          takeFlatWrite b s = .ok (s.writeFlat t (field b 3 2) (field b 1 2) (flatEntries b))) := by
  intro locked inside
  unfold takeFlatWrite
  rw [tileOf_eq_some ht]
  simp only [flatLocked_iff_enabled, covers_iff]
  refine ⟨fun hlock => if_pos hlock, fun hfree hstate => ?_, fun hfree hloaded hout => ?_, fun hfree hloaded hin => ?_⟩
  · rw [if_neg hfree, if_pos hstate]
  · rw [if_neg hfree, if_neg (not_not_intro hloaded), if_neg hout]
  · rw [if_neg hfree, if_neg (not_not_intro hloaded), if_pos hin]

/-- A FLAT_WRITE whose payload is as long as its count says gets its owner's answer (R168, R185). -/
theorem execFlatWrite_of {s : State} {p : PortId} {f : CtlFrame}
    (hhead : s.Heads p f 0x31#8 (7 + 2 * field f.payload 5 2)) {u : State} {r : Result} {d : List Byte}
    (howner : takeFlatWrite f.payload s = ⟨u, r, d⟩) : exec (.flatWrite p) s = .next (u.respond p f r d) := by
  have hfits : lengthFits f.code f.payload = true := by
    obtain ⟨-, hcode, hlength⟩ := hhead
    simp [lengthFits, hcode, Code.flatWrite, hlength]
  have hrun := command_answers takeFlatWrite hhead hfits
  rwa [howner] at hrun

/-- Settles O24: the run of a FLAT_WRITE that passes lies inside one row of the map, since a tile has at most 4,096 columns. -/
theorem flatsAreClearedAndWritten : Obligations.FlatsAreClearedAndWritten := by
  refine ⟨⟨fun s p f hhead => ⟨fun hbad => ?_, fun t ht => ?_⟩, fun s t => ⟨fun hclearing => ?_, fun hother => ?_⟩⟩,
    fun s p f hhead => ⟨fun hbad => ?_, fun t ht => ?_⟩⟩
  · exact execFlatClear_of hhead (takeFlatClear_badTile hbad s)
  · obtain ⟨hlocked, hclear⟩ := takeFlatClear_eq ht s
    exact ⟨fun hl => execFlatClear_of hhead (hlocked hl), fun hl => execFlatClear_of hhead (hclear hl)⟩
  · exact ⟨⟨.loaded, []⟩, if_pos hclearing, rfl, FlatMap.entry_of_nil _⟩
  · exact if_neg hother
  · exact execFlatWrite_of hhead (takeFlatWrite_badTile hbad s)
  · obtain ⟨hlocked, hstate, hrange, hwrite⟩ := takeFlatWrite_eq ht s
    refine ⟨fun hl => execFlatWrite_of hhead (hlocked hl), fun hl hs => execFlatWrite_of hhead (hstate hl hs),
      fun hl hs hout => execFlatWrite_of hhead (hrange hl hs hout), fun hl hs hin htables hmemory => ?_⟩
    have hwf : flatWf (s.flat t).map = true := ((Memory.wf_iff s).1 hmemory).1 t
    have hwidth : (s.tile t).width ≤ 4096 := (htables.1 t).1
    have hrun : field f.payload 3 2 + field f.payload 5 2 ≤ 4096 := by
      obtain ⟨-, -, -, hcolumns⟩ := hin
      exact Nat.le_trans hcolumns hwidth
    exact ⟨_, execFlatWrite_of hhead (hwrite hl hs hin), hs, fun i hi => FlatMap.entry_writeRun_inside hwf f.payload _ _ hi,
      fun x y hx _ hout => FlatMap.entry_writeRun_outside hwf f.payload hrun hx hout⟩

end Sys2Proof.Machine
end

section
/-! SUPPORT. The orientations of a tile, and the targets of its pixels (R5, R86). -/

namespace Sys2Proof.Machine

/-- An orientation, by its number (R3, R5). -/
theorem orientation_cases {o : Nat} (h : o ≤ 7) : o = 0 ∨ o = 1 ∨ o = 2 ∨ o = 3 ∨ o = 4 ∨ o = 5 ∨ o = 6 ∨ o = 7 := by omega

/-- The placement offset of a tile pixel lies in the footprint, whose sides orientations 4 to 7 exchange (R5). -/
theorem placementOffset_in_footprint {o w h : Nat} {u v : Int} (ho : o ≤ 7) (hu : 0 ≤ u ∧ u < w) (hv : 0 ≤ v ∧ v < h) :
    0 ≤ (placementOffset o w h u v).1 ∧ (placementOffset o w h u v).1 < (if o ≤ 3 then w else h)
      ∧ 0 ≤ (placementOffset o w h u v).2 ∧ (placementOffset o w h u v).2 < (if o ≤ 3 then h else w) := by
  obtain rfl | rfl | rfl | rfl | rfl | rfl | rfl | rfl := orientation_cases ho
  all_goals
    simp [placementOffset]
    omega

/-- Under each orientation an offset determines the pixel that has it (R5). -/
theorem placementOffset_inj {o w h : Nat} {u v u' v' : Int} (ho : o ≤ 7)
    (heq : placementOffset o w h u' v' = placementOffset o w h u v) : u' = u ∧ v' = v := by
  obtain rfl | rfl | rfl | rfl | rfl | rfl | rfl | rfl := orientation_cases ho
  all_goals
    simp only [placementOffset, Prod.mk.injEq] at heq
    omega

/-- Settles O32: the table and the targets are the definitions, and the two laws go orientation by orientation. -/
theorem orientationsPlaceEachPixelOnce : Obligations.OrientationsPlaceEachPixelOnce :=
  ⟨fun _ _ _ _ => rfl,
    fun _ _ _ _ _ ho hu0 hu hv0 hv =>
      ⟨placementOffset_in_footprint ho ⟨hu0, hu⟩ ⟨hv0, hv⟩, fun _ _ heq => placementOffset_inj ho heq⟩,
    fun _ _ _ => rfl⟩

end Sys2Proof.Machine
end

section
/-! SUPPORT. The row sequence along every step: rows taken plus rows missing are the next expected row (R27). -/

namespace Sys2Proof.Machine

/-- The law of R27 holds where every e is 0 and every record is cleared (R32, R42). -/
theorem State.RowsAccounted.of_cleared {u : State} (hnext : ∀ t g, u.nextRow t g = 0)
    (hrecord : ∀ t, ∃ st, u.record t = .cleared st) : u.RowsAccounted := by
  intro t g
  obtain ⟨st, hst⟩ := hrecord t
  obtain ⟨htaken, hmissing⟩ := TileRecord.cleared_rows st g
  rw [hst, hnext, htaken, hmissing]

/-- The law of R27 holds at power-on (R42). -/
theorem State.reset_rowsAccounted : State.reset.RowsAccounted :=
  .of_cleared State.reset_nextRow fun t => ⟨_, State.reset_record t⟩

theorem State.engineRest_intake (s : State) : s.engineRest.intake = s.intake.rest := by simp [State.engineRest]

/-- ENGINE_RESET clears the row sequence (R42). -/
theorem State.engineRest_rowsAccounted (s : State) : s.engineRest.RowsAccounted := by
  refine .of_cleared (fun t g => ?_) fun t => ⟨.off, ?_⟩
  · simp [State.nextRow, State.engineRest_intake, Intake.rest, Intake.reset]
  · simp [State.record, State.engineRest_intake, Intake.rest, Intake.reset]

/-- SNAP_OPEN clears the row sequence (R32). -/
theorem State.openSnap_rowsAccounted (s : State) (sx sy : Int) : (s.openSnap sx sy).RowsAccounted := by
  refine .of_cleared (fun t g => ?_) fun t => ⟨(s.tile t).opening, ?_⟩
  · simp [State.nextRow, State.openSnap, State.openIntake]
  · simp [State.record, State.openSnap, State.openIntake, State.tile]

/-- VISIT_ABORT leaves the row sequence of the aborted snap (R40). -/
theorem State.abortVisit_sameRows (s : State) (b : BankId) : s.SameRows (s.abortVisit b) := by
  have hintake : (s.abortVisit b).intake = s.abortIntake.intake := by simp [State.abortVisit]
  rw [State.SameRows, hintake]
  exact ⟨rfl, fun _ => ⟨rfl, rfl⟩⟩

/-- The judgement of the snap counts no row (R108). -/
theorem State.judgeSnap_sameRows (s : State) : s.SameRows s.judgeSnap := .of_eq (by simp)

/-- A quarantine ends a tile, and counts no row (R14). -/
theorem State.quarantineNow_sameRows (s : State) (t : TileId) : s.SameRows (s.quarantineNow t) := by
  unfold State.quarantineNow
  split
  · exact (s.endTile_sameRows t .quarantined).trans (State.judgeSnap_sameRows _)
  · exact .refl s

/-- A stall timer's expiry ends a tile, and counts no row (R37). -/
theorem State.stallTile_sameRows (s : State) (t : TileId) : s.SameRows (s.stallTile t) := by
  unfold State.stallTile
  split
  · exact (s.endTile_sameRows t .stalled).trans (State.judgeSnap_sameRows _)
  · exact s.setStall_sameRows t .stopped

/-- The drain timer's expiry ends tiles, and counts no row (R38). -/
theorem State.drainExpires_sameRows (s : State) : s.SameRows s.drainExpires := by
  unfold State.drainExpires
  split
  · exact (State.foldl_cutTile_sameRows _ s.stopDrain).trans (State.judgeSnap_sameRows _)
  · exact .of_eq rfl

/-- What a header can change in Row Intake: the header of a dropped frame can set OVERRUN on one tile (R39). -/
theorem State.blameOverrun_intake (s : State) (h : RowHeader) :
    (s.blameOverrun h).intake = s.intake
      ∨ ∃ t, (s.blameOverrun h).intake = (s.markTile t fun f => { f with overrun := true }).intake := by
  unfold State.blameOverrun
  split
  · exact .inl rfl
  · split
    · exact .inr ⟨_, rfl⟩
    · exact .inl rfl

theorem State.overrun_intake (s : State) (p : PortId) (h : RowHeader) :
    (s.overrun p h).intake = s.intake
      ∨ ∃ t, (s.overrun p h).intake = (s.markTile t fun f => { f with overrun := true }).intake :=
  State.blameOverrun_intake _ h

theorem State.ingressHeader_intake (s : State) (p : PortId) (h : Header) (crcGood : Bool) :
    (s.ingressHeader p h crcGood).intake = s.intake
      ∨ ∃ t, (s.ingressHeader p h crcGood).intake = (s.markTile t fun f => { f with overrun := true }).intake := by
  unfold State.ingressHeader
  split
  · cases h with
    | row len tile seg tag slot row count =>
      dsimp only
      unfold State.rowHeader
      dsimp only
      split
      · exact .inl (by simp)
      · split
        · exact .inl rfl
        · exact State.overrun_intake _ p _
    | _ => exact .inl (by simp [State.unacceptedKind])
  · exact .inl (by simp)

theorem State.ingressHeader_sameRows (s : State) (p : PortId) (h : Header) (crcGood : Bool) :
    s.SameRows (s.ingressHeader p h crcGood) := by
  obtain hsame | ⟨t, hmark⟩ := s.ingressHeader_intake p h crcGood
  · exact .of_eq hsame
  · exact (s.markTile_sameRows t _).trans (.of_eq hmark)

/-- The end of a ROW frame keeps the law: at most its arrival is counted (R159). -/
theorem State.RowsAccounted.endRowFrame {s : State} (h : s.RowsAccounted) (p : PortId) (hd : RowHeader) (len : Nat)
    (received : List Byte) : (s.endRowFrame p hd len received).RowsAccounted := by
  unfold State.endRowFrame
  split
  · exact h.of_same (.of_eq (by simp))
  · exact State.RowsAccounted.arrive (h.of_same (.of_eq (by simp))) p hd _ _

/-- Of the commands, ENGINE_RESET and SNAP_OPEN clear the row sequence, and no other touches it. -/
theorem OwnerEffect.rowsAccounted {s u : State} (h : OwnerEffect s u) (hs : s.RowsAccounted) : u.RowsAccounted := by
  cases h with
  | engineRest => exact s.engineRest_rowsAccounted
  | openSnap sx sy => exact (s.openSnap_rowsAccounted sx sy).of_same (State.judgeSnap_sameRows _)
  | setIntake => exact hs.of_same ⟨rfl, fun _ => ⟨rfl, rfl⟩⟩
  | quarantine t => exact hs.of_same (State.quarantineNow_sameRows (s.setQuarantine t true) t)
  | abortVisit b => exact hs.of_same (s.abortVisit_sameRows b)
  | stays => exact hs
  | setStatus | setTile | setSeg | restore | startClear | writeFlat | setProduct => exact hs.of_same (.of_eq rfl)
  | setResolve => exact hs.of_same (.of_eq (by simp [State.setResolve]))
  | _ => exact hs.of_same (.of_eq (by simp))

/-- Outside the commands an arrival alone moves the row sequence, and POWER_ON clears it. -/
theorem StepEffect.rowsAccounted {s t : State} (h : StepEffect s t) (hs : s.RowsAccounted) : t.RowsAccounted := by
  cases h with
  | stays => exact hs
  | powerOn => exact State.reset_rowsAccounted
  | ingressHeader p hd crcGood =>
    exact hs.of_same ((s.ingressHeader_sameRows p hd crcGood).trans (.of_eq (by simp)))
  | endRowFrame p hd len received => exact (hs.endRowFrame p hd len received).of_same (.of_eq (by simp))
  | command p f u r data _ howner => exact (howner.rowsAccounted hs).of_same (.of_eq (by simp))
  | stallTile t => exact hs.of_same (s.stallTile_sameRows t)
  | drainExpires => exact hs.of_same s.drainExpires_sameRows
  | nextPixel p l => exact hs.of_same (s.nextPixel_sameRows p l)
  | pxLineUp | finishClear => exact hs.of_same (.of_eq rfl)
  | _ => exact hs.of_same (.of_eq (by simp))

/-- Settles O53: an arrival raises e by what it counts, and nothing else moves the row sequence but what clears it. -/
theorem stepKeepsRowsAccounted : Obligations.StepKeepsRowsAccounted := fun _ _ hs h =>
  step_keeps (fun _ _ hq => hq.of_same (.of_eq rfl)) (fun _ _ hq heffect => heffect.rowsAccounted hq) hs h

end Sys2Proof.Machine
end

section
/-! SUPPORT. Rows in flight and deposit holds along every step (R28, R69, R75, R87, R93, R96, R107). -/

namespace Sys2Proof.Machine

/-! ## Bank states -/

/-- A bank in a state that admits no lane may take a new state (R69, R75). -/
theorem State.FlightOk.updBank {s : State} (h : s.FlightOk) (b : BankId) (f : Bank → Bank)
    (hholds : (f (s.bank b)).depositHolds = (s.bank b).depositHolds)
    (hstate : (f (s.bank b)).state = (s.bank b).state ∨ (s.bank b).state ≠ .filling ∧ (s.bank b).state ≠ .retiring) :
    (s.updBank b f).FlightOk := by
  obtain ⟨-, hbanks⟩ := (State.flightOk_iff s).1 h
  exact h.of_holds rfl rfl rfl rfl
    (hbanks.updBank b f hholds (hstate.imp_right fun ⟨hfilling, hretiring⟩ => hbanks.lanesInto b hfilling hretiring))

/-- A scrub starts on a FREE bank, which no lane deposits into (R66, R78). -/
theorem State.FlightOk.startScrub {s : State} (h : s.FlightOk) (b : BankId) (hfree : (s.bank b).state = .free) :
    (s.startScrub b).FlightOk := h.updBank b _ rfl (.inr (by simp [hfree]))

theorem State.FlightOk.setCanvas {s : State} (h : s.FlightOk) (w hh : Nat) (hfree0 : (s.bank 0).state = .free)
    (hfree1 : (s.bank 1).state = .free) : (s.setCanvas w hh).FlightOk := by
  obtain ⟨hcounts, hbanks⟩ := (State.flightOk_iff s).1 h
  have hsized : ({ s with canvas := { s.canvas with width := w, height := hh } } : State).FlightOk :=
    h.of_holds rfl rfl rfl rfl (hbanks.same rfl fun _ => ⟨rfl, rfl⟩)
  refine (hsized.startScrub 0 hfree0).startScrub 1 ?_
  simpa [State.startScrub, State.bank] using hfree1

/-- A scrub's write, and the end of the scrub, are of a SCRUBBING bank (R78). -/
theorem State.FlightOk.scrubNext {s : State} (h : s.FlightOk) (b : BankId) (hscrubbing : (s.bank b).state = .scrubbing) :
    (s.scrubNext b).FlightOk := by
  have hwrite : (s.writeCell b (s.bank b).scrubPos (.empty 0)).FlightOk := h.updBank b _ rfl (.inl rfl)
  unfold State.scrubNext
  dsimp only
  split
  · refine hwrite.updBank b _ rfl (.inr ?_)
    simp [State.bank] at hscrubbing ⊢
    simp [hscrubbing]
  · exact hwrite.updBank b _ rfl (.inl rfl)

/-- A bank that holds no lanes retires (R74, R115, R151). -/
theorem State.FlightOk.retire {s : State} (h : s.FlightOk) (b : BankId)
    (hstate : (s.bank b).state ≠ .filling ∧ (s.bank b).state ≠ .retiring) : (s.retire b).FlightOk := by
  obtain ⟨-, hbanks⟩ := (State.flightOk_iff s).1 h
  exact h.of_holds (by simp) (by simp) (by simp) (by simp) (hbanks.retire b (hbanks.lanesInto b hstate.1 hstate.2))

theorem State.FlightOk.withdrawVisit {s : State} (h : s.FlightOk) (b : BankId) (hclosed : (s.bank b).state = .closed) :
    (s.withdrawVisit b).FlightOk := by
  unfold State.withdrawVisit
  dsimp only
  refine State.FlightOk.retire ?_ b ?_
  · exact h.same (fun _ => rfl) rfl rfl rfl rfl rfl
  · change (s.bank b).state ≠ .filling ∧ (s.bank b).state ≠ .retiring
    simp [hclosed]

/-! ## Passes -/

/-- The automatic start takes CLOSED banks, which no lane deposits into (R142). -/
theorem State.FlightOk.autoStart {s : State} (h : s.FlightOk) (hw : s.WaitingClosed) : s.autoStart.FlightOk := by
  obtain ⟨-, hbanks⟩ := (State.flightOk_iff s).1 h
  exact h.of_holds (by simp) (by simp) (by simp) (by simp) (hbanks.autoStart hw)

theorem State.FlightOk.openPass {s : State} (h : s.FlightOk) (b : BankId)
    (hbank : (s.bank b).state = .closed ∨ (s.bank b).state = .resolved) : (s.openPass b).FlightOk := by
  obtain ⟨-, hbanks⟩ := (State.flightOk_iff s).1 h
  refine h.of_holds (by simp) (by simp) (by simp) (by simp) (hbanks.openPass b ?_ ?_) <;>
    rcases hbank with hb | hb <;> simp [hb]

theorem State.FlightOk.askRestart {s : State} (h : s.FlightOk) (hw : s.WaitingClosed) : s.askRestart.FlightOk := by
  obtain ⟨-, hbanks⟩ := (State.flightOk_iff s).1 h
  unfold State.askRestart
  split
  · have hrestart : s.restartPass.FlightOk :=
      h.of_holds (by simp) (by simp) (by simp) (by simp)
        (State.HoldsOk.seek (s := s.resetPass s.resolve.passBank) _ (hbanks.of_eq rfl rfl))
    exact hrestart.autoStart (State.WaitingClosed.seek (s := s.resetPass s.resolve.passBank) _ hw)
  · exact h.of_eq rfl rfl rfl rfl rfl

/-- The end of a pass leaves CLOSED banks on the waiting list (R150). -/
theorem State.WaitingClosed.endPass {s : State} (hw : s.WaitingClosed) : s.endPass.WaitingClosed := by
  unfold State.endPass
  exact State.WaitingClosed.releaseBank (by exact hw) _

theorem State.FlightOk.askEnd {s : State} (h : s.FlightOk) (hw : s.WaitingClosed) : s.askEnd.FlightOk := by
  obtain ⟨-, hbanks⟩ := (State.flightOk_iff s).1 h
  unfold State.askEnd
  split
  · have hend : s.endPass.FlightOk :=
      h.of_holds (by simp) (by simp) (by simp) (by simp)
        (State.HoldsOk.releaseBank (s := s.updResolve _) (hbanks.of_eq rfl rfl) _)
    exact hend.autoStart (hw.endPass)
  · exact h.of_eq rfl rfl rfl rfl rfl

/-! ## Events -/

/-- The row in transmission leaves PX, sent or cut (R145). -/
theorem State.FlightOk.rowLeaves {s : State} (h : s.FlightOk) (hw : s.WaitingClosed) (f : PrdFrame) (counters : PxCounters) :
    ((s.updPx fun x => { x with lane := none, counters := counters }).rowSent f).FlightOk :=
  State.FlightOk.rowSent (s := s.updPx _) (h.of_eq rfl rfl rfl rfl rfl) hw f

theorem State.FlightOk.pxDown {s : State} (h : s.FlightOk) (hw : s.WaitingClosed) : s.pxDown.FlightOk := by
  unfold State.pxDown
  dsimp only
  have hdown : ((s.truncatePx.updPx fun x => { x with link := .down, credits := 0 }).latchLinkDown).FlightOk :=
    h.of_eq (by simp) (by simp) (by simp) (by simp) (by simp)
  have hwaiting : (s.truncatePx.updPx fun x => { x with link := .down, credits := 0 }).latchLinkDown.WaitingClosed := by
    simpa [State.WaitingClosed, State.bank] using hw
  unfold State.cutRow
  split
  · exact hdown
  · exact hdown.rowLeaves hwaiting _ _

/-- The end of a ROW frame: its arrival may add a row in flight (R28, R107, R159). -/
theorem State.FlightOk.endRowFrame {s : State} (h : s.FlightOk) (hb : s.BanksOk) (p : PortId) (hd : RowHeader) (len : Nat)
    (received : List Byte) : (s.endRowFrame p hd len received).FlightOk := by
  unfold State.endRowFrame
  split
  · refine h.same (fun q => ?_) (by simp) (by simp) (by simp) (by simp) (by simp)
    rw [discardFrame_taken, setFlags_taken]
  · refine State.FlightOk.arrive (h.same (fun q => ?_) ?_ ?_ ?_ ?_ ?_) (hb.of_eq ?_ ?_ ?_ ?_) p hd _ _
    · rw [count_taken, setFlags_taken, endReceive_taken]
    all_goals simp

theorem State.FlightOk.stallTile {s : State} (h : s.FlightOk) (hb : s.BanksOk) (t : TileId) : (s.stallTile t).FlightOk := by
  unfold State.stallTile
  split
  · exact (h.endTile t .stalled).judgeSnap (hb.endTile t .stalled)
  · exact h.of_eq rfl rfl rfl rfl rfl

theorem State.FlightOk.drainExpires {s : State} (h : s.FlightOk) (hb : s.BanksOk) : s.drainExpires.FlightOk := by
  have hstop : s.stopDrain.FlightOk := h.same (fun _ => rfl) rfl rfl rfl rfl rfl
  unfold State.drainExpires
  split
  · exact (hstop.cutTiles _).judgeSnap (hb.stopDrain.cutTiles _)
  · exact hstop

theorem State.FlightOk.quarantineNow {s : State} (h : s.FlightOk) (hb : s.BanksOk) (t : TileId) :
    (s.quarantineNow t).FlightOk := by
  unfold State.quarantineNow
  split
  · exact (h.endTile t .quarantined).judgeSnap (hb.endTile t .quarantined)
  · exact h

/-- A header on PX leaves everything that the flight law reads (R145, R165). -/
theorem State.FlightOk.pxHeader {s : State} (h : s.FlightOk) (hd : Header) (crcGood : Bool) :
    (s.pxHeader hd crcGood).FlightOk :=
  h.of_eq (by simp) (by simp) (by simp) (by simp) (by simp)

/-- No row is in flight at power-on, and no bank has a deposit hold (R42, R82). -/
theorem State.reset_flightOk : State.reset.FlightOk := by
  refine (State.flightOk_iff _).2
    ⟨.rest (fun p => ?_) (fun p l hl => ?_) State.reset_inFlight rfl, fun b => ?_, fun p l hl => ?_⟩
  · rw [State.reset_port]
    rfl
  · simp at hl
  · rw [State.reset_bank]
    exact ((lanesInto_eq_zero _ b).2 fun p l hl => by simp at hl).symm
  · simp at hl

/-! ## The steps -/

/-- Every command keeps the flight law. -/
theorem OwnerEffect.flightOk {s u : State} (h : OwnerEffect s u) (hb : s.BanksOk) (hs : s.FlightOk) : u.FlightOk := by
  have hw : s.WaitingClosed := hb.waitingClosed
  cases h with
  | stays => exact hs
  | engineRest => exact hs.engineRest
  | quarantine t =>
    exact State.FlightOk.quarantineNow (s := s.setQuarantine t true) (hs.of_eq rfl rfl rfl rfl rfl)
      (hb.of_eq rfl rfl rfl rfl) t
  | setCanvas w h hfree0 hfree1 => exact hs.setCanvas w h hfree0 hfree1
  | openVisit tag expected b hlock _ _ hfree => exact hs.openVisit hb hlock tag expected b hfree
  | openSnap sx sy hbetween => exact (hs.openSnap hbetween sx sy).judgeSnap (hb.openSnap hbetween sx sy)
  | beginDrain => exact hs.same (fun _ => rfl) rfl rfl rfl rfl rfl
  | closeVisit hbetween =>
    obtain ⟨⟨-, -, hidle⟩, -⟩ := (State.flightOk_iff s).1 hs
    obtain ⟨⟨-, hfilling, -⟩, -⟩ := hb
    exact hs.closeVisit hw (hidle (by simp [hbetween])) ((hfilling _).2 ⟨by simp [hbetween], rfl⟩)
  | abortVisit b hfilling => exact hs.abortVisit hb b hfilling
  | withdrawVisit b hclosed => exact hs.withdrawVisit b hclosed
  | setResolve f => exact State.FlightOk.autoStart (s := s.setResolve f) (hs.of_eq rfl rfl rfl rfl rfl) hw
  | openPass b _ hbank => exact (hs.openPass b hbank).autoStart (hw.openPass b)
  | askRestart => exact hs.askRestart hw
  | askEnd => exact hs.askEnd hw
  | retire b hresolved => exact hs.retire b (by simp [hresolved])
  | setStatus | setIntake | setTile | setSeg | restore | startClear | writeFlat | setProduct =>
    exact hs.of_eq rfl rfl rfl rfl rfl

/-- Every step's effect keeps the flight law. -/
theorem StepEffect.flightOk {s t : State} (h : StepEffect s t) (hb : s.BanksOk) (hs : s.FlightOk) : t.FlightOk := by
  have hw : s.WaitingClosed := hb.waitingClosed
  have hports : ∀ u : State, (∀ q, (u.ports.nth q).taken = (s.ports.nth q).taken) → u.cal = s.cal →
      u.intake.inFlight = s.intake.inFlight → u.visit = s.visit → u.canvas = s.canvas → u.FlightOk :=
    fun u htaken hcal hcount hvisit hcanvas =>
      hs.same htaken (by rw [hcal]) hcount (by rw [hvisit]) (by rw [hvisit]) hcanvas
  cases h with
  | stays => exact hs
  | powerOn =>
    obtain ⟨-, hbanks⟩ := (State.flightOk_iff _).1 State.reset_flightOk
    exact State.reset_flightOk.of_holds rfl rfl rfl rfl (hbanks.same rfl fun _ => ⟨rfl, rfl⟩)
  | lineUp p =>
    refine hports _ (fun q => ?_) (by simp) (by simp) (by simp) (by simp)
    rw [serveLane_taken]
    exact updPort_taken s p (fun k => { k with link := .up }) (fun _ => rfl) q
  | lineFall p => exact hports _ (lineFall_taken s p) (by simp) (by simp) (by simp) (by simp)
  | pxLineUp => exact hs.of_eq rfl rfl rfl rfl rfl
  | pxDown => exact hs.pxDown hw
  | startFrame p =>
    refine hports _ (fun q => ?_) (by simp) (by simp) (by simp) (by simp)
    rw [serveLane_taken, awaitHeader_taken, truncate_taken]
  | idleLine p =>
    refine hports _ (fun q => ?_) (by simp) (by simp) (by simp) (by simp)
    rw [serveLane_taken, truncate_taken]
  | ingressHeader p hd crcGood =>
    refine hports _ (fun q => ?_) (by simp) ?_ (by simp) (by simp)
    · rw [serveLane_taken, ingressHeader_taken]
    · obtain hsame | ⟨t, hmark⟩ := s.ingressHeader_intake p hd crcGood
      · simp [hsame]
      · simp [hmark, State.markTile]
  | pxHeader hd crcGood => exact hs.pxHeader hd crcGood
  | endRowFrame p hd len received =>
    exact (hs.endRowFrame hb p hd len received).same (serveLane_taken _ p) (by simp) (by simp) (by simp) (by simp) (by simp)
  | endCtlFrame p code request len received =>
    refine hports _ (fun q => ?_) (by simp) (by simp) (by simp) (by simp)
    rw [serveLane_taken, endCtlFrame_taken]
  | endRest p => exact hports _ (endReceive_taken s p) (by simp) (by simp) (by simp) (by simp)
  | finishReturnFrame p => exact hports _ (finishReturnFrame_taken s p) (by simp) (by simp) (by simp) (by simp)
  | command p f u r data _ howner =>
    exact (howner.flightOk hb hs).same (respond_taken u p f r data) (by simp) (by simp) (by simp) (by simp) (by simp)
  | stallTile t => exact hs.stallTile hb t
  | drainExpires => exact hs.drainExpires hb
  | startRow p w rest q hidle htaken => exact hs.startRow hb p w rest q hidle htaken
  | nextPixel p l hbusy => exact hs.nextPixel hb p l hbusy
  | finishClear => exact hs.of_eq rfl rfl rfl rfl rfl
  | scrubNext b hscrubbing => exact hs.scrubNext b hscrubbing
  | rowLeaves f => exact hs.rowLeaves hw f _
  | startPxFrame | idlePxLine | endPxFrame | egressExpires =>
    exact hs.of_eq (by simp) (by simp) (by simp) (by simp) (by simp)

/-- Settles O59: the law of visits, banks and passes says which banks each effect may move, and no lane deposits into them. -/
theorem stepKeepsFlightCounts : Obligations.StepKeepsFlightCounts := fun _ _ hb hs h =>
  (step_keeps (P := fun u => u.BanksOk ∧ u.FlightOk)
    (fun _ _ ⟨hb, hs⟩ => ⟨hb.of_eq rfl rfl rfl rfl, hs.of_eq rfl rfl rfl rfl rfl⟩)
    (fun _ _ ⟨hb, hs⟩ heffect => ⟨heffect.banksOk hb, heffect.flightOk hb hs⟩) ⟨hb, hs⟩ h).2

end Sys2Proof.Machine
end

section
/-! SUPPORT. The laws of every moment hold at power-on (R42, R64, R82, R100, R119, R136, R154, R155, R181). -/

namespace Sys2Proof.Machine

/-- A port is DOWN at power-on, and holds nothing (R155). -/
theorem State.reset_portsOk : State.reset.PortsOk := fun p => by
  have hport := State.reset_port p
  refine ⟨fun _ => ?_, ⟨?_, ?_, ?_⟩, fun hup => ?_⟩
  · rw [hport]
    exact ⟨rfl, rfl, rfl, rfl⟩
  · rw [State.reset_occupied, hport]
    decide
  · rw [hport]
    decide
  · rw [hport]
    decide
  · rw [hport] at hup
    cases hup

/-- Nothing is listed at power-on, in a flat map or in a bank (log 9, log 10). -/
theorem State.reset_memory : Memory.wf State.reset = true := by
  rw [Memory.wf, Bool.and_eq_true, Tab.all_iff, Tab.all_iff]
  constructor
  · intro t
    rw [show State.reset.cal.flats.nth t = _ from State.reset_flat t]
    rfl
  · intro b
    rw [show State.reset.canvas.banks.nth b = _ from State.reset_bank b]
    rfl

/-- Both banks are FREE with epoch 0 at power-on, and the canvas has no cell (R82). -/
theorem State.reset_epochsOk : State.reset.EpochsOk := fun b => by
  rw [State.BankEpochOk, State.reset_bank]
  refine ⟨fun _ => by decide, fun _ => ⟨rfl, fun place hplace => ?_⟩, fun hscrubbing => ?_⟩
  · exact absurd hplace (Nat.not_lt_zero place)
  · cases hscrubbing

/-- Settles O60: law by law. -/
theorem powerOnIsInOrder : Obligations.PowerOnIsInOrder :=
  ⟨State.reset_portsOk, State.reset_rowsAccounted, State.reset_memory, State.reset_tablesOk, State.reset_banksOk,
    .of_closed rfl, State.reset_epochsOk, State.reset_flightOk⟩

end Sys2Proof.Machine
end

section
/-! SUPPORT. Row Intake: its settings, and the headers and the arrivals offered to it (R21 to R28, R33 to R36, R39, R41, R107,
R108, R158). -/

namespace Sys2Proof.Machine

/-! ## INTAKE_SET (R41) -/

theorem takeIntakeSet_of_inRange {b : List Byte} (hstall : field b 0 2 ≤ 255) (hlow : 1 ≤ field b 2 2)
    (hhigh : field b 2 2 ≤ 1000) (s : State) :
    takeIntakeSet b s = .ok (s.setIntake (field b 0 2) (field b 2 2)) := if_neg (by omega)

theorem takeIntakeSet_of_outOfRange {b : List Byte} (h : 255 < field b 0 2 ∨ field b 2 2 < 1 ∨ 1000 < field b 2 2)
    (s : State) : takeIntakeSet b s = .refuse s .range := if_pos h

theorem execIntakeSet_of {s : State} {p : PortId} {f : CtlFrame} (hhead : s.Heads p f 0x10#8 4) {u : State} {r : Result}
    {d : List Byte} (howner : takeIntakeSet f.payload s = ⟨u, r, d⟩) : exec (.intakeSet p) s = .next (u.respond p f r d) :=
  command_runs takeIntakeSet hhead (by decide) (by decide) howner

/-- Settles O20: the one range test, and the settings it guards. -/
theorem intakeSetReplacesTheSettings : Obligations.IntakeSetReplacesTheSettings := fun s _ _ hhead =>
  ⟨fun hstall hlow hhigh => execIntakeSet_of hhead (takeIntakeSet_of_inRange hstall hlow hhigh s),
    fun hbad => execIntakeSet_of hhead (takeIntakeSet_of_outOfRange hbad s)⟩

/-! ## What a header names (R22, R23) -/

/-- A header names a tile and a segment when the tile is enabled and the segment is in use (R22). -/
theorem State.inUse_eq_some_iff {s : State} {h : RowHeader} {t : TileId} {g : SegId} :
    s.inUse h = some (t, g)
      ↔ h.tile.toNat = t.val ∧ h.seg.toNat = g.val ∧ (s.tile t).enabled = true ∧ g.val < (s.tile t).segCount := by
  constructor
  · intro hin
    unfold State.inUse at hin
    split at hin
    · split at hin
      · split at hin
        · rename_i hused
          cases hin
          exact ⟨rfl, rfl, hused⟩
        · cases hin
      · cases hin
    · cases hin
  · rintro ⟨ht, hg, hused⟩
    obtain ⟨n, hn⟩ := t
    obtain ⟨m, hm⟩ := g
    subst ht hg
    unfold State.inUse
    rw [dif_pos hn, dif_pos hm, if_pos hused]

/-- A header that names no tile names nothing (R22). -/
theorem State.inUse_of_noTile (s : State) {h : RowHeader} (htile : 16 ≤ h.tile.toNat) : s.inUse h = none := by
  refine Option.eq_none_iff_forall_ne_some.2 fun ⟨t, g⟩ hin => ?_
  obtain ⟨ht, -⟩ := State.inUse_eq_some_iff.1 hin
  omega

/-- A header of a tile that is not enabled, or of a segment that is not in use, names nothing (R22). -/
theorem State.inUse_of_unused {s : State} {h : RowHeader} {t : TileId} (ht : h.tile.toNat = t.val)
    (hunused : (s.tile t).enabled = false ∨ (s.tile t).segCount ≤ h.seg.toNat) : s.inUse h = none := by
  refine Option.eq_none_iff_forall_ne_some.2 fun ⟨t', g⟩ hin => ?_
  obtain ⟨ht', hg, henabled, hused⟩ := State.inUse_eq_some_iff.1 hin
  obtain rfl : t' = t := Fin.ext (ht'.symm.trans ht)
  rcases hunused with hoff | hseg
  · rw [hoff] at henabled
    cases henabled
  · omega

/-- A header is of the open snap when a snap is open and it carries its tag and slot (R23). -/
theorem State.ofOpenSnap_iff (s : State) (h : RowHeader) :
    s.ofOpenSnap h = true ↔ s.snapOpen = true ∧ h.tag = s.visit.tag ∧ h.slot.toNat = s.visit.slot.val := by
  simp [State.ofOpenSnap, and_assoc]

theorem State.ofOpenSnap_eq_false_iff (s : State) (h : RowHeader) :
    s.ofOpenSnap h = false ↔ ¬(s.snapOpen = true ∧ h.tag = s.visit.tag ∧ h.slot.toNat = s.visit.slot.val) := by
  rw [← State.ofOpenSnap_iff, Bool.not_eq_true]

/-! ## Flags and ends of a tile, written out -/

/-- Setting a flag changes nothing exactly when it is set already (R35). -/
@[simp] theorem TileFlags.set_eq_iff (f : TileFlags) :
    ({ f with dataError := true } = f ↔ f.dataError = true) ∧ ({ f with length := true } = f ↔ f.length = true)
      ∧ ({ f with wrongRow := true } = f ↔ f.wrongRow = true) ∧ ({ f with endOfTile := true } = f ↔ f.endOfTile = true)
      ∧ ({ f with late := true } = f ↔ f.late = true) ∧ ({ f with overrun := true } = f ↔ f.overrun = true) := by
  obtain ⟨a, b, c, d, e, f⟩ := f
  refine ⟨?_, ?_, ?_, ?_, ?_, ?_⟩ <;> simp [eq_comm]

theorem State.markTile_eq (s : State) (t : TileId) (f : TileFlags → TileFlags) :
    s.markTile t f
      = { s with
          intake := { s.intake with
            records := s.intake.records.put t { s.record t with flags := f (s.record t).flags } }
          status := { s.status with
            tile := s.status.tile || decide (f (s.record t).flags ≠ (s.record t).flags) } } := rfl

theorem State.endTile_eq (s : State) (t : TileId) (st : TileState) :
    s.endTile t st
      = { s with
          intake := { s.intake with
            records := s.intake.records.put t { s.record t with state := st }
            stall := s.intake.stall.put t .stopped }
          status := { s.status with tile := s.status.tile || State.raisesTile st } } := rfl

/-! ## ROW headers (R39, R158) -/

theorem State.rowLengthFits_iff (h : RowHeader) (len : Nat) :
    State.rowLengthFits h len = true ↔ h.count.toNat ≤ 4160 ∧ len = 9 * ((h.count.toNat + 3) / 4) := by
  rw [State.rowLengthFits, Bool.and_eq_true, decide_eq_true_iff, beq_iff_eq]
  rfl

/-- A ROW header that fails a length check (R158). -/
theorem State.rowHeader_of_misfit (s : State) (p : PortId) {h : RowHeader} {len : Nat}
    (hfits : State.rowLengthFits h len = false) :
    s.rowHeader p h len
      = s.updPort p fun q =>
          { q with
            rx := .rest true
            granted := q.granted - 1
            flags := { q.flags with length := true }
            counters := { q.counters with lineDiscard := q.counters.lineDiscard + 1 } } := by
  unfold State.rowHeader
  dsimp only
  rw [if_pos hfits, State.discardAtHeader_eq]
  simp [State.setFlags, State.updPort, Tab.modify, Tab.put_put]

/-- A ROW header that finds a free buffer (R155, R158). -/
theorem State.rowHeader_of_buffer {s : State} {p : PortId} {h : RowHeader} {len : Nat}
    (hfits : State.rowLengthFits h len = true) (hfree : s.occupied p < 32) :
    s.rowHeader p h len
      = s.updPort p fun q =>
          { q with
            rx := .row h len
            granted := q.granted - 1
            flags := { q.flags with noCredit := q.flags.noCredit || q.granted == 0 } } := by
  have hbuffer : (s.updPort p fun q => { q with granted := q.granted - 1 }).occupied p < Config.rowBuffers := by
    simpa [State.occupied, State.port, State.lane, Config.rowBuffers] using hfree
  unfold State.rowHeader
  dsimp only
  rw [if_neg (by simp [hfits]), if_pos hbuffer]
  simp [State.updPort, Tab.modify, Tab.put_put, State.port]

/-- A ROW header that finds no free buffer: the drop, and the header offered to Row Intake (R39, R158). -/
theorem State.rowHeader_of_noBuffer {s : State} {p : PortId} {h : RowHeader} {len : Nat}
    (hfits : State.rowLengthFits h len = true) (hfull : 32 ≤ s.occupied p) :
    s.rowHeader p h len
      = { s with
          ports := s.ports.put p
            { s.port p with
              rx := .rest false
              granted := (s.port p).granted - 1
              flags := { (s.port p).flags with overrun := true }
              counters := { (s.port p).counters with overrunDrop := (s.port p).counters.overrunDrop + 1 } }
          status := { s.status with overrunSeen := true } }.blameOverrun h := by
  have hnone : ¬(s.updPort p fun q => { q with granted := q.granted - 1 }).occupied p < Config.rowBuffers := by
    simpa [State.occupied, State.port, State.lane, Config.rowBuffers] using hfull
  unfold State.rowHeader
  dsimp only
  rw [if_neg (by simp [hfits]), if_neg hnone]
  simp [State.overrun, State.setFlags, State.setRx, State.count, State.latchOverrun, State.updPort, Tab.modify, Tab.put_put,
    State.port, bump]

/-- A ROW header whose CRC is good reaches its port's checks (R157). -/
theorem execFrameHeader_row {s : State} {p : PortId} (hrx : (s.port p).rx = .awaitingHeader) (len : BitVec 24)
    (tile seg tag slot : Byte) (row count : BitVec 16) :
    exec (.frameHeader (.ingress p) (.row len tile seg tag slot row count)
        (crc16 (headerBytes (.row len tile seg tag slot row count)))) s
      = .next ((s.rowHeader p ⟨tile, seg, tag, slot, row, count⟩ len.toNat).serveLane p) := by
  simp [exec, execFrameHeader, hrx, State.ingressHeader]

/-- The header of a dropped frame that names a tile which has not ended its open snap (R35, R39). -/
theorem State.blameOverrun_of_live {s : State} {h : RowHeader} {t : TileId} {g : SegId} (hin : s.inUse h = some (t, g))
    (hopen : s.ofOpenSnap h = true) (hlive : (s.record t).state.terminal = false) :
    s.blameOverrun h = s.markTile t fun f => { f with overrun := true } := by
  unfold State.blameOverrun
  rw [hin]
  exact if_pos ⟨hopen, hlive⟩

/-- Every other header of a dropped frame changes nothing (R39). -/
theorem State.blameOverrun_of_rest {s : State} {h : RowHeader}
    (hrest : ∀ t g, s.inUse h = some (t, g) → s.ofOpenSnap h = false ∨ (s.record t).state.terminal = true) :
    s.blameOverrun h = s := by
  unfold State.blameOverrun
  split
  · rfl
  · rename_i t g hin
    refine if_neg fun ⟨hopen, hlive⟩ => ?_
    rcases hrest t g hin with hstale | hended
    · rw [hopen] at hstale
      cases hstale
    · rw [hlive] at hended
      cases hended

/-- Settles O14: the checks of the port one after the other, and the one tile that a dropped frame can blame. -/
theorem rowHeaderUsesCreditAndBuffer : Obligations.RowHeaderUsesCreditAndBuffer := by
  refine ⟨fun s p len tile seg tag slot row count hrx => ?_, fun s h => ⟨?live, ?rest, ?noTile⟩⟩
  · rw [execFrameHeader_row hrx]
    have hiff := State.rowLengthFits_iff ⟨tile, seg, tag, slot, row, count⟩ len.toNat
    refine ⟨fun hbad => ?_, fun hfits hfree => ?_, fun hfits hfull => ?_⟩
    · rw [State.rowHeader_of_misfit s p (Bool.not_eq_true _ ▸ fun hfits => hbad (hiff.1 hfits))]
      rfl
    · rw [State.rowHeader_of_buffer (hiff.2 hfits) hfree]
      rfl
    · rw [State.rowHeader_of_noBuffer (hiff.2 hfits) hfull]
  case live =>
    intro t g ht hg henabled hused hopen htag hslot hlive
    rw [State.blameOverrun_of_live (State.inUse_eq_some_iff.2 ⟨ht, hg, henabled, hused⟩)
      ((s.ofOpenSnap_iff h).2 ⟨hopen, htag, hslot⟩) ((terminal_false_iff _).2 hlive), State.markTile_eq]
    simp
  case rest =>
    intro t ht hrest
    refine State.blameOverrun_of_rest fun t' g hin => ?_
    obtain ⟨ht', hg, henabled, hused⟩ := State.inUse_eq_some_iff.1 hin
    obtain rfl : t' = t := Fin.ext (ht'.symm.trans ht)
    rw [State.ofOpenSnap_eq_false_iff]
    rcases hrest with hoff | hseg | hclosed | htag | hslot | hended
    · simp [hoff] at henabled
    · omega
    · exact .inl fun hopen => by simp [hclosed] at hopen
    · exact .inl fun hopen => htag hopen.2.1
    · exact .inl fun hopen => hslot hopen.2.2
    · exact .inr hended
  case noTile =>
    intro htile
    refine State.blameOverrun_of_rest fun t g hin => ?_
    rw [s.inUse_of_noTile htile] at hin
    cases hin

/-! ## Arrivals that are dropped (R21 to R25) -/

/-- Where no open snap is complete the judgement changes nothing (R108). -/
theorem State.SnapJudged.judgeSnap {s : State} (h : s.SnapJudged) : s.judgeSnap = s := if_neg (by rw [h]; decide)

/-- An arrival that names nothing is unexpected (R22). -/
theorem State.arrive_of_unnamed {s : State} {h : RowHeader} (hin : s.inUse h = none) (p : PortId) (good : Bool)
    (samples : List Sample) : s.arrive p h good samples = s.count p fun c => { c with unexpected := bump c.unexpected } := by
  unfold State.arrive
  rw [hin]

/-- An arrival that names a segment in use is decided, and the snap is judged (R21, R108). -/
theorem State.arrive_of_decision {s : State} {h : RowHeader} {good : Bool} {t : TileId} {g : SegId} {d : Decision}
    (hin : s.inUse h = some (t, g)) (hd : s.decision h good t g = d) (p : PortId) (samples : List Sample) :
    s.arrive p h good samples = (s.applyDecision p h samples t g d).judgeSnap := by
  unfold State.arrive
  rw [hin]
  dsimp only
  rw [hd]

/-- The test of R23 comes first. -/
theorem State.decision_stale {s : State} {h : RowHeader} (hstale : s.ofOpenSnap h = false) (good : Bool) (t : TileId)
    (g : SegId) : s.decision h good t g = .stale := if_pos hstale

/-- The test of R24 comes second. -/
theorem State.decision_afterEnd {s : State} {h : RowHeader} {t : TileId} (hopen : s.ofOpenSnap h = true)
    (hended : (s.record t).state.terminal = true) (good : Bool) (g : SegId) : s.decision h good t g = .afterEnd := by
  simp [State.decision, hopen, hended]

/-- The tests of R25, R26 and R27 of an arrival of the open snap on a tile that has not ended it, in their order. -/
theorem State.decision_of_live {s : State} {h : RowHeader} {t : TileId} (hopen : s.ofOpenSnap h = true)
    (hlive : (s.record t).state = .waiting ∨ (s.record t).state = .receiving) (good : Bool) (g : SegId) :
    s.decision h good t g
      = if h.row.toNat < s.nextRow t g then .wrongRow
        else if (s.seg t g).height ≤ h.row.toNat then .endOfTile
        else if good = false then .dataError
        else if h.count.toNat ≠ (s.seg t g).width + (s.seg t g).overscan then .badLength
        else .taken := by
  simp [State.decision, hopen, (terminal_false_iff _).2 hlive]

/-- A counter leaves the judgement alone. -/
theorem State.SnapJudged.count {s : State} (h : s.SnapJudged) (p : PortId) (f : PortCounters → PortCounters) :
    (s.count p f).SnapJudged := h.same (.of_eq (by simp) (by simp))

theorem State.SnapJudged.markTile {s : State} (h : s.SnapJudged) (t : TileId) (f : TileFlags → TileFlags) :
    (s.markTile t f).SnapJudged := h.same (.markTile s t f)

/-- Settles O17: the decision follows the tests in their order, and the judgement sees nothing of a dropped arrival. -/
theorem arrivalsAreDroppedInOrder : Obligations.ArrivalsAreDroppedInOrder := by
  intro s p h good samples
  refine ⟨fun htile => ?_, fun t ht => ⟨fun hunused => ?_, fun g hg henabled hused hjudged => ?_⟩⟩
  · exact State.arrive_of_unnamed (s.inUse_of_noTile htile) p good samples
  · exact State.arrive_of_unnamed (State.inUse_of_unused ht hunused) p good samples
  have hin : s.inUse h = some (t, g) := State.inUse_eq_some_iff.2 ⟨ht, hg, henabled, hused⟩
  refine ⟨fun hstale => ?stale, fun hopen hended => ?late, fun hopen hended => ?ended, fun hopen hlive hrow => ?wrongRow,
    fun hopen hlive hrow hheight => ?endOfTile⟩
  case stale =>
    rw [State.arrive_of_decision hin (State.decision_stale ((s.ofOpenSnap_eq_false_iff h).2 hstale) good t g)]
    exact (hjudged.count p _).judgeSnap
  case late =>
    have hterminal : (s.record t).state.terminal = true := by rcases hended with he | he | he | he <;> rw [he] <;> rfl
    have hnot : ¬((s.record t).state = .quarantined ∨ (s.record t).state = .off) := by
      rcases hended with he | he | he | he <;> simp [he]
    rw [State.arrive_of_decision hin (State.decision_afterEnd ((s.ofOpenSnap_iff h).2 hopen) hterminal good g),
      State.applyDecision]
    dsimp only
    rw [if_neg hnot, ((hjudged.count p _).markTile t _).judgeSnap, State.markTile_eq]
    simp [State.count, State.updPort, Tab.modify, State.record, State.port, bump]
  case ended =>
    have hterminal : (s.record t).state.terminal = true := by rcases hended with he | he <;> rw [he] <;> rfl
    rw [State.arrive_of_decision hin (State.decision_afterEnd ((s.ofOpenSnap_iff h).2 hopen) hterminal good g),
      State.applyDecision]
    dsimp only
    rw [if_pos hended, (hjudged.count p _).judgeSnap]
    rfl
  case wrongRow =>
    have hd : s.decision h good t g = .wrongRow := by
      rw [State.decision_of_live ((s.ofOpenSnap_iff h).2 hopen) hlive, if_pos hrow]
    rw [State.arrive_of_decision hin hd, State.applyDecision, (hjudged.markTile t _).judgeSnap, State.markTile_eq]
    simp
  case endOfTile =>
    have hd : s.decision h good t g = .endOfTile := by
      rw [State.decision_of_live ((s.ofOpenSnap_iff h).2 hopen) hlive, if_neg (by omega), if_pos hheight]
    rw [State.arrive_of_decision hin hd, State.applyDecision, (hjudged.markTile t _).judgeSnap, State.markTile_eq]
    simp

/-! ## Arrivals that move the tile (R26 to R28, R33 to R36, R107) -/

/-- Row `r` accounted for in a segment of a tile that has not ended its snap, written out (R26, R27, R33, R36). -/
theorem State.accountRow_eq {s : State} {t : TileId}
    (hlive : (s.record t).state = .waiting ∨ (s.record t).state = .receiving) (g : SegId) (r : Nat)
    (damaged : Bool) :
    s.accountRow t g r damaged
      = { s with
          intake := { s.intake with
            records := s.intake.records.put t
              { s.record t with
                state := .receiving
                taken := (s.record t).taken.put g ((s.record t).taken.nth g + if damaged then 0 else 1)
                missing := (s.record t).missing.put g
                  ((s.record t).missing.nth g + (r - s.nextRow t g + if damaged then 1 else 0)) }
            next := s.intake.next.put (segIndex t g) (r + 1)
            stall := s.intake.stall.put t (if s.intake.stallTime = 0 then .stopped else .running s.intake.stallTime) } } := by
  have hstate : (if (s.record t).state = .waiting then .receiving else (s.record t).state) = TileState.receiving := by
    rcases hlive with he | he <;> simp [he]
  rw [← hstate]
  rfl

/-- A segment is among those in use when its id is below the segment count (R3). -/
theorem State.mem_segsInUse (s : State) (t : TileId) (g : SegId) : g ∈ s.segsInUse t ↔ g.val < (s.tile t).segCount := by
  have hall : ∀ g : SegId, g ∈ ([0, 1, 2, 3] : List SegId) := by decide
  simp only [State.segsInUse, List.mem_filter, decide_eq_true_eq, hall g, true_and]

/-- A tile is received in full when every segment in use has reached its height (R34). -/
theorem State.receivedInFull_iff (s : State) (t : TileId) :
    s.receivedInFull t = true ↔ ∀ g : SegId, g.val < (s.tile t).segCount → s.nextRow t g = (s.seg t g).height := by
  simp only [State.receivedInFull, List.all_eq_true, State.mem_segsInUse, beq_iff_eq]

/-- Settles O18: the row is accounted for, its flag is set or its buffer is kept, and the tile settles. -/
theorem arrivalsMoveTheTile : Obligations.ArrivalsMoveTheTile := by
  refine ⟨fun s p h good samples t g ht hg henabled hused hsnap htag hslot hlive hrow hheight => ?_, fun s t => ?_⟩
  · have hin : s.inUse h = some (t, g) := State.inUse_eq_some_iff.2 ⟨ht, hg, henabled, hused⟩
    have hdecision := State.decision_of_live ((s.ofOpenSnap_iff h).2 ⟨hsnap, htag, hslot⟩) hlive good g
    rw [if_neg (by omega), if_neg (by omega)] at hdecision
    refine ⟨fun hbad => ?damaged, fun hgood hcount => ?badLength, fun hgood hcount => ?taken⟩
    case damaged =>
      rw [if_pos hbad] at hdecision
      rw [State.arrive_of_decision hin hdecision, State.applyDecision, State.markTile_eq, State.accountRow_eq hlive]
      simp [State.record, Tab.put_put]
    case badLength =>
      rw [if_neg (by simp [hgood]), if_pos hcount] at hdecision
      rw [State.arrive_of_decision hin hdecision, State.applyDecision, State.markTile_eq, State.accountRow_eq hlive]
      simp [State.record, Tab.put_put]
    case taken =>
      rw [if_neg (by simp [hgood]), if_neg (by simp [hcount])] at hdecision
      rw [State.arrive_of_decision hin hdecision, State.applyDecision, State.accountRow_eq hlive]
      simp [State.keepRow, State.setInFlight, State.updPort, Tab.modify, State.inFlight, State.port]
  · have hfull := s.receivedInFull_iff t
    refine ⟨fun hreceiving hall hnone => ?_, fun hreceiving hall hsome => ?_, fun hrest => ?_⟩
    · rw [State.settleTile, if_pos ⟨hreceiving, hfull.2 hall⟩, if_pos hnone, State.endTile_eq]
      simp [State.raisesTile]
    · rw [State.settleTile, if_pos ⟨hreceiving, hfull.2 hall⟩, if_neg hsome]
      rfl
    · refine if_neg fun ⟨hreceiving, hall⟩ => ?_
      rcases hrest with hnot | hnot
      · exact hnot hreceiving
      · exact hnot (hfull.1 hall)

end Sys2Proof.Machine
end

section
/-! SUPPORT. The expiry of the stall timers and of the drain timer (R35, R37, R38, R108, R112). -/

namespace Sys2Proof.Machine

/-! ## What drain expiry does to one tile (R38) -/

/-- The state that drain expiry gives a tile, if it cuts the tile (R38). -/
def State.cutTo (s : State) (t : TileId) : Option TileState :=
  match (s.record t).state with
  | .waiting => some .absent
  | .receiving => if s.receivedInFull t then none else some .short
  | _ => none

/-- A tile that drain expiry cuts ends in its state; any other stays (R33, R38). -/
theorem State.cutTile_eq (s : State) (t : TileId) :
    s.cutTile t
      = match s.cutTo t with
        | some st => s.endTile t st
        | none => s := by
  unfold State.cutTile State.cutTo
  cases (s.record t).state with
  | receiving =>
    dsimp only
    split <;> rfl
  | _ => rfl

/-- A WAITING tile becomes ABSENT, and a RECEIVING one that is not received in full SHORT: both differ from what they were, and
both raise TILE (R35, R38). -/
theorem State.cutTo_spec {s : State} {t : TileId} {st : TileState} (h : s.cutTo t = some st) :
    (s.record t).state ≠ st ∧ State.raisesTile st = true := by
  unfold State.cutTo at h
  split at h
  · rename_i hwaiting
    cases h
    exact ⟨by simp [hwaiting], rfl⟩
  · rename_i hreceiving
    split at h <;> cases h
    exact ⟨by simp [hreceiving], rfl⟩
  · cases h

theorem State.cutTo_of_waiting {s : State} {t : TileId} (h : (s.record t).state = .waiting) : s.cutTo t = some .absent := by
  unfold State.cutTo
  rw [h]

theorem State.cutTo_of_receiving {s : State} {t : TileId} (h : (s.record t).state = .receiving) :
    s.cutTo t = if s.receivedInFull t = true then none else some .short := by
  unfold State.cutTo
  rw [h]

/-- A tile that has ended its snap is not cut (R33). -/
theorem State.cutTo_of_ended {s : State} {t : TileId} (h : (s.record t).state.terminal = true) : s.cutTo t = none := by
  unfold State.cutTo
  split
  · rename_i hwaiting
    rw [hwaiting] at h
    cases h
  · rename_i hreceiving
    rw [hreceiving] at h
    cases h
  · rfl

/-- The record that drain expiry leaves of a tile (R38): its counts and its flags stay. -/
theorem State.cutTile_record (s : State) (t : TileId) :
    (s.cutTile t).record t
      = match s.cutTo t with
        | some st => { s.record t with state := st }
        | none => s.record t := by
  rw [State.cutTile_eq]
  cases s.cutTo t with
  | some st => simp [State.endTile_eq, State.record]
  | none => rfl

/-- The stall timer that drain expiry leaves of a tile (R36). -/
theorem State.cutTile_timer (s : State) (t : TileId) :
    (s.cutTile t).stallTimer t
      = match s.cutTo t with
        | some _ => .stopped
        | none => s.stallTimer t := by
  rw [State.cutTile_eq]
  cases s.cutTo t with
  | some st => simp [State.endTile_eq, State.stallTimer]
  | none => rfl

/-- Cutting one tile leaves every other tile's record and timer. -/
theorem State.cutTile_other (s : State) {t t' : TileId} (h : t ≠ t') :
    (s.cutTile t).record t' = s.record t' ∧ (s.cutTile t).stallTimer t' = s.stallTimer t' := by
  rw [State.cutTile_eq]
  split
  · simp [State.endTile_eq, State.record, State.stallTimer, h]
  · exact ⟨rfl, rfl⟩

/-- Cutting one tile changes of the engine no more than the tiles' records and timers and the condition TILE. -/
theorem State.cutTile_blocks (s : State) (t : TileId) :
    s.cutTile t
      = { s with
          intake := { s.intake with records := (s.cutTile t).intake.records, stall := (s.cutTile t).intake.stall }
          status := { s.status with tile := (s.cutTile t).status.tile } } := by
  rw [State.cutTile_eq]
  split <;> rfl

/-- The cut of one tile does not change what another is cut to (R34, R38). -/
theorem State.cutTo_cutTile (s : State) {t t' : TileId} (h : t ≠ t') : (s.cutTile t).cutTo t' = s.cutTo t' := by
  have hfull : (s.cutTile t).receivedInFull t' = s.receivedInFull t' := by
    rw [State.cutTile_blocks]
    rfl
  unfold State.cutTo
  rw [(s.cutTile_other h).1, hfull]

/-- A tile's cut raises TILE exactly when it changes the tile's record (R35). -/
theorem State.cutTile_status (s : State) (t : TileId) :
    (s.cutTile t).status.tile = true ↔ s.status.tile = true ∨ (s.cutTile t).record t ≠ s.record t := by
  rw [State.cutTile_eq]
  split
  · rename_i st hcut
    obtain ⟨hchange, hraise⟩ := State.cutTo_spec hcut
    have hrecord : (s.endTile t st).record t ≠ s.record t := fun he =>
      hchange (by rw [← he, State.endTile_eq]; simp [State.record])
    have htile : (s.endTile t st).status.tile = true := by simp [State.endTile_eq, hraise]
    exact iff_of_true htile (.inr hrecord)
  · simp

/-! ## What drain expiry does to a list of tiles -/

/-- Cutting tiles changes of the engine no more than the tiles' records and timers and the condition TILE. -/
theorem foldl_cutTile_blocks (l : List TileId) (s : State) :
    l.foldl State.cutTile s
      = { s with
          intake := { s.intake with
            records := (l.foldl State.cutTile s).intake.records, stall := (l.foldl State.cutTile s).intake.stall }
          status := { s.status with tile := (l.foldl State.cutTile s).status.tile } } := by
  induction l generalizing s with
  | nil => rfl
  | cons t rest ih =>
    rw [List.foldl_cons, ih (s.cutTile t)]
    rw [State.cutTile_blocks s t]

/-- A tile that is not of the list keeps its record and its timer. -/
theorem foldl_cutTile_other (l : List TileId) (s : State) {t : TileId} (h : t ∉ l) :
    (l.foldl State.cutTile s).record t = s.record t ∧ (l.foldl State.cutTile s).stallTimer t = s.stallTimer t := by
  induction l generalizing s with
  | nil => exact ⟨rfl, rfl⟩
  | cons a rest ih =>
    rw [List.mem_cons, not_or] at h
    obtain ⟨hne, hrest⟩ := h
    obtain ⟨hrecord, htimer⟩ := s.cutTile_other (Ne.symm hne)
    rw [List.foldl_cons, (ih _ hrest).1, (ih _ hrest).2]
    exact ⟨hrecord, htimer⟩

/-- A tile of the list is cut as though it were alone. -/
theorem foldl_cutTile_mem (l : List TileId) (s : State) (hnodup : l.Nodup) {t : TileId} (h : t ∈ l) :
    (l.foldl State.cutTile s).record t = (s.cutTile t).record t
      ∧ (l.foldl State.cutTile s).stallTimer t = (s.cutTile t).stallTimer t := by
  induction l generalizing s with
  | nil => cases h
  | cons a rest ih =>
    obtain ⟨hnot, hrest⟩ := List.nodup_cons.1 hnodup
    rw [List.foldl_cons]
    rcases List.mem_cons.1 h with rfl | hmem
    · exact foldl_cutTile_other rest _ hnot
    · have hne : a ≠ t := fun he => hnot (he ▸ hmem)
      obtain ⟨hrecord, htimer⟩ := s.cutTile_other hne
      rw [(ih _ hrest hmem).1, (ih _ hrest hmem).2, State.cutTile_record, State.cutTile_timer, State.cutTo_cutTile s hne,
        hrecord, htimer, State.cutTile_record, State.cutTile_timer]
      exact ⟨rfl, rfl⟩

/-- Cutting tiles raises TILE exactly when it changes the record of one of them (R35). -/
theorem foldl_cutTile_status (l : List TileId) (s : State) (hnodup : l.Nodup) :
    (l.foldl State.cutTile s).status.tile = true
      ↔ s.status.tile = true ∨ ∃ t, (l.foldl State.cutTile s).record t ≠ s.record t := by
  induction l generalizing s with
  | nil => simp
  | cons a rest ih =>
    obtain ⟨hnot, hrest⟩ := List.nodup_cons.1 hnodup
    have hhead : (rest.foldl State.cutTile (s.cutTile a)).record a = (s.cutTile a).record a :=
      (foldl_cutTile_other rest _ hnot).1
    have hothers : ∀ t, a ≠ t → (s.cutTile a).record t = s.record t := fun t hne => (s.cutTile_other hne).1
    rw [List.foldl_cons, ih _ hrest, State.cutTile_status]
    constructor
    · rintro ((hraised | hchange) | ⟨t, hchange⟩)
      · exact .inl hraised
      · exact .inr ⟨a, hhead ▸ hchange⟩
      · have hne : a ≠ t := fun he => hchange (he ▸ hhead)
        exact .inr ⟨t, hothers t hne ▸ hchange⟩
    · rintro (hraised | ⟨t, hchange⟩)
      · exact .inl (.inl hraised)
      · by_cases he : a = t
        · subst he
          exact .inl (.inr (hhead ▸ hchange))
        · exact .inr ⟨t, (hothers t he).symm ▸ hchange⟩

/-! ## The steps -/

theorem execStallTimerExpiry_of_receiving {s : State} {t : TileId} {ms : Nat} (hruns : s.stallTimer t = .running ms)
    (hreceiving : (s.record t).state = .receiving) :
    exec (.stallTimerExpiry t) s = .next (s.endTile t .stalled).judgeSnap := by
  simp [exec, execStallTimerExpiry, hruns, State.stallTile, hreceiving]

theorem execDrainTimerExpiry_of_draining {s : State} {ms : Nat} (hruns : s.visit.drain = .running ms)
    (hdraining : s.visit.snap = .draining) :
    exec .drainTimerExpiry s = .next ((List.finRange 16).foldl State.cutTile s.stopDrain).judgeSnap := by
  simp [exec, execDrainTimerExpiry, hruns, State.drainExpires, hdraining]

/-- Settles O19: a stall timer ends its own tile; the drain timer cuts each tile as though it were alone. -/
theorem expiryEndsUnfinishedTiles : Obligations.ExpiryEndsUnfinishedTiles := by
  refine ⟨fun s t => ⟨fun hstopped => ?_, fun ms hruns hreceiving => ?_⟩,
    fun s => ⟨fun hstopped => ?_, fun ms hruns hdraining => ?_⟩⟩
  · simp [exec, execStallTimerExpiry, hstopped]
  · rw [execStallTimerExpiry_of_receiving hruns hreceiving, State.endTile_eq]
    simp [State.raisesTile]
  · simp [exec, execDrainTimerExpiry, hstopped]
  · refine ⟨_, execDrainTimerExpiry_of_draining hruns hdraining, foldl_cutTile_blocks _ s.stopDrain, fun t => ?_,
      foldl_cutTile_status _ s.stopDrain nodup_finRange16⟩
    obtain ⟨hrecord, htimer⟩ := foldl_cutTile_mem _ s.stopDrain nodup_finRange16 (List.mem_finRange t)
    have hfull := s.receivedInFull_iff t
    have hcut : s.stopDrain.cutTo t = s.cutTo t := rfl
    rw [hrecord, htimer, State.cutTile_record, State.cutTile_timer, hcut]
    refine ⟨fun hwaiting => ?_, fun hreceiving hnot => ?_, fun hrest => ?_⟩
    · rw [State.cutTo_of_waiting hwaiting]
      exact ⟨rfl, rfl⟩
    · rw [State.cutTo_of_receiving hreceiving, if_neg (mt hfull.1 hnot)]
      exact ⟨rfl, rfl⟩
    · have hnone : s.cutTo t = none := by
        rcases hrest with hended | ⟨hreceiving, hall⟩
        · exact State.cutTo_of_ended hended
        · rw [State.cutTo_of_receiving hreceiving, if_pos (hfull.2 hall)]
      rw [hnone]
      exact ⟨rfl, rfl⟩

end Sys2Proof.Machine
end

section
/-! SUPPORT. The pixels of a started row, and the end of the row (R28, R31, R43, R55, R75, R88, R93, R107). -/

namespace Sys2Proof.Machine

theorem execPixelDeposit_of_busy {s : State} {p : PortId} {l : Lane} (hbusy : s.lane p = some l) :
    exec (.pixelDeposit p) s = .next (s.nextPixel p l) := by
  simp [exec, execPixelDeposit, hbusy]

/-- A pixel with another after it: the lane goes on to the next sample (R43). -/
theorem State.nextPixel_of_more {l : Lane} {a : Sample} {entry : Flat} {rest : List (Sample × Flat)}
    (htodo : l.todo = (a, entry) :: rest) (hmore : rest ≠ []) (s : State) (p : PortId) :
    s.nextPixel p l = (s.depositPixel l a entry).setLane p (some { l with todo := rest, next := l.next + 1 }) := by
  simp [State.nextPixel, htodo, hmore]

/-- The last pixel of a row: the row ends (R88). -/
theorem State.nextPixel_of_last {l : Lane} {a : Sample} {entry : Flat} (htodo : l.todo = [(a, entry)]) (s : State)
    (p : PortId) :
    s.nextPixel p l = (s.depositPixel l a entry).endRow p { l with todo := [], next := l.next + 1 } := by
  simp [State.nextPixel, htodo]

/-- A row that is no longer counted counts no pixel (R31, R96). -/
theorem State.countPixel_of_uncounted {x : Context} (h : x.counting = false) (s : State) (t : TileId) (kind : PixelKind) :
    s.countPixel x t kind = s := if_neg (by simp [h])

/-- A pixel of a counted row raises the counts of its tile by its own kind (R31, R49, R50, R53). -/
theorem State.countPixel_of_counted {x : Context} (h : x.counting = true) (s : State) (t : TileId) :
    s.countPixel x t .sat = (s.updRecord t fun r => { r with satPixels := r.satPixels + 1 })
      ∧ s.countPixel x t .defect = (s.updRecord t fun r => { r with defPixels := r.defPixels + 1 })
      ∧ ∀ c clip low, s.countPixel x t (.value c clip low)
          = s.updRecord t fun r => { r with clipPixels := r.clipPixels + if clip then 1 else 0 } :=
  ⟨if_pos h, if_pos h, fun _ _ _ => if_pos h⟩

/-- The end of a row that is no longer counted (R75, R88, R96). -/
theorem State.endRow_of_uncounted {l : Lane} (h : l.context.counting = false) (s : State) (p : PortId) :
    s.endRow p l
      = (((s.setLane p none).updBank l.context.bank fun k => { k with depositHolds := k.depositHolds - 1 }).leaveRetiring
          l.context.bank).serveLane p := by
  simp [State.endRow, h]

/-- The end of a row that is still counted: it leaves the counts of rows in flight too (R28, R107). -/
theorem State.endRow_of_counted {l : Lane} (h : l.context.counting = true) (s : State) (p : PortId) :
    s.endRow p l
      = ((((s.setLane p none).updBank l.context.bank fun k => { k with depositHolds := k.depositHolds - 1 }).leaveRetiring
          l.context.bank).uncountRow l.tile).serveLane p := by
  simp [State.endRow, h]

/-- Settles O34: the count of a pixel by its kind, its deposit, and the two ends that a row can have. -/
theorem pixelsAreDepositedToTheRowsEnd : Obligations.PixelsAreDepositedToTheRowsEnd := by
  refine ⟨fun s p => ⟨fun hidle => ?idle, fun l a entry rest hbusy htodo => ?_⟩, fun s p l => ?_⟩
  case idle => simp [exec, execPixelDeposit, hidle]
  · intro kind column row k counted u l'
    have hcounted : s.countPixel l.context l.tile kind = counted := by
      cases hx : l.context.counting with
      | false => simp [State.countPixel_of_uncounted hx, counted, hx]
      | true =>
        obtain ⟨hsat, hdefect, hvalue⟩ := State.countPixel_of_counted hx s l.tile
        cases hkind : kind with
        | sat => simp [hsat, counted, hx, hkind, State.updRecord, Tab.modify, k, State.record]
        | defect => simp [hdefect, counted, hx, hkind, State.updRecord, Tab.modify, k, State.record]
        | value c clip low => simp [hvalue, counted, hx, hkind, State.updRecord, Tab.modify, k, State.record]
    have hdeposit : s.depositPixel l a entry = u := by
      unfold State.depositPixel
      dsimp only
      rw [hcounted]
      rfl
    rw [execPixelDeposit_of_busy hbusy]
    refine ⟨fun hmore => ?_, fun hlast => ?_⟩
    · rw [State.nextPixel_of_more htodo hmore, hdeposit]
      rfl
    · subst hlast
      rw [State.nextPixel_of_last htodo, hdeposit]
  · intro b u v
    refine ⟨fun hoff => State.endRow_of_uncounted hoff s p, fun hon => ?_⟩
    have hcount : v.inFlight l.tile = s.inFlight l.tile := by simp [State.inFlight, v, u]
    have hvisit : v.visit = s.visit := by simp [v, u]
    rw [State.endRow_of_counted hon]
    change (v.uncountRow l.tile).serveLane p = _
    rw [State.uncountRow, hcount]
    simp only [State.setInFlight, hvisit]

end Sys2Proof.Machine
end

section
/-! SUPPORT. The commands that open a snap and that end snaps and visits: SNAP_OPEN, SNAP_CLOSE, VISIT_CLOSE and VISIT_ABORT
(R32, R40, R47, R83, R96, R105, R106, R111, R113 to R115, R141). -/

namespace Sys2Proof.Machine

/-! ## SNAP_OPEN (R32, R47, R83, R105, R106) -/

theorem offsetInRange_iff (x : Int) : offsetInRange x = true ↔ -1024 ≤ x ∧ x ≤ 1024 := by simp [offsetInRange]

theorem takeSnapOpen_notReady {s : State} (h : ¬(s.visit.state = .betweenSnaps ∧ s.visit.snapsDone < s.visit.expected))
    (b : List Byte) : takeSnapOpen b s = .refuse s .state := if_neg h

theorem takeSnapOpen_outOfRange {s : State} {b : List Byte}
    (hready : s.visit.state = .betweenSnaps ∧ s.visit.snapsDone < s.visit.expected)
    (hbad : ¬(offsetInRange (signedField b 0 2) && offsetInRange (signedField b 2 2)) = true) :
    takeSnapOpen b s = .refuse s .range := by
  rw [takeSnapOpen, if_pos hready, if_neg hbad]

theorem takeSnapOpen_ready {s : State} {b : List Byte}
    (hready : s.visit.state = .betweenSnaps ∧ s.visit.snapsDone < s.visit.expected)
    (hgood : (offsetInRange (signedField b 0 2) && offsetInRange (signedField b 2 2)) = true) :
    takeSnapOpen b s
      = .okWith (s.openSnap (signedField b 0 2) (signedField b 2 2)).judgeSnap (beBytes 1 s.visit.snapsDone) := by
  rw [takeSnapOpen, if_pos hready, if_pos hgood]

theorem execSnapOpen_of {s : State} {p : PortId} {f : CtlFrame} (hhead : s.Heads p f 0x51#8 4) {u : State} {r : Result}
    {d : List Byte} (howner : takeSnapOpen f.payload s = ⟨u, r, d⟩) : exec (.snapOpen p) s = .next (u.respond p f r d) :=
  command_runs takeSnapOpen hhead (by decide) (by decide) howner

/-- The record that SNAP_OPEN leaves of a tile is cleared (R32). -/
theorem State.openSnap_record (s : State) (sx sy : Int) (t : TileId) :
    (s.openSnap sx sy).record t = .cleared (s.tile t).opening := by
  simp [State.record, State.openSnap, State.openIntake, State.tile]

theorem State.openSnap_stallTimer (s : State) (sx sy : Int) (t : TileId) : (s.openSnap sx sy).stallTimer t = .stopped := by
  simp [State.stallTimer, State.openSnap, State.openIntake]

theorem State.openSnap_nextRow (s : State) (sx sy : Int) (t : TileId) (g : SegId) : (s.openSnap sx sy).nextRow t g = 0 := by
  simp [State.nextRow, State.openSnap, State.openIntake]

/-- Every running bias estimate becomes none (R47). -/
theorem State.openSnap_bias (s : State) (sx sy : Int) (i : Fin 64) : (s.openSnap sx sy).cal.bias.nth i = none := by
  simp [State.openSnap]

/-- A placement record is built for each enabled tile that is not quarantined, and for no other (R83). -/
theorem State.openSnap_placement (s : State) (sx sy : Int) (t : TileId) :
    (s.openSnap sx sy).placements.nth t
      = if (s.tile t).enabled = true ∧ (s.tile t).quarantined = false then some (placeTile (s.tile t) sx sy) else none := by
  simp only [State.openSnap, State.openPlacements, Tab.nth_map]
  rfl

/-- Settles O36: the tests of the command, and what each block holds when the snap opens. -/
theorem snapOpenPreparesEveryBlock : Obligations.SnapOpenPreparesEveryBlock := by
  intro s p f hhead sx sy ready inRange
  have hrange : (offsetInRange sx && offsetInRange sy) = true ↔ inRange := by
    rw [Bool.and_eq_true, offsetInRange_iff, offsetInRange_iff, and_assoc]
  refine ⟨fun hnot => execSnapOpen_of hhead (takeSnapOpen_notReady hnot _),
    fun hready hbad => execSnapOpen_of hhead (takeSnapOpen_outOfRange hready (mt hrange.1 hbad)),
    fun slot hready hgood hslot => ⟨s.openSnap sx sy, ?answer, ?blocks, fun t => ?tile⟩⟩
  case answer =>
    rw [hslot, ← beBytes_one]
    exact execSnapOpen_of hhead (takeSnapOpen_ready hready (hrange.2 hgood))
  case blocks =>
    have hnext : Fin.ofNat 3 s.visit.snapsDone = slot := by
      rw [← hslot]
      exact Fin.ofNat_val_eq_self slot
    rw [State.openSnap, hnext]
    rfl
  case tile =>
    rw [State.openSnap_record, State.openSnap_stallTimer, State.openSnap_placement]
    exact ⟨rfl, rfl, rfl, rfl, rfl, rfl, rfl, fun hwaits => if_pos hwaits, fun hnot => if_neg hnot, fun g =>
      ⟨(TileRecord.cleared_rows _ g).1, (TileRecord.cleared_rows _ g).2, s.openSnap_nextRow sx sy t g,
        s.openSnap_bias sx sy _⟩⟩

/-! ## SNAP_CLOSE and VISIT_CLOSE (R111, R113) -/

theorem execSnapClose_of {s : State} {p : PortId} {f : CtlFrame} (hhead : s.Heads p f 0x52#8 0) {u : State} {r : Result}
    {d : List Byte} (howner : takeSnapClose f.payload s = ⟨u, r, d⟩) : exec (.snapClose p) s = .next (u.respond p f r d) :=
  command_runs takeSnapClose hhead (by decide) (by decide) howner

theorem takeSnapClose_opened {s : State} (h : s.visit.snap = .opened) (b : List Byte) :
    takeSnapClose b s = .ok s.beginDrain := by
  rw [takeSnapClose, h]

theorem takeSnapClose_draining {s : State} (h : s.visit.snap = .draining) (b : List Byte) : takeSnapClose b s = .ok s := by
  rw [takeSnapClose, h]

theorem takeSnapClose_notOpen {s : State} (h : s.visit.snap = .noSnap ∨ s.visit.snap = .done ∨ s.visit.snap = .aborted)
    (b : List Byte) : takeSnapClose b s = .refuse s .state := by
  rcases h with h | h | h <;> rw [takeSnapClose, h]

theorem execVisitClose_of {s : State} {p : PortId} {f : CtlFrame} (hhead : s.Heads p f 0x53#8 0) {u : State} {r : Result}
    {d : List Byte} (howner : takeVisitClose f.payload s = ⟨u, r, d⟩) :
    exec (.visitClose p) s = .next (u.respond p f r d) :=
  command_runs takeVisitClose hhead (by decide) (by decide) howner

/-! ## VISIT_ABORT (R40, R96, R114, R115, R141) -/

theorem execVisitAbort_of {s : State} {p : PortId} {f : CtlFrame} (hhead : s.Heads p f 0x54#8 1) {u : State} {r : Result}
    {d : List Byte} (howner : takeVisitAbort f.payload s = ⟨u, r, d⟩) :
    exec (.visitAbort p) s = .next (u.respond p f r d) :=
  command_runs takeVisitAbort hhead (by decide) (by decide) howner

theorem takeVisitAbort_badBank {b : List Byte} (h : 2 ≤ field b 0 1) (s : State) :
    takeVisitAbort b s = .refuse s .range := by
  rw [takeVisitAbort, bankOf_eq_none h]

theorem takeVisitAbort_filling {b : List Byte} {k : BankId} (hk : field b 0 1 = k.val) {s : State}
    (h : (s.bank k).state = .filling) : takeVisitAbort b s = .ok (s.abortVisit k) := by
  simp only [takeVisitAbort, bankOf_eq_some hk, h]

theorem takeVisitAbort_closed {b : List Byte} {k : BankId} (hk : field b 0 1 = k.val) {s : State}
    (h : (s.bank k).state = .closed) : takeVisitAbort b s = .ok (s.withdrawVisit k) := by
  simp only [takeVisitAbort, bankOf_eq_some hk, h]

theorem takeVisitAbort_noVisit {b : List Byte} {k : BankId} (hk : field b 0 1 = k.val) {s : State}
    (hfilling : (s.bank k).state ≠ .filling) (hclosed : (s.bank k).state ≠ .closed) :
    takeVisitAbort b s = .refuse s .state := by
  simp only [takeVisitAbort, bankOf_eq_some hk]
  split
  · rename_i h
    exact absurd h hfilling
  · rename_i h
    exact absurd h hclosed
  all_goals rfl

/-- What VISIT_ABORT of the open visit leaves before its bank retires and the freed buffers are announced (R40, R96, R114). -/
def State.endOpenVisit (s : State) (b : BankId) : State :=
  { s.abortIntake with
    cal := { s.cal with lanes := s.cal.lanes.map (Option.map (Lane.abortedOn b)) }
    visit := { s.visit with
      state := .noVisit
      snap := if s.snapOpen then .aborted else s.visit.snap
      inFlight := 0
      drain := .stopped
      records := s.visit.records.put b none } }

theorem State.abortVisit_eq (s : State) (b : BankId) : s.abortVisit b = ((s.endOpenVisit b).retire b).serveAll := rfl

theorem State.snapOpen_iff (s : State) : s.snapOpen = true ↔ s.visit.snap = .opened ∨ s.visit.snap = .draining := by
  simp [State.snapOpen]

theorem State.endOpenVisit_eq (s : State) (b : BankId) :
    s.endOpenVisit b
      = { s with
          ports := (s.endOpenVisit b).ports
          cal := { s.cal with lanes := (s.endOpenVisit b).cal.lanes }
          intake := { s.intake with stall := .fill 16 .stopped, inFlight := .fill 16 0 }
          visit := { s.visit with
            state := .noVisit
            inFlight := 0
            drain := .stopped
            records := s.visit.records.put b none
            snap := if s.visit.snap = .opened ∨ s.visit.snap = .draining then .aborted else s.visit.snap } } := by
  simp only [State.endOpenVisit, State.abortIntake, State.snapOpen_iff]

/-- The taken rows that have not started are discarded (R40). -/
theorem State.endOpenVisit_port (s : State) (b : BankId) (o : PortId) :
    (s.endOpenVisit b).port o = { s.port o with taken := [] } := by
  simp [State.port, State.endOpenVisit, State.abortIntake]

/-- The started rows go on, those of the aborted bank uncounted (R96). -/
theorem State.endOpenVisit_lane (s : State) (b : BankId) (o : PortId) :
    (s.endOpenVisit b).lane o = (s.lane o).map (Lane.abortedOn b) := by
  simp [State.lane, State.endOpenVisit]

/-- Settles O37: each command's cases, and what the abort of the open visit leaves in each block. -/
theorem visitsEndByCloseOrAbort : Obligations.VisitsEndByCloseOrAbort := by
  refine ⟨fun s p f => ⟨fun hhead => ?snapClose, fun hhead => ?visitClose⟩, fun s p f hhead => ⟨fun hbad => ?badBank, fun b hb =>
    ⟨fun hfilling hclosed => ?noVisit, fun hclosed => ?withdrawn, fun hfilling => ?aborted⟩⟩⟩
  case snapClose =>
    exact ⟨fun h => execSnapClose_of hhead (takeSnapClose_opened h _),
      fun h => execSnapClose_of hhead (takeSnapClose_draining h _),
      fun h => execSnapClose_of hhead (takeSnapClose_notOpen h _)⟩
  case visitClose =>
    exact ⟨fun hbetween => execVisitClose_of hhead (if_pos hbetween), fun hnot => execVisitClose_of hhead (if_neg hnot)⟩
  case badBank => exact execVisitAbort_of hhead (takeVisitAbort_badBank hbad s)
  case noVisit => exact execVisitAbort_of hhead (takeVisitAbort_noVisit hb hfilling hclosed)
  case withdrawn => exact execVisitAbort_of hhead (takeVisitAbort_closed hb hclosed)
  case aborted =>
    refine ⟨s.endOpenVisit b, execVisitAbort_of hhead (takeVisitAbort_filling hb hfilling), s.endOpenVisit_eq b,
      s.endOpenVisit_port b, fun o => ⟨fun hidle => ?_, fun l hbusy => ⟨fun hbank => ?_, fun hother => ?_⟩⟩⟩
    · rw [State.endOpenVisit_lane, hidle]
      rfl
    · rw [State.endOpenVisit_lane, hbusy, Option.map_some, Lane.abortedOn, if_pos hbank]
      rfl
    · rw [State.endOpenVisit_lane, hbusy, Option.map_some, Lane.abortedOn, if_neg hother]

end Sys2Proof.Machine
end

section
/-! SUPPORT. ENGINE_RESET, block by block (R42, R64, R75, R78, R82, R97, R119, R154, R166, R180). -/

namespace Sys2Proof.Machine

/-! ## One bank (R75, R78, R82) -/

/-- A bank when RETIRING without holds has been left, on a canvas with so many cells (R75, R78; log 12). -/
def Bank.leftRetiring (cells : Nat) (k : Bank) : Bank :=
  if k.state = .retiring ∧ k.depositHolds = 0 ∧ k.readHold = false then
    if k.epoch = 255#8 then { k with state := if cells = 0 then .free else .scrubbing, epoch := 0, scrubPos := 0 }
    else { k with state := .free }
  else k

/-- A bank after ENGINE_RESET, on a canvas with so many cells (R82). -/
def Bank.rested (cells : Nat) (k : Bank) : Bank :=
  (if k.state.holdsVisit then { k with state := .retiring } else k).leftRetiring cells

theorem State.leaveRetiring_bank_self (s : State) (b : BankId) :
    (s.leaveRetiring b).bank b = (s.bank b).leftRetiring (s.canvas.width * s.canvas.height) := by
  unfold State.leaveRetiring Bank.leftRetiring
  split
  · split <;> simp [State.startScrub, State.bank]
  · rfl

theorem State.leaveRetiring_canvas (s : State) (b : BankId) :
    (s.leaveRetiring b).canvas.width = s.canvas.width ∧ (s.leaveRetiring b).canvas.height = s.canvas.height
      ∧ (s.leaveRetiring b).canvas.powerOns = s.canvas.powerOns := by
  unfold State.leaveRetiring
  split
  · split <;> exact ⟨rfl, rfl, rfl⟩
  · exact ⟨rfl, rfl, rfl⟩

theorem State.restBank_bank_self (s : State) (b : BankId) :
    (s.restBank b).bank b = (s.bank b).rested (s.canvas.width * s.canvas.height) := by
  rw [State.restBank, State.leaveRetiring_bank_self, Bank.rested]
  split <;> simp [State.bank]

theorem State.restBank_canvas (s : State) (b : BankId) :
    (s.restBank b).canvas.width = s.canvas.width ∧ (s.restBank b).canvas.height = s.canvas.height
      ∧ (s.restBank b).canvas.powerOns = s.canvas.powerOns := by
  obtain ⟨hwidth, hheight, hpowerOns⟩ :=
    (if (s.bank b).state.holdsVisit then s.updBank b fun k => { k with state := .retiring } else s).leaveRetiring_canvas b
  rw [State.restBank, hwidth, hheight, hpowerOns]
  split <;> exact ⟨rfl, rfl, rfl⟩

/-- A bank keeps its cells and its holds (R82). -/
theorem Bank.rested_keeps (cells : Nat) (k : Bank) :
    (k.rested cells).cells = k.cells ∧ (k.rested cells).depositHolds = k.depositHolds
      ∧ (k.rested cells).readHold = k.readHold := by
  have hleft : ∀ k : Bank, (k.leftRetiring cells).cells = k.cells ∧ (k.leftRetiring cells).depositHolds = k.depositHolds
      ∧ (k.leftRetiring cells).readHold = k.readHold := fun k => by
    unfold Bank.leftRetiring
    split
    · split <;> exact ⟨rfl, rfl, rfl⟩
    · exact ⟨rfl, rfl, rfl⟩
  unfold Bank.rested
  split
  · exact hleft _
  · exact hleft k

/-- A bank that is FREE or SCRUBBING stays as it is (R82). -/
theorem Bank.rested_of_quiet {k : Bank} (h : k.state = .free ∨ k.state = .scrubbing) (cells : Nat) : k.rested cells = k := by
  rcases h with h | h <;> simp [Bank.rested, Bank.leftRetiring, h, BankState.holdsVisit]

/-- Whether a bank is one that ENGINE_RESET takes to RETIRING, or finds there (R82). -/
def Bank.Retires (k : Bank) : Prop :=
  (k.state = .filling ∨ k.state = .closed ∨ k.state = .resolving ∨ k.state = .resolved) ∨ k.state = .retiring

/-- A bank that holds a visit becomes RETIRING, and goes on from there as a RETIRING bank does (R82). -/
theorem Bank.rested_of_visit {k : Bank} (cells : Nat) (h : k.Retires) :
    k.rested cells = ({ k with state := .retiring } : Bank).leftRetiring cells := by
  have hstate : (if k.state.holdsVisit then { k with state := .retiring } else k)
      = ({ k with state := .retiring } : Bank) := by
    rcases h with (h | h | h | h) | h
    case inr => rw [h, if_neg (by decide), ← h]
    all_goals
      rw [h]
      exact if_pos rfl
  rw [Bank.rested, hstate]

theorem Bank.leftRetiring_of_held {k : Bank} (h : k.depositHolds ≠ 0 ∨ k.readHold = true) (cells : Nat) :
    k.leftRetiring cells = k := by
  refine if_neg fun ⟨_, hdeposit, hread⟩ => ?_
  rcases h with h | h
  · exact h hdeposit
  · rw [h] at hread
    cases hread

theorem Bank.leftRetiring_of_free {k : Bank} (cells : Nat) (hstate : k.state = .retiring) (hdeposit : k.depositHolds = 0)
    (hread : k.readHold = false) (hepoch : k.epoch ≠ 255#8) : k.leftRetiring cells = { k with state := .free } := by
  rw [Bank.leftRetiring, if_pos ⟨hstate, hdeposit, hread⟩, if_neg hepoch]

theorem Bank.leftRetiring_of_scrub {k : Bank} (cells : Nat) (hstate : k.state = .retiring) (hdeposit : k.depositHolds = 0)
    (hread : k.readHold = false) (hepoch : k.epoch = 255#8) :
    k.leftRetiring cells = { k with state := if cells = 0 then .free else .scrubbing, epoch := 0, scrubPos := 0 } := by
  rw [Bank.leftRetiring, if_pos ⟨hstate, hdeposit, hread⟩, if_pos hepoch]

/-- What a bank keeps at ENGINE_RESET, and its state, epoch and scrub position by the state and the holds that the reset finds
(R75, R78, R82; log 12). -/
theorem Bank.rested_spec (cells : Nat) (k : Bank) :
    (k.rested cells).cells = k.cells ∧ (k.rested cells).depositHolds = k.depositHolds
      ∧ (k.rested cells).readHold = k.readHold
      ∧ (k.state = .free ∨ k.state = .scrubbing →
          (k.rested cells).state = k.state ∧ (k.rested cells).epoch = k.epoch ∧ (k.rested cells).scrubPos = k.scrubPos)
      ∧ (k.Retires → (k.rested cells).depositHolds ≠ 0 ∨ (k.rested cells).readHold = true →
          (k.rested cells).state = .retiring ∧ (k.rested cells).epoch = k.epoch ∧ (k.rested cells).scrubPos = k.scrubPos)
      ∧ (k.Retires → (k.rested cells).depositHolds = 0 → (k.rested cells).readHold = false → k.epoch ≠ 255#8 →
          (k.rested cells).state = .free ∧ (k.rested cells).epoch = k.epoch ∧ (k.rested cells).scrubPos = k.scrubPos)
      ∧ (k.Retires → (k.rested cells).depositHolds = 0 → (k.rested cells).readHold = false → k.epoch = 255#8 →
          0 < cells → (k.rested cells).state = .scrubbing ∧ (k.rested cells).epoch = 0 ∧ (k.rested cells).scrubPos = 0)
      ∧ (k.Retires → (k.rested cells).depositHolds = 0 → (k.rested cells).readHold = false → k.epoch = 255#8 →
          cells = 0 → (k.rested cells).state = .free ∧ (k.rested cells).epoch = 0 ∧ (k.rested cells).scrubPos = 0) := by
  obtain ⟨hcells, hdeposit, hread⟩ := k.rested_keeps cells
  refine ⟨hcells, hdeposit, hread, ?_⟩
  rw [hdeposit, hread]
  refine ⟨fun h => ?_, fun h hh => ?_, fun h hd hr he => ?_, fun h hd hr he hsome => ?_, fun h hd hr he hnone => ?_⟩
  · rw [Bank.rested_of_quiet h]
    exact ⟨rfl, rfl, rfl⟩
  · rw [Bank.rested_of_visit cells h, Bank.leftRetiring_of_held (k := { k with state := .retiring }) hh]
    exact ⟨rfl, rfl, rfl⟩
  · rw [Bank.rested_of_visit cells h, Bank.leftRetiring_of_free (k := { k with state := .retiring }) cells rfl hd hr he]
    exact ⟨rfl, rfl, rfl⟩
  · rw [Bank.rested_of_visit cells h, Bank.leftRetiring_of_scrub (k := { k with state := .retiring }) cells rfl hd hr he,
      if_neg (Nat.ne_of_gt hsome)]
    exact ⟨rfl, rfl, rfl⟩
  · rw [Bank.rested_of_visit cells h, Bank.leftRetiring_of_scrub (k := { k with state := .retiring }) cells rfl hd hr he,
      if_pos hnone]
    exact ⟨rfl, rfl, rfl⟩

/-! ## The engine (R180) -/

/-- What ENGINE_RESET leaves before the banks move on and the freed buffers are announced (R180). -/
def State.restBlocks (s : State) : State :=
  { s.restReadHold with
    ports := s.ports.map Port.rest
    px := s.px.rest
    intake := s.intake.rest
    cal := s.cal.rest
    placements := .fill 16 none
    visit := .reset
    resolve := s.resolve.rest s.px.lane.isSome
    status := .reset }

theorem State.engineRest_eq (s : State) : s.engineRest = ((s.restBlocks.restBank 0).restBank 1).serveAll := by
  simp [State.engineRest, State.restBlocks]

/-- The read hold of a pass that ends at once is cleared, and no other hold (R82, R154). -/
theorem State.restReadHold_bank (s : State) (b : BankId) :
    s.restReadHold.bank b
      = { s.bank b with
          readHold := (s.bank b).readHold
            && !(s.resolve.state != .idle && s.px.lane.isNone && s.resolve.passBank == b) } := by
  unfold State.restReadHold
  split
  · rename_i hkeep
    rcases hkeep with hidle | hrow
    · simp [hidle]
    · have hnone : s.px.lane.isNone = false := by simpa using hrow
      simp [hnone]
  · rename_i hends
    rw [not_or] at hends
    obtain ⟨hpass, hrow⟩ := hends
    have hnone : s.px.lane.isNone = true := by simpa using hrow
    by_cases hb : s.resolve.passBank = b
    · simp [State.bank, hb, hpass, hnone]
    · have hne : (s.resolve.passBank == b) = false := beq_false_of_ne hb
      simp [State.bank, hb, hne]

theorem State.restReadHold_canvas (s : State) :
    s.restReadHold.canvas.width = s.canvas.width ∧ s.restReadHold.canvas.height = s.canvas.height
      ∧ s.restReadHold.canvas.powerOns = s.canvas.powerOns := by
  unfold State.restReadHold
  split <;> exact ⟨rfl, rfl, rfl⟩

/-- The Resolve Unit after ENGINE_RESET: a pass ends at once, or after its row in transmission (R154). -/
theorem Resolve.rest_cases (r : Resolve) (lane : Option PrdFrame) :
    ∃ state snapshot bank,
      r.rest lane.isSome
        = { r with
            waiting := [], passNumber := 0, resolveCounter := 0, readable := none, building := none
            egressMark := false, egressTimer := .stopped, state := state, snapshot := snapshot, passBank := bank }
        ∧ (r.state = .idle → state = .idle ∧ bank = 0)
        ∧ (r.state ≠ .idle → bank = r.passBank)
        ∧ (r.state ≠ .idle → lane ≠ none → state = .ending ∧ snapshot = r.snapshot)
        ∧ (r.state ≠ .idle → lane = none → state = .idle)
        ∧ (lane = none → snapshot = none) := by
  refine ⟨_, _, _, rfl, fun hidle => ?_, fun hpass => ?_, fun hpass hrow => ?_, fun hpass hnone => ?_, fun hnone => ?_⟩
  · exact ⟨if_pos hidle, if_pos hidle⟩
  · exact if_neg hpass
  · simp [hpass, Option.isSome_iff_ne_none.2 hrow]
  · simp [hpass, hnone]
  · simp [hnone]

theorem execEngineReset_of {s : State} {p : PortId} {f : CtlFrame} (hhead : s.Heads p f 0x04#8 0) {u : State} {r : Result}
    {d : List Byte} (howner : takeEngineReset f.payload s = ⟨u, r, d⟩) :
    exec (.engineReset p) s = .next (u.respond p f r d) :=
  command_runs takeEngineReset hhead (by decide) (by decide) howner

/-- A bank after ENGINE_RESET: each bank is brought to rest by itself (R82). -/
theorem State.restBanks_bank (s : State) (b : BankId) :
    ((s.restBank 0).restBank 1).bank b = (s.bank b).rested (s.canvas.width * s.canvas.height) := by
  revert b
  rw [forall_bank_iff]
  constructor
  · rw [(restBank_bank (s.restBank 0) 1).1 0 (by decide), State.restBank_bank_self]
  · obtain ⟨hwidth, hheight, -⟩ := s.restBank_canvas 0
    rw [State.restBank_bank_self, (restBank_bank s 0).1 1 (by decide), hwidth, hheight]

/-- The geometry stays (R82). -/
theorem State.restBanks_canvas (s : State) :
    ((s.restBank 0).restBank 1).canvas.width = s.canvas.width ∧ ((s.restBank 0).restBank 1).canvas.height = s.canvas.height
      ∧ ((s.restBank 0).restBank 1).canvas.powerOns = s.canvas.powerOns := by
  obtain ⟨hwidth, hheight, hpowerOns⟩ := s.restBank_canvas 0
  obtain ⟨hwidth', hheight', hpowerOns'⟩ := (s.restBank 0).restBank_canvas 1
  exact ⟨hwidth'.trans hwidth, hheight'.trans hheight, hpowerOns'.trans hpowerOns⟩

/-- Settles O51: the blocks at rest, and each bank by the state and the holds that the reset finds. -/
theorem engineResetRestsEveryBlock : Obligations.EngineResetRestsEveryBlock := by
  intro s p f hhead
  refine ⟨(s.restBlocks.restBank 0).restBank 1, ?answer, ?tiles, ?segs, ?flats, ?pending, ?intake, ?placements, ?bias, ?visit,
    ?status, ?ports, ?lanes, ?px, ?resolve, ?width, ?height, ?powerOns, ?banks⟩
  case answer =>
    rw [← State.engineRest_eq]
    exact execEngineReset_of hhead rfl
  case tiles => simp [State.restBlocks]
  case segs => simp [State.restBlocks]
  case flats => simp [State.restBlocks, Calibration.rest]
  case pending => simp [State.restBlocks]
  case intake => simp [State.restBlocks, Intake.rest, State.reset]
  case placements =>
    intro t
    simp [State.restBlocks]
  case bias =>
    intro t g
    simp [State.restBlocks, Calibration.rest]
  case visit => simp [State.restBlocks, State.reset]
  case status => simp [State.restBlocks, State.reset]
  case ports =>
    intro o
    simp [State.restBlocks, State.port, Port.rest, PortFlags.clear, PortCounters.zero]
  case lanes =>
    intro o
    have hlane : ((s.restBlocks.restBank 0).restBank 1).lane o = (s.lane o).map Lane.uncounted := by
      simp [State.restBlocks, State.lane, Calibration.rest]
    rw [hlane]
    refine ⟨fun hidle => ?_, fun l hbusy => ?_⟩
    · rw [hidle]
      rfl
    · rw [hbusy]
      rfl
  case px => simp [State.restBlocks, ProductPort.rest]
  case resolve =>
    have hresolve : ((s.restBlocks.restBank 0).restBank 1).resolve = s.resolve.rest s.px.lane.isSome := by
      simp [State.restBlocks]
    rw [hresolve]
    exact s.resolve.rest_cases s.px.lane
  case width => exact s.restBlocks.restBanks_canvas.1.trans s.restReadHold_canvas.1
  case height => exact s.restBlocks.restBanks_canvas.2.1.trans s.restReadHold_canvas.2.1
  case powerOns => exact s.restBlocks.restBanks_canvas.2.2.trans s.restReadHold_canvas.2.2
  case banks =>
    intro b
    obtain ⟨hwidth, hheight, -⟩ := s.restReadHold_canvas
    have hbank : ((s.restBlocks.restBank 0).restBank 1).bank b
        = (s.restReadHold.bank b).rested (s.canvas.width * s.canvas.height) := by
      rw [State.restBanks_bank, ← hwidth, ← hheight]
      rfl
    have hread := congrArg Bank.readHold (s.restReadHold_bank b)
    have hstate := congrArg Bank.state (s.restReadHold_bank b)
    have hepoch := congrArg Bank.epoch (s.restReadHold_bank b)
    have hpos := congrArg Bank.scrubPos (s.restReadHold_bank b)
    have hdeposit := congrArg Bank.depositHolds (s.restReadHold_bank b)
    have hcells := congrArg Bank.cells (s.restReadHold_bank b)
    dsimp only at hread hstate hepoch hpos hdeposit hcells ⊢
    rw [hbank, ← hread, ← hstate, ← hepoch, ← hpos, ← hdeposit, ← hcells]
    exact Bank.rested_spec _ _

end Sys2Proof.Machine
end

section
/-! SUPPORT. The reads of the flat maps, FLAT_READ (R62, R63). -/

namespace Sys2Proof.Machine

/-- The value of an entry that FLAT_READ returns, as a number: unity while the flat is UNLOADED (R62). -/
theorem State.readFlat_toNat {s : State} {t : TileId} (h : (s.flat t).state ≠ .clearing) (u v : Nat) :
    (s.readFlat t u v).toNat = if (s.flat t).state = .loaded then ((s.flat t).entry u v).toNat else 16384 := by
  unfold State.readFlat
  cases hstate : (s.flat t).state with
  | unloaded => rfl
  | clearing => exact absurd hstate h
  | loaded => rfl

theorem takeFlatRead_badTile {b : List Byte} (h : 16 ≤ field b 0 1) (s : State) : takeFlatRead b s = .refuse s .range := by
  unfold takeFlatRead
  rw [tileOf_eq_none h]

/-- FLAT_READ's owner: the flat state, then the run, and no lock (R62, R63). -/
theorem takeFlatRead_eq {b : List Byte} {t : TileId} (ht : field b 0 1 = t.val) (s : State) :
    let inside := 1 ≤ field b 5 2 ∧ field b 5 2 ≤ 1024 ∧ field b 1 2 < (s.tile t).height
      ∧ field b 3 2 + field b 5 2 ≤ (s.tile t).width
    ((s.flat t).state = .clearing → takeFlatRead b s = .refuse s .state)
      ∧ ((s.flat t).state ≠ .clearing → ¬inside → takeFlatRead b s = .refuse s .range)
      ∧ ((s.flat t).state ≠ .clearing → inside →
          takeFlatRead b s = .okWith s (s.flatReadBytes t (field b 3 2) (field b 1 2) (field b 5 2))) := by
  intro inside
  unfold takeFlatRead
  rw [tileOf_eq_some ht]
  simp only [covers_iff]
  refine ⟨fun hclearing => if_pos hclearing, fun hstate hout => ?_, fun hstate hin => ?_⟩
  · rw [if_neg hstate, if_neg hout]
  · rw [if_neg hstate, if_pos hin]

theorem execFlatRead_of {s : State} {p : PortId} {f : CtlFrame} (hhead : s.Heads p f 0x32#8 7) {u : State} {r : Result}
    {d : List Byte} (howner : takeFlatRead f.payload s = ⟨u, r, d⟩) : exec (.flatRead p) s = .next (u.respond p f r d) :=
  command_runs takeFlatRead hhead (by decide) (by decide) howner

/-- Settles O25: the owner's tests in their order, and the data part value by value. -/
theorem flatReadReturnsTheEntries : Obligations.FlatReadReturnsTheEntries := by
  intro s p f hhead b v u0 count
  refine ⟨fun hbad => execFlatRead_of hhead (takeFlatRead_badTile hbad s), fun t ht => ?_⟩
  obtain ⟨hclearing, hrange, hread⟩ := takeFlatRead_eq ht s
  refine ⟨fun hs => execFlatRead_of hhead (hclearing hs), fun hs hout => execFlatRead_of hhead (hrange hs hout),
    fun hs hin => ?_⟩
  rw [execFlatRead_of hhead (hread hs hin)]
  simp only [State.flatReadBytes, State.readFlat_toNat hs, b, v, u0, count]

end Sys2Proof.Machine
end

section
/-! SUPPORT. The start of a row: its bias, the copies it takes, and the step ROW_START (R8, R43 to R46, R75, R87). -/

namespace Sys2Proof.Machine

/-! ## The row bias (R45) -/

/-- In a row of its full length the usable overscan is read off place by place, behind the image samples and the skip (R45). -/
theorem usableOverscan_eq {r : SegRec} {samples : List Sample} (h : samples.length = r.width + r.overscan) :
    usableOverscan r samples
      = (List.range (r.overscan - r.skip)).map fun j => samples.getD (r.width + r.skip + j) 0#18 := by
  apply List.ext_getElem
  · simp [usableOverscan, h]
  · intro j hj _
    have hin : r.width + (r.skip + j) < samples.length := by
      simp [usableOverscan, h] at hj
      omega
    simp [usableOverscan, Nat.add_assoc, hin]

/-- A row with usable overscan has the rounded mean of its samples, in sixteenths, for its bias (R45). -/
theorem rowBias_of_usable {r : SegRec} {samples : List Sample} (h : samples.length = r.width + r.overscan)
    (huse : r.skip < r.overscan) :
    rowBias r samples
      = some (roundDiv
          (16 * ((List.range (r.overscan - r.skip)).map fun j =>
            ((samples.getD (r.width + r.skip + j) 0#18).toNat : Int)).sum)
          ((r.overscan : Int) - r.skip)) := by
  rw [rowBias, if_pos huse, usableOverscan_eq h, List.map_map, Int.ofNat_sub (Nat.le_of_lt huse)]
  rfl

theorem rowBias_of_unusable {r : SegRec} (h : r.overscan ≤ r.skip) (samples : List Sample) : rowBias r samples = none :=
  if_neg (Nat.not_lt.2 h)

/-! ## The running estimate (R46) -/

/-- A floor division by 1 or more leads towards 0 and not past it. -/
theorem floorDiv_between (d : Int) {c : Int} (hc : 0 < c) : min 0 d ≤ floorDiv d c ∧ floorDiv d c ≤ max 0 d := by
  unfold floorDiv
  rcases Int.lt_or_le d 0 with hd | hd
  · have hpast : d * c ≤ d * 1 := Int.mul_le_mul_of_nonpos_left (Int.le_of_lt hd) hc
    have hlow : d ≤ d / c := (Int.le_ediv_iff_mul_le hc).2 (by omega)
    have hhigh : d / c < 0 := Int.ediv_neg_of_neg_of_pos hd hc
    omega
  · have hlow : 0 ≤ d / c := Int.ediv_nonneg hd (Int.le_of_lt hc)
    have hhigh : d / c ≤ d := Int.ediv_le_self c hd
    omega

/-- An estimate and a row bias: the estimate moves by the part of the difference that the shift gives (R46). -/
theorem settleBias_of_both (r : SegRec) (e b : Int) :
    settleBias r (some e) (some b) = (some (e + floorDiv (b - e) (2 ^ r.shift)), e + floorDiv (b - e) (2 ^ r.shift)) := by
  simp [settleBias]

/-- The new estimate lies between the old one and the row's, and is the row's at shift 0 (R46). -/
theorem estimate_between (r : SegRec) (e b : Int) :
    let n := e + floorDiv (b - e) (2 ^ r.shift)
    min e b ≤ n ∧ n ≤ max e b ∧ (r.shift = 0 → n = b) := by
  intro n
  obtain ⟨hlow, hhigh⟩ := floorDiv_between (b - e) (c := 2 ^ r.shift) (Int.pow_pos (by decide))
  refine ⟨by omega, by omega, fun hshift => ?_⟩
  have hwhole : floorDiv (b - e) (2 ^ r.shift) = b - e := by
    rw [hshift, Int.pow_zero, floorDiv, Int.ediv_one]
  omega

/-! ## The samples and their flat entries (R8, R43, R44) -/

theorem rowPlan_length (m : FlatMap) (r : SegRec) (row : Nat) (samples : List Sample) :
    (rowPlan m r row samples).length = min r.width samples.length := by
  simp [rowPlan]

/-- Each image sample stands at its place with the flat entry of its tile pixel (R8, R43, R44). -/
theorem rowPlan_getElem? (m : FlatMap) (r : SegRec) (row : Nat) (samples : List Sample) {k : Nat}
    (h : k < (rowPlan m r row samples).length) :
    (rowPlan m r row samples)[k]? = some (samples.getD k 0#18, m.entry (r.column k) (r.tileRow row)) := by
  have hk : k < r.width ∧ k < samples.length := by
    rw [rowPlan_length] at h
    omega
  obtain ⟨hwidth, hlength⟩ := hk
  simp [rowPlan, hwidth, hlength]

/-! ## The step ROW_START (R43, R75, R87) -/

theorem execRowStart_of_row {s : State} {p : PortId} {w : TakenRow} {rest : List TakenRow} {q : Placement}
    (hidle : s.lane p = none) (htaken : (s.port p).taken = w :: rest) (hplace : s.placements.nth w.tile = some q) :
    exec (.rowStart p) s = .next (s.startRow p w rest q) := by
  simp [exec, execRowStart, hidle, htaken, hplace]

theorem execRowStart_of_busy {s : State} {p : PortId} (h : s.lane p ≠ none) : exec (.rowStart p) s = .next s := by
  obtain ⟨l, hbusy⟩ := Option.ne_none_iff_exists'.1 h
  simp [exec, execRowStart, hbusy]

theorem execRowStart_of_noRow {s : State} {p : PortId} (h : (s.port p).taken = []) : exec (.rowStart p) s = .next s := by
  cases hlane : s.lane p with
  | none => simp [exec, execRowStart, hlane, h]
  | some l => exact execRowStart_of_busy (by simp [hlane])

/-- Settles O29: the row bias, the four cases of the estimate, and the start of a row with the plan of its samples. -/
theorem rowStartSettlesBiasAndBinds : Obligations.RowStartSettlesBiasAndBinds := by
  refine ⟨fun r samples hlen => ⟨rowBias_of_usable hlen, fun hskip => rowBias_of_unusable hskip samples, fun _ => rfl,
    fun e b => ⟨settleBias_of_both r e b, estimate_between r e b⟩, fun _ => rfl, rfl⟩,
    fun s p => ⟨fun w rest q hidle htaken hplace => ?_, ?_⟩⟩
  · intro r i bias
    refine ⟨rowPlan (s.flat w.tile) r w.row w.samples, ?_, rowPlan_length _ _ _ _, fun k hk => rowPlan_getElem? _ _ _ _ hk⟩
    rw [execRowStart_of_row hidle htaken hplace]
    rfl
  · rintro (hbusy | hnone)
    · exact execRowStart_of_busy hbusy
    · exact execRowStart_of_noRow hnone

end Sys2Proof.Machine
end

section
/-! SUPPORT. The calibration of a pixel (R49 to R54). -/

namespace Sys2Proof.Machine

/-- The flat value as a number: unity when the flat was UNLOADED at the row's start (R50). -/
theorem flatValue_toNat (st : FlatState) (entry : Flat) :
    (flatValue st entry).toNat = if st = .unloaded then 16384 else entry.toNat := by
  unfold flatValue
  split <;> rfl

/-- The clamp cuts at both ends of the range (R53). -/
theorem clamp_eq (c : Int) : clamp c = max (-134217728) (min c 134217727) := by
  unfold clamp calMin calMax
  split
  · omega
  · split <;> omega

/-- The clamp changes the values outside the range and no other: the condition CLIP (R53). -/
theorem clamp_ne_iff (c : Int) : clamp c ≠ c ↔ c < -134217728 ∨ 134217727 < c := by
  rw [clamp_eq]
  omega

theorem Lane.pixel_of_saturated {l : Lane} {a : Sample} (h : l.seg.satThreshold ≤ a.toNat) (entry : Flat) :
    l.pixel a entry = .sat := if_pos h

/-- Below the saturation threshold a flat value of 0 makes the pixel DEF (R49, R50). -/
theorem Lane.pixel_of_defect {l : Lane} {a : Sample} {entry : Flat} (h : a.toNat < l.seg.satThreshold)
    (hflat : flatValue l.flatState entry = 0#16) : l.pixel a entry = .defect := by
  simp only [Lane.pixel]
  rw [if_neg (Nat.not_le.2 h), if_pos hflat]

/-- Any other pixel has a value, and its flags are told from that value before and after the clamp (R51 to R54). -/
theorem Lane.pixel_of_value {l : Lane} {a : Sample} {entry : Flat} (h : a.toNat < l.seg.satThreshold)
    (hflat : flatValue l.flatState entry ≠ 0#16) :
    let c := calibrated a l.bias l.seg.gain (flatValue l.flatState entry)
    l.pixel a entry = .value (clamp c) (decide (clamp c ≠ c)) (decide (clamp c < l.seg.lowThreshold)) := by
  simp only [Lane.pixel]
  rw [if_neg (Nat.not_le.2 h), if_neg hflat]

/-- Settles O30: the two conditions without a value, then the value with the clamp and the flat value read as numbers. -/
theorem pixelsAreCalibratedExactly : Obligations.PixelsAreCalibratedExactly := by
  intro l a entry F c v
  have hF : (flatValue l.flatState entry).toNat = F := flatValue_toNat _ _
  have hzero : flatValue l.flatState entry = 0#16 ↔ F = 0 := by
    rw [← hF, ← BitVec.toNat_inj]
    rfl
  have hc : calibrated a l.bias l.seg.gain (flatValue l.flatState entry) = c := by
    rw [calibrated, hF]
    rfl
  refine ⟨fun hsat => Lane.pixel_of_saturated hsat entry, fun hlow hdef => Lane.pixel_of_defect hlow (hzero.2 hdef),
    fun hlow hval => ?_⟩
  rw [Lane.pixel_of_value hlow (mt hzero.1 hval), hc]
  simp only [clamp_ne_iff]
  rw [clamp_eq]

end Sys2Proof.Machine
end

section
/-! SUPPORT. The epochs of the banks along every step (R68, R71, R76, R78). -/

namespace Sys2Proof.Machine

/-! ## Rows, snaps and visits -/

/-- An arrival and the judgement of the snap after it keep the epochs lawful (R21, R108). -/
theorem State.EpochsOk.arrive {s : State} (h : s.EpochsOk) (hb : s.BanksOk) (p : PortId) (hd : RowHeader) (crcGood : Bool)
    (samples : List Sample) : (s.arrive p hd crcGood samples).EpochsOk := by
  unfold State.arrive
  split
  · exact h.of_eq (by simp)
  · exact State.EpochsOk.judgeSnap (h.of_eq (by simp)) (hb.applyDecision p hd samples _ _ _)

theorem State.EpochsOk.endRowFrame {s : State} (h : s.EpochsOk) (hb : s.BanksOk) (p : PortId) (hd : RowHeader) (len : Nat)
    (received : List Byte) : (s.endRowFrame p hd len received).EpochsOk := by
  unfold State.endRowFrame
  split
  · exact h.of_eq (by simp)
  · refine State.EpochsOk.arrive (h.of_eq ?_) (hb.of_eq ?_ ?_ ?_ ?_) p hd _ _ <;> simp

/-- The start of a row adds a deposit hold to its bank, and no more (R75). -/
theorem State.EpochsOk.startRow {s : State} (h : s.EpochsOk) (p : PortId) (w : TakenRow) (rest : List TakenRow)
    (q : Placement) : (s.startRow p w rest q).EpochsOk := by
  unfold State.startRow
  dsimp only
  refine State.EpochsOk.updBank ?_ _ _ (fun _ => rfl) rfl rfl Iff.rfl id
  exact h.of_eq rfl

theorem State.EpochsOk.stallTile {s : State} (h : s.EpochsOk) (hb : s.BanksOk) (t : TileId) : (s.stallTile t).EpochsOk := by
  unfold State.stallTile
  split
  · exact State.EpochsOk.judgeSnap (h.of_eq rfl) (hb.endTile t .stalled)
  · exact h.of_eq rfl

theorem State.EpochsOk.drainExpires {s : State} (h : s.EpochsOk) (hb : s.BanksOk) : s.drainExpires.EpochsOk := by
  unfold State.drainExpires
  split
  · exact h.drain.judgeSnap (hb.stopDrain.cutTiles _)
  · exact h.of_eq rfl

theorem State.EpochsOk.quarantineNow {s : State} (h : s.EpochsOk) (hb : s.BanksOk) (t : TileId) :
    (s.quarantineNow t).EpochsOk := by
  unfold State.quarantineNow
  split
  · exact State.EpochsOk.judgeSnap (h.of_eq rfl) (hb.endTile t .quarantined)
  · exact h

/-- The bank of an aborted visit is FILLING, so no scrub of it is cut short (R74, R114). -/
theorem State.EpochsOk.abortVisit {s : State} (h : s.EpochsOk) (b : BankId) (hfilling : (s.bank b).state = .filling) :
    (s.abortVisit b).EpochsOk := by
  have hended : (s.endOpenVisit b).EpochsOk := h.of_eq rfl
  have hretired : ((s.endOpenVisit b).retire b).EpochsOk := hended.retire b (by
    change (s.bank b).state ≠ .scrubbing
    simp [hfilling])
  rw [State.abortVisit_eq]
  exact hretired.of_eq (by simp)

/-- The bank of a visit that is withdrawn is CLOSED (R115). -/
theorem State.EpochsOk.withdrawVisit {s : State} (h : s.EpochsOk) (b : BankId) (hclosed : (s.bank b).state = .closed) :
    (s.withdrawVisit b).EpochsOk := by
  unfold State.withdrawVisit
  dsimp only
  refine State.EpochsOk.retire ?_ b ?_
  · exact h.of_eq rfl
  · change (s.bank b).state ≠ .scrubbing
    simp [hclosed]

/-! ## Passes -/

theorem State.EpochsOk.askRestart {s : State} (h : s.EpochsOk) (hw : s.WaitingClosed) : s.askRestart.EpochsOk := by
  unfold State.askRestart
  split
  · exact h.restartPass.autoStart (State.WaitingClosed.seek (s := s.resetPass s.resolve.passBank) _ hw)
  · exact h.of_eq rfl

theorem State.EpochsOk.endPass {s : State} (h : s.EpochsOk) : s.endPass.EpochsOk := by
  unfold State.endPass
  exact State.EpochsOk.releaseBank (s := s.updResolve _) (h.of_eq rfl) _

theorem State.EpochsOk.askEnd {s : State} (h : s.EpochsOk) (hw : s.WaitingClosed) : s.askEnd.EpochsOk := by
  unfold State.askEnd
  split
  · exact h.endPass.autoStart hw.endPass
  · exact h.of_eq rfl

/-- The row in transmission leaves PX, sent or cut (R145). -/
theorem State.EpochsOk.rowLeaves {s : State} (h : s.EpochsOk) (hw : s.WaitingClosed) (f : PrdFrame) (counters : PxCounters) :
    ((s.updPx fun x => { x with lane := none, counters := counters }).rowSent f).EpochsOk :=
  State.EpochsOk.rowSent (s := s.updPx _) (h.of_eq rfl) hw f

theorem State.EpochsOk.pxDown {s : State} (h : s.EpochsOk) (hw : s.WaitingClosed) : s.pxDown.EpochsOk := by
  unfold State.pxDown
  dsimp only
  have hdown : (s.truncatePx.updPx fun x => { x with link := .down, credits := 0 }).latchLinkDown.EpochsOk :=
    h.of_eq (by simp)
  have hwaiting : (s.truncatePx.updPx fun x => { x with link := .down, credits := 0 }).latchLinkDown.WaitingClosed := by
    simpa [State.WaitingClosed, State.bank] using hw
  unfold State.cutRow
  split
  · exact hdown
  · exact hdown.rowLeaves hwaiting _ _

/-! ## The steps -/

/-- POWER_ON leaves a canvas without cells, and both banks FREE with epoch 0 (R82). -/
theorem State.powerOn_epochsOk (s : State) :
    ({ State.reset with canvas := { Canvas.reset with powerOns := s.canvas.powerOns + 1 }, pending := s.pending } :
      State).EpochsOk := fun b => by
  obtain ⟨hfree, hquiet, hscrub⟩ := State.reset_epochsOk b
  exact ⟨hfree, fun hstate => ⟨(hquiet hstate).1, fun place hplace => absurd hplace (Nat.not_lt_zero place)⟩,
    fun hstate => absurd (hscrub hstate).2.1 (Nat.not_lt_zero _)⟩

/-- Every command keeps the epochs lawful. -/
theorem OwnerEffect.epochsOk {s u : State} (h : OwnerEffect s u) (hb : s.BanksOk) (hs : s.EpochsOk) : u.EpochsOk := by
  have hw : s.WaitingClosed := hb.waitingClosed
  cases h with
  | stays => exact hs
  | engineRest => exact hs.engineRest
  | quarantine t =>
    exact State.EpochsOk.quarantineNow (s := s.setQuarantine t true) (hs.of_eq rfl) (hb.of_eq rfl rfl rfl rfl) t
  | setCanvas w h hfree0 hfree1 => exact hs.setCanvas w h hfree0 hfree1
  | openVisit tag expected b _ _ _ hfree => exact hs.openVisit tag expected b hfree
  | openSnap sx sy hbetween => exact State.EpochsOk.judgeSnap (hs.of_eq rfl) (hb.openSnap hbetween sx sy)
  | closeVisit hbetween =>
    obtain ⟨⟨-, hfilling, -⟩, -⟩ := hb
    exact hs.closeVisit hw ((hfilling _).2 ⟨by simp [hbetween], rfl⟩)
  | abortVisit b hfilling => exact hs.abortVisit b hfilling
  | withdrawVisit b hclosed => exact hs.withdrawVisit b hclosed
  | setResolve f => exact State.EpochsOk.autoStart (s := s.setResolve f) (hs.of_eq rfl) hw
  | openPass b _ hbank =>
    have hquiet : (s.bank b).state ≠ .scrubbing := by rcases hbank with hb | hb <;> simp [hb]
    exact (hs.openPass b hquiet).autoStart (hw.openPass b)
  | askRestart => exact hs.askRestart hw
  | askEnd => exact hs.askEnd hw
  | retire b hresolved => exact hs.retire b (by simp [hresolved])
  | setStatus | setIntake | setTile | setSeg | restore | startClear | writeFlat | beginDrain | setProduct =>
    exact hs.of_eq rfl

/-- Every step's effect keeps the epochs lawful. -/
theorem StepEffect.epochsOk {s t : State} (h : StepEffect s t) (hb : s.BanksOk) (hs : s.EpochsOk) : t.EpochsOk := by
  have hw : s.WaitingClosed := hb.waitingClosed
  cases h with
  | stays => exact hs
  | powerOn => exact s.powerOn_epochsOk
  | pxDown => exact hs.pxDown hw
  | endRowFrame p hd len received => exact (hs.endRowFrame hb p hd len received).of_eq (by simp)
  | command p f u r data _ howner => exact (howner.epochsOk hb hs).of_eq (by simp)
  | stallTile t => exact hs.stallTile hb t
  | drainExpires => exact hs.drainExpires hb
  | startRow p w rest q => exact hs.startRow p w rest q
  | nextPixel p l => exact hs.nextPixel hb p l
  | finishClear => exact hs.of_eq rfl
  | scrubNext b hscrubbing => exact hs.scrubNext b hscrubbing
  | rowLeaves f => exact hs.rowLeaves hw f _
  | lineUp | lineFall | pxLineUp | startFrame | startPxFrame | idleLine | idlePxLine | ingressHeader | pxHeader | endCtlFrame
  | endRest | endPxFrame | finishReturnFrame | egressExpires => exact hs.of_eq (by simp)

/-- Settles O58: the law of visits, banks and passes says which bank each effect moves, and of the commands none moves a bank
that is SCRUBBING. -/
theorem stepKeepsEpochsLawful : Obligations.StepKeepsEpochsLawful := fun _ _ hb hs h =>
  (step_keeps (P := fun u => u.BanksOk ∧ u.EpochsOk)
    (fun _ _ ⟨hb, hs⟩ => ⟨hb.of_eq rfl rfl rfl rfl, hs.of_eq rfl⟩)
    (fun _ _ ⟨hb, hs⟩ heffect => ⟨heffect.banksOk hb, heffect.epochsOk hb hs⟩) ⟨hb, hs⟩ h).2

end Sys2Proof.Machine
end

section
/-! SUPPORT. The canvas memory's own transitions: a RETIRING bank that has no hold left, the start of a scrub, its writes and
CANVAS_SET (R66, R74, R75, R78). -/

namespace Sys2Proof.Machine

/-! ## Bank updates -/

@[simp] theorem State.bank_updBank_same (s : State) (b : BankId) (f : Bank → Bank) :
    (s.updBank b f).bank b = f (s.bank b) := by
  simp [State.bank]

/-- Two updates of one bank are one. -/
theorem State.updBank_updBank (s : State) (b : BankId) (f g : Bank → Bank) :
    (s.updBank b f).updBank b g = s.updBank b fun k => g (f k) := by
  simp [State.updBank, Tab.modify, Tab.put_put]

/-! ## The start of a scrub, and the end of RETIRING -/

/-- On a canvas with cells a scrub goes on from its start (R78). -/
theorem State.startScrub_of_cells {s : State} (hcells : 0 < s.canvas.width * s.canvas.height) (b : BankId) :
    s.startScrub b = s.updBank b fun k => { k with state := .scrubbing, epoch := 0, scrubPos := 0 } := by
  rw [State.startScrub, if_neg (Nat.ne_of_gt hcells)]

/-- On a canvas without cells a scrub ends at its start (log 12). -/
theorem State.startScrub_of_noCells {s : State} (hnone : s.canvas.width * s.canvas.height = 0) (b : BankId) :
    s.startScrub b = s.updBank b fun k => { k with state := .free, epoch := 0, scrubPos := 0 } := by
  rw [State.startScrub, if_pos hnone]

theorem State.leaveRetiring_of_low {s : State} {b : BankId} (hstate : (s.bank b).state = .retiring)
    (hdeposit : (s.bank b).depositHolds = 0) (hread : (s.bank b).readHold = false) (hepoch : (s.bank b).epoch ≠ 255#8) :
    s.leaveRetiring b = s.updBank b fun k => { k with state := .free } := by
  rw [State.leaveRetiring, if_pos ⟨hstate, hdeposit, hread⟩, if_neg hepoch]

theorem State.leaveRetiring_of_last {s : State} {b : BankId} (hstate : (s.bank b).state = .retiring)
    (hdeposit : (s.bank b).depositHolds = 0) (hread : (s.bank b).readHold = false) (hepoch : (s.bank b).epoch = 255#8) :
    s.leaveRetiring b = s.startScrub b := by
  rw [State.leaveRetiring, if_pos ⟨hstate, hdeposit, hread⟩, if_pos hepoch]

theorem State.leaveRetiring_of_stays {s : State} {b : BankId}
    (h : (s.bank b).state ≠ .retiring ∨ (s.bank b).depositHolds ≠ 0 ∨ (s.bank b).readHold = true) :
    s.leaveRetiring b = s := by
  refine if_neg fun ⟨hstate, hdeposit, hread⟩ => ?_
  rcases h with h | h | h
  · exact h hstate
  · exact h hdeposit
  · simp [h] at hread

/-- Settles O28: a bank without holds leaves by its epoch, and any other stays. -/
theorem retiringBankLeavesWithoutHolds : Obligations.RetiringBankLeavesWithoutHolds := by
  intro s b k put
  refine ⟨fun hstate hdeposit hread hepoch => State.leaveRetiring_of_low hstate hdeposit hread hepoch,
    fun hstate hdeposit hread hepoch hcells => ?scrubs, fun hstate hdeposit hread hepoch hnone => ?ends,
    State.leaveRetiring_of_stays, rfl⟩
  case scrubs =>
    rw [State.leaveRetiring_of_last hstate hdeposit hread hepoch, State.startScrub_of_cells hcells]
    rfl
  case ends =>
    rw [State.leaveRetiring_of_last hstate hdeposit hread hepoch, State.startScrub_of_noCells hnone]
    rfl

/-! ## CANVAS_SET -/

/-- A new geometry, which has cells, begins the scrub of both banks (R66). -/
theorem State.setCanvas_eq (s : State) {w h : Nat} (hw : 1 ≤ w) (hh : 1 ≤ h) :
    s.setCanvas w h
      = { s with canvas := { s.canvas with
          width := w, height := h
          banks := s.canvas.banks.map fun k => { k with state := .scrubbing, epoch := 0, scrubPos := 0 } } } := by
  have hcells : 0 < w * h := Nat.mul_pos hw hh
  have hbanks : ∀ f : Bank → Bank, (s.canvas.banks.modify 0 f).modify 1 f = s.canvas.banks.map f := fun f =>
    Tab.ext_nth (forall_bank_iff.2 ⟨by simp, by simp⟩)
  rw [State.setCanvas, State.startScrub_of_cells hcells, State.startScrub_of_cells hcells, ← hbanks]
  rfl

/-- CANVAS_SET's owner: the two bank states, then the two sizes (R66). -/
theorem takeCanvasSet_eq (b : List Byte) (s : State) :
    let bothFree := ∀ k : BankId, (s.bank k).state = .free
    let inRange := 1 ≤ field b 0 2 ∧ field b 0 2 ≤ 16384 ∧ 1 ≤ field b 2 2 ∧ field b 2 2 ≤ 16384
    (¬bothFree → takeCanvasSet b s = .refuse s .state)
      ∧ (bothFree → ¬inRange → takeCanvasSet b s = .refuse s .range)
      ∧ (bothFree → inRange → takeCanvasSet b s = .ok (s.setCanvas (field b 0 2) (field b 2 2))) := by
  intro bothFree inRange
  have hbusy : (s.bank 0).state ≠ .free ∨ (s.bank 1).state ≠ .free ↔ ¬bothFree := by
    rw [show bothFree ↔ _ from forall_bank_iff, Decidable.not_and_iff_not_or_not]
  unfold takeCanvasSet
  simp only [hbusy]
  refine ⟨fun hnot => if_pos hnot, fun hfree hbad => ?_, fun hfree hgood => ?_⟩
  · rw [if_neg (not_not_intro hfree), if_neg hbad]
  · rw [if_neg (not_not_intro hfree), if_pos hgood]

theorem execCanvasSet_of {s : State} {p : PortId} {f : CtlFrame} (hhead : s.Heads p f 0x40#8 4) {u : State} {r : Result}
    {d : List Byte} (howner : takeCanvasSet f.payload s = ⟨u, r, d⟩) :
    exec (.canvasSet p) s = .next (u.respond p f r d) :=
  command_runs takeCanvasSet hhead (by decide) (by decide) howner

/-! ## SCRUB_CELL_WRITE -/

/-- A write of a scrub with a place left after its own (R78). -/
theorem State.scrubNext_of_more {s : State} {b : BankId}
    (hmore : (s.bank b).scrubPos + 1 < s.canvas.width * s.canvas.height) :
    s.scrubNext b
      = s.updBank b fun k =>
          { k with cells := Store.insert k.cells (s.bank b).scrubPos (.empty 0), scrubPos := k.scrubPos + 1 } := by
  rw [State.scrubNext, if_neg (Nat.not_le.2 hmore), State.writeCell_eq, State.updBank_updBank]

/-- The last write of a scrub (R78). -/
theorem State.scrubNext_of_last {s : State} {b : BankId}
    (hlast : s.canvas.width * s.canvas.height ≤ (s.bank b).scrubPos + 1) :
    s.scrubNext b
      = s.updBank b fun k =>
          { k with cells := Store.insert k.cells (s.bank b).scrubPos (.empty 0), state := .free, scrubPos := 0 } := by
  rw [State.scrubNext, if_pos hlast, State.writeCell_eq, State.updBank_updBank]

/-- Settles O26: the command's tests in their order, and a scrub's write by the places that are left. -/
theorem canvasIsSetAndScrubbed : Obligations.CanvasIsSetAndScrubbed := by
  refine ⟨fun s p f hhead => ?command, fun s b => ?scrub⟩
  case command =>
    intro w h bothFree inRange
    obtain ⟨hbusy, hrange, hset⟩ := takeCanvasSet_eq f.payload s
    refine ⟨fun hnot => execCanvasSet_of hhead (hbusy hnot), fun hfree hbad => execCanvasSet_of hhead (hrange hfree hbad),
      fun hfree hgood => ?_⟩
    have hanswer := execCanvasSet_of hhead (hset hfree hgood)
    obtain ⟨hw, -, hh, -⟩ := hgood
    rwa [s.setCanvas_eq hw hh] at hanswer
  case scrub =>
    intro k empty cells put
    have hwrites : k.state = .scrubbing → exec (.scrubCellWrite b) s = .next (s.scrubNext b) := fun hstate => if_pos hstate
    refine ⟨fun hstate hmore => ?_, fun hstate hlast => ?_, fun hstate => if_neg hstate, fun place c => ?_⟩
    · rw [hwrites hstate, State.scrubNext_of_more hmore]
      rfl
    · rw [hwrites hstate, State.scrubNext_of_last hlast]
      rfl
    · have hput : put { k with cells := Store.insert k.cells place c } = s.writeCell b place c := rfl
      rw [hput]
      refine ⟨?_, fun o other hother => ?_⟩
      · rw [State.cellAt_writeCell, if_pos ⟨rfl, rfl⟩]
      · rw [State.cellAt_writeCell, if_neg]
        rintro ⟨rfl, rfl⟩
        simp at hother

end Sys2Proof.Machine
end

section
/-! SUPPORT. The reads of the canvas memory, CELL_PEEK (R80, R184, R186). -/

namespace Sys2Proof.Machine

/-- A stored mask holds SAT, DEF, CLIP and LOW from bit 0, and nothing above them (R184). -/
theorem CellMask.byte_bit (m : CellMask) (i : Fin 8) :
    m.byte.getLsbD i.val = [m.sat, m.defect, m.clip, m.low, false, false, false, false][i] :=
  packBits_eight m.sat m.defect m.clip m.low false false false false i

/-- The three entries of a table of three. -/
theorem Tab.toList_three {α : Type} (v : Tab 3 α) : v.toList = [v.nth 0, v.nth 1, v.nth 2] := Tab.toList_eq_ofFn v

theorem takeCellPeek_badBank {b : List Byte} (h : 2 ≤ field b 0 1) (s : State) : takeCellPeek b s = .refuse s .range := by
  rw [takeCellPeek, bankOf_eq_none h]

/-- CELL_PEEK's owner: the place, in every state of the bank (R80). -/
theorem takeCellPeek_eq {b : List Byte} {k : BankId} (hk : field b 0 1 = k.val) (s : State) :
    takeCellPeek b s
      = if field b 1 2 < s.canvas.width ∧ field b 3 2 < s.canvas.height then
          .okWith s (peekBytes k (field b 1 2) (field b 3 2) (s.bank k).epoch
            (s.cellAt k (s.place (field b 1 2) (field b 3 2))))
        else .refuse s .range := by
  rw [takeCellPeek, bankOf_eq_some hk]

/-- The data part of CELL_PEEK with its three slots one after another (R186). -/
theorem peekBytes_eq (k : BankId) (x y : Nat) (epoch : BitVec 8) (c : Cell) :
    let slotBytes : SlotId → List Byte := fun i =>
      beBytes 6 (c.slots.nth i).flux.toNat ++ beBytes 2 (c.slots.nth i).weight.toNat
    peekBytes k x y epoch c
      = beBytes 1 k.val ++ beBytes 2 x ++ beBytes 2 y ++ [epoch, if c.epoch = epoch then 1 else 0, c.epoch, c.mask.byte]
          ++ slotBytes 0 ++ slotBytes 1 ++ slotBytes 2 := by
  have hcurrent : yesNo (c.epoch == epoch) = if c.epoch = epoch then 1 else 0 := by
    simp [yesNo]
  simp [peekBytes, hcurrent, beBytes_one, Tab.toList_three]

theorem execCellPeek_of {s : State} {p : PortId} {f : CtlFrame} (hhead : s.Heads p f 0x41#8 5) {u : State} {r : Result}
    {d : List Byte} (howner : takeCellPeek f.payload s = ⟨u, r, d⟩) : exec (.cellPeek p) s = .next (u.respond p f r d) :=
  command_runs takeCellPeek hhead (by decide) (by decide) howner

/-- Settles O27: the bank's number, then the place, then the record with its mask and slots byte by byte. -/
theorem cellPeekReturnsTheRecord : Obligations.CellPeekReturnsTheRecord := by
  intro s p f hhead x y
  refine ⟨fun hbad => execCellPeek_of hhead (takeCellPeek_badBank hbad s), fun b hb => ?_⟩
  intro c slotBytes
  have howner := takeCellPeek_eq hb s
  refine ⟨c.mask.byte_bit, fun hout => ?off, fun hx hy => ?on⟩
  case off =>
    rw [if_neg (by omega)] at howner
    exact execCellPeek_of hhead howner
  case on =>
    rw [if_pos ⟨hx, hy⟩, peekBytes_eq] at howner
    exact execCellPeek_of hhead howner

end Sys2Proof.Machine
end

section
/-! SUPPORT. The deposit of a pixel into one of its targets (R67, R68, R89 to R92). -/

namespace Sys2Proof.Machine

theorem State.onCanvas_iff (s : State) (x y : Int) :
    s.onCanvas x y = true ↔ 0 ≤ x ∧ x < s.canvas.width ∧ 0 ≤ y ∧ y < s.canvas.height := by
  simp [State.onCanvas, and_assoc]

/-- A cell as read has the bank's epoch (R68). -/
theorem Cell.asRead_epoch (epoch : BitVec 8) (c : Cell) : (c.asRead epoch).epoch = epoch := by
  unfold Cell.asRead
  split
  · assumption
  · rfl

/-- The weights of a slot add as numbers of 16 bits (R67, R91). -/
theorem Slot.add_eq (k : Slot) (v : Int) (w : Nat) :
    k.add v w = { flux := BitVec.ofInt 48 (k.flux.toInt + v * w), weight := BitVec.ofNat 16 (k.weight.toNat + w) } := by
  rw [Slot.add, BitVec.ofNat_add, BitVec.ofNat_toNat, BitVec.setWidth_eq]

/-- A value deposited into a cell, field by field (R91, R92). -/
theorem depositInto_value (epoch : BitVec 8) (slot : SlotId) (v : Int) (clip low : Bool) (w : Nat) (c : Cell) :
    depositInto epoch slot (.value v clip low) w c
      = { epoch := epoch
          mask := { (c.asRead epoch).mask with
            clip := (c.asRead epoch).mask.clip || clip, low := (c.asRead epoch).mask.low || low }
          slots := (c.asRead epoch).slots.put slot (((c.asRead epoch).slots.nth slot).add v w) } := by
  simp only [depositInto, Tab.modify, Cell.asRead_epoch]

/-! ## The target's cases (R89, R90) -/

section
variable {x : Context} {t : TileId} {kind : PixelKind} {s : State} {g : Target}

theorem State.depositTarget_of_weightless (hweight : g.weight = 0) : State.depositTarget x t kind s g = s := if_pos hweight

/-- On the canvas the target is one cell of the row's bank (R89, R91). -/
theorem State.depositTarget_of_on (hweight : g.weight ≠ 0) (hon : s.onCanvas g.x g.y = true) :
    State.depositTarget x t kind s g
      = s.writeCell x.bank (s.place g.x.toNat g.y.toNat)
          (depositInto (s.bank x.bank).epoch x.slot kind g.weight (s.cellAt x.bank (s.place g.x.toNat g.y.toNat))) := by
  rw [State.depositTarget, if_neg hweight, if_pos hon]

/-- Off the canvas the target is spill, or nothing when the row is no longer counted (R90, R96). -/
theorem State.depositTarget_of_off (hweight : g.weight ≠ 0) (hoff : ¬s.onCanvas g.x g.y = true) :
    State.depositTarget x t kind s g
      = if x.counting then s.updRecord t fun r => { r with spilled := r.spilled + g.weight } else s := by
  rw [State.depositTarget, if_neg hweight, if_neg hoff]

end

/-- Settles O33: the three cases of a target, and on the canvas what each kind of pixel leaves in the cell. -/
theorem targetsAreDepositedOrSpilled : Obligations.TargetsAreDepositedOrSpilled := by
  intro s x t kind g u onCanvas place epoch old read
  have hcanvas : s.onCanvas g.x g.y = true ↔ onCanvas := s.onCanvas_iff g.x g.y
  refine ⟨State.depositTarget_of_weightless, fun hweight hon => ?on, fun hweight hoff hcounted => ?spill,
    fun hweight hoff huncounted => ?gone⟩
  case on =>
    have hu : u = s.writeCell x.bank place (depositInto epoch x.slot kind g.weight old) :=
      State.depositTarget_of_on hweight (hcanvas.2 hon)
    have hcell : u.cellAt x.bank place = depositInto epoch x.slot kind g.weight old := by
      rw [hu, State.cellAt_writeCell, if_pos ⟨rfl, rfl⟩]
    refine ⟨⟨_, hu⟩, fun o other hother => ?_, fun hkind => ?_, fun hkind => ?_, fun v clip low hkind => ?_⟩
    · rw [hu, State.cellAt_writeCell, if_neg]
      rintro ⟨rfl, rfl⟩
      simp at hother
    · rw [hcell, hkind]
      rfl
    · rw [hcell, hkind]
      rfl
    · rw [hcell, hkind, depositInto_value, Slot.add_eq]
      rfl
  case spill => exact (State.depositTarget_of_off hweight (mt hcanvas.1 hoff)).trans (if_pos hcounted)
  case gone => exact (State.depositTarget_of_off hweight (mt hcanvas.1 hoff)).trans (if_neg (by simp [huncounted]))

end Sys2Proof.Machine
end

section
/-! SUPPORT. The start of a visit, VISIT_OPEN (R71, R102, R103). -/

namespace Sys2Proof.Machine

theorem State.clearingTile_iff (s : State) :
    s.clearingTile = true ↔ ∃ t : TileId, (s.tile t).enabled = true ∧ (s.flat t).state = .clearing := by
  simp [State.clearingTile]

theorem State.freeBank_eq_none {s : State} (h : ∀ b : BankId, (s.bank b).state ≠ .free) : s.freeBank = none := by
  rw [State.freeBank, if_neg (h 0), if_neg (h 1)]

theorem bank_cases (b : BankId) : b = 0 ∨ b = 1 := by
  revert b
  decide

/-- VISIT_OPEN chooses the first FREE bank (R103). -/
theorem State.freeBank_eq_first {s : State} {b : BankId} (hfree : (s.bank b).state = .free)
    (hfirst : ∀ o : BankId, (s.bank o).state = .free → b ≤ o) : s.freeBank = some b := by
  unfold State.freeBank
  split
  · rename_i hzero
    rw [Fin.le_zero_iff.1 (hfirst 0 hzero)]
  · rename_i hzero
    rcases bank_cases b with rfl | rfl
    · exact absurd hfree hzero
    · exact if_pos hfree

/-- VISIT_OPEN's owner: the visit lock, the number of snaps, the clears, then the banks (R102, R103). -/
theorem takeVisitOpen_eq (b : List Byte) (s : State) :
    let inRange := 1 ≤ field b 1 1 ∧ field b 1 1 ≤ 3
    (s.visitLock = true → takeVisitOpen b s = .refuse s .state)
      ∧ (¬s.visitLock = true → ¬inRange → takeVisitOpen b s = .refuse s .range)
      ∧ (¬s.visitLock = true → inRange → s.clearingTile = true → takeVisitOpen b s = .refuse s .state)
      ∧ (¬s.visitLock = true → inRange → ¬s.clearingTile = true → s.freeBank = none →
          takeVisitOpen b s = .refuse s .noBank)
      ∧ ∀ k, ¬s.visitLock = true → inRange → ¬s.clearingTile = true → s.freeBank = some k →
          takeVisitOpen b s
            = .okWith (s.openVisit (BitVec.ofNat 8 (field b 0 1)) (field b 1 1) k)
                [BitVec.ofNat 8 k.val, (s.bank k).epoch + 1] := by
  intro inRange
  have hout : field b 1 1 < 1 ∨ 3 < field b 1 1 ↔ ¬inRange := by omega
  unfold takeVisitOpen
  simp only [hout]
  refine ⟨fun hlock => if_pos hlock, fun hlock hbad => ?_, fun hlock hgood hclear => ?_,
    fun hlock hgood hclear hnone => ?_, fun k hlock hgood hclear hfree => ?_⟩
  · rw [if_neg hlock, if_pos hbad]
  · rw [if_neg hlock, if_neg (not_not_intro hgood), if_pos hclear]
  · rw [if_neg hlock, if_neg (not_not_intro hgood), if_neg hclear, hnone]
  · rw [if_neg hlock, if_neg (not_not_intro hgood), if_neg hclear, hfree]

theorem execVisitOpen_of {s : State} {p : PortId} {f : CtlFrame} (hhead : s.Heads p f 0x50#8 2) {u : State} {r : Result}
    {d : List Byte} (howner : takeVisitOpen f.payload s = ⟨u, r, d⟩) : exec (.visitOpen p) s = .next (u.respond p f r d) :=
  command_runs takeVisitOpen hhead (by decide) (by decide) howner

/-- Settles O35: the owner's tests in their order, and the bank that it takes. -/
theorem visitOpenTakesAFreeBank : Obligations.VisitOpenTakesAFreeBank := by
  intro s p f hhead expected filling inRange clearing
  have hfilling : s.visitLock = true ↔ filling := visitLock_iff_filling s
  have hclearing : s.clearingTile = true ↔ clearing := s.clearingTile_iff
  obtain ⟨hlocked, hrange, hclear, hnone, hopen⟩ := takeVisitOpen_eq f.payload s
  simp only [hfilling, hclearing] at hlocked hrange hclear hnone hopen
  refine ⟨fun hf => execVisitOpen_of hhead (hlocked hf), fun hf hbad => execVisitOpen_of hhead (hrange hf hbad),
    fun hf hgood hc => execVisitOpen_of hhead (hclear hf hgood hc),
    fun hf hgood hc hno => execVisitOpen_of hhead (hnone hf hgood hc (State.freeBank_eq_none hno)),
    fun b hf hgood hc hfree hfirst => ?_⟩
  exact execVisitOpen_of hhead (hopen b hf hgood hc (State.freeBank_eq_first hfree hfirst))

end Sys2Proof.Machine
end

section
/-! SUPPORT. The judgement of the open snap, and the close of a visit (R72, R108 to R110, R141). -/

namespace Sys2Proof.Machine

/-- A tile is terminal when it neither waits nor receives (R24). -/
theorem TileState.terminal_iff (x : TileState) : x.terminal = true ↔ x ≠ .waiting ∧ x ≠ .receiving := by
  cases x <;> simp [TileState.terminal]

theorem State.finishSnap_of_more {s : State} (hmore : s.visit.snapsDone + 1 ≠ s.visit.expected) :
    s.finishSnap
      = { s with
          visit := { s.visit with snap := .done, drain := .stopped, snapsDone := s.visit.snapsDone + 1, state := .betweenSnaps }
          status := { s.status with snapDone := true } } := if_neg hmore

theorem State.finishSnap_of_last {s : State} (hlast : s.visit.snapsDone + 1 = s.visit.expected) :
    s.finishSnap
      = ({ s with
          visit := { s.visit with snap := .done, drain := .stopped, snapsDone := s.visit.snapsDone + 1 }
          status := { s.status with snapDone := true } } : State).closeVisit := if_pos hlast

/-- Settles O38: the condition of the judgement, and the two ends that a snap can have. -/
theorem snapDoneAndVisitClose : Obligations.SnapDoneAndVisitClose := by
  intro s complete v done
  have hcomplete : s.snapComplete = true ↔ complete := by
    simp only [snapComplete_iff, State.snapOpen_iff, TileState.terminal_iff, complete]
  have hjudge : complete → s.judgeSnap = s.finishSnap := fun hc => if_pos (hcomplete.2 hc)
  exact ⟨fun hnot => if_neg (mt hcomplete.1 hnot), fun hc hmore => (hjudge hc).trans (State.finishSnap_of_more hmore),
    fun hc hlast => (hjudge hc).trans (State.finishSnap_of_last hlast), rfl⟩

end Sys2Proof.Machine
end

section
/-! SUPPORT. How a pass starts, goes on and ends (R73, R75, R122, R141 to R150, R165). -/

namespace Sys2Proof.Machine

/-! ## The starts of a pass (R122, R142, R143, R149) -/

/-- The visit record that a pass takes (R116, R122). -/
theorem State.passVisit_of_record {s : State} {b : BankId} {v : BankVisit} (h : s.visit.records.nth b = some v) :
    s.passVisit b = v := by
  rw [State.passVisit, h, Option.getD_some]

/-- What a start and a restart set alike, with the tag and the snaps used of the bank's visit (R143, R149). -/
theorem State.resetPass_eq {s : State} {b : BankId} {v : BankVisit} (h : s.visit.records.nth b = some v) :
    let r := s.resolve
    s.resetPass b
      = { s with resolve := { r with
          passNumber := r.passNumber + 1
          snapshot := some { wmin := r.wmin, tAbs := r.tAbs, tRel := r.tRel, tag := v.tag, snapsUsed := v.snapsUsed }
          building := some
            { bank := b, tag := v.tag, snapsUsed := v.snapsUsed, pass := r.passNumber + 1
              entries := .tabulate fun i =>
                ⟨.notReached, (r.products.nth i).id, (r.products.nth i).format, 0, 0, .fill 8 0⟩ }
          egressMark := false, egressTimer := .stopped, state := .running, passBank := b, entry := 0, row := 0 } } := by
  intro r
  simp only [State.resetPass, State.takeSnapshot, State.freshReport, State.passVisit_of_record h]
  rfl

/-- The automatic start happens only in AUTO, with the sequencer IDLE and a bank waiting (R142). -/
theorem State.autoStart_of_stays {s : State}
    (h : s.resolve.trigger = .manual ∨ s.resolve.state ≠ .idle ∨ s.resolve.waiting = []) : s.autoStart = s := by
  unfold State.autoStart
  cases hn : s.resolve.waiting.length with
  | zero => rfl
  | succ n =>
    unfold State.autoStartUpTo
    split
    · rename_i htrigger hidle hwaiting
      simp [htrigger, hidle, hwaiting] at h
    · rfl

/-- A pass takes its bank off the waiting list (R141). -/
theorem State.openPass_waiting (s : State) (b : BankId) :
    (s.openPass b).resolve.waiting = s.resolve.waiting.filter (· != b) := by
  unfold State.openPass
  exact seek_waiting _ _

/-- In AUTO the idle sequencer starts a pass on the first waiting bank, and goes on from there (R142). -/
theorem State.autoStart_of_waiting {s : State} {b : BankId} {rest : List BankId} (htrigger : s.resolve.trigger = .auto)
    (hidle : s.resolve.state = .idle) (hwaiting : s.resolve.waiting = b :: rest) (hnodup : s.resolve.waiting.Nodup) :
    s.autoStart = (s.openPass b).autoStart := by
  have hrest : (s.openPass b).resolve.waiting = rest := by
    rw [hwaiting, List.nodup_cons] at hnodup
    obtain ⟨hb, -⟩ := hnodup
    rw [State.openPass_waiting, hwaiting, List.filter_cons_of_neg (by simp), List.filter_eq_self]
    intro c hc
    have hne : c ≠ b := fun he => hb (he ▸ hc)
    simpa using hne
  unfold State.autoStart
  rw [hrest, hwaiting, List.length_cons]
  simp only [State.autoStartUpTo, htrigger, hidle, hwaiting]

/-- Settles O45: the state from which each start begins its walk, and the cases of the automatic start. -/
theorem passStartsAndRestarts : Obligations.PassStartsAndRestarts := by
  intro s b v hrecord r entry begun
  refine ⟨?start, fun hbank => ?restart, State.autoStart_of_stays, fun rest => State.autoStart_of_waiting⟩
  case start =>
    exact congrArg (State.seek allEntries) (State.resetPass_eq (s := (s.updBank b _).updResolve _) hrecord)
  case restart =>
    rw [State.restartPass, show s.resolve.passBank = b from hbank]
    exact congrArg (State.seek allEntries) (State.resetPass_eq hrecord)

/-! ## The rows (R144, R145) -/

/-- The entries after an index are those above it (R144). -/
theorem entriesAfter_eq (i : Fin 8) : entriesAfter i = allEntries.filter fun j => i < j := by
  revert i
  decide

/-- An entry of the copy being built changes in its place. -/
theorem State.updEntry_of_building {s : State} {m : Report} (h : s.resolve.building = some m) (i : Fin 8)
    (f : EntryReport → EntryReport) :
    s.updEntry i f
      = { s with resolve := { s.resolve with
          building := some { m with entries := m.entries.put i (f (m.entries.nth i)) } } } := by
  simp [State.updEntry, State.updResolve, h, Tab.modify]

/-- Two changes of one entry of the copy being built are one. -/
theorem State.updEntry_updEntry (s : State) (i : Fin 8) (f g : EntryReport → EntryReport) :
    (s.updEntry i f).updEntry i g = s.updEntry i fun e => g (f e) := by
  cases h : s.resolve.building <;> simp [State.updEntry, State.updResolve, h, Tab.modify, Tab.put_put]

theorem execPrdFrameSent_of_row {s : State} {f : PrdFrame} (hlane : s.px.lane = some f) :
    exec .prdFrameSent s
      = .next ((s.updPx fun x =>
          { x with lane := none, counters := { x.counters with prdSent := bump x.counters.prdSent } }).rowSent f) := by
  simp [exec, execPrdFrameSent, hlane]

/-- A row that counts as emitted, with another of its entry after it (R144, R145). -/
theorem State.rowSent_of_more {s : State} {f : PrdFrame} (hrun : s.resolve.state = .running) (hmore : f.last = false) :
    s.rowSent f
      = (s.updEntry s.resolve.entry fun e => { e with rows := e.rows + 1, pixels := e.pixels + f.pixels.length }).standAt
          s.resolve.entry (s.resolve.row + 1) := by
  simp [State.rowSent, hrun, hmore]

/-- The last row of an entry: the entry is DONE, and the walk goes on after it (R144, R145). -/
theorem State.rowSent_of_last {s : State} {f : PrdFrame} (hrun : s.resolve.state = .running) (hlast : f.last = true) :
    s.rowSent f
      = (State.seek (entriesAfter s.resolve.entry)
          (s.updEntry s.resolve.entry fun e =>
            { e with status := .done, rows := e.rows + 1, pixels := e.pixels + f.pixels.length })).autoStart := by
  simp [State.rowSent, hrun, hlast, State.updEntry_updEntry]

/-! ## The bank at the end of a pass (R73, R75) -/

theorem State.releaseBank_of_auto {s : State} {b : BankId} (hstate : (s.bank b).state = .resolving)
    (hmode : s.resolve.release = .autoRelease) :
    s.releaseBank b = (s.updBank b fun k => { k with state := .retiring, readHold := false }).leaveRetiring b := by
  simp [State.releaseBank, hstate, hmode, State.retire, State.updBank_updBank]

theorem State.releaseBank_of_hold {s : State} {b : BankId} (hstate : (s.bank b).state = .resolving)
    (hmode : s.resolve.release = .hold) :
    s.releaseBank b = s.updBank b fun k => { k with state := .resolved, readHold := false } := by
  simp [State.releaseBank, hstate, hmode, State.updBank_updBank]

theorem State.releaseBank_of_other {s : State} {b : BankId} (hstate : (s.bank b).state ≠ .resolving) :
    s.releaseBank b = (s.updBank b fun k => { k with readHold := false }).leaveRetiring b := by
  unfold State.releaseBank
  exact if_neg (by rwa [State.bank_updBank_same])

/-! In AUTO release the bank of the pass retires, and leaves RETIRING by its holds, its epoch and the canvas (R73, R75). -/

section
variable {s : State} {b : BankId} (hstate : (s.bank b).state = .resolving) (hmode : s.resolve.release = .autoRelease)
include hstate hmode

theorem State.releaseBank_of_low (hdeposit : (s.bank b).depositHolds = 0) (hepoch : (s.bank b).epoch ≠ 255#8) :
    s.releaseBank b = s.updBank b fun k => { k with state := .free, readHold := false } := by
  rw [State.releaseBank_of_auto hstate hmode, State.leaveRetiring_of_low, State.updBank_updBank] <;> simp [hdeposit, hepoch]

theorem State.releaseBank_of_last (hdeposit : (s.bank b).depositHolds = 0) (hepoch : (s.bank b).epoch = 255#8) :
    s.releaseBank b = (s.updBank b fun k => { k with state := .retiring, readHold := false }).startScrub b := by
  rw [State.releaseBank_of_auto hstate hmode, State.leaveRetiring_of_last] <;> simp [hdeposit, hepoch]

theorem State.releaseBank_of_scrub (hdeposit : (s.bank b).depositHolds = 0) (hepoch : (s.bank b).epoch = 255#8)
    (hcells : 0 < s.canvas.width * s.canvas.height) :
    s.releaseBank b = s.updBank b fun k => { k with state := .scrubbing, readHold := false, epoch := 0, scrubPos := 0 } := by
  rw [State.releaseBank_of_last hstate hmode hdeposit hepoch, State.startScrub_of_cells (s := s.updBank b _) hcells,
    State.updBank_updBank]

theorem State.releaseBank_of_noCells (hdeposit : (s.bank b).depositHolds = 0) (hepoch : (s.bank b).epoch = 255#8)
    (hnone : s.canvas.width * s.canvas.height = 0) :
    s.releaseBank b = s.updBank b fun k => { k with state := .free, readHold := false, epoch := 0, scrubPos := 0 } := by
  rw [State.releaseBank_of_last hstate hmode hdeposit hepoch, State.startScrub_of_noCells (s := s.updBank b _) hnone,
    State.updBank_updBank]

theorem State.releaseBank_of_held (hdeposit : (s.bank b).depositHolds ≠ 0) :
    s.releaseBank b = s.updBank b fun k => { k with state := .retiring, readHold := false } := by
  rw [State.releaseBank_of_auto hstate hmode, State.leaveRetiring_of_stays]
  simp [hdeposit]

end

/-- Settles O47: a row that leaves PX by the state of the pass, and the bank of a pass at its end. -/
theorem passesMoveRowByRow : Obligations.PassesMoveRowByRow := by
  refine ⟨fun s => ⟨fun hidle => ?idle, fun f => execPrdFrameSent_of_row, fun f => ⟨fun hrestart => ?restarts,
    fun hend => ?ends, fun m hrun hbuilding => ?row⟩⟩, fun s => ⟨rfl, rfl, fun u k => ?release⟩⟩
  case idle => simp [exec, execPrdFrameSent, hidle]
  case restarts => simp [State.rowSent, hrestart]
  case ends => simp [State.rowSent, hend]
  case row =>
    intro i e sent
    refine ⟨fun hmore => ?_, fun hlast => ?_⟩
    · rw [State.rowSent_of_more hrun hmore, State.updEntry_of_building hbuilding]
    · rw [State.rowSent_of_last hrun hlast, State.updEntry_of_building hbuilding, entriesAfter_eq]
      rfl
  case release =>
    exact ⟨State.releaseBank_of_low, State.releaseBank_of_scrub, State.releaseBank_of_noCells, State.releaseBank_of_held,
      State.releaseBank_of_hold, State.releaseBank_of_other⟩

end Sys2Proof.Machine
end

section
/-! SUPPORT. The placement of a tile: the split of its fine position and its four weights (R83, R84, R85). -/

namespace Sys2Proof.Machine

/-- What whole cells leave of a fine position is 0 to 15 (R84). -/
theorem fineRest_bounds (p : Int) : 0 ≤ p - 16 * floorDiv p 16 ∧ p - 16 * floorDiv p 16 ≤ 15 := by
  obtain ⟨hlow, hhigh⟩ := floorDiv_bounds p (b := 16) (by decide)
  omega

/-- A fine part and a snap offset in their ranges move a tile by at most 64 whole cells (R83, R84). -/
theorem fineCells_bounds {f : Nat} {d : Int} (hf : f ≤ 15) (hlow : -1024 ≤ d) (hhigh : d ≤ 1024) :
    -64 ≤ floorDiv (f + d) 16 ∧ floorDiv (f + d) 16 ≤ 64 := by
  obtain ⟨hbelow, habove⟩ := floorDiv_bounds (f + d) (b := 16) (by decide)
  omega

/-- The four weights share out 16 × 16: they are the products of the two axes' parts of 16 (R85). -/
theorem weights_sum {a b : Nat} (ha : a ≤ 16) (hb : b ≤ 16) :
    (16 - a) * (16 - b) + a * (16 - b) + (16 - a) * b + a * b = 256 :=
  calc (16 - a) * (16 - b) + a * (16 - b) + (16 - a) * b + a * b
    _ = (16 - a + a) * (16 - b + b) := by simp only [Nat.add_mul, Nat.mul_add]; omega
    _ = 256 := by rw [Nat.sub_add_cancel ha, Nat.sub_add_cancel hb]

section
variable (r : TileRec) (sx sy : Int)

/-- The remainders of a placement are those of the fine position, which are no negative numbers (R84). -/
theorem placeTile_rest :
    ((placeTile r sx sy).rx : Int) = r.fx + sx - 16 * floorDiv (r.fx + sx) 16
      ∧ ((placeTile r sx sy).ry : Int) = r.fy + sy - 16 * floorDiv (r.fy + sy) 16 :=
  ⟨Int.toNat_of_nonneg (fineRest_bounds _).1, Int.toNat_of_nonneg (fineRest_bounds _).1⟩

theorem placeTile_rest_le : (placeTile r sx sy).rx ≤ 15 ∧ (placeTile r sx sy).ry ≤ 15 :=
  ⟨Int.toNat_le.2 (fineRest_bounds _).2, Int.toNat_le.2 (fineRest_bounds _).2⟩

theorem placeTile_weights_sum :
    (placeTile r sx sy).w00 + (placeTile r sx sy).w10 + (placeTile r sx sy).w01 + (placeTile r sx sy).w11 = 256 := by
  obtain ⟨hx, hy⟩ := placeTile_rest_le r sx sy
  exact weights_sum (Nat.le_succ_of_le hx) (Nat.le_succ_of_le hy)

end

/-- The four targets of every pixel have the placement's weights (R85, R86). -/
theorem Placement.targets_weights (q : Placement) (u v : Int) :
    (q.targets u v).map (·.weight) = [q.w00, q.w10, q.w01, q.w11] := rfl

/-- Settles O31: both axes split alike, and as the four weights sum to 256 none is above it. -/
theorem placementWeightsSumTo256 : Obligations.PlacementWeightsSumTo256 := by
  intro r sx sy q qx qy
  have hbaseX : q.baseX = r.ox + qx := rfl
  have hbaseY : q.baseY = r.oy + qy := rfl
  have hcellsX (hf : r.fx ≤ 15) (hlow : -1024 ≤ sx) (hhigh : sx ≤ 1024) : -64 ≤ qx ∧ qx ≤ 64 :=
    fineCells_bounds hf hlow hhigh
  have hcellsY (hf : r.fy ≤ 15) (hlow : -1024 ≤ sy) (hhigh : sy ≤ 1024) : -64 ≤ qy ∧ qy ≤ 64 :=
    fineCells_bounds hf hlow hhigh
  obtain ⟨hrx, hry⟩ : (q.rx : Int) = r.fx + sx - 16 * qx ∧ (q.ry : Int) = r.fy + sy - 16 * qy := placeTile_rest r sx sy
  obtain ⟨hrxMax, hryMax⟩ : q.rx ≤ 15 ∧ q.ry ≤ 15 := placeTile_rest_le r sx sy
  have hsum : q.w00 + q.w10 + q.w01 + q.w11 = 256 := placeTile_weights_sum r sx sy
  refine ⟨hbaseX, hbaseY, fun hf hlow hhigh _ _ => ?baseX, fun hf hlow hhigh _ _ => ?baseY, rfl, rfl, rfl,
    hrx, hry, hrxMax, hryMax, hcellsX, hcellsY, rfl, rfl, rfl, rfl, ?w00, ?w10, ?w01, ?w11, hsum, q.targets_weights⟩
  case baseX =>
    obtain ⟨hmin, hmax⟩ := hcellsX hf hlow hhigh
    omega
  case baseY =>
    obtain ⟨hmin, hmax⟩ := hcellsY hf hlow hhigh
    omega
  case w00 | w10 | w01 | w11 => omega

end Sys2Proof.Machine
end

section
/-! SUPPORT. The judgement of the snap along every step: a step leaves no snap open, judges it at its end, or leaves alone what
the judgement sees (R108). -/

namespace Sys2Proof.Machine

/-! ## No snap is open -/

/-- ENGINE_RESET leaves no snap open (R100, R180). -/
theorem State.engineRest_snapOpen (s : State) : s.engineRest.snapOpen = false := by
  have hvisit : s.engineRest.visit = .reset := by simp [State.engineRest]
  rw [State.snapOpen, hvisit]
  rfl

/-- The abort of the open visit leaves no snap open: an open one becomes ABORTED (R114). -/
theorem State.abortVisit_snapOpen (s : State) (b : BankId) : (s.abortVisit b).snapOpen = false := by
  have hsnap : (s.abortVisit b).visit.snap = if s.snapOpen then .aborted else s.visit.snap := by
    simp [State.abortVisit_eq, State.endOpenVisit]
  rw [State.snapOpen, hsnap]
  split
  case isTrue => rfl
  case isFalse hclosed => exact Bool.of_not_eq_true hclosed

/-! ## The judgement sees the same -/

theorem State.SameJudge.setStall (s : State) (t : TileId) (x : Timer) : s.SameJudge (s.setStall t x) :=
  ⟨rfl, rfl, fun _ => rfl⟩

/-- The close of a visit leaves the judgement alone: the snap, its rows in flight and the tiles stay (R110). -/
theorem State.SameJudge.closeVisit (s : State) : s.SameJudge s.closeVisit :=
  ⟨closeVisit_snap s, closeVisit_flight s, fun t => by simp [State.record]⟩

/-- The withdrawal of a closed visit clears a bank visit record, and nothing else of the Visit Controller (R115). -/
theorem State.SameJudge.withdrawVisit (s : State) (b : BankId) : s.SameJudge (s.withdrawVisit b) := by
  have hvisit : (s.withdrawVisit b).visit = { s.visit with records := s.visit.records.put b none } := by
    simp [State.withdrawVisit]
  refine ⟨?_, ?_, fun t => ?_⟩
  · rw [hvisit]
  · rw [hvisit]
  · simp [State.record]

/-- A header sets at most OVERRUN on one tile (R39). -/
theorem State.SameJudge.ingressHeader (s : State) (p : PortId) (h : Header) (crcGood : Bool) :
    s.SameJudge (s.ingressHeader p h crcGood) := by
  have hvisit : (s.ingressHeader p h crcGood).visit = s.visit := by simp
  obtain hsame | ⟨t, hmark⟩ := s.ingressHeader_intake p h crcGood
  · exact .of_eq hvisit (by rw [hsame])
  · have hmarked : (s.markTile t fun f => { f with overrun := true }).visit = s.visit := by simp
    exact (SameJudge.markTile s t _).trans (.of_eq (hvisit.trans hmarked.symm) (by rw [hmark]))

/-- An OPEN snap that begins to drain is as complete as it was (R111). -/
theorem State.SnapJudged.beginDrain {s : State} (h : s.SnapJudged) (hopen : s.visit.snap = .opened) :
    s.beginDrain.SnapJudged := by
  have hcomplete : s.beginDrain.snapComplete = s.snapComplete := by
    simp [State.snapComplete, State.snapOpen, State.beginDrain, hopen]
  exact hcomplete.trans h

/-! ## The snap is judged -/

/-- A quarantine judges the snap when it ends a tile (R14). -/
theorem State.SnapJudged.quarantineNow {s : State} (h : s.SnapJudged) (t : TileId) : (s.quarantineNow t).SnapJudged := by
  unfold State.quarantineNow
  split
  · exact judgeSnap_judged _
  · exact h

/-- A stall timer's expiry judges the snap when it ends a tile (R37). -/
theorem State.SnapJudged.stallTile {s : State} (h : s.SnapJudged) (t : TileId) : (s.stallTile t).SnapJudged := by
  unfold State.stallTile
  split
  · exact judgeSnap_judged _
  · exact h.same (.setStall s t .stopped)

/-- The drain timer's expiry judges a draining snap (R38, R112). -/
theorem State.SnapJudged.drainExpires {s : State} (h : s.SnapJudged) : s.drainExpires.SnapJudged := by
  unfold State.drainExpires
  split
  · exact judgeSnap_judged _
  · exact h.same ⟨rfl, rfl, fun _ => rfl⟩

/-- An arrival judges the snap, unless it names no tile and segment in use (R21, R22). -/
theorem State.SnapJudged.arrive {s : State} (h : s.SnapJudged) (p : PortId) (hd : RowHeader) (crcGood : Bool)
    (samples : List Sample) : (s.arrive p hd crcGood samples).SnapJudged := by
  unfold State.arrive
  split
  · exact h.count p _
  · exact judgeSnap_judged _

/-- The end of a ROW frame: its arrival is decided, or it is discarded (R159). -/
theorem State.SnapJudged.endRowFrame {s : State} (h : s.SnapJudged) (p : PortId) (hd : RowHeader) (len : Nat)
    (received : List Byte) : (s.endRowFrame p hd len received).SnapJudged := by
  unfold State.endRowFrame
  split
  · exact h.same (.of_eq (by simp) (by simp))
  · exact State.SnapJudged.arrive (h.same (.of_eq (by simp) (by simp))) p hd _ _

/-! ## The steps -/

/-- Of the commands, ENGINE_RESET, VISIT_OPEN and VISIT_ABORT leave no snap open, SNAP_OPEN and TILE_QUARANTINE judge it, and
SNAP_CLOSE leaves it as complete as it was; the judgement sees nothing of the others. -/
theorem OwnerEffect.snapJudged {s u : State} (h : OwnerEffect s u) (hs : s.SnapJudged) : u.SnapJudged := by
  cases h with
  | stays => exact hs
  | engineRest => exact .of_closed s.engineRest_snapOpen
  | openVisit => exact .of_closed rfl
  | abortVisit b => exact .of_closed (s.abortVisit_snapOpen b)
  | openSnap => exact judgeSnap_judged _
  | quarantine t => exact State.SnapJudged.quarantineNow (s := s.setQuarantine t true) hs t
  | beginDrain hopen => exact hs.beginDrain hopen
  | closeVisit => exact hs.same (.closeVisit s)
  | withdrawVisit b => exact hs.same (.withdrawVisit s b)
  | setIntake | setStatus | setTile | setSeg | restore | startClear | writeFlat | setProduct =>
    exact hs.same (.of_eq rfl rfl)
  | setResolve => exact hs.same (.of_eq (by simp [State.setResolve]) (by simp [State.setResolve]))
  | setCanvas | openPass | askRestart | askEnd | retire => exact hs.same (.of_eq (by simp) (by simp))

/-- Outside the commands, POWER_ON leaves no snap open, and an arrival, the end of a row and two timers judge it; the judgement
sees nothing of the other steps. -/
theorem StepEffect.snapJudged {s t : State} (h : StepEffect s t) (hs : s.SnapJudged) : t.SnapJudged := by
  cases h with
  | stays => exact hs
  | powerOn => exact .of_closed rfl
  | ingressHeader p hd crcGood => exact (hs.same (.ingressHeader s p hd crcGood)).same (.serveLane _ p)
  | endRowFrame p hd len received => exact (hs.endRowFrame p hd len received).same (.serveLane _ p)
  | command p f u r data _ howner => exact (howner.snapJudged hs).same (.of_eq (by simp) (by simp))
  | stallTile t => exact hs.stallTile t
  | drainExpires => exact hs.drainExpires
  | nextPixel p l => exact hs.nextPixel p l
  | pxLineUp | finishClear => exact hs.same (.of_eq rfl rfl)
  | lineUp | lineFall | startFrame | idleLine | endCtlFrame | endRest | finishReturnFrame | pxDown | startPxFrame | idlePxLine
  | pxHeader | endPxFrame | egressExpires | startRow | scrubNext | rowLeaves =>
    exact hs.same (.of_eq (by simp) (by simp))

/-- Settles O57: each effect leaves no snap open, judges it at its end, or leaves alone what the judgement sees. -/
theorem stepKeepsSnapsJudged : Obligations.StepKeepsSnapsJudged := fun _ _ hs h =>
  step_keeps (fun _ _ hq => hq.same (.of_eq rfl rfl)) (fun _ _ hq heffect => heffect.snapJudged hq) hs h

end Sys2Proof.Machine
end

section
/-! SUPPORT. The resolution of one position: agreement, the comparison of the valid slots, and the output pixel (R68, R123 to
R133). -/

namespace Sys2Proof.Machine

/-! ## Agreement (R127) -/

theorem agree_iff (p : Snapshot) (a b : SlotValue) :
    agree p a b = true ↔ ((a.mean - b.mean).natAbs : Int) ≤ tolerance p a b := decide_eq_true_iff

theorem tolerance_comm (p : Snapshot) (a b : SlotValue) : tolerance p a b = tolerance p b a := by
  rw [tolerance, tolerance, Int.max_comm]

theorem agree_comm (p : Snapshot) (a b : SlotValue) : agree p a b = agree p b a := by
  rw [agree, agree, tolerance_comm, ← Int.natAbs_neg, Int.neg_sub]

/-- The relative term lies between 0 and what the largest factors give: T_rel of 255 and a mean of 134,217,728. -/
theorem relativeTerm_bounds {r : Nat} {m : Int} (hm : 0 ≤ m) :
    0 ≤ floorDiv (r * m) 256 ∧ (r ≤ 255 → m ≤ 134217728 → floorDiv (r * m) 256 ≤ 133693440) := by
  have hlow : 0 ≤ (r : Int) * m := Int.mul_nonneg (Int.natCast_nonneg r) hm
  refine ⟨Int.ediv_nonneg hlow (by decide), fun hr hmax => ?_⟩
  have hhigh : (r : Int) * m ≤ 255 * 134217728 := Int.mul_le_mul (by omega) hmax hm (by decide)
  rw [floorDiv]
  omega

theorem tolerance_nonneg (p : Snapshot) (a b : SlotValue) : 0 ≤ tolerance p a b := by
  obtain ⟨hrel, -⟩ := relativeTerm_bounds (r := p.tRel) (m := max (a.mean.natAbs : Int) b.mean.natAbs) (by omega)
  rw [tolerance]
  omega

theorem tolerance_le {p : Snapshot} {a b : SlotValue} (habs : p.tAbs ≤ 1048575) (hrel : p.tRel ≤ 255)
    (ha : a.mean.natAbs ≤ 134217728) (hb : b.mean.natAbs ≤ 134217728) : tolerance p a b ≤ 134742015 := by
  obtain ⟨-, hmax⟩ := relativeTerm_bounds (r := p.tRel) (m := max (a.mean.natAbs : Int) b.mean.natAbs) (by omega)
  have hterm := hmax hrel (by omega)
  rw [tolerance]
  omega

theorem tolerance_of_noRelative {p : Snapshot} (hrel : p.tRel = 0) (a b : SlotValue) : tolerance p a b = p.tAbs := by
  simp [tolerance, floorDiv, hrel]

/-- Equal means agree, since no tolerance is below 0. -/
theorem agree_of_mean_eq {p : Snapshot} {a b : SlotValue} (h : a.mean = b.mean) : agree p a b = true := by
  rw [agree_iff, h]
  simpa using tolerance_nonneg p a b

theorem mean_ne_of_not_agree {p : Snapshot} {a b : SlotValue} (h : agree p a b = false) : a.mean ≠ b.mean := fun heq =>
  Bool.false_ne_true (h.symm.trans (agree_of_mean_eq heq))

/-- Without a tolerance, only equal means agree. -/
theorem agree_iff_of_noTolerance {p : Snapshot} (hrel : p.tRel = 0) (habs : p.tAbs = 0) (a b : SlotValue) :
    agree p a b = true ↔ a.mean = b.mean := by
  rw [agree_iff, tolerance_of_noRelative hrel, habs]
  omega

/-- Settles O41: the laws of the band, and the means 0, 1 and 2 under a tolerance of 1 for a chain. -/
theorem agreementIsAToleranceBand : Obligations.AgreementIsAToleranceBand := by
  refine ⟨fun p a b => ⟨agree_iff p a b, rfl, tolerance_nonneg p a b, tolerance_le, agree_comm p a b, tolerance_comm p a b,
    agree_of_mean_eq, fun hrel => tolerance_of_noRelative hrel a b, fun hrel habs => agree_iff_of_noTolerance hrel habs a b⟩,
    ⟨1, 1, 0, 0, 3⟩, ⟨0, 1, 0⟩, ⟨1, 1, 1⟩, ⟨2, 1, 2⟩, ?_⟩
  decide

/-! ## Positions off the canvas (R123, R124) -/

/-- No comparison of slots gives PADDING, the class of the positions off the canvas (R129). -/
theorem judge_ne_padding (p : Snapshot) (l : List SlotValue) : (judge p l).cls ≠ .padding := by
  unfold judge
  split
  case h_1 | h_2 => exact nofun
  case h_3 => split <;> exact nofun
  case h_4 => split <;> exact nofun

theorem State.resolveAt_of_on {s : State} {x y : Int} (hon : s.onCanvas x y = true) (p : Snapshot) (b : BankId) (fill : Int) :
    s.resolveAt p b fill x y
      = resolveCell p fill ((s.cellAt b (s.place x.toNat y.toNat)).asRead (s.bank b).epoch) := if_pos hon

theorem State.resolveAt_of_off {s : State} {x y : Int} (hoff : ¬s.onCanvas x y = true) (p : Snapshot) (b : BankId)
    (fill : Int) : s.resolveAt p b fill x y = paddingPixel fill := if_neg hoff

/-- Settles O40: the two cases of a position, and a canvas without cells, off which every position lies. -/
theorem positionsOffTheCanvasArePadded : Obligations.PositionsOffTheCanvasArePadded := by
  intro s p b fill x y onCanvas c empty
  have hcanvas : s.onCanvas x y = true ↔ onCanvas := s.onCanvas_iff x y
  have hpadding : ¬onCanvas → s.resolveAt p b fill x y = paddingPixel fill := fun hoff =>
    State.resolveAt_of_off (mt hcanvas.1 hoff) p b fill
  refine ⟨hpadding, fun hnone => ?noCells, fun hon => ?on⟩
  case noCells =>
    have hoff : ¬onCanvas := by omega
    rw [hpadding hoff]
    rfl
  case on =>
    rw [State.resolveAt_of_on (hcanvas.2 hon)]
    exact ⟨rfl, judge_ne_padding p _⟩

/-! ## The comparison, in whatever order the slots stand (R128 to R131) -/

/-- Two slots combined, written out (R130). -/
theorem Verdict.combine_two (cls : PixelClass) (a b : SlotValue) (rej : Bool) :
    Verdict.combine cls [a, b] rej
      = ⟨cls, some (roundDiv (a.flux + b.flux) ((a.weight + b.weight : Nat) : Int)), a.weight + b.weight, rej⟩ := by
  simp [Verdict.combine, combined, totalWeight]

/-- Three slots combined, written out (R130). -/
theorem Verdict.combine_three (cls : PixelClass) (a b c : SlotValue) (rej : Bool) :
    Verdict.combine cls [a, b, c] rej
      = ⟨cls, some (roundDiv (a.flux + b.flux + c.flux) ((a.weight + b.weight + c.weight : Nat) : Int)),
          a.weight + b.weight + c.weight, rej⟩ := by
  simp [Verdict.combine, combined, totalWeight, Int.add_assoc, Nat.add_assoc]

/-- Two slots combine alike in either order (R130). -/
theorem Verdict.combine_swap (cls : PixelClass) (a b : SlotValue) (rej : Bool) :
    Verdict.combine cls [a, b] rej = Verdict.combine cls [b, a] rej := by
  rw [Verdict.combine_two, Verdict.combine_two, Int.add_comm a.flux, Nat.add_comm a.weight]

/-- The lower of two different means, in either order of the slots (R131). -/
theorem lower_of_lt {a b : SlotValue} (h : a.mean < b.mean) : lower a b = a ∧ lower b a = a :=
  ⟨if_pos (by omega), if_neg (by omega)⟩

/-- The median of means that rise strictly is the second, and it stays the median in every order of the slots (R131). -/
theorem median_of_lt {a b c : SlotValue} (hab : a.mean < b.mean) (hbc : b.mean < c.mean) :
    median a b c = b ∧ median a c b = b ∧ median b a c = b ∧ median b c a = b ∧ median c a b = b ∧ median c b a = b := by
  unfold median
  refine ⟨?_, ?_, if_pos (by omega), if_pos (by omega), ?_, ?_⟩
  · rw [if_neg (by omega), if_pos (by omega)]
  · rw [if_neg (by omega), if_neg (by omega)]
  · rw [if_neg (by omega), if_neg (by omega)]
  · rw [if_neg (by omega), if_pos (by omega)]

section
variable {p : Snapshot} {l : List SlotValue} {a b c : SlotValue}

/-- In an order of a list its first element stands somewhere, and around it stands an order of the rest. -/
theorem split_of_perm_cons {m : List SlotValue} (h : l.Perm (a :: m)) :
    ∃ s t, l = s ++ a :: t ∧ (s ++ t).Perm m := by
  obtain ⟨s, t, rfl⟩ := List.append_of_mem (h.mem_iff.2 List.mem_cons_self)
  exact ⟨s, t, rfl, (List.perm_middle.symm.trans h).cons_inv⟩

/-- The three places of an element beside two others. -/
theorem insert_of_append_eq {s t : List SlotValue} (h : s ++ t = [b, c]) :
    s ++ a :: t = [a, b, c] ∨ s ++ a :: t = [b, a, c] ∨ s ++ a :: t = [b, c, a] := by
  rcases List.append_eq_cons_iff.1 h with ⟨rfl, rfl⟩ | ⟨r, rfl, hr⟩
  · exact .inl rfl
  · rcases List.append_eq_cons_iff.1 hr.symm with ⟨rfl, rfl⟩ | ⟨q, rfl, hq⟩
    · exact .inr (.inl rfl)
    · obtain ⟨rfl, rfl⟩ := List.append_eq_nil_iff.1 hq.symm
      exact .inr (.inr rfl)

theorem eq_of_perm_two (h : l.Perm [a, b]) : l = [a, b] ∨ l = [b, a] := by
  obtain ⟨s, t, rfl, hrest⟩ := split_of_perm_cons h
  rcases List.append_eq_cons_iff.1 hrest.eq_singleton with ⟨rfl, rfl⟩ | ⟨r, rfl, hr⟩
  · exact .inl rfl
  · obtain ⟨rfl, rfl⟩ := List.append_eq_nil_iff.1 hr.symm
    exact .inr rfl

theorem eq_of_perm_three (h : l.Perm [a, b, c]) :
    (l = [a, b, c] ∨ l = [b, a, c] ∨ l = [b, c, a]) ∨ (l = [a, c, b] ∨ l = [c, a, b] ∨ l = [c, b, a]) := by
  obtain ⟨s, t, rfl, hrest⟩ := split_of_perm_cons h
  exact (eq_of_perm_two hrest).imp insert_of_append_eq insert_of_append_eq

/-- Two slots that agree (R129). -/
theorem judge_pair (h : l.Perm [a, b]) (hab : agree p a b = true) : judge p l = .combine .pair [a, b] false := by
  rcases eq_of_perm_two h with rfl | rfl
  · exact if_pos hab
  · rw [Verdict.combine_swap]
    exact if_pos ((agree_comm p b a).trans hab)

/-- Two slots that disagree (R129, R131). -/
theorem judge_split (h : l.Perm [a, b]) (hab : agree p a b = false) (hle : a.mean ≤ b.mean) :
    judge p l = .choose .split a true := by
  have hne := mean_ne_of_not_agree hab
  obtain ⟨hfirst, hlast⟩ := lower_of_lt (show a.mean < b.mean by omega)
  rcases eq_of_perm_two h with rfl | rfl
  · simp [judge, hab, hfirst]
  · simp [judge, agree_comm p b a, hab, hlast]

/-- Three slots of which two agree and the third agrees with neither (R128, R129). -/
theorem judge_majority (h : l.Perm [a, b, c]) (hab : agree p a b = true) (hac : agree p a c = false)
    (hbc : agree p b c = false) : judge p l = .combine .majority [a, b] true := by
  have hba : agree p b a = true := (agree_comm p b a).trans hab
  have hca : agree p c a = false := (agree_comm p c a).trans hac
  have hcb : agree p c b = false := (agree_comm p c b).trans hbc
  have hswap := Verdict.combine_swap .majority b a true
  rcases eq_of_perm_three h with (rfl | rfl | rfl) | (rfl | rfl | rfl)
  all_goals simp [judge, hab, hba, hac, hca, hbc, hcb, hswap]

/-- Three slots of which no two agree (R128, R129, R131). -/
theorem judge_discord (h : l.Perm [a, b, c]) (hab : agree p a b = false) (hac : agree p a c = false)
    (hbc : agree p b c = false) (hle : a.mean ≤ b.mean) (hle' : b.mean ≤ c.mean) : judge p l = .choose .discord b true := by
  have hba : agree p b a = false := (agree_comm p b a).trans hab
  have hca : agree p c a = false := (agree_comm p c a).trans hac
  have hcb : agree p c b = false := (agree_comm p c b).trans hbc
  have hne := mean_ne_of_not_agree hab
  have hne' := mean_ne_of_not_agree hbc
  have hmedian := median_of_lt (show a.mean < b.mean by omega) (show b.mean < c.mean by omega)
  rcases eq_of_perm_three h with (rfl | rfl | rfl) | (rfl | rfl | rfl)
  all_goals simp [judge, hab, hba, hac, hca, hbc, hcb, hmedian]

/-- Three slots, each of which agrees with another: at least two of the three pairs agree (R128, R129). -/
theorem judge_full (ha : agree p a b = true ∨ agree p a c = true) (hb : agree p a b = true ∨ agree p b c = true)
    (hc : agree p a c = true ∨ agree p b c = true) : judge p [a, b, c] = .combine .full [a, b, c] false := by
  by_cases hab : agree p a b = true
  · rcases hc with hac | hbc
    · simp [judge, hab, hac]
    · simp [judge, hab, hbc]
  · have hac := ha.resolve_left hab
    have hbc := hb.resolve_left hab
    simp [judge, hab, hac, hbc]

end

/-! ## The slots of a cell as read (R125) -/

/-- A slot of a cell with its exact flux, its weight and its mean (R126). -/
def Cell.valueAt (c : Cell) (i : SlotId) : SlotValue := slotValue (c.slots.nth i)

/-- A slot is valid: it is used, and its weight is Wmin or more (R125). -/
def Snapshot.Valid (p : Snapshot) (c : Cell) (i : SlotId) : Prop :=
  i.val < p.snapsUsed ∧ p.wmin ≤ (c.slots.nth i).weight.toNat

/-- Three slots that differ are all there are. -/
theorem mem_three {i j k : SlotId} (hij : i ≠ j) (hjk : j ≠ k) (hik : i ≠ k) (n : SlotId) : n ∈ [i, j, k] := by
  revert i j k n
  decide

theorem mem_slots (i : SlotId) : i ∈ [0, 1, 2] := mem_three (by decide) (by decide) (by decide) i

theorem mem_usedSlots {n : Nat} {i : SlotId} : i ∈ usedSlots n ↔ i.val < n := by simp [usedSlots, mem_slots i]

/-- The valid slots are the values of the slots that R125 names valid, in some order. -/
theorem validSlots_perm {p : Snapshot} {c : Cell} {l : List SlotId} (hnodup : l.Nodup) (hmem : ∀ i, i ∈ l ↔ p.Valid c i) :
    (validSlots p c).Perm (l.map c.valueAt) := by
  refine List.Perm.map _ ((List.perm_ext_iff_of_nodup ?_ hnodup).2 fun i => ?_)
  · have hslots : ([0, 1, 2] : List SlotId).Nodup := by decide
    exact (hslots.filter _).filter _
  · rw [List.mem_filter, mem_usedSlots, decide_eq_true_iff, hmem]
    rfl

/-- When every slot is valid they stand in the order of their numbers. -/
theorem validSlots_of_all {p : Snapshot} {c : Cell} (h : ∀ i, p.Valid c i) :
    validSlots p c = [c.valueAt 0, c.valueAt 1, c.valueAt 2] := by
  have hused : usedSlots p.snapsUsed = [0, 1, 2] := List.filter_eq_self.2 fun i _ => decide_eq_true (h i).1
  rw [validSlots, hused, List.filter_eq_self.2 fun i _ => decide_eq_true (h i).2]
  rfl

theorem lowCoverage_iff (p : Snapshot) (c : Cell) :
    lowCoverage p c = true
      ↔ ∃ i : SlotId, i.val < p.snapsUsed ∧ 1 ≤ (c.slots.nth i).weight.toNat ∧ (c.slots.nth i).weight.toNat < p.wmin := by
  simp [lowCoverage, mem_usedSlots]

theorem thinWeight_iff (w : Nat) : thinWeight w = true ↔ 1 ≤ w ∧ w ≤ 255 := by simp [thinWeight]

/-! ## The output pixel (R129, R133) -/

/-- The output pixel says what the comparison of the valid slots found. -/
theorem resolveCell_of_judge {p : Snapshot} {c : Cell} {v : Verdict} (h : judge p (validSlots p c) = v) (fill : Int) :
    let x := resolveCell p fill c
    x.cls = v.cls ∧ x.value = v.value.getD fill ∧ x.weight = v.weight ∧ x.mask.rej = v.rej := by
  subst h
  exact ⟨rfl, rfl, rfl, rfl⟩

/-- A slot other than `i` is one of the two others. -/
theorem exists_ne_slot {P : SlotId → Prop} {i j k : SlotId} (hij : i ≠ j) (hjk : j ≠ k) (hik : i ≠ k)
    (h : ∃ n, n ≠ i ∧ P n) : P j ∨ P k := by
  obtain ⟨n, hne, hn⟩ := h
  have hmem := mem_three hij hjk hik n
  simp only [List.mem_cons, hne, false_or, List.not_mem_nil, or_false] at hmem
  rcases hmem with rfl | rfl
  · exact .inl hn
  · exact .inr hn

/-- Settles O39: which slots are valid gives the list that is compared, up to its order, and the comparison gives the pixel. -/
theorem outputPixelOfACell : Obligations.OutputPixelOfACell := by
  intro p fill c x weight flux mean valid agrees gives
  have hagree : ∀ i j, agree p (c.valueAt i) (c.valueAt j) = true ↔ agrees i j := fun i j => agree_iff p _ _
  have hdisagree : ∀ i j, ¬agrees i j → agree p (c.valueAt i) (c.valueAt j) = false := fun i j h =>
    Bool.eq_false_iff.2 (mt (hagree i j).1 h)
  refine ⟨fun hnone => ?nodata, fun i hi hrest => ?single, fun i j hij hi hj hrest => ?two, fun hall hconfirmed => ?full,
    fun i j k hij hjk hik hall => ?three, rfl, lowCoverage_iff p c, thinWeight_iff _⟩
  case nodata =>
    have hperm : (validSlots p c).Perm [] := validSlots_perm (l := []) List.nodup_nil fun i =>
      iff_of_false List.not_mem_nil (hnone i)
    exact resolveCell_of_judge (v := ⟨.nodata, none, 0, false⟩) (by rw [hperm.eq_nil]; rfl) fill
  case single =>
    have hperm : (validSlots p c).Perm [c.valueAt i] := validSlots_perm (l := [i]) (by simp) fun k => by
      rw [List.mem_singleton]
      exact ⟨fun hk => hk ▸ hi, fun hk => Classical.byContradiction fun hne => hrest k hne hk⟩
    exact resolveCell_of_judge (v := .choose .single (c.valueAt i) false) (by rw [hperm.eq_singleton]; rfl) fill
  case two =>
    have hmem : ∀ k, k ∈ [i, j] ↔ valid k := fun k => by
      simp only [List.mem_cons, List.not_mem_nil, or_false]
      constructor
      · rintro (rfl | rfl)
        · exact hi
        · exact hj
      · exact fun hk => Classical.byContradiction fun hne =>
          hrest k (fun he => hne (.inl he)) (fun he => hne (.inr he)) hk
    have hperm : (validSlots p c).Perm [c.valueAt i, c.valueAt j] := validSlots_perm (l := [i, j]) (by simpa using hij) hmem
    refine ⟨fun hab => ?_, fun hab hle => ?_⟩
    · exact resolveCell_of_judge ((judge_pair hperm ((hagree i j).2 hab)).trans (Verdict.combine_two _ _ _ _)) fill
    · exact resolveCell_of_judge (judge_split hperm (hdisagree i j hab) hle) fill
  case full =>
    have h0 := exists_ne_slot (j := 1) (k := 2) (by decide) (by decide) (by decide) (hconfirmed 0)
    have h1 := exists_ne_slot (j := 0) (k := 2) (by decide) (by decide) (by decide) (hconfirmed 1)
    have h2 := exists_ne_slot (j := 0) (k := 1) (by decide) (by decide) (by decide) (hconfirmed 2)
    simp only [← hagree, agree_comm p (c.valueAt 1) (c.valueAt 0), agree_comm p (c.valueAt 2)] at h0 h1 h2
    have hjudge := judge_full h0 h1 h2
    rw [Verdict.combine_three] at hjudge
    exact resolveCell_of_judge ((congrArg (judge p) (validSlots_of_all hall)).trans hjudge) fill
  case three =>
    have hperm : (validSlots p c).Perm [c.valueAt i, c.valueAt j, c.valueAt k] :=
      validSlots_perm (l := [i, j, k]) (by simp [hij, hjk, hik]) fun n => iff_of_true (mem_three hij hjk hik n) (hall n)
    refine ⟨fun hab hac hbc => ?_, fun hab hac hbc hle hle' => ?_⟩
    · have hjudge := judge_majority hperm ((hagree i j).2 hab) (hdisagree i k hac) (hdisagree j k hbc)
      exact resolveCell_of_judge (hjudge.trans (Verdict.combine_two _ _ _ _)) fill
    · exact resolveCell_of_judge
        (judge_discord hperm (hdisagree i j hab) (hdisagree i k hac) (hdisagree j k hbc) hle hle') fill

end Sys2Proof.Machine
end

section
/-! SUPPORT. The settings of the Resolve Unit, RESOLVE_SET and PRODUCT_SET (R121, R138, R140, R142). -/

namespace Sys2Proof.Machine

theorem resolveLock_eq_false_iff (s : State) : s.resolveLock = false ↔ ¬∃ b : BankId, (s.bank b).state = .resolving := by
  rw [← resolveLock_iff_resolving, Bool.not_eq_true]

/-! ## RESOLVE_SET (R121, R140, R142) -/

/-- The settings that a RESOLVE_SET payload spells, in range or not (R121, R185). -/
def resolveCarried (b : List Byte) : ResolveFields :=
  { wmin := field b 0 2, tAbs := field b 2 3, tRel := field b 5 1
    trigger := if field b 6 1 = 0 then .auto else .manual
    release := if field b 7 1 = 0 then .autoRelease else .hold }

/-- The ranges of the fields of a RESOLVE_SET payload (R121, R140). -/
def ResolveInRange (b : List Byte) : Prop :=
  1 ≤ field b 0 2 ∧ field b 0 2 ≤ 4096 ∧ field b 2 3 ≤ 1048575 ∧ field b 5 1 ≤ 255 ∧ field b 6 1 ≤ 1 ∧ field b 7 1 ≤ 1

/-- A payload in range carries its settings (R121). -/
theorem resolveFields_of_inRange {b : List Byte} (h : ResolveInRange b) : resolveFields b = some (resolveCarried b) := by
  obtain ⟨hlow, hhigh, habs, hrel, htrigger, hrelease⟩ := h
  unfold resolveFields
  rw [triggerOfCode_of_le htrigger, releaseOfCode_of_le hrelease]
  exact if_pos ⟨hlow, hhigh, habs, hrel⟩

/-- A payload out of range carries none (R121). -/
theorem resolveFields_of_not_inRange {b : List Byte} (h : ¬ResolveInRange b) : resolveFields b = none := by
  unfold resolveFields
  by_cases htrigger : field b 6 1 ≤ 1
  · by_cases hrelease : field b 7 1 ≤ 1
    · rw [triggerOfCode_of_le htrigger, releaseOfCode_of_le hrelease]
      refine if_neg ?_
      rintro ⟨hlow, hhigh, habs, hrel⟩
      exact h ⟨hlow, hhigh, habs, hrel, htrigger, hrelease⟩
    · rw [triggerOfCode_of_le htrigger, releaseOfCode_of_gt hrelease]
  · rw [triggerOfCode_of_gt htrigger]

theorem takeResolveSet_locked {s : State} (hlock : s.resolveLock = true) (b : List Byte) :
    takeResolveSet b s = .refuse s .locked := if_pos hlock

/-- RESOLVE_SET's owner when no bank is RESOLVING: the ranges, then the settings and the automatic start (R121, R142). -/
theorem takeResolveSet_unlocked {s : State} (hlock : s.resolveLock = false) (b : List Byte) :
    (¬ResolveInRange b → takeResolveSet b s = .refuse s .range)
      ∧ (ResolveInRange b → takeResolveSet b s = .ok (s.setResolve (resolveCarried b)).autoStart) := by
  unfold takeResolveSet
  rw [hlock, if_neg Bool.false_ne_true]
  refine ⟨fun hbad => ?_, fun hrange => ?_⟩
  · rw [resolveFields_of_not_inRange hbad]
  · rw [resolveFields_of_inRange hrange]

theorem execResolveSet_of {s : State} {p : PortId} {f : CtlFrame} (hhead : s.Heads p f 0x60#8 8) {u : State} {r : Result}
    {d : List Byte} (howner : takeResolveSet f.payload s = ⟨u, r, d⟩) :
    exec (.resolveSet p) s = .next (u.respond p f r d) :=
  command_runs takeResolveSet hhead (by decide) (by decide) howner

/-! ## PRODUCT_SET (R138) -/

/-- The product entry that a PRODUCT_SET payload spells, in range or not (R138, R185). -/
def productCarried (b : List Byte) : Product :=
  { enabled := field b 1 1 == 1, id := BitVec.ofNat 8 (field b 2 1)
    x0 := signedField b 3 2, y0 := signedField b 5 2, x1 := signedField b 7 2, y1 := signedField b 9 2
    stride := field b 11 1
    format := if field b 12 1 = 0 then .v else if field b 12 1 = 1 then .vcm else .vwcm
    fillValue := signedField b 13 4 }

/-- The ranges of the fields of a PRODUCT_SET payload (R137, R138). -/
def ProductInRange (b : List Byte) : Prop :=
  field b 1 1 ≤ 1 ∧ field b 12 1 ≤ 2 ∧ (field b 11 1 = 1 ∨ field b 11 1 = 2 ∨ field b 11 1 = 4 ∨ field b 11 1 = 8)
    ∧ -16384 ≤ signedField b 3 2 ∧ signedField b 3 2 ≤ 32767 ∧ -16384 ≤ signedField b 5 2 ∧ signedField b 5 2 ≤ 32767
    ∧ -16384 ≤ signedField b 7 2 ∧ signedField b 7 2 ≤ 32767 ∧ -16384 ≤ signedField b 9 2 ∧ signedField b 9 2 ≤ 32767

/-- A payload in range carries its entry (R138). -/
theorem productFields_of_inRange {b : List Byte} (h : ProductInRange b) : productFields b = some (productCarried b) := by
  obtain ⟨hyes, hformat, hranges⟩ := h
  unfold productFields
  rw [yesNoOf_of_le hyes, formatOfCode_of_le hformat]
  exact if_pos hranges

/-- A payload out of range carries none (R138). -/
theorem productFields_of_not_inRange {b : List Byte} (h : ¬ProductInRange b) : productFields b = none := by
  unfold productFields
  by_cases hyes : field b 1 1 ≤ 1
  · by_cases hformat : field b 12 1 ≤ 2
    · rw [yesNoOf_of_le hyes, formatOfCode_of_le hformat]
      exact if_neg fun hranges => h ⟨hyes, hformat, hranges⟩
    · rw [yesNoOf_of_le hyes, formatOfCode_of_gt hformat]
  · rw [yesNoOf_of_gt hyes]

/-- The new entry's id is taken when it is enabled and so is another entry with that id (R138). -/
theorem State.idTaken_iff (s : State) (i : Fin 8) (e : Product) :
    (e.enabled && s.idTaken i e) = true
      ↔ e.enabled = true
        ∧ ∃ j : Fin 8, j ≠ i ∧ (s.resolve.products.nth j).enabled = true ∧ (s.resolve.products.nth j).id = e.id := by
  have hall : ∀ j, j ∈ allEntries := by decide
  simp [State.idTaken, hall, and_assoc]

/-- An index of eight or more names no product entry (R137). -/
theorem entryOf_eq_none {n : Nat} (h : 8 ≤ n) : entryOf n = none := dif_neg (by omega)

/-- An index below eight names its entry (R137). -/
theorem entryOf_eq_some {n : Nat} {i : Fin 8} (h : n = i.val) : entryOf n = some i := by
  subst h
  exact dif_pos i.isLt

theorem takeProductSet_badEntry {b : List Byte} (h : 8 ≤ field b 0 1) (s : State) :
    takeProductSet b s = .refuse s .range := by
  rw [takeProductSet, entryOf_eq_none h]

theorem takeProductSet_locked {b : List Byte} {i : Fin 8} (hi : field b 0 1 = i.val) {s : State}
    (hlock : s.resolveLock = true) : takeProductSet b s = .refuse s .locked := by
  rw [takeProductSet, entryOf_eq_some hi]
  exact if_pos hlock

/-- PRODUCT_SET's owner when no bank is RESOLVING: the ranges and the id, then the entry (R138). -/
theorem takeProductSet_unlocked {b : List Byte} {i : Fin 8} (hi : field b 0 1 = i.val) {s : State}
    (hlock : s.resolveLock = false) :
    let e := productCarried b
    let idTaken := e.enabled = true
      ∧ ∃ j : Fin 8, j ≠ i ∧ (s.resolve.products.nth j).enabled = true ∧ (s.resolve.products.nth j).id = e.id
    (¬ProductInRange b ∨ idTaken → takeProductSet b s = .refuse s .range)
      ∧ (ProductInRange b → ¬idTaken → takeProductSet b s = .ok (s.setProduct i e)) := by
  intro e idTaken
  have htaken : (e.enabled && s.idTaken i e) = true ↔ idTaken := s.idTaken_iff i e
  simp only [takeProductSet, entryOf_eq_some hi, hlock, Bool.false_eq_true, if_false]
  by_cases hrange : ProductInRange b
  · rw [productFields_of_inRange hrange]
    exact ⟨fun hbad => if_pos (htaken.2 (hbad.resolve_left (not_not_intro hrange))),
      fun _ hfree => if_neg (mt htaken.1 hfree)⟩
  · rw [productFields_of_not_inRange hrange]
    exact ⟨fun _ => rfl, fun hin => absurd hin hrange⟩

theorem execProductSet_of {s : State} {p : PortId} {f : CtlFrame} (hhead : s.Heads p f 0x61#8 17) {u : State} {r : Result}
    {d : List Byte} (howner : takeProductSet f.payload s = ⟨u, r, d⟩) :
    exec (.productSet p) s = .next (u.respond p f r d) :=
  command_runs takeProductSet hhead (by decide) (by decide) howner

/-- Settles O43: each clause is a clause of the owner's equations, carried through the response. -/
theorem resolveSettingsAndProductsAreSet : Obligations.ResolveSettingsAndProductsAreSet := by
  refine ⟨fun s p f hhead => ?resolve, fun s p f hhead => ⟨fun hbad => ?badEntry, fun i hi => ?entry⟩⟩
  case resolve =>
    refine ⟨fun hl => ?_, fun hl hbad => ?_, fun hl hrange => ?_⟩
    · exact execResolveSet_of hhead (takeResolveSet_locked ((resolveLock_iff_resolving s).2 hl) f.payload)
    · obtain ⟨hrefused, -⟩ := takeResolveSet_unlocked ((resolveLock_eq_false_iff s).2 hl) f.payload
      exact execResolveSet_of hhead (hrefused hbad)
    · obtain ⟨-, hset⟩ := takeResolveSet_unlocked ((resolveLock_eq_false_iff s).2 hl) f.payload
      exact execResolveSet_of hhead (hset hrange)
  case badEntry => exact execProductSet_of hhead (takeProductSet_badEntry hbad s)
  case entry =>
    refine ⟨fun hl => ?_, fun hl hbad => ?_, fun hl hrange hfree => ?_⟩
    · exact execProductSet_of hhead (takeProductSet_locked hi ((resolveLock_iff_resolving s).2 hl))
    · obtain ⟨hrefused, -⟩ := takeProductSet_unlocked hi ((resolveLock_eq_false_iff s).2 hl)
      exact execProductSet_of hhead (hrefused hbad)
    · obtain ⟨-, hset⟩ := takeProductSet_unlocked hi ((resolveLock_eq_false_iff s).2 hl)
      exact execProductSet_of hhead (hset hrange hfree)

end Sys2Proof.Machine
end

section
/-! SUPPORT. The commands of the resolve sequencer, RESOLVE_START, RESOLVE_ABORT and BANK_RELEASE (R148 to R151). -/

namespace Sys2Proof.Machine

/-! ## What a pass is told to do (R149, R150) -/

theorem State.askRestart_of_noRow {s : State} (hlane : s.px.lane = none) : s.askRestart = s.restartPass.autoStart :=
  if_pos hlane

theorem State.askRestart_of_row {s : State} (hlane : s.px.lane ≠ none) :
    s.askRestart = s.updResolve fun r => { r with state := .restarting } := if_neg hlane

theorem State.askEnd_of_noRow {s : State} (hlane : s.px.lane = none) : s.askEnd = s.endPass.autoStart := if_pos hlane

theorem State.askEnd_of_row {s : State} (hlane : s.px.lane ≠ none) :
    s.askEnd = s.updResolve fun r => { r with state := .ending } := if_neg hlane

/-! ## RESOLVE_START (R148) -/

theorem takeResolveStart_badBank {b : List Byte} (h : 2 ≤ field b 0 1) (s : State) :
    takeResolveStart b s = .refuse s .range := by
  rw [takeResolveStart, bankOf_eq_none h]

section
variable {b : List Byte} {k : BankId} (hk : field b 0 1 = k.val) {s : State}
include hk

theorem takeResolveStart_of_running (h : s.resolve.state = .running) :
    takeResolveStart b s = if k = s.resolve.passBank then .ok s.askRestart else .refuse s .busy := by
  simp only [takeResolveStart, bankOf_eq_some hk, h]

theorem takeResolveStart_of_restarting (h : s.resolve.state = .restarting) :
    takeResolveStart b s = if k = s.resolve.passBank then .ok s else .refuse s .busy := by
  simp only [takeResolveStart, bankOf_eq_some hk, h]

theorem takeResolveStart_of_ending (h : s.resolve.state = .ending) : takeResolveStart b s = .refuse s .busy := by
  simp only [takeResolveStart, bankOf_eq_some hk, h]

theorem takeResolveStart_of_idle (h : s.resolve.state = .idle) :
    takeResolveStart b s
      = if (s.bank k).state = .closed ∨ (s.bank k).state = .resolved then .ok (s.openPass k).autoStart
        else .refuse s .state := by
  simp only [takeResolveStart, bankOf_eq_some hk, h]

/-- A pass is under way, or told to begin again, on another bank than the command's (R148). -/
theorem takeResolveStart_of_otherBank (h : s.resolve.state = .running ∨ s.resolve.state = .restarting)
    (hother : k ≠ s.resolve.passBank) : takeResolveStart b s = .refuse s .busy := by
  rcases h with h | h
  · rw [takeResolveStart_of_running hk h, if_neg hother]
  · rw [takeResolveStart_of_restarting hk h, if_neg hother]

end

theorem execResolveStart_of {s : State} {p : PortId} {f : CtlFrame} (hhead : s.Heads p f 0x62#8 1) {u : State} {r : Result}
    {d : List Byte} (howner : takeResolveStart f.payload s = ⟨u, r, d⟩) :
    exec (.resolveStart p) s = .next (u.respond p f r d) :=
  command_runs takeResolveStart hhead (by decide) (by decide) howner

/-! ## RESOLVE_ABORT (R150) -/

theorem takeResolveAbort_of_idle {s : State} (h : s.resolve.state = .idle) (b : List Byte) :
    takeResolveAbort b s = .refuse s .state := by
  simp only [takeResolveAbort, h]

theorem takeResolveAbort_of_ending {s : State} (h : s.resolve.state = .ending) (b : List Byte) :
    takeResolveAbort b s = .ok s := by
  simp only [takeResolveAbort, h]

theorem takeResolveAbort_of_pass {s : State} (h : s.resolve.state = .running ∨ s.resolve.state = .restarting)
    (b : List Byte) : takeResolveAbort b s = .ok s.askEnd := by
  rcases h with h | h <;> simp only [takeResolveAbort, h]

theorem execResolveAbort_of {s : State} {p : PortId} {f : CtlFrame} (hhead : s.Heads p f 0x63#8 0) {u : State} {r : Result}
    {d : List Byte} (howner : takeResolveAbort f.payload s = ⟨u, r, d⟩) :
    exec (.resolveAbort p) s = .next (u.respond p f r d) :=
  command_runs takeResolveAbort hhead (by decide) (by decide) howner

/-! ## BANK_RELEASE (R151) -/

theorem takeBankRelease_badBank {b : List Byte} (h : 2 ≤ field b 0 1) (s : State) :
    takeBankRelease b s = .refuse s .range := by
  rw [takeBankRelease, bankOf_eq_none h]

theorem takeBankRelease_eq {b : List Byte} {k : BankId} (hk : field b 0 1 = k.val) (s : State) :
    takeBankRelease b s = if (s.bank k).state = .resolved then .ok (s.retire k) else .refuse s .state := by
  rw [takeBankRelease, bankOf_eq_some hk]

theorem execBankRelease_of {s : State} {p : PortId} {f : CtlFrame} (hhead : s.Heads p f 0x64#8 1) {u : State} {r : Result}
    {d : List Byte} (howner : takeBankRelease f.payload s = ⟨u, r, d⟩) :
    exec (.bankRelease p) s = .next (u.respond p f r d) :=
  command_runs takeBankRelease hhead (by decide) (by decide) howner

/-- Settles O44: each row of the table is a case of the owner's equations, carried through the response. -/
theorem resolveCommandsDecide : Obligations.ResolveCommandsDecide := by
  refine ⟨fun s p f hhead => ⟨fun hbad => execResolveStart_of hhead (takeResolveStart_badBank hbad s), fun b hb => ?start⟩,
    fun s p f => ⟨fun hhead => ?abort, fun hhead =>
      ⟨fun hbad => execBankRelease_of hhead (takeBankRelease_badBank hbad s), fun b hb => ?release⟩⟩⟩
  case start =>
    refine ⟨fun hrun hbank hlane => ?_, fun hrun hbank hlane => ?_, fun hrestart hbank => ?_, fun hend => ?_,
      fun hpass hother => ?_, fun hidle hready => ?_, fun hidle hclosed hresolved => ?_⟩ <;>
      refine execResolveStart_of hhead ?_
    · rw [takeResolveStart_of_running hb hrun, if_pos hbank, State.askRestart_of_noRow hlane]
      rfl
    · rw [takeResolveStart_of_running hb hrun, if_pos hbank, State.askRestart_of_row hlane]
      rfl
    · rw [takeResolveStart_of_restarting hb hrestart, if_pos hbank]
      rfl
    · exact takeResolveStart_of_ending hb hend
    · exact takeResolveStart_of_otherBank hb hpass hother
    · rw [takeResolveStart_of_idle hb hidle, if_pos hready]
      rfl
    · rw [takeResolveStart_of_idle hb hidle, if_neg (not_or.2 ⟨hclosed, hresolved⟩)]
      rfl
  case abort =>
    refine ⟨fun hidle => ?_, fun hend => ?_, fun hpass hlane => ?_, fun hpass hlane => ?_⟩ <;>
      refine execResolveAbort_of hhead ?_
    · exact takeResolveAbort_of_idle hidle _
    · exact takeResolveAbort_of_ending hend _
    · rw [takeResolveAbort_of_pass hpass, State.askEnd_of_noRow hlane]
      rfl
    · rw [takeResolveAbort_of_pass hpass, State.askEnd_of_row hlane]
      rfl
  case release =>
    refine ⟨fun hresolved => ?_, fun hother => ?_⟩ <;> refine execBankRelease_of hhead ?_
    · rw [takeBankRelease_eq hb, if_pos hresolved]
      rfl
    · rw [takeBankRelease_eq hb, if_neg hother]
      rfl

end Sys2Proof.Machine
end

section
/-! SUPPORT. The product port PX: its line, its headers and its end delimiters (R145, R157, R165, R183). -/

namespace Sys2Proof.Machine

/-! ## A waiting sequencer (R145) -/

theorem State.waitsForCredit_iff (s : State) :
    s.waitsForCredit = true ↔ s.resolve.state = .running ∧ s.px.lane = none := by
  simp [State.waitsForCredit]

theorem State.resumeWalk_of_waits {s : State} (hrun : s.resolve.state = .running) (hlane : s.px.lane = none)
    (hcredit : 1 ≤ s.px.credits) : s.resumeWalk = s.beginRow :=
  if_pos ⟨s.waitsForCredit_iff.2 ⟨hrun, hlane⟩, hcredit⟩

theorem State.resumeWalk_of_stays {s : State}
    (h : s.resolve.state ≠ .running ∨ s.px.lane ≠ none ∨ s.px.credits = 0) : s.resumeWalk = s := by
  refine if_neg fun ⟨hwaits, hcredit⟩ => ?_
  obtain ⟨hrun, hlane⟩ := s.waitsForCredit_iff.1 hwaits
  rcases h with h | h | h
  · exact h hrun
  · exact h hlane
  · omega

/-! ## The line (R165) -/

/-- A truncation counts a frame in progress that is not counted yet, and no other (R156, R165; log 5). -/
theorem PxRx.uncounted_iff (x : PxRx) : x.uncounted = true ↔ ¬(x = .idle ∨ x = .rest true) := by
  cases x with
  | idle => simp [PxRx.uncounted]
  | awaitingHeader => simp [PxRx.uncounted]
  | rest counted => cases counted <;> simp [PxRx.uncounted]

/-- A frame truncated on PX, with the count of LINE_DISCARD by what was in progress (R156, R165; log 5). -/
theorem State.truncatePx_count (s : State) :
    s.truncatePx
      = s.updPx fun x =>
          { x with
            rx := .idle
            counters := { x.counters with
              lineDiscard := x.counters.lineDiscard + (if s.px.rx = .idle ∨ s.px.rx = .rest true then 0 else 1) } } := by
  simp only [State.truncatePx_eq, PxRx.uncounted_iff, ite_not]

/-- PX's line goes DOWN, before the row in transmission counts as emitted (R165). -/
def State.pxFallen (s : State) : State :=
  { s with
    px := { s.px with
      link := .down, rx := .idle, credits := 0, lane := none
      counters := { s.px.counters with
        lineDiscard := s.px.counters.lineDiscard + (if s.px.rx = .idle ∨ s.px.rx = .rest true then 0 else 1)
        prdCut := s.px.counters.prdCut + (if s.px.lane = none then 0 else 1) } }
    status := { s.status with linkDownSeen := true } }

theorem State.pxDown_of_noRow {s : State} (hlane : s.px.lane = none) : s.pxDown = s.pxFallen := by
  simp [State.pxDown, State.truncatePx_count, State.latchLinkDown, State.cutRow, State.updPx, State.pxFallen, hlane]

theorem State.pxDown_of_row {s : State} {f : PrdFrame} (hlane : s.px.lane = some f) : s.pxDown = s.pxFallen.rowSent f := by
  simp [State.pxDown, State.truncatePx_count, State.latchLinkDown, State.cutRow, State.updPx, State.pxFallen, hlane, bump]

/-! ## Headers (R157, R165, R183) -/

theorem execFrameHeader_px {s : State} (hawaits : s.px.rx = .awaitingHeader) (h : Header) (crc : BitVec 16) :
    exec (.frameHeader .px h crc) s = .next (s.pxHeader h (crc16 (headerBytes h) == crc)) := if_pos hawaits

theorem execFrameHeader_px_of_stays {s : State} (hrx : s.px.rx ≠ .awaitingHeader) (h : Header) (crc : BitVec 16) :
    exec (.frameHeader .px h crc) s = .next s := if_neg hrx

/-- PX accepts no header but a good CRD without a payload (R157, R165, R183). -/
theorem State.pxHeader_of_bad (s : State) {h : Header} {good : Bool} (hbad : good = false ∨ ∀ n, h ≠ .crd 0 n) :
    s.pxHeader h good = s.discardPx := by
  cases h with
  | crd len credits =>
    refine if_neg fun ⟨hgood, hlen⟩ => ?_
    rcases hbad with hbad | hbad
    · exact Bool.false_ne_true (hbad.symm.trans hgood)
    · exact hbad credits (by rw [hlen])
  | row | ctl | rsp | prd | unknown => rfl

theorem State.pxHeader_of_credits (s : State) (n : Byte) : s.pxHeader (.crd 0 n) true = s.addCredits n := rfl

/-! ## End delimiters (R157) -/

theorem State.endPxFrame_of_rest {s : State} {counted : Bool} (h : s.px.rx = .rest counted) :
    s.endPxFrame = s.setPxRx .idle := by
  simp only [State.endPxFrame, h]

theorem State.endPxFrame_of_stays {s : State} (h : s.px.rx = .idle ∨ s.px.rx = .awaitingHeader) : s.endPxFrame = s := by
  rcases h with h | h <;> simp only [State.endPxFrame, h]

/-- Settles O12: the line by the row in transmission, a header by whether it is a good CRD, an end delimiter by the frame in
progress. -/
theorem productPortEvents : Obligations.ProductPortEvents := by
  refine ⟨fun s => ?line, fun s h crc => ?header, fun s received => ?delimiter⟩
  case line =>
    intro u
    have hfalls : s.px.link = .up → exec .pxLineDown s = .next s.pxDown := fun hup => if_neg (by simp [hup])
    refine ⟨rfl, fun hdown => if_pos hdown, fun hup hlane => ?_, fun f hup hlane => ?_⟩
    · rw [hfalls hup, State.pxDown_of_noRow hlane]
      rfl
    · rw [hfalls hup, State.pxDown_of_row hlane]
      rfl
  case header =>
    intro gone
    refine ⟨fun hrx => execFrameHeader_px_of_stays hrx h crc, fun hawaits hcrc => ?_, fun hawaits hkind => ?_,
      fun n hawaits hcrd hcrc => ?_⟩
    · rw [execFrameHeader_px hawaits, s.pxHeader_of_bad (.inl (beq_eq_false_iff_ne.2 hcrc))]
      rfl
    · rw [execFrameHeader_px hawaits, s.pxHeader_of_bad (.inr hkind)]
      rfl
    · intro u
      have hadd : exec (.frameHeader .px h crc) s = .next u.resumeWalk := by
        rw [execFrameHeader_px hawaits, hcrc, beq_self_eq_true, hcrd, State.pxHeader_of_credits]
        rfl
      refine ⟨fun hrun hlane hcredit => ?_, fun hstays => ?_⟩
      · rw [hadd, State.resumeWalk_of_waits (s := u) hrun hlane hcredit]
      · rw [hadd, State.resumeWalk_of_stays (s := u) hstays]
  case delimiter =>
    intro ends
    have hends : ends s.endPxFrame := ⟨rfl, rfl⟩
    refine ⟨fun counted hrest => ?_, fun hstays => ?_⟩
    · rwa [State.endPxFrame_of_rest hrest] at hends
    · rwa [State.endPxFrame_of_stays hstays] at hends

end Sys2Proof.Machine
end

section
/-! SUPPORT. The walk over the product list, the credit at a row boundary and the egress timer (R144 to R147, R172). -/

namespace Sys2Proof.Machine

/-! ## The walk (R144, R147) -/

/-- A window is empty when a corner lies before the other (R139). -/
theorem Product.emptyWindow_iff (e : Product) : e.emptyWindow = true ↔ e.x1 < e.x0 ∨ e.y1 < e.y0 := by
  simp [Product.emptyWindow]

section
variable {s : State} {i : Fin 8}

theorem State.seek_of_disabled (h : (s.resolve.products.nth i).enabled = false) (rest : List (Fin 8)) :
    State.seek (i :: rest) s = State.seek rest (s.updEntry i fun x => { x with status := .disabled }) := if_pos h

theorem State.seek_of_empty (henabled : (s.resolve.products.nth i).enabled = true)
    (hempty : (s.resolve.products.nth i).emptyWindow = true) (rest : List (Fin 8)) :
    State.seek (i :: rest) s = State.seek rest (s.updEntry i fun x => { x with status := .empty }) := by
  simp [State.seek, henabled, hempty]

theorem State.seek_of_rows (henabled : (s.resolve.products.nth i).enabled = true)
    (hrows : (s.resolve.products.nth i).emptyWindow = false) (rest : List (Fin 8)) :
    State.seek (i :: rest) s = s.standAt i 0 := by
  simp [State.seek, henabled, hrows]

end

/-! ## The counts of a row (R144) -/

/-- The classes of the output pixels, in the order of their codes (R184). -/
def allClasses : List PixelClass := [.nodata, .single, .pair, .split, .full, .majority, .discord, .padding]

theorem PixelClass.index_eq (k : PixelClass) : k.index.val = allClasses.idxOf k := by
  cases k <;> rfl

/-- Each class has a count of its own. -/
theorem PixelClass.index_inj {a b : PixelClass} : a.index = b.index ↔ a = b := by
  have hplace : ∀ k : PixelClass, allClasses[k.index.val]? = some k := by
    intro k
    cases k <;> rfl
  refine ⟨fun h => Option.some.inj ?_, congrArg PixelClass.index⟩
  rw [← hplace a, ← hplace b, h]

/-- The pixels of a row add to each class's count as many as are of the class. -/
theorem addCounts_nth (counts : Tab 8 Nat) (pixels : List OutPixel) (k : PixelClass) :
    (State.addCounts counts pixels).nth k.index = counts.nth k.index + pixels.countP fun x => x.cls == k := by
  induction pixels generalizing counts with
  | nil => rfl
  | cons x xs ih =>
    have hstep : State.addCounts counts (x :: xs) = State.addCounts (counts.modify x.cls.index (· + 1)) xs := rfl
    rw [hstep, ih, Tab.nth_modify, List.countP_cons]
    by_cases hcls : x.cls = k
    · subst hcls
      simp
      omega
    · simp [PixelClass.index_inj, hcls]

/-! ## The row boundary (R145, R146) -/

/-- A credit is taken and the frame of a row goes on PX, before its pixels are counted (R145; log 25). -/
def State.sendRow (s : State) (f : PrdFrame) : State :=
  { s with
    px := { s.px with credits := s.px.credits - 1, lane := some f }
    resolve := { s.resolve with egressTimer := .stopped } }

section
variable {s : State} {p : Snapshot} (hsnapshot : s.resolve.snapshot = some p)
include hsnapshot

theorem State.beginRow_of_snapshot :
    s.beginRow
      = (s.sendRow (s.prdFrame p)).updEntry s.resolve.entry fun e =>
          { e with counts := State.addCounts e.counts (s.prdFrame p).pixels } := by
  simp only [State.beginRow, hsnapshot]
  rfl

/-- The row at which the walk stands goes into transmission, and its pixels are counted in its entry (R144, R145; log 14). -/
theorem State.beginRow_eq {m : Report} (hbuilding : s.resolve.building = some m) :
    let i := s.resolve.entry
    let f := s.prdFrame p
    s.beginRow
      = { s with
          px := { s.px with credits := s.px.credits - 1, lane := some f }
          resolve := { s.resolve with
            egressTimer := .stopped
            building := some { m with
              entries := m.entries.put i
                { m.entries.nth i with counts := State.addCounts (m.entries.nth i).counts f.pixels } } } } := by
  intro i f
  rw [State.beginRow_of_snapshot hsnapshot, State.updEntry_of_building (s := s.sendRow f) hbuilding]
  rfl

end

/-- The walk stands at a row (R144). -/
def State.atRow (s : State) (i : Fin 8) (row : Nat) : State := { s with resolve := { s.resolve with entry := i, row := row } }

section
variable {s : State} (i : Fin 8) (row : Nat)

theorem State.standAt_of_credit (hcredit : 1 ≤ s.px.credits) : s.standAt i row = (s.atRow i row).beginRow :=
  if_pos hcredit

theorem State.standAt_of_marked (hnone : s.px.credits = 0) (hmark : s.resolve.egressMark = true) :
    s.standAt i row = s.atRow i row := by
  simp [State.standAt, State.updResolve, State.atRow, hnone, hmark]

theorem State.standAt_of_unmarked (hnone : s.px.credits = 0) (hmark : s.resolve.egressMark = false) :
    s.standAt i row = (s.atRow i row).updResolve fun r => { r with egressTimer := .running 100 } := by
  simp [State.standAt, State.updResolve, State.atRow, hnone, hmark, Config.egressStallMs]

end

/-! ## The egress timer (R146, R172) -/

theorem execEgressTimerExpiry_of_stopped {s : State} (h : s.resolve.egressTimer = .stopped) :
    exec .egressTimerExpiry s = .next s := by
  simp only [exec, execEgressTimerExpiry, h]

theorem execEgressTimerExpiry_of_running {s : State} {ms : Nat} (h : s.resolve.egressTimer = .running ms) :
    exec .egressTimerExpiry s = .next s.egressExpires := by
  simp only [exec, execEgressTimerExpiry, h]

theorem State.egressExpires_of_waits {s : State} (h : s.waitsForCredit = true) :
    s.egressExpires
      = { s with
          resolve := { s.resolve with egressTimer := .stopped, egressMark := true }
          status := { s.status with egressStall := true } } := if_pos h

theorem State.egressExpires_of_stays {s : State} (h : ¬s.waitsForCredit = true) :
    s.egressExpires = { s with resolve := { s.resolve with egressTimer := .stopped } } := if_neg h

/-- Settles O46: an entry by its two tests, a row boundary by the credits and the mark, an expiry by whether the sequencer still
waits. -/
theorem walkTakesCreditsOrStalls : Obligations.WalkTakesCreditsOrStalls := by
  refine ⟨⟨fun _ => rfl, fun s i rest m hbuilding => ?walk, fun s i row p m hsnapshot hbuilding => ?boundary⟩,
    fun s => ?timer⟩
  case walk =>
    intro e marked
    have hempty : e.emptyWindow = true ↔ e.x1 < e.x0 ∨ e.y1 < e.y0 := e.emptyWindow_iff
    refine ⟨fun hdisabled => ?_, fun henabled hwindow => ?_, fun henabled hx hy => ?_⟩
    · rw [State.seek_of_disabled hdisabled, State.updEntry_of_building hbuilding]
    · rw [State.seek_of_empty henabled (hempty.2 hwindow), State.updEntry_of_building hbuilding]
    · refine State.seek_of_rows henabled ?_ rest
      rw [← Bool.not_eq_true, hempty]
      omega
  case boundary =>
    intro r f
    refine ⟨fun hcredit => ?_, State.beginRow_eq hsnapshot hbuilding, addCounts_nth _ _, State.standAt_of_marked i row,
      State.standAt_of_unmarked i row⟩
    rw [State.standAt_of_credit i row hcredit]
    exact State.beginRow_eq (s := s.atRow i row) hsnapshot hbuilding
  case timer =>
    refine ⟨execEgressTimerExpiry_of_stopped, fun ms hrunning => ?_⟩
    rw [execEgressTimerExpiry_of_running hrunning]
    refine ⟨fun hrun hlane => ?_, fun hother => ?_⟩
    · rw [State.egressExpires_of_waits (s.waitsForCredit_iff.2 ⟨hrun, hlane⟩)]
    · rw [State.egressExpires_of_stays]
      rw [s.waitsForCredit_iff, Decidable.not_and_iff_not_or_not]
      exact hother

end Sys2Proof.Machine
end

section
/-! SUPPORT. The rows of a product and their bytes: the grid of an entry's window (R139, R144), and the PRD frame as sent (R182 to
R184). -/

namespace Sys2Proof.Machine

/-! ## The grid of a window (R139) -/

/-- The points of a span, one every `stride` from its first, up to its last: how many there are, and where the last of them and
the next one after it stand. -/
theorem gridCount_bounds {lo hi : Int} {stride n : Nat} (hspan : lo ≤ hi) (hstride : 1 ≤ stride)
    (hn : n = (floorDiv (hi - lo) stride).toNat + 1) :
    (n : Int) = floorDiv (hi - lo) stride + 1 ∧ lo + ((n : Int) - 1) * stride ≤ hi ∧ hi < lo + (n : Int) * stride
      ∧ (-16384 ≤ lo → hi ≤ 32767 → n ≤ 49152) := by
  have hnonneg : 0 ≤ floorDiv (hi - lo) stride := Int.ediv_nonneg (by omega) (by omega)
  have hle : floorDiv (hi - lo) stride ≤ hi - lo := Int.ediv_le_self _ (by omega)
  obtain ⟨hlow, hhigh⟩ := floorDiv_bounds (hi - lo) (show (0 : Int) < stride by omega)
  have hcount : (n : Int) = floorDiv (hi - lo) stride + 1 := by omega
  refine ⟨hcount, ?_, ?_, by omega⟩
  · rw [hcount, Int.add_sub_cancel, Int.mul_comm]
    omega
  · rw [hcount, Int.add_mul, Int.mul_comm, Int.one_mul]
    omega

theorem State.rowPixels_length (s : State) (p : Snapshot) (b : BankId) (e : Product) (i : Nat) :
    (s.rowPixels p b e i).length = e.pixelCount := by
  simp [State.rowPixels]

theorem State.rowPixels_getElem? (s : State) (p : Snapshot) (b : BankId) (e : Product) (i : Nat) {j : Nat}
    (hj : j < e.pixelCount) :
    (s.rowPixels p b e i)[j]?
      = some (s.resolveAt p b e.fillValue (e.x0 + (j : Int) * e.stride) (e.y0 + (i : Int) * e.stride)) := by
  simp [State.rowPixels, hj]

/-- No position lies on a canvas without cells, so that every pixel of a row is PADDING (R123, R124). -/
theorem State.rowPixels_of_noCells {s : State} (hnone : s.canvas.width = 0 ∨ s.canvas.height = 0) (p : Snapshot) (b : BankId)
    (e : Product) (i : Nat) : s.rowPixels p b e i = List.replicate e.pixelCount (paddingPixel e.fillValue) := by
  have hpadding : ∀ x y, s.resolveAt p b e.fillValue x y = paddingPixel e.fillValue := fun x y =>
    State.resolveAt_of_off (by rw [s.onCanvas_iff]; omega) p b e.fillValue
  simp only [State.rowPixels, hpadding, List.map_const', List.length_range]

/-! ## Signed fields (R185) -/

/-- A signed field at its place among other bytes reads as the number written there. -/
theorem signedField_at {before after l : List Byte} {k n : Nat} {x : Int} (e : l = before ++ beInt n x ++ after)
    (hk : before.length = k) (hn : 1 ≤ n) (hlow : -(256 ^ n / 2 : Nat) ≤ x) (hhigh : x < (256 ^ n / 2 : Nat)) :
    signedField l k n = x := by
  have heven : 256 ^ n = 2 * (256 ^ n / 2) := by
    obtain ⟨m, rfl⟩ : ∃ m, n = m + 1 := ⟨n - 1, by omega⟩
    rw [Nat.pow_succ]
    omega
  have hfield : field l k n = (x % (256 ^ n : Nat)).toNat := by
    refine field_at e hk ?_
    have := Int.emod_lt_of_pos x (show (0 : Int) < (256 ^ n : Nat) by omega)
    omega
  rw [signedField, hfield]
  generalize 256 ^ n = m at *
  rcases Int.lt_or_le x 0 with hneg | hpos
  · have hmod : x % (m : Int) = x + m := by
      rw [← Int.add_emod_right, Int.emod_eq_of_lt (by omega) (by omega)]
    rw [hmod, if_neg (by omega)]
    omega
  · rw [Int.emod_eq_of_lt hpos (by omega), if_pos (by omega)]
    omega

/-! ## The pixels as sent (R184) -/

/-- The bytes of one pixel in a format (R184). -/
def PixelFormat.pixelBytes : PixelFormat → Nat
  | .v => 4
  | .vcm => 6
  | .vwcm => 8

theorem OutPixel.bytes_length (f : PixelFormat) (x : OutPixel) : (x.bytes f).length = f.pixelBytes := by
  cases f <;> rfl

/-- The value comes first in every format (R184). -/
theorem OutPixel.bytes_value (f : PixelFormat) {x : OutPixel} (hlow : -2147483648 ≤ x.value) (hhigh : x.value ≤ 2147483647) :
    signedField (x.bytes f) 0 4 = x.value := by
  have hbytes : ∃ after, x.bytes f = [] ++ beInt 4 x.value ++ after := by
    cases f with
    | v => exact ⟨[], (List.append_nil _).symm⟩
    | vcm => exact ⟨_, rfl⟩
    | vwcm => exact ⟨_, List.append_assoc _ _ _⟩
  obtain ⟨after, hbytes⟩ := hbytes
  exact signedField_at hbytes rfl (by decide) (by omega) (by omega)

/-- The class code of a pixel, at its place among the bytes of the pixel. -/
theorem OutPixel.field_cls {x : OutPixel} {before after l : List Byte} {k : Nat}
    (e : l = before ++ beBytes 1 x.cls.index.val ++ after) (hk : before.length = k) : field l k 1 = allClasses.idxOf x.cls := by
  rw [field_at e hk (by omega), x.cls.index_eq]

/-- An output mask holds its seven conditions from bit 0, and nothing in bit 7 (R184). -/
theorem OutMask.byte_bit (m : OutMask) (i : Fin 8) :
    m.byte.getLsbD i.val
      = [m.cell.sat, m.cell.defect, m.cell.clip, m.cell.low, m.rej, m.lowcov, m.thin, false][i] :=
  packBits_eight m.cell.sat m.cell.defect m.cell.clip m.cell.low m.rej m.lowcov m.thin false i

/-! ## The frame as sent (R182, R183) -/

theorem pixels_length (f : PixelFormat) (pixels : List OutPixel) :
    (pixels.flatMap (OutPixel.bytes f)).length = pixels.length * f.pixelBytes := by
  rw [length_flatMap_of_length (OutPixel.bytes_length f), Nat.mul_comm]

theorem PrdFrame.bytes_eq (f : PrdFrame) :
    f.bytes
      = frameBytes
          (.prd (BitVec.ofNat 24 (f.pixels.length * f.format.pixelBytes)) f.product f.tag f.pass (BitVec.ofNat 16 f.row)
            f.rowFlags (BitVec.ofNat 16 f.pixels.length))
          (f.pixels.flatMap (OutPixel.bytes f.format)) := by
  rw [← pixels_length]
  rfl

/-- The row flags as a number: no bit above the format is set (R182). -/
theorem PrdFrame.rowFlags_toNat (f : PrdFrame) :
    f.rowFlags.toNat = 2 * f.format.code + if f.last then 1 else 0 := by
  have hcode : f.format.code ≤ 2 := by
    cases f.format <;> decide
  rw [PrdFrame.rowFlags, BitVec.toNat_ofNat, Nat.mod_eq_of_lt]
  split <;> omega

/-- Settles O42: the two spans of the window alike, the row position by position, the frame by the size of its pixels, and a
pixel's fields each at its place. -/
theorem productRowsFollowTheGrid : Obligations.ProductRowsFollowTheGrid := by
  refine ⟨fun s p b e i => ⟨e.emptyWindow_iff, fun hrows hstride => ?grid, s.rowPixels_length p b e i,
    fun j => s.rowPixels_getElem? p b e i, fun hnone => State.rowPixels_of_noCells hnone p b e i, rfl⟩,
    fun f => ⟨pixels_length f.format f.pixels, f.bytes_eq, f.rowFlags_toNat⟩,
    fun x hlow hhigh hweight => ?pixel, OutMask.byte_bit⟩
  case grid =>
    have hwindow : ¬(e.x1 < e.x0 ∨ e.y1 < e.y0) := by
      rw [← e.emptyWindow_iff, hrows]
      exact Bool.false_ne_true
    obtain ⟨hR, hlastRow, hnextRow, hRmax⟩ :=
      gridCount_bounds (lo := e.y0) (hi := e.y1) (n := e.rowCount) (by omega) hstride rfl
    obtain ⟨hP, hlastCol, hnextCol, hPmax⟩ :=
      gridCount_bounds (lo := e.x0) (hi := e.x1) (n := e.pixelCount) (by omega) hstride rfl
    exact ⟨hR, hP, hlastRow, hnextRow, hlastCol, hnextCol, hRmax, hPmax⟩
  case pixel =>
    intro cls v vcm vwcm
    have hvcm : vcm = beInt 4 x.value ++ beBytes 1 x.cls.index.val ++ [x.mask.byte] := by
      simp [vcm, OutPixel.bytes, beBytes_one]
    have hvwcm : vwcm = beInt 4 x.value ++ beBytes 2 x.weight ++ beBytes 1 x.cls.index.val ++ [x.mask.byte] := by
      simp [vwcm, OutPixel.bytes, beBytes_one]
    have hweightAt : vwcm = beInt 4 x.value ++ beBytes 2 x.weight ++ (beBytes 1 x.cls.index.val ++ [x.mask.byte]) := by
      rw [hvwcm, List.append_assoc _ (beBytes 1 _)]
    exact ⟨rfl, OutPixel.bytes_value .v hlow hhigh, rfl, OutPixel.bytes_value .vcm hlow hhigh, OutPixel.field_cls hvcm rfl, rfl,
      rfl, OutPixel.bytes_value .vwcm hlow hhigh, field_at hweightAt rfl (by omega), OutPixel.field_cls hvwcm rfl, rfl⟩

end Sys2Proof.Machine
end

section
/-! SUPPORT. The return lanes and the responses: what an idle lane gives itself to, what a frame's end leaves, and what a
response carries (R161, R162, R163, R170, R171). -/

namespace Sys2Proof.Machine

/-! ## Updates of one port -/

@[simp] theorem State.port_updPort_same (s : State) (p : PortId) (f : Port → Port) : (s.updPort p f).port p = f (s.port p) := by
  simp [State.port]

theorem State.updPort_eq (s : State) (p : PortId) (f : Port → Port) :
    s.updPort p f = { s with ports := s.ports.put p (f (s.port p)) } := rfl

theorem State.updPort_updPort (s : State) (p : PortId) (f g : Port → Port) :
    (s.updPort p f).updPort p g = s.updPort p fun q => g (f q) := by
  simp [State.updPort, Tab.modify, Tab.put_put]

/-- A state that differs from another in its ports alone. -/
theorem State.eq_withPorts {s u : State}
    (h : u.px = s.px ∧ u.tiles = s.tiles ∧ u.segs = s.segs ∧ u.intake = s.intake ∧ u.cal = s.cal
      ∧ u.placements = s.placements ∧ u.canvas = s.canvas ∧ u.visit = s.visit ∧ u.resolve = s.resolve
      ∧ u.status = s.status ∧ u.pending = s.pending) : u = { s with ports := u.ports } := by
  obtain ⟨hpx, htiles, hsegs, hintake, hcal, hplacements, hcanvas, hvisit, hresolve, hstatus, hpending⟩ := h
  rw [← hpx, ← htiles, ← hsegs, ← hintake, ← hcal, ← hplacements, ← hcanvas, ← hvisit, ← hresolve, ← hstatus, ← hpending]

/-! ## Giving the lane (R162) -/

theorem State.crdNext_iff (s : State) (p : PortId) :
    s.crdNext p = true ↔ ((s.port p).owed = 0 ∨ (s.port p).backlog = []) ∧ 0 < s.ungranted p := by
  simp [State.crdNext]

theorem State.serveLane_of_rest {s : State} {p : PortId} (h : (s.port p).link = .down ∨ (s.port p).lane ≠ none) :
    s.serveLane p = s := by
  refine if_neg fun ⟨hup, hidle⟩ => ?_
  rcases h with hdown | hbusy
  · rw [hdown] at hup
    cases hup
  · exact hbusy hidle

section IdleLane

variable {s : State} {p : PortId} (hup : (s.port p).link = .up) (hidle : (s.port p).lane = none)

include hup hidle

theorem State.serveLane_of_crd (hturn : (s.port p).owed = 0 ∨ (s.port p).backlog = []) (hfree : 0 < s.ungranted p) :
    s.serveLane p
      = s.updPort p fun q => { q with lane := some (.crd (s.ungranted p)), granted := q.granted + s.ungranted p } := by
  rw [State.serveLane, if_pos ⟨hup, hidle⟩, if_pos ((s.crdNext_iff p).2 ⟨hturn, hfree⟩)]

theorem State.serveLane_of_rsp {r : Rsp} {rest : List Rsp} (hbacklog : (s.port p).backlog = r :: rest)
    (hturn : s.ungranted p = 0 ∨ (s.port p).owed ≠ 0) :
    s.serveLane p = s.updPort p fun q => { q with lane := some (.rsp r), backlog := rest, owed := q.owed - 1 } := by
  have hnot : ¬s.crdNext p = true := by
    rw [State.crdNext_iff, hbacklog]
    rintro ⟨howed | hempty, hfree⟩
    · omega
    · cases hempty
  rw [State.serveLane, if_pos ⟨hup, hidle⟩, if_neg hnot, hbacklog]

theorem State.serveLane_of_nothing (hbacklog : (s.port p).backlog = []) (hfull : s.ungranted p = 0) : s.serveLane p = s := by
  have hnot : ¬s.crdNext p = true := by
    rw [State.crdNext_iff]
    omega
  rw [State.serveLane, if_pos ⟨hup, hidle⟩, if_neg hnot, hbacklog]

end IdleLane

/-- Serving a lane does one of three things: nothing, a CRD on an idle lane, or the oldest waiting RSP on an idle lane. -/
theorem State.serveLane_cases (s : State) (p : PortId) :
    s.serveLane p = s
      ∨ ((s.port p).lane = none
          ∧ s.serveLane p
            = s.updPort p fun q => { q with lane := some (.crd (s.ungranted p)), granted := q.granted + s.ungranted p })
      ∨ ∃ r rest, (s.port p).lane = none ∧ (s.port p).backlog = r :: rest
          ∧ s.serveLane p = s.updPort p fun q => { q with lane := some (.rsp r), backlog := rest, owed := q.owed - 1 } := by
  by_cases hserves : (s.port p).link = .up ∧ (s.port p).lane = none
  case neg => exact .inl (if_neg hserves)
  obtain ⟨hup, hidle⟩ := hserves
  by_cases hcrd : ((s.port p).owed = 0 ∨ (s.port p).backlog = []) ∧ 0 < s.ungranted p
  case pos =>
    obtain ⟨hturn, hfree⟩ := hcrd
    exact .inr (.inl ⟨hidle, State.serveLane_of_crd hup hidle hturn hfree⟩)
  cases hbacklog : (s.port p).backlog with
  | nil =>
    exact .inl (State.serveLane_of_nothing hup hidle hbacklog
      (Nat.eq_zero_of_not_pos fun hfree => hcrd ⟨.inr hbacklog, hfree⟩))
  | cons r rest =>
    refine .inr (.inr ⟨r, rest, hidle, rfl, State.serveLane_of_rsp hup hidle hbacklog ?_⟩)
    rcases Nat.eq_zero_or_pos (s.ungranted p) with hfull | hfree
    · exact .inl hfull
    · exact .inr fun howed => hcrd ⟨.inl howed, hfree⟩

/-- Serving a lane moves credits and the oldest RSP, and leaves the rest of its port; the RSPs leave in the order in which they
were composed. -/
theorem State.serveLane_keeps (s : State) (p : PortId) :
    ((s.serveLane p).port p).queue = (s.port p).queue ∧ ((s.serveLane p).port p).link = (s.port p).link
      ∧ ((s.serveLane p).port p).rx = (s.port p).rx ∧ ((s.serveLane p).port p).taken = (s.port p).taken
      ∧ ((s.serveLane p).port p).flags = (s.port p).flags ∧ ((s.serveLane p).port p).counters = (s.port p).counters
      ∧ (s.serveLane p).responses p = s.responses p := by
  rw [State.responses, State.responses]
  obtain hsame | ⟨hidle, hcrd⟩ | ⟨r, rest, hidle, hbacklog, hrsp⟩ := s.serveLane_cases p
  · rw [hsame]
    exact ⟨rfl, rfl, rfl, rfl, rfl, rfl, rfl⟩
  · rw [hcrd, State.port_updPort_same, hidle]
    exact ⟨rfl, rfl, rfl, rfl, rfl, rfl, rfl⟩
  · rw [hrsp, State.port_updPort_same, hidle, hbacklog]
    exact ⟨rfl, rfl, rfl, rfl, rfl, rfl, rfl⟩

/-! ## A frame's end (R162) -/

theorem State.finishReturnFrame_of_idle {s : State} {p : PortId} (h : (s.port p).lane = none) :
    s.finishReturnFrame p = s := by
  rw [State.finishReturnFrame, h]

theorem State.finishReturnFrame_of_crd {s : State} {p : PortId} {n : Nat} (h : (s.port p).lane = some (.crd n)) :
    s.finishReturnFrame p = (s.updPort p fun q => { q with lane := none, owed := q.backlog.length }).serveLane p := by
  rw [State.finishReturnFrame, h]

theorem State.finishReturnFrame_of_rsp {s : State} {p : PortId} {r : Rsp} (h : (s.port p).lane = some (.rsp r)) :
    s.finishReturnFrame p = (s.updPort p fun q => { q with lane := none }).serveLane p := by
  rw [State.finishReturnFrame, h]

/-- Settles O8: the lane's turn by the order of R162, and the frame that leaves it. -/
theorem returnLaneSendsCreditsAndResponses : Obligations.ReturnLaneSendsCreditsAndResponses := by
  refine ⟨fun s => ⟨State.eq_withPorts s.serveAll_frame, s.serveAll_ports⟩, fun s p => ?_⟩
  refine ⟨State.serveLane_of_rest, fun hup hidle => ⟨fun hfree hturn => ?crd, fun r rest hbacklog hturn => ?rsp,
    fun hfull hbacklog => State.serveLane_of_nothing hup hidle hbacklog hfull⟩, fun hidle => ?idle, fun n hcrd => ?crdSent,
    fun r hrsp => ?rspSent⟩
  case crd => exact State.serveLane_of_crd hup hidle hturn hfree
  case rsp => exact State.serveLane_of_rsp hup hidle hbacklog hturn
  case idle => exact congrArg _ (State.finishReturnFrame_of_idle hidle)
  case crdSent => exact congrArg _ (State.finishReturnFrame_of_crd hcrd)
  case rspSent => exact congrArg _ (State.finishReturnFrame_of_rsp hrsp)

/-! ## Responses (R161, R162, R163, R170, R171) -/

theorem State.composeRsp_of_room {s : State} {p : PortId} (hup : (s.port p).link = .up)
    (hroom : (s.port p).backlog.length < 8) (code : Byte) (request : BitVec 16) (r : Result) (d : List Byte) :
    s.composeRsp p code request r d
      = s.updPort p fun q =>
          { q with backlog := q.backlog ++ [⟨s.statusWord p code request r, d⟩], flags := .clear } := if_pos ⟨hup, hroom⟩

theorem State.composeRsp_of_lost {s : State} {p : PortId}
    (hlost : (s.port p).link = .down ∨ 8 ≤ (s.port p).backlog.length) (code : Byte) (request : BitVec 16) (r : Result)
    (d : List Byte) :
    s.composeRsp p code request r d
      = s.updPort p fun q => { q with counters := { q.counters with rspLost := q.counters.rspLost + 1 } } := by
  refine if_neg fun ⟨hup, hroom⟩ => ?_
  rcases hlost with hdown | hfull
  · rw [hdown] at hup
    cases hup
  · exact absurd hroom (Nat.not_lt.2 hfull)

/-- Composing an RSP leaves what its port receives and holds. -/
theorem State.composeRsp_keeps (s : State) (p : PortId) (code : Byte) (request : BitVec 16) (r : Result) (d : List Byte) :
    ((s.composeRsp p code request r d).port p).queue = (s.port p).queue
      ∧ ((s.composeRsp p code request r d).port p).link = (s.port p).link
      ∧ ((s.composeRsp p code request r d).port p).rx = (s.port p).rx
      ∧ ((s.composeRsp p code request r d).port p).taken = (s.port p).taken := by
  unfold State.composeRsp
  split <;>
  · rw [State.port_updPort_same]
    exact ⟨rfl, rfl, rfl, rfl⟩

theorem State.respond_other (s : State) {p o : PortId} (ho : o ≠ p) (f : CtlFrame) (r : Result) (d : List Byte) :
    (s.respond p f r d).port o = s.port o := by
  have hp : p ≠ o := Ne.symm ho
  rw [State.respond, State.port, State.serveLane_other _ hp, State.updPort_other _ hp, State.composeRsp_other s hp, State.port]

theorem State.responses_updPort (s : State) (p : PortId) (f : Port → Port) :
    (s.updPort p f).responses p = laneRsp (f (s.port p)).lane ++ (f (s.port p)).backlog := by
  rw [State.responses, State.port_updPort_same]

/-- The end of a command: what the composed RSP leaves of the port, without the frame at the head of the queue. -/
theorem State.respond_keeps (s : State) (p : PortId) (f : CtlFrame) (r : Result) (d : List Byte) :
    ((s.respond p f r d).port p).queue = (s.port p).queue.tail ∧ ((s.respond p f r d).port p).link = (s.port p).link
      ∧ ((s.respond p f r d).port p).rx = (s.port p).rx ∧ ((s.respond p f r d).port p).taken = (s.port p).taken
      ∧ ((s.respond p f r d).port p).flags = ((s.composeRsp p f.code f.request r d).port p).flags
      ∧ ((s.respond p f r d).port p).counters = ((s.composeRsp p f.code f.request r d).port p).counters
      ∧ (s.respond p f r d).responses p = (s.composeRsp p f.code f.request r d).responses p := by
  have hserved :=
    ((s.composeRsp p f.code f.request r d).updPort p fun q => { q with queue := q.queue.tail }).serveLane_keeps p
  rw [State.port_updPort_same, State.responses_updPort, ← State.respond] at hserved
  obtain ⟨hqueue, hlink, hrx, htaken, hrest⟩ := hserved
  obtain ⟨hqueue', hlink', hrx', htaken'⟩ := s.composeRsp_keeps p f.code f.request r d
  exact ⟨hqueue.trans (congrArg List.tail hqueue'), hlink.trans hlink', hrx.trans hrx', htaken.trans htaken', hrest⟩

/-- Settles O9: the response joins the backlog or is lost, its frame leaves the queue, and serving the lane keeps the order of
the responses. -/
theorem responsesCarryTheStatusWord : Obligations.ResponsesCarryTheStatusWord := by
  refine ⟨fun s p code request r => rfl, fun s p f r d => ?_⟩
  obtain ⟨hqueue, hlink, hrx, htaken, hflags, hcounters, hresponses⟩ := s.respond_keeps p f r d
  refine ⟨State.eq_withPorts (s.respond_frame p f r d), fun o ho => s.respond_other ho f r d, hqueue, hlink, hrx, htaken,
    fun hup hroom => ?_, fun hlost => ?_⟩
  · rw [State.composeRsp_of_room hup hroom, State.port_updPort_same] at hflags hcounters
    rw [State.composeRsp_of_room hup hroom, State.responses_updPort, ← List.append_assoc] at hresponses
    exact ⟨hresponses, hflags, hcounters⟩
  · rw [State.composeRsp_of_lost hlost, State.port_updPort_same] at hflags hcounters
    rw [State.composeRsp_of_lost hlost, State.responses_updPort] at hresponses
    exact ⟨hresponses, hflags, hcounters⟩

end Sys2Proof.Machine
end

section
/-! SUPPORT. The lines of the ingress ports and the frames that are cut or discarded (R156, R157, R163, R164). -/

namespace Sys2Proof.Machine

/-! ## LINE_UP and LINE_DOWN (R163, R164) -/

theorem execLineUp_of_up {s : State} {p : PortId} (h : (s.port p).link = .up) : exec (.lineUp p) s = .next s := if_pos h

theorem execLineUp_of_down {s : State} {p : PortId} (h : (s.port p).link = .down) :
    exec (.lineUp p) s = .next ((s.updPort p fun q => { q with link := .up }).serveLane p) :=
  if_neg (by simp [h])

theorem execLineDown_of_down {s : State} {p : PortId} (h : (s.port p).link = .down) : exec (.lineDown p) s = .next s := if_pos h

theorem execLineDown_of_up {s : State} {p : PortId} (h : (s.port p).link = .up) :
    exec (.lineDown p) s = .next (s.lineFall p) := if_neg (by simp [h])

/-- With nothing granted, the ungranted free buffers of a port are its free buffers (R155). -/
theorem State.ungranted_lineUp {s : State} {p : PortId} (hgranted : (s.port p).granted = 0) :
    (s.updPort p fun q => { q with link := .up }).ungranted p = 32 - s.occupied p := by
  simp [State.ungranted, State.occupied, State.port, State.lane, Config.rowBuffers] at hgranted ⊢
  rw [hgranted, Nat.add_zero]

/-- Which frames in progress a truncation or a line that goes DOWN counts (log 5). -/
theorem Rx.uncounted_iff (x : Rx) : x.uncounted = true ↔ ¬(x = .idle ∨ x = .rest true) := by
  cases x with
  | rest counted => cases counted <;> decide
  | _ => simp [Rx.uncounted]

/-- What a cut frame adds to LINE_DISCARD (R156, R161; log 5). -/
theorem Rx.discards_eq (x : Rx) :
    (if x.uncounted then 1 else 0 : BitVec 32) = if x = .idle ∨ x = .rest true then 0 else 1 := by
  simp only [Rx.uncounted_iff, ite_not]

theorem Rx.discards_of_busy {x : Rx} (h : x ≠ .idle) :
    (if x.uncounted then 1 else 0 : BitVec 32) = if x = .rest true then 0 else 1 := by
  simp only [Rx.discards_eq, h, false_or]

/-- What LINE_DOWN leaves (R163; log 5). -/
theorem State.lineFall_eq (s : State) (p : PortId) :
    s.lineFall p
      = { s.updPort p fun q =>
            { q with
              link := .down, rx := .idle, lane := none, backlog := [], owed := 0, granted := 0
              counters := { q.counters with
                lineDiscard := q.counters.lineDiscard + (if q.rx = .idle ∨ q.rx = .rest true then 0 else 1)
                rspLost := q.counters.rspLost + BitVec.ofNat 32 q.backlog.length } } with
          status := { s.status with linkDownSeen := true } } := by
  rw [State.lineFall, State.cutFrame_eq, State.updPort_updPort, Rx.discards_eq]
  rfl

/-- Settles O11: a line that comes UP serves its lane with everything free, and one that goes DOWN leaves the port quiet. -/
theorem ingressLineEvents : Obligations.IngressLineEvents := by
  refine ⟨fun s p => ⟨execLineUp_of_up, fun hdown hquiet hfree => ?free, fun hdown hquiet hfull => ?full⟩,
    fun s p => ⟨execLineDown_of_down, fun hup => ?fall⟩⟩
  case free =>
    obtain ⟨-, hidle, hbacklog, hgranted⟩ := hquiet hdown
    have hungranted := State.ungranted_lineUp hgranted
    rw [execLineUp_of_down hdown,
      State.serveLane_of_crd (by rw [State.port_updPort_same]) (by rw [State.port_updPort_same]; exact hidle)
        (.inr (by rw [State.port_updPort_same]; exact hbacklog)) (by omega),
      State.updPort_updPort, hungranted]
    dsimp only
    rw [State.updPort_eq, hgranted, Nat.zero_add]
  case full =>
    obtain ⟨-, hidle, hbacklog, hgranted⟩ := hquiet hdown
    have hungranted := State.ungranted_lineUp hgranted
    rw [execLineUp_of_down hdown,
      State.serveLane_of_nothing (by rw [State.port_updPort_same]) (by rw [State.port_updPort_same]; exact hidle)
        (by rw [State.port_updPort_same]; exact hbacklog) (by omega)]
    rfl
  case fall =>
    rw [execLineDown_of_up hup, State.lineFall_eq]
    rfl

/-! ## Frames cut short (R156) -/

theorem State.truncate_of_idle {s : State} {p : PortId} (h : (s.port p).rx = .idle) : s.truncate p = s := if_pos h

/-- A frame in progress truncated, with the count of LINE_DISCARD by what was in progress (R156; log 5). -/
theorem State.truncate_count {s : State} {p : PortId} (h : (s.port p).rx ≠ .idle) :
    s.truncate p
      = s.updPort p fun q =>
          { q with
            rx := .idle
            flags := { q.flags with truncated := true }
            counters := { q.counters with
              lineDiscard := q.counters.lineDiscard + (if (s.port p).rx = .rest true then 0 else 1) } } := by
  rw [State.truncate_eq s p h, Rx.discards_of_busy h]

theorem execStartDelimiter_of_up {s : State} {p : PortId} (h : (s.port p).link = .up) :
    exec (.startDelimiter (.ingress p)) s = .next (((s.truncate p).awaitHeader p).serveLane p) := if_pos h

theorem execStartDelimiter_of_down {s : State} {p : PortId} (h : (s.port p).link = .down) :
    exec (.startDelimiter (.ingress p)) s = .next s := if_neg (by simp [h])

theorem execStartDelimiter_px_of_up {s : State} (h : s.px.link = .up) :
    exec (.startDelimiter .px) s = .next (s.truncatePx.setPxRx .awaitingHeader) := if_pos h

theorem execStartDelimiter_px_of_down {s : State} (h : s.px.link = .down) : exec (.startDelimiter .px) s = .next s :=
  if_neg (by simp [h])

theorem execLineIdleTruncation_of_busy {s : State} {p : PortId} (h : (s.port p).rx ≠ .idle) :
    exec (.lineIdleTruncation (.ingress p)) s = .next ((s.truncate p).serveLane p) := if_neg h

theorem execLineIdleTruncation_of_idle {s : State} {p : PortId} (h : (s.port p).rx = .idle) :
    exec (.lineIdleTruncation (.ingress p)) s = .next s := if_pos h

/-! ## Frames discarded at their header (R157) -/

theorem execFrameHeader_ingress {s : State} {p : PortId} (hawaits : (s.port p).rx = .awaitingHeader) (h : Header)
    (crc : BitVec 16) :
    exec (.frameHeader (.ingress p) h crc) s = .next ((s.ingressHeader p h (crc16 (headerBytes h) == crc)).serveLane p) :=
  if_pos hawaits

theorem execFrameHeader_ingress_of_stays {s : State} {p : PortId} (hrx : (s.port p).rx ≠ .awaitingHeader) (h : Header)
    (crc : BitVec 16) : exec (.frameHeader (.ingress p) h crc) s = .next s := if_neg hrx

theorem State.ingressHeader_of_badCrc (s : State) (p : PortId) (h : Header) :
    s.ingressHeader p h false = (s.setFlags p fun f => { f with hdrCrc := true }).discardAtHeader p := rfl

theorem State.ingressHeader_of_unaccepted (s : State) (p : PortId) {h : Header}
    (hrow : ∀ len tile seg tag slot row count, h ≠ .row len tile seg tag slot row count)
    (hctl : ∀ len code request, h ≠ .ctl len code request) :
    s.ingressHeader p h true = (s.setFlags p fun f => { f with unknownKind := true }).discardAtHeader p := by
  cases h with
  | row len tile seg tag slot row count => exact absurd rfl (hrow len tile seg tag slot row count)
  | ctl len code request => exact absurd rfl (hctl len code request)
  | _ => rfl

/-- A frame discarded at its header under a flag: it is counted, and its rest is ignored (R157). -/
theorem State.flagAndDiscard_eq (s : State) (p : PortId) (f : PortFlags → PortFlags) :
    (s.setFlags p f).discardAtHeader p
      = s.updPort p fun q =>
          { q with
            rx := .rest true
            flags := f q.flags
            counters := { q.counters with lineDiscard := q.counters.lineDiscard + 1 } } := by
  rw [State.discardAtHeader_eq, State.setFlags, State.updPort_updPort]

/-- Settles O13: a truncation or a discard is one update of the port, and an end delimiter acts on what is in progress. -/
theorem badFramesAreDiscarded : Obligations.BadFramesAreDiscarded := by
  refine ⟨fun s p => ⟨fun hup hidle => ?start, fun hup hbusy => ?restart, execStartDelimiter_of_down, fun hbusy => ?truncated,
      execLineIdleTruncation_of_idle, fun hup => ?pxStart, execStartDelimiter_px_of_down, ?pxTruncated⟩,
    fun s p h crc => ⟨fun hawaits hcrc => ?badCrc, fun hawaits hcrc hrow hctl => ?unaccepted,
      fun hrx => execFrameHeader_ingress_of_stays hrx h crc⟩,
    fun s p received => ⟨fun counted hrest => ?rest, fun hrx => ?stays, fun code request len hctl => ?ctl,
      fun h len hrow => ?row⟩⟩
  case start =>
    rw [execStartDelimiter_of_up hup, State.truncate_of_idle hidle]
    rfl
  case restart =>
    rw [execStartDelimiter_of_up hup, State.truncate_count hbusy, State.awaitHeader, State.setRx, State.updPort_updPort]
    rfl
  case truncated =>
    rw [execLineIdleTruncation_of_busy hbusy, State.truncate_count hbusy]
    rfl
  case pxStart =>
    rw [execStartDelimiter_px_of_up hup, State.truncatePx_count]
    rfl
  case pxTruncated => exact congrArg _ s.truncatePx_count
  case badCrc =>
    rw [execFrameHeader_ingress hawaits, beq_eq_false_iff_ne.2 hcrc, State.ingressHeader_of_badCrc, State.flagAndDiscard_eq]
    rfl
  case unaccepted =>
    rw [execFrameHeader_ingress hawaits, beq_iff_eq.2 hcrc, State.ingressHeader_of_unaccepted s p hrow hctl,
      State.flagAndDiscard_eq]
    rfl
  case rest =>
    simp only [exec, execRowEndDelimiter, execCtlEndDelimiter, hrest]
    exact ⟨rfl, rfl⟩
  case stays =>
    rcases hrx with hidle | hawaits
    · simp only [exec, execRowEndDelimiter, execCtlEndDelimiter, hidle, and_self]
    · simp only [exec, execRowEndDelimiter, execCtlEndDelimiter, hawaits, and_self]
  case ctl => simp only [exec, execRowEndDelimiter, hctl]
  case row => simp only [exec, execCtlEndDelimiter, hrow]

end Sys2Proof.Machine
end

section
/-! SUPPORT. The end of a frame on an ingress port: the payload and its CRC, the ROW frame offered to Row Intake, and the CTL
frame answered or admitted (R159, R160, R167). -/

namespace Sys2Proof.Machine

/-! ## The payload as received (R159, R182) -/

/-- The bytes received after the header are as many as it declared, with the payload CRC after a payload (R182; log 6). -/
def ReceivedWhole (len : Nat) (received : List Byte) : Prop :=
  if len = 0 then received = [] else received.length = len + 2

/-- The payload CRC is good, or absent with the payload (R159, R182). -/
def payloadGood (len : Nat) (received : List Byte) : Bool :=
  decide (len = 0 ∨ (crc16 (received.take len)).toNat = field received len 2)

theorem splitPayload_of_cut {len : Nat} {received : List Byte} (h : ¬ReceivedWhole len received) :
    splitPayload len received = none := by
  unfold splitPayload
  split
  · rename_i hlen
    rw [ReceivedWhole, if_pos hlen] at h
    exact if_neg h
  · rename_i hlen
    rw [ReceivedWhole, if_neg hlen] at h
    exact if_neg h

theorem splitPayload_of_whole {len : Nat} {received : List Byte} (h : ReceivedWhole len received) :
    splitPayload len received = some (received.take len, payloadGood len received) := by
  unfold splitPayload
  split
  · rename_i hlen
    rw [ReceivedWhole, if_pos hlen] at h
    rw [if_pos h, hlen, h]
    simp [payloadGood]
  · rename_i hlen
    rw [ReceivedWhole, if_neg hlen] at h
    have hcrc : (received.drop len).take 2 = received.drop len := List.take_of_length_le (by rw [List.length_drop]; omega)
    have hgood : ((crc16 (received.take len)).toNat == beNat (received.drop len)) = payloadGood len received := by
      rw [Bool.eq_iff_iff, beq_iff_eq, payloadGood, decide_eq_true_iff, or_iff_right hlen, field, hcrc]
    rw [if_pos h, hgood]

/-! ## ROW frames (R159) -/

/-- A frame discarded at its end under a flag (R159, R160). -/
theorem State.flagAndDiscardFrame_eq (s : State) (p : PortId) (f : PortFlags → PortFlags) :
    (s.setFlags p f).discardFrame p
      = s.updPort p fun q =>
          { q with
            rx := .idle
            flags := f q.flags
            counters := { q.counters with lineDiscard := q.counters.lineDiscard + 1 } } := by
  simp only [State.discardFrame, State.endReceive, State.setRx, State.countDiscard, State.count, State.setFlags,
    State.updPort_updPort, bump]

theorem State.endRowFrame_of_cut {len : Nat} {received : List Byte} (hcut : ¬ReceivedWhole len received) (s : State)
    (p : PortId) (h : RowHeader) :
    s.endRowFrame p h len received
      = s.updPort p fun q =>
          { q with
            rx := .idle
            flags := { q.flags with length := true }
            counters := { q.counters with lineDiscard := q.counters.lineDiscard + 1 } } := by
  unfold State.endRowFrame
  rw [splitPayload_of_cut hcut]
  exact s.flagAndDiscardFrame_eq p _

theorem State.endRowFrame_of_whole {len : Nat} {received : List Byte} (hwhole : ReceivedWhole len received) (s : State)
    (p : PortId) (h : RowHeader) :
    s.endRowFrame p h len received
      = (s.updPort p fun q =>
          { q with
            rx := .idle
            flags := { q.flags with payloadCrc := q.flags.payloadCrc || !payloadGood len received }
            counters := { q.counters with rowIn := q.counters.rowIn + 1 } }).arrive p h (payloadGood len received)
          (unpackSamples h.count.toNat (received.take len)) := by
  unfold State.endRowFrame
  rw [splitPayload_of_whole hwhole]
  simp only [State.endReceive, State.setRx, State.count, State.setFlags, State.updPort_updPort, bump]

theorem execRowEndDelimiter_of_row {s : State} {p : PortId} {h : RowHeader} {len : Nat} (hrx : (s.port p).rx = .row h len)
    (received : List Byte) :
    exec (.rowEndDelimiter (.ingress p) received) s = .next ((s.endRowFrame p h len received).serveLane p) := by
  simp only [exec, execRowEndDelimiter, hrx]

/-- Settles O15: the length of what was received, then the mark of its payload CRC. -/
theorem rowFrameEndIsCheckedAndOffered : Obligations.RowFrameEndIsCheckedAndOffered := by
  intro s p h len received q put whole good hrx
  rw [execRowEndDelimiter_of_row hrx]
  refine ⟨fun hcut => ?_, fun hwhole => ?_⟩
  · rw [State.endRowFrame_of_cut hcut]
    rfl
  · have hmark : (decide ¬good) = !payloadGood len received := decide_not
    rw [State.endRowFrame_of_whole hwhole, hmark]
    rfl

/-! ## CTL frames (R160, R167) -/

theorem State.badCtl_of_flag (s : State) (p : PortId) (f : PortFlags → PortFlags) (code : Byte) (request : BitVec 16) :
    (s.setFlags p f).badCtl p code request
      = (s.updPort p fun q =>
          { q with
            rx := .idle
            flags := f q.flags
            counters := { q.counters with lineDiscard := q.counters.lineDiscard + 1 } }).composeRsp p code request .notTaken
          [] := by
  rw [State.badCtl, State.flagAndDiscardFrame_eq]

theorem State.admitCtl_of_room {s : State} {p : PortId} (hroom : (s.port p).queue.length < 2) (f : CtlFrame) :
    s.admitCtl p f
      = s.updPort p fun q =>
          { q with
            rx := .idle
            queue := q.queue ++ [f]
            counters := { q.counters with ctlIn := q.counters.ctlIn + 1 } } := by
  simp only [State.admitCtl, State.endReceive, State.setRx, State.count, State.updPort_updPort, State.port_updPort_same, bump]
  exact if_pos hroom

theorem State.admitCtl_of_full {s : State} {p : PortId} (hfull : 2 ≤ (s.port p).queue.length) (f : CtlFrame) :
    s.admitCtl p f
      = s.updPort p fun q =>
          { q with
            rx := .idle
            flags := { q.flags with ctlOverrun := true }
            counters := { q.counters with ctlIn := q.counters.ctlIn + 1, ctlDrop := q.counters.ctlDrop + 1 } } := by
  simp only [State.admitCtl, State.endReceive, State.setRx, State.count, State.setFlags, State.updPort_updPort,
    State.port_updPort_same, bump]
  exact if_neg (Nat.not_lt.2 hfull)

section CtlEnd

variable {len : Nat} {received : List Byte} (s : State) (p : PortId) (code : Byte) (request : BitVec 16)

theorem State.endCtlFrame_of_badLength (hbad : ¬(ReceivedWhole len received ∧ len ≤ 2055)) :
    s.endCtlFrame p code request len received
      = (s.setFlags p fun f => { f with length := true }).badCtl p code request := by
  unfold State.endCtlFrame
  by_cases hwhole : ReceivedWhole len received
  · rw [splitPayload_of_whole hwhole]
    exact if_pos (Nat.not_le.1 fun hlen => hbad ⟨hwhole, hlen⟩)
  · rw [splitPayload_of_cut hwhole]

theorem State.endCtlFrame_of_badCrc (hwhole : ReceivedWhole len received) (hlen : len ≤ 2055)
    (hcrc : payloadGood len received = false) :
    s.endCtlFrame p code request len received
      = (s.setFlags p fun f => { f with payloadCrc := true }).badCtl p code request := by
  unfold State.endCtlFrame
  rw [splitPayload_of_whole hwhole, hcrc]
  exact if_neg (Nat.not_lt.2 hlen)

theorem State.endCtlFrame_of_good (hwhole : ReceivedWhole len received) (hlen : len ≤ 2055)
    (hcrc : payloadGood len received = true) :
    s.endCtlFrame p code request len received = s.admitCtl p ⟨code, request, received.take len⟩ := by
  unfold State.endCtlFrame
  rw [splitPayload_of_whole hwhole, hcrc]
  exact if_neg (Nat.not_lt.2 hlen)

end CtlEnd

theorem execCtlEndDelimiter_of_ctl {s : State} {p : PortId} {code : Byte} {request : BitVec 16} {len : Nat}
    (hrx : (s.port p).rx = .ctl code request len) (received : List Byte) :
    exec (.ctlEndDelimiter (.ingress p) received) s
      = .next ((s.endCtlFrame p code request len received).serveLane p) := by
  simp only [exec, execCtlEndDelimiter, hrx]

/-- Settles O16: the header opens the control receive area, and the end is judged by length, by payload CRC and by the room in
the queue. -/
theorem ctlFramesAreReceivedAndAdmitted : Obligations.CtlFramesAreReceivedAndAdmitted := by
  refine ⟨?header, ?ends⟩
  case header =>
    intro s p len code request q put h hawaits
    rw [execFrameHeader_ingress hawaits, beq_self_eq_true]
    rfl
  case ends =>
    intro s p code request len received q put whole good bad hrx
    rw [execCtlEndDelimiter_of_ctl hrx]
    refine ⟨fun hbad => ?badLength, fun ⟨hwhole, hlen⟩ hcrc => ?badCrc, fun ⟨hwhole, hlen⟩ hgood hroom => ?room,
      fun ⟨hwhole, hlen⟩ hgood hfull => ?full⟩
    case badLength =>
      rw [State.endCtlFrame_of_badLength s p code request hbad, State.badCtl_of_flag]
      rfl
    case badCrc =>
      rw [State.endCtlFrame_of_badCrc s p code request hwhole hlen (decide_eq_false hcrc), State.badCtl_of_flag]
      rfl
    case room =>
      rw [State.endCtlFrame_of_good s p code request hwhole hlen (decide_eq_true hgood), State.admitCtl_of_room hroom]
      rfl
    case full =>
      rw [State.endCtlFrame_of_good s p code request hwhole hlen (decide_eq_true hgood), State.admitCtl_of_full hfull]
      rfl

end Sys2Proof.Machine
end

section
/-! SUPPORT. The ingress ports along every step: the bounds on what a port holds, and its return lane (R155, R156, R162, R163,
R167). -/

namespace Sys2Proof.Machine

/-! ## A port by itself -/

/-- A port in the middle of a frame is UP (R156, R163). -/
theorem Port.DownIsQuiet.up_of_receiving {q : Port} (h : q.DownIsQuiet) (hrx : q.rx ≠ .idle) : q.link = .up := by
  cases hlink : q.link with
  | up => rfl
  | down => exact absurd (h hlink).1 hrx

/-- A port that is UP owes nothing to the law of a line that is DOWN (R163). -/
theorem Port.DownIsQuiet.of_up {q : Port} (h : q.link = .up) : q.DownIsQuiet := fun hdown => by
  rw [h] at hdown
  cases hdown

theorem State.PortsOk.safe {s : State} (h : s.PortsOk) (p : PortId) : s.PortSafe p := State.PortOk.safe (h p)

/-- A port stays in order when what it receives and its taken rows change, and its occupied count does not (R155). -/
theorem State.PortOk.of_occupied {s u : State} {p : PortId} (h : s.PortOk p) {rx : Rx} {taken : List TakenRow}
    (hport : u.port p = { s.port p with rx := rx, taken := taken }) (hrx : (s.port p).link = .down → rx = .idle)
    (hoccupied : u.occupied p = s.occupied p) : u.PortOk p := by
  obtain ⟨hquiet, hbounds, hserved⟩ := h
  rw [State.PortOk, State.PortBounds, State.LaneServed, hport, hoccupied]
  exact ⟨fun hdown => ⟨hrx hdown, (hquiet hdown).2⟩, hbounds, hserved⟩

/-- A port stays safe when its taken rows are discarded and its lane's row goes on (R40, R97). -/
theorem State.PortSafe.dropRows {s u : State} {p : PortId} (h : s.PortSafe p) {flags : PortFlags} {counters : PortCounters}
    {f : Lane → Lane} (hport : u.port p = { s.port p with taken := [], flags := flags, counters := counters })
    (hlane : u.lane p = (s.lane p).map f) : u.PortSafe p := by
  have hbuffers : laneBuffers ((s.lane p).map f) = laneBuffers (s.lane p) := by
    cases s.lane p <;> rfl
  have hsum := h.sum
  obtain ⟨hquiet, -, hqueue, hbacklog⟩ := h
  rw [State.PortSafe, State.PortBounds, State.occupied, hport, hlane, hbuffers]
  refine ⟨hquiet, ?_, hqueue, hbacklog⟩
  simp only [List.length_nil]
  omega

/-- A port stays safe when the row in its calibration lane has ended (R28). -/
theorem State.PortSafe.freeLane {s u : State} {p : PortId} (h : s.PortSafe p) (hport : u.port p = s.port p)
    (hlane : u.lane p = none) : u.PortSafe p := by
  have hsum := h.sum
  obtain ⟨hquiet, -, hbounds⟩ := h
  rw [State.PortSafe, State.PortBounds, State.occupied, hport, hlane]
  exact ⟨hquiet, by simp only [laneBuffers]; omega, hbounds⟩

/-! ## Lines (R163, R164) -/

theorem State.PortsOk.lineUp {s : State} (h : s.PortsOk) (p : PortId) :
    ((s.updPort p fun q => { q with link := .up }).serveLane p).PortsOk := by
  have hsafe := h.safe p
  have hsum := hsafe.sum
  obtain ⟨-, -, hqueue, hbacklog⟩ := hsafe
  exact State.serveLane_portsOk h (State.updPort_safe (.of_up rfl) hsum hqueue hbacklog)
    (fun q hq => s.updPort_other hq _) fun _ _ => rfl

theorem State.PortsOk.lineFall {s : State} (h : s.PortsOk) (p : PortId) : (s.lineFall p).PortsOk := by
  intro q
  by_cases hq : p = q
  · subst hq
    have hsum := (h.safe p).sum
    obtain ⟨-, ⟨-, hqueue, -⟩, -⟩ := h p
    have hport : ∃ counters, (s.lineFall p).port p
        = { s.port p with
            link := .down, rx := .idle, lane := none, backlog := [], owed := 0, granted := 0, counters := counters } :=
      ⟨_, by rw [State.lineFall_eq]; exact s.port_updPort_same p _⟩
    obtain ⟨counters, hport⟩ := hport
    have hlane : (s.lineFall p).lane p = s.lane p := by simp [State.lane]
    refine ⟨fun _ => ?_, ⟨?_, ?_, ?_⟩, fun hup => ?_⟩
    · rw [hport]
      exact ⟨rfl, rfl, rfl, rfl⟩
    · rw [State.occupied, hport, hlane]
      simp only [Rx.buffers]
      omega
    · rw [hport]
      exact hqueue
    · rw [hport]
      exact Nat.zero_le _
    · rw [hport] at hup
      cases hup
  · refine (State.portOk_congr ?_ (by simp)).2 (h q)
    simp [State.lineFall, hq, State.cutFrame_other]

/-! ## Frames (R156 to R160, R167) -/

theorem State.PortsOk.startFrame {s : State} (h : s.PortsOk) (p : PortId) (hup : (s.port p).link = .up) :
    (((s.truncate p).awaitHeader p).serveLane p).PortsOk := by
  have hlink : ((s.truncate p).port p).link = .up := by
    rw [← hup]
    unfold State.truncate
    split
    · rfl
    · rw [State.cutFrame_eq, State.setFlags, State.updPort_updPort, State.port_updPort_same]
  refine State.serveLane_portsOk h (State.setRx_safe (State.truncate_safe (h.safe p)) rfl fun hdown => ?_)
    (fun q hq => ?_) (by simp)
  · rw [hlink] at hdown
    cases hdown
  · rw [State.awaitHeader, State.setRx_other _ hq, State.truncate_other s hq]

theorem State.PortsOk.idleLine {s : State} (h : s.PortsOk) (p : PortId) : ((s.truncate p).serveLane p).PortsOk :=
  State.serveLane_portsOk h (State.truncate_safe (h.safe p)) (fun _ hq => s.truncate_other hq) (by simp)

/-- A ROW header keeps its port safe: a credit it uses becomes the buffer it takes, and without a credit it takes a buffer only
when one is free (R155, R158). -/
theorem State.rowHeader_safe {s : State} {p : PortId} (h : s.PortSafe p) (hup : (s.port p).link = .up) (hd : RowHeader)
    (len : Nat) : (s.rowHeader p hd len).PortSafe p := by
  have hsum := h.sum
  obtain ⟨-, -, hqueue, hbacklog⟩ := h
  cases hfits : State.rowLengthFits hd len with
  | false =>
    rw [State.rowHeader_of_misfit s p hfits]
    refine State.updPort_safe (.of_up hup) ?_ hqueue hbacklog
    simp only [Rx.buffers]
    omega
  | true =>
    by_cases hfree : s.occupied p < 32
    · rw [State.rowHeader_of_buffer hfits hfree]
      refine State.updPort_safe (.of_up hup) ?_ hqueue hbacklog
      simp only [Rx.buffers, State.occupied, Config.rowBuffers] at hfree hsum ⊢
      omega
    · rw [State.rowHeader_of_noBuffer hfits (Nat.not_lt.1 hfree)]
      have hdropped : (s.updPort p fun q =>
          { q with
            rx := .rest false
            granted := q.granted - 1
            flags := { q.flags with overrun := true }
            counters := { q.counters with overrunDrop := q.counters.overrunDrop + 1 } }).PortSafe p := by
        refine State.updPort_safe (.of_up hup) ?_ hqueue hbacklog
        simp only [Rx.buffers]
        omega
      exact (State.portSafe_congr (by simp [State.port]) (by simp)).2 hdropped

theorem State.rowHeader_other (s : State) {p q : PortId} (hq : p ≠ q) (hd : RowHeader) (len : Nat) :
    (s.rowHeader p hd len).ports.nth q = s.ports.nth q := by
  cases hfits : State.rowLengthFits hd len with
  | false => rw [State.rowHeader_of_misfit s p hfits, State.updPort_other s hq]
  | true =>
    by_cases hfree : s.occupied p < 32
    · rw [State.rowHeader_of_buffer hfits hfree, State.updPort_other s hq]
    · rw [State.rowHeader_of_noBuffer hfits (Nat.not_lt.1 hfree)]
      simp [hq]

/-- A frame discarded at its header, with a flag set, keeps its port safe (R157). -/
theorem State.flagAndDiscard_safe {s : State} {p : PortId} (h : s.PortSafe p) (hup : (s.port p).link = .up)
    (f : PortFlags → PortFlags) : ((s.setFlags p f).discardAtHeader p).PortSafe p :=
  State.discardAtHeader_safe (State.setFlags_safe h f) (by simpa [State.setFlags, State.port] using hup)

theorem State.flagAndDiscard_other (s : State) {p q : PortId} (hq : p ≠ q) (f : PortFlags → PortFlags) :
    ((s.setFlags p f).discardAtHeader p).ports.nth q = s.ports.nth q := by
  rw [State.discardAtHeader_other _ hq, State.setFlags, State.updPort_other s hq]

theorem State.ingressHeader_safe {s : State} {p : PortId} (h : s.PortSafe p) (hup : (s.port p).link = .up) (hd : Header)
    (crcGood : Bool) : (s.ingressHeader p hd crcGood).PortSafe p := by
  cases crcGood with
  | false => exact State.flagAndDiscard_safe h hup _
  | true =>
    cases hd with
    | row len tile seg tag slot row count => exact State.rowHeader_safe h hup _ _
    | ctl len code request =>
      have hsum := h.sum
      obtain ⟨hquiet, -, hqueue, hbacklog⟩ := h
      refine State.updPort_safe (.of_up hup) ?_ hqueue hbacklog
      simp only [Rx.buffers]
      omega
    | _ => exact State.flagAndDiscard_safe h hup _

theorem State.ingressHeader_other (s : State) {p q : PortId} (hq : p ≠ q) (hd : Header) (crcGood : Bool) :
    (s.ingressHeader p hd crcGood).ports.nth q = s.ports.nth q := by
  cases crcGood with
  | false => exact s.flagAndDiscard_other hq _
  | true =>
    cases hd with
    | row len tile seg tag slot row count => exact s.rowHeader_other hq _ _
    | ctl len code request => exact s.updPort_other hq _
    | _ => exact s.flagAndDiscard_other hq _

/-- The end of a ROW frame keeps its port safe: the frame's buffer is free, or holds the taken row (R28, R159). -/
theorem State.endRowFrame_safe {s : State} {p : PortId} (h : s.PortSafe p) {hd : RowHeader} {len : Nat}
    (hrx : (s.port p).rx = .row hd len) (received : List Byte) : (s.endRowFrame p hd len received).PortSafe p := by
  unfold State.endRowFrame
  split
  · exact State.discardFrame_safe (State.setFlags_safe h _)
  · refine State.arrive_safe _ _ _ (State.count_safe (State.setFlags_safe (State.endReceive_safe h) _) _) ?_
    have hsum := h.sum
    rw [hrx] at hsum
    simpa [State.count, State.setFlags, State.endReceive, State.setRx, State.port, State.lane, Rx.buffers] using hsum

theorem State.endRowFrame_other (s : State) {p q : PortId} (hq : p ≠ q) (hd : RowHeader) (len : Nat) (received : List Byte) :
    (s.endRowFrame p hd len received).ports.nth q = s.ports.nth q := by
  unfold State.endRowFrame
  split
  · rw [State.discardFrame_other _ hq, State.setFlags, State.updPort_other s hq]
  · rw [State.arrive_other hq]
    simp [State.count, State.setFlags, State.endReceive, State.setRx, hq]

/-- A CTL frame joins the queue only below its bound (R167). -/
theorem State.admitCtl_safe {s : State} {p : PortId} (h : s.PortSafe p) (f : CtlFrame) : (s.admitCtl p f).PortSafe p := by
  have hreceived := State.count_safe (State.endReceive_safe h) fun c => { c with ctlIn := bump c.ctlIn }
  unfold State.admitCtl
  dsimp only
  split
  · rename_i hroom
    have hsum := hreceived.sum
    obtain ⟨hquiet, -, -, hbacklog⟩ := hreceived
    refine State.updPort_safe hquiet hsum ?_ hbacklog
    rw [List.length_append]
    exact hroom
  · exact State.count_safe (State.setFlags_safe hreceived _) _

theorem State.admitCtl_other (s : State) {p q : PortId} (hq : p ≠ q) (f : CtlFrame) :
    (s.admitCtl p f).ports.nth q = s.ports.nth q := by
  unfold State.admitCtl
  dsimp only
  split <;> simp [State.count, State.setFlags, State.endReceive, State.setRx, hq]

theorem State.badCtl_safe {s : State} {p : PortId} (h : s.PortSafe p) (code : Byte) (request : BitVec 16) :
    (s.badCtl p code request).PortSafe p := State.composeRsp_safe (State.discardFrame_safe h) ..

theorem State.badCtl_other (s : State) {p q : PortId} (hq : p ≠ q) (code : Byte) (request : BitVec 16) :
    (s.badCtl p code request).ports.nth q = s.ports.nth q := by
  rw [State.badCtl, State.composeRsp_other _ hq, State.discardFrame_other s hq]

theorem State.endCtlFrame_safe {s : State} {p : PortId} (h : s.PortSafe p) (code : Byte) (request : BitVec 16) (len : Nat)
    (received : List Byte) : (s.endCtlFrame p code request len received).PortSafe p := by
  unfold State.endCtlFrame
  split
  · exact State.badCtl_safe (State.setFlags_safe h _) ..
  · split
    · exact State.badCtl_safe (State.setFlags_safe h _) ..
    · split
      · exact State.badCtl_safe (State.setFlags_safe h _) ..
      · exact State.admitCtl_safe h _

theorem State.endCtlFrame_other (s : State) {p q : PortId} (hq : p ≠ q) (code : Byte) (request : BitVec 16) (len : Nat)
    (received : List Byte) : (s.endCtlFrame p code request len received).ports.nth q = s.ports.nth q := by
  have hbad : ∀ f, ((s.setFlags p f).badCtl p code request).ports.nth q = s.ports.nth q := fun f => by
    rw [State.badCtl_other _ hq, State.setFlags, State.updPort_other s hq]
  unfold State.endCtlFrame
  split
  · exact hbad _
  · split
    · exact hbad _
    · split
      · exact hbad _
      · exact s.admitCtl_other hq _

/-- The end of an ignored rest, which held no buffer (R157). -/
theorem State.PortsOk.endRest {s : State} (h : s.PortsOk) (p : PortId) {counted : Bool}
    (hrx : (s.port p).rx = .rest counted) : (s.endReceive p).PortsOk := by
  intro q
  by_cases hq : p = q
  · subst hq
    have hport : (s.endReceive p).port p = { s.port p with rx := .idle } := by simp [State.endReceive, State.setRx, State.port]
    refine State.PortOk.of_occupied (h p) hport (fun _ => rfl) ?_
    rw [State.occupied, State.occupied, hport, hrx]
    rfl
  · exact (State.portOk_congr (s.setRx_other hq _) rfl).2 (h q)

/-! ## The return lane (R162) -/

theorem State.PortsOk.finishReturnFrame {s : State} (h : s.PortsOk) (p : PortId) : (s.finishReturnFrame p).PortsOk := by
  have hidle : ∀ owed : Port → Nat,
      ((s.updPort p fun q => { q with lane := none, owed := owed q }).serveLane p).PortsOk := fun owed => by
    have hsafe := h.safe p
    have hsum := hsafe.sum
    obtain ⟨hquiet, -, hqueue, hbacklog⟩ := hsafe
    refine State.serveLane_portsOk h (State.updPort_safe (fun hdown => ?_) hsum hqueue hbacklog)
      (fun q hq => s.updPort_other hq _) fun _ _ => rfl
    obtain ⟨hrx, -, hrest⟩ := hquiet hdown
    exact ⟨hrx, rfl, hrest⟩
  unfold State.finishReturnFrame
  split
  · exact h
  · exact hidle fun q => q.backlog.length
  · exact hidle fun q => q.owed

/-! ## The calibration lane (R28, R43, R88) -/

/-- The start of a row moves its buffer from the taken rows to the lane (R28, R43). -/
theorem State.PortsOk.startRow {s : State} (h : s.PortsOk) {p : PortId} {w : TakenRow} {rest : List TakenRow}
    (hidle : s.lane p = none) (htaken : (s.port p).taken = w :: rest) (q : Placement) : (s.startRow p w rest q).PortsOk := by
  intro o
  by_cases ho : p = o
  · subst ho
    have hport : (s.startRow p w rest q).port p = { s.port p with taken := rest } := by simp [State.startRow, State.port]
    have hlane : laneBuffers ((s.startRow p w rest q).lane p) = 1 := by simp [State.startRow, State.lane, laneBuffers]
    obtain ⟨hquiet, -⟩ := h p
    refine State.PortOk.of_occupied (h p) hport (fun hdown => (hquiet hdown).1) ?_
    rw [State.occupied, State.occupied, hport, hlane, hidle, htaken]
    simp only [laneBuffers, List.length_cons]
    omega
  · exact (State.portOk_congr (by simp [State.startRow, ho]) (by simp [State.startRow, ho])).2 (h o)

/-- The end of a row frees its buffer, which is announced at once (R28, R88, R162). -/
theorem State.PortsOk.endRow {s : State} (h : s.PortsOk) (p : PortId) (l : Lane) : (s.endRow p l).PortsOk := by
  unfold State.endRow
  dsimp only
  have hfreed : ∀ u : State, u.ports = s.ports → u.cal.lanes = s.cal.lanes.put p none → (u.serveLane p).PortsOk :=
    fun u hports hlanes =>
      State.serveLane_portsOk h
        ((h.safe p).freeLane (by rw [State.port, hports, State.port]) (by simp [State.lane, hlanes]))
        (fun _ _ => by rw [hports]) fun _ hq => by simp [hlanes, hq]
  split <;> exact hfreed _ (by simp) (by simp)

/-- A row that stays in its lane keeps its buffer (R28). -/
theorem State.PortsOk.setLane_busy {s : State} (h : s.PortsOk) {p : PortId} {l : Lane} (hbusy : s.lane p = some l)
    (next : Lane) : (s.setLane p (some next)).PortsOk := by
  intro o
  by_cases ho : p = o
  · subst ho
    have hlane : (s.setLane p (some next)).lane p = some next := by simp [State.lane]
    obtain ⟨hquiet, -⟩ := h p
    refine State.PortOk.of_occupied (h p) (u := s.setLane p (some next)) rfl (fun hdown => (hquiet hdown).1) ?_
    rw [State.occupied, State.occupied, hlane, hbusy]
    rfl
  · exact (State.portOk_congr (by simp) (by simp [ho])).2 (h o)

theorem State.PortsOk.nextPixel {s : State} (h : s.PortsOk) {p : PortId} {l : Lane} (hbusy : s.lane p = some l) :
    (s.nextPixel p l).PortsOk := by
  have hdeposited : ∀ a f, (s.depositPixel l a f).PortsOk := fun a f => State.portsOk_same h (by simp) (by simp)
  unfold State.nextPixel
  split
  · exact h.endRow p l
  · dsimp only
    split
    · exact (hdeposited _ _).endRow p _
    · exact (hdeposited _ _).setLane_busy (by simpa [State.lane] using hbusy) _

/-! ## Steps that free buffers on every port (R40, R97, R166) -/

theorem State.PortsOk.engineRest {s : State} (h : s.PortsOk) : s.engineRest.PortsOk := by
  rw [State.engineRest_eq]
  refine State.serveAll_ok fun p =>
    (h.safe p).dropRows (flags := .clear) (counters := .zero) (f := Lane.uncounted) ?_ ?_
  · simp [State.restBlocks, State.port, Port.rest]
  · simp [State.restBlocks, State.lane, Calibration.rest]

theorem State.PortsOk.abortVisit {s : State} (h : s.PortsOk) (b : BankId) : (s.abortVisit b).PortsOk := by
  rw [State.abortVisit_eq]
  refine State.serveAll_ok fun p =>
    (h.safe p).dropRows (flags := (s.port p).flags) (counters := (s.port p).counters) (f := Lane.abortedOn b) ?_ ?_
  · simp [State.endOpenVisit, State.abortIntake, State.port]
  · simp [State.endOpenVisit, State.lane]

/-! ## The steps -/

/-- Of the commands, ENGINE_RESET and VISIT_ABORT free buffers, and no other touches a port before its answer. -/
theorem OwnerEffect.portsOk {s u : State} (h : OwnerEffect s u) (hs : s.PortsOk) : u.PortsOk := by
  cases h with
  | stays => exact hs
  | engineRest => exact hs.engineRest
  | abortVisit b => exact hs.abortVisit b
  | setStatus | setIntake | setTile | setSeg | restore | startClear | writeFlat | setProduct =>
    exact State.portsOk_same hs rfl rfl
  | quarantine t => exact State.portsOk_same hs (by simp [State.setQuarantine]) (by simp [State.setQuarantine])
  | openSnap => exact State.portsOk_same hs (by simp) (by simp [State.openSnap])
  | setResolve => exact State.portsOk_same hs (by simp [State.setResolve]) (by simp [State.setResolve])
  | _ => exact State.portsOk_same hs (by simp) (by simp)

/-- Every step's effect keeps the ports in order. -/
theorem StepEffect.portsOk {s t : State} (h : StepEffect s t) (hs : s.PortsOk) : t.PortsOk := by
  cases h with
  | stays => exact hs
  | powerOn => exact State.portsOk_same State.reset_portsOk rfl rfl
  | lineUp p => exact hs.lineUp p
  | lineFall p => exact hs.lineFall p
  | startFrame p hup => exact hs.startFrame p hup
  | idleLine p => exact hs.idleLine p
  | ingressHeader p hd crcGood hawaits =>
    obtain ⟨hquiet, -⟩ := hs p
    have hup : (s.port p).link = .up := hquiet.up_of_receiving (by simp [hawaits])
    exact State.serveLane_portsOk hs (State.ingressHeader_safe (hs.safe p) hup hd crcGood)
      (fun q hq => s.ingressHeader_other hq hd crcGood) (by simp)
  | endRowFrame p hd len received hrx =>
    exact State.serveLane_portsOk hs (State.endRowFrame_safe (hs.safe p) hrx received)
      (fun q hq => s.endRowFrame_other hq hd len received) (by simp)
  | endCtlFrame p code request len received =>
    exact State.serveLane_portsOk hs (State.endCtlFrame_safe (hs.safe p) code request len received)
      (fun q hq => s.endCtlFrame_other hq code request len received) (by simp)
  | endRest p counted hrx => exact hs.endRest p hrx
  | finishReturnFrame p => exact hs.finishReturnFrame p
  | command p f u r data _ howner => exact State.respond_portsOk (howner.portsOk hs) p f r data
  | startRow p w rest q hidle htaken => exact hs.startRow hidle htaken q
  | nextPixel p l hbusy => exact hs.nextPixel hbusy
  | finishClear => exact State.portsOk_same hs rfl rfl
  | _ => exact State.portsOk_same hs (by simp) (by simp)

/-- Settles O52: a step concerns one port and then serves its lane, or frees buffers on every port and serves every lane. -/
theorem stepKeepsPortsInOrder : Obligations.StepKeepsPortsInOrder := fun _ _ hs h =>
  step_keeps (fun _ _ hq => State.portsOk_same hq rfl rfl) (fun _ _ hq heffect => heffect.portsOk hq) hs h

end Sys2Proof.Machine
end

section
/-! SUPPORT. The attention code and its conditions, and the command NOP (R168, R173 to R175). -/

namespace Sys2Proof.Machine

/-! ## The attention code and the pending conditions (R173, R174) -/

theorem Status.attentionCode_of_fault {u : Status} (h : u.fault = true) : u.attentionCode = 1 := by
  simp [Status.attentionCode, h]

theorem Status.attentionCode_of_tile {u : Status} (hfault : u.fault = false) (h : u.tile = true) : u.attentionCode = 2 := by
  simp [Status.attentionCode, hfault, h]

theorem Status.attentionCode_of_snapDone {u : Status} (hfault : u.fault = false) (htile : u.tile = false)
    (h : u.snapDone = true) : u.attentionCode = 3 := by
  simp [Status.attentionCode, hfault, htile, h]

theorem Status.attentionCode_of_passDone {u : Status} (hfault : u.fault = false) (htile : u.tile = false)
    (hsnap : u.snapDone = false) (h : u.passDone = true) : u.attentionCode = 4 := by
  simp [Status.attentionCode, hfault, htile, hsnap, h]

/-- The attention code is NONE only when no condition is pending: each pending condition has a code of its own (R174). -/
theorem Status.attentionCode_eq_zero_iff (u : Status) :
    u.attentionCode = 0 ↔ u.fault = false ∧ u.tile = false ∧ u.snapDone = false ∧ u.passDone = false := by
  constructor
  · intro h
    have hfault : u.fault = false :=
      Bool.eq_false_iff.2 fun hset => absurd (h.symm.trans (attentionCode_of_fault hset)) (by decide)
    have htile : u.tile = false :=
      Bool.eq_false_iff.2 fun hset => absurd (h.symm.trans (attentionCode_of_tile hfault hset)) (by decide)
    have hsnap : u.snapDone = false :=
      Bool.eq_false_iff.2 fun hset => absurd (h.symm.trans (attentionCode_of_snapDone hfault htile hset)) (by decide)
    have hpass : u.passDone = false :=
      Bool.eq_false_iff.2 fun hset => absurd (h.symm.trans (attentionCode_of_passDone hfault htile hsnap hset)) (by decide)
    exact ⟨hfault, htile, hsnap, hpass⟩
  · rintro ⟨hfault, htile, hsnap, hpass⟩
    simp [Status.attentionCode, hfault, htile, hsnap, hpass]

/-- The attention conditions stand in their byte from bit 0, by priority (R186; log 32). -/
theorem Status.conditionsByte_bit (u : Status) (i : Fin 8) :
    u.conditionsByte.getLsbD i.val = [u.fault, u.tile, u.snapDone, u.passDone, false, false, false, false][i] :=
  packBits_eight u.fault u.tile u.snapDone u.passDone false false false false i

theorem State.engineBytes_getLast? (s : State) : s.engineBytes.getLast? = some s.status.conditionsByte := by
  rw [State.engineBytes, List.getLast?_append]
  rfl

/-- Settles O10: the code follows the priority of the conditions, and section ENGINE ends with the byte that holds them all. -/
theorem attentionCodeNamesTheHighestCondition : Obligations.AttentionCodeNamesTheHighestCondition := by
  intro s u
  have hbit := u.conditionsByte_bit
  exact ⟨rfl, Status.attentionCode_of_fault, Status.attentionCode_of_tile, Status.attentionCode_of_snapDone,
    Status.attentionCode_of_passDone, u.attentionCode_eq_zero_iff, fun _ _ _ _ => rfl,
    u.conditionsByte, s.engineBytes_getLast?, hbit 0, hbit 1, hbit 2, hbit 3⟩

/-! ## NOP (R175) -/

/-- A payload whose length is not the one that the table lists for the code does not fit (R168, R185). -/
theorem lengthFits_of_length_ne {f : CtlFrame} {code : Byte} {n : Nat} (hcode : f.code = code) (hfixed : code ≠ Code.flatWrite)
    (hlisted : ∀ e ∈ fixedLengths, e.1 = code → e.2 = n) (hlength : f.payload.length ≠ n) :
    lengthFits f.code f.payload = false := by
  rw [lengthFits, hcode, if_neg hfixed, List.any_eq_false]
  intro e he hfits
  rw [Bool.and_eq_true, beq_iff_eq, beq_iff_eq] at hfits
  obtain ⟨hsame, hfit⟩ := hfits
  exact hlength (hfit.symm.trans (hlisted e he hsame))

theorem execNop_of {s : State} {p : PortId} {f : CtlFrame} (hhead : s.Heads p f 0x00#8 0) :
    exec (.nop p) s = .next (s.respond p f .ok []) :=
  command_runs takeNop hhead (by decide) (by decide) rfl

/-- A NOP with a payload does not have the length that R185 gives the command (R168). -/
theorem execNop_of_payload {s : State} {p : PortId} {f : CtlFrame} (hhead : (s.port p).queue.head? = some f)
    (hcode : f.code = 0x00#8) (hpayload : f.payload ≠ []) : exec (.nop p) s = .next (s.respond p f .malformed []) := by
  have hlength : f.payload.length ≠ 0 := fun h => hpayload (List.length_eq_zero_iff.1 h)
  exact command_badLength takeNop hhead hcode (lengthFits_of_length_ne hcode (by decide) (by decide) hlength)

/-- Settles O49: NOP's owner leaves the state as it is, so that its step is the response and nothing else. -/
theorem nopChangesNothingElse : Obligations.NopChangesNothingElse := by
  intro s p f
  obtain ⟨-, hresponse⟩ := responsesCarryTheStatusWord
  exact ⟨fun hhead => ⟨s.respond p f .ok [], execNop_of hhead, hresponse s p f .ok []⟩, execNop_of_payload⟩

end Sys2Proof.Machine
end

section
/-! SUPPORT. STATUS_READ, TABLE_READ and FAULT_CLEAR, and the bytes that they return (R152, R176 to R179, R185, R186). -/

namespace Sys2Proof.Machine

/-! ## STATUS_READ (R176, R177) -/

theorem execStatusRead_of {s : State} {p : PortId} {f : CtlFrame} (hhead : s.Heads p f 0x01#8 1) {u : State} {r : Result}
    {d : List Byte} (howner : takeStatusRead f.payload s = ⟨u, r, d⟩) : exec (.statusRead p) s = .next (u.respond p f r d) :=
  command_runs takeStatusRead hhead (by decide) (by decide) howner

/-- STATUS_READ's owner, section by section: ENGINE, TILES, PORTS, SUMMARY, and no section from code 4 on (R176, R177). -/
theorem takeStatusRead_eq (b : List Byte) (s : State) :
    (field b 0 1 = 0 → takeStatusRead b s = .okWith s.clearSnapDone s.engineBytes)
      ∧ (field b 0 1 = 1 → takeStatusRead b s = .okWith s.clearTile s.tilesBytes)
      ∧ (field b 0 1 = 2 → takeStatusRead b s = .okWith s s.portsBytes)
      ∧ (field b 0 1 = 3 → takeStatusRead b s = .okWith s.clearPassDone (summaryBytes s.resolve.readable))
      ∧ (4 ≤ field b 0 1 → takeStatusRead b s = .refuse s .range) := by
  unfold takeStatusRead
  refine ⟨fun h => by simp only [h], fun h => by simp only [h], fun h => by simp only [h], fun h => by simp only [h],
    fun h => ?_⟩
  split
  case h_5 => rfl
  all_goals omega

/-! ## TABLE_READ (R178) -/

theorem execTableRead_ok {s : State} {p : PortId} {f : CtlFrame} (hhead : s.Heads p f 0x02#8 2) {d : List Byte}
    (hrecord : s.tableRecord (field f.payload 0 1) (field f.payload 1 1) = some d) :
    exec (.tableRead p) s = .next (s.respond p f .ok d) := by
  refine command_runs takeTableRead hhead (by decide) (by decide) ?_
  rw [takeTableRead, hrecord]
  rfl

theorem execTableRead_range {s : State} {p : PortId} {f : CtlFrame} (hhead : s.Heads p f 0x02#8 2)
    (hrecord : s.tableRecord (field f.payload 0 1) (field f.payload 1 1) = none) :
    exec (.tableRead p) s = .next (s.respond p f .range []) := by
  refine command_runs takeTableRead hhead (by decide) (by decide) ?_
  rw [takeTableRead, hrecord]
  rfl

theorem State.tableRecord_tile (s : State) (t : TileId) : s.tableRecord 0 t.val = some (s.tile t).bytes := dif_pos t.isLt

theorem State.tableRecord_seg (s : State) (t : TileId) (g : SegId) :
    s.tableRecord 1 (4 * t.val + g.val) = some (s.seg t g).bytes := dif_pos (segIndex t g).isLt

theorem State.tableRecord_product (s : State) (i : Fin 8) :
    s.tableRecord 2 i.val = some (s.resolve.products.nth i).bytes := dif_pos i.isLt

/-- The resolve parameters as TABLE_READ returns them, with the codes of the two modes written out (R185, R186). -/
theorem State.resolveBytes_eq (s : State) :
    s.resolveBytes
      = beBytes 2 s.resolve.wmin ++ beBytes 3 s.resolve.tAbs ++ beBytes 1 s.resolve.tRel
          ++ [if s.resolve.trigger = .auto then 0 else 1, if s.resolve.release = .autoRelease then 0 else 1] := by
  have htrigger : beBytes 1 s.resolve.trigger.code = [if s.resolve.trigger = .auto then 0 else 1] := by
    cases s.resolve.trigger <;> rfl
  have hrelease : beBytes 1 s.resolve.release.code = [if s.resolve.release = .autoRelease then 0 else 1] := by
    cases s.resolve.release <;> rfl
  rw [State.resolveBytes, htrigger, hrelease, List.append_assoc]
  rfl

/-- The table codes run to 5, and each table has its own range of indexes (R178). -/
theorem State.tableRecord_eq_none (s : State) {table index : Nat}
    (h : 6 ≤ table ∨ (table = 0 ∧ 16 ≤ index) ∨ (table = 1 ∧ 64 ≤ index) ∨ (table = 2 ∧ 8 ≤ index)
      ∨ (3 ≤ table ∧ table ≤ 5 ∧ 1 ≤ index)) : s.tableRecord table index = none := by
  unfold State.tableRecord
  split
  case h_7 => rfl
  case h_1 | h_2 | h_3 => exact dif_neg (by omega)
  case h_4 | h_5 | h_6 => exact if_neg (by omega)

/-! ## FAULT_CLEAR (R179) -/

theorem execFaultClear_of {s : State} {p : PortId} {f : CtlFrame} (hhead : s.Heads p f 0x03#8 0) :
    exec (.faultClear p) s = .next ({ s with status := s.status.clearFaults }.respond p f .ok []) :=
  command_runs takeFaultClear hhead (by decide) (by decide) rfl

/-! ## Section ENGINE (R177, R186) -/

/-- A timer is sent as whether it runs (R186). -/
theorem Timer.byte_eq (t : Timer) : t.byte = if t = .stopped then 0 else 1 := by
  cases t <;> rfl

/-- A bank without a visit record sends the mark and two bytes 0 in the record's place (R186). -/
theorem bankVisitBytes_eq (v : Option BankVisit) :
    bankVisitBytes v
      = match v with
        | none => [1, 0, 0]
        | some k => [0, k.tag, BitVec.ofNat 8 k.snapsUsed] := by
  cases v with
  | none => rfl
  | some k =>
    rw [bankVisitBytes, beBytes_one]
    rfl

/-- What section ENGINE holds of one bank, item by item (R177). -/
theorem State.bankBytes_eq (s : State) (b : BankId) :
    s.bankBytes b
      = [(s.bank b).state.code, (s.bank b).epoch] ++ beBytes 4 (s.bank b).scrubPos
          ++ [BitVec.ofNat 8 (s.bank b).depositHolds, yesNo (s.bank b).readHold] ++ bankVisitBytes (s.visit.records.nth b) := by
  simp [State.bankBytes, beBytes_one]

/-- Section ENGINE: the visit, the two banks, the pass with the banks that wait, the latched faults and the conditions (R177). -/
theorem State.engineBytes_eq (s : State) :
    s.engineBytes
      = [s.visit.state.code, s.visit.tag, BitVec.ofNat 8 s.visit.expected, BitVec.ofNat 8 s.visit.snapsDone,
            BitVec.ofNat 8 s.visit.slot.val, s.visit.snap.code]
          ++ beInt 2 s.visit.sx ++ beInt 2 s.visit.sy
          ++ [BitVec.ofNat 8 s.visit.inFlight, if s.visit.drain = .stopped then 0 else 1] ++ s.bankBytes 0 ++ s.bankBytes 1
          ++ [s.resolve.state.code, BitVec.ofNat 8 s.resolve.passBank.val] ++ beBytes 2 s.resolve.passNumber.toNat
          ++ [BitVec.ofNat 8 s.resolve.waiting.length] ++ s.resolve.waiting.map (fun b => BitVec.ofNat 8 b.val)
          ++ [latchedByte s.status.overrunSeen s.status.linkDownSeen s.status.egressStall, s.status.conditionsByte] := by
  simp [State.engineBytes, beBytes_one, Timer.byte_eq]

/-- Section ENGINE has 41 bytes and one for each bank that waits for a pass (R177). -/
theorem State.engineBytes_length (s : State) : s.engineBytes.length = 41 + s.resolve.waiting.length := by
  simp only [State.engineBytes, List.length_append, List.length_map, List.length_cons, List.length_nil, beBytes_length,
    beInt_length, State.bankBytes_length]
  omega

/-! ## Section TILES (R177, R186) -/

theorem State.tilesBytes_length (s : State) : s.tilesBytes.length = 16 * 38 := by
  rw [State.tilesBytes, length_flatMap_of_length s.tileBytes_length, List.length_finRange]

theorem State.tilesBytes_item (s : State) (t : TileId) : (s.tilesBytes.drop (38 * t.val)).take 38 = s.tileBytes t := by
  have hplace : (List.finRange 16)[t.val]? = some t := by simp
  have hitem := item_of_flatMap s.tileBytes_length hplace []
  rwa [List.append_nil] at hitem

/-- What section TILES holds of one tile, item by item (R177). -/
theorem State.tileBytes_eq (s : State) (t : TileId) :
    s.tileBytes t
      = [(s.record t).state.code] ++ beBytes 2 ((s.record t).taken.nth 0) ++ beBytes 2 ((s.record t).taken.nth 1)
          ++ beBytes 2 ((s.record t).taken.nth 2) ++ beBytes 2 ((s.record t).taken.nth 3)
          ++ beBytes 2 ((s.record t).missing.nth 0) ++ beBytes 2 ((s.record t).missing.nth 1)
          ++ beBytes 2 ((s.record t).missing.nth 2) ++ beBytes 2 ((s.record t).missing.nth 3) ++ [(s.record t).flags.byte]
          ++ beBytes 4 (s.record t).satPixels ++ beBytes 4 (s.record t).defPixels ++ beBytes 4 (s.record t).clipPixels
          ++ beBytes 5 (s.record t).spilled
          ++ [BitVec.ofNat 8 (s.inFlight t), yesNo (s.tile t).quarantined, (s.flat t).state.code] := by
  simp [State.tileBytes, Tab.toList_four, beBytes_one]

/-- The flags of a tile record stand in their byte from bit 0 (R186; log 32). -/
theorem TileFlags.byte_bit (f : TileFlags) (i : Fin 8) :
    f.byte.getLsbD i.val = [f.dataError, f.length, f.wrongRow, f.endOfTile, f.late, f.overrun, false, false][i] :=
  packBits_eight f.dataError f.length f.wrongRow f.endOfTile f.late f.overrun false false i

/-! ## Section PORTS (R177, R186) -/

/-- What section PORTS holds of one ingress port, counter by counter (R161, R177). -/
theorem State.portBytes_eq (s : State) (p : PortId) :
    s.portBytes p
      = [(s.port p).link.code, BitVec.ofNat 8 (s.occupied p), BitVec.ofNat 8 (s.port p).granted,
            BitVec.ofNat 8 (s.port p).queue.length]
          ++ beBytes 4 (s.port p).counters.rowIn.toNat ++ beBytes 4 (s.port p).counters.ctlIn.toNat
          ++ beBytes 4 (s.port p).counters.unexpected.toNat ++ beBytes 4 (s.port p).counters.stale.toNat
          ++ beBytes 4 (s.port p).counters.afterEnd.toNat ++ beBytes 4 (s.port p).counters.lineDiscard.toNat
          ++ beBytes 4 (s.port p).counters.overrunDrop.toNat ++ beBytes 4 (s.port p).counters.ctlDrop.toNat
          ++ beBytes 4 (s.port p).counters.rspLost.toNat := by
  simp [State.portBytes, State.counterBytes, beBytes_one]

/-- What section PORTS holds of PX (R177). -/
def pxBytes (x : ProductPort) : List Byte :=
  [x.link.code] ++ beBytes 2 x.credits ++ beBytes 4 x.counters.prdSent.toNat ++ beBytes 4 x.counters.prdCut.toNat
    ++ beBytes 4 x.counters.crdIn.toNat ++ beBytes 4 x.counters.lineDiscard.toNat

theorem pxBytes_length (x : ProductPort) : (pxBytes x).length = 19 := by
  simp [pxBytes, beBytes_length]

/-- Section PORTS: the ingress ports in order, then PX. -/
theorem State.portsBytes_eq (s : State) : s.portsBytes = allPorts.flatMap s.portBytes ++ pxBytes s.px := by
  simp [State.portsBytes, pxBytes]

theorem State.ingressBytes_length (s : State) : (allPorts.flatMap s.portBytes).length = 160 :=
  length_flatMap_of_length s.portBytes_length allPorts

theorem State.portsBytes_length (s : State) : s.portsBytes.length = 4 * 40 + 19 := by
  rw [State.portsBytes_eq, List.length_append, State.ingressBytes_length, pxBytes_length]

theorem State.portsBytes_item (s : State) (p : PortId) : (s.portsBytes.drop (40 * p.val)).take 40 = s.portBytes p := by
  have hplace : ∀ p : PortId, allPorts[p.val]? = some p := by decide
  rw [State.portsBytes_eq]
  exact item_of_flatMap s.portBytes_length (hplace p) (pxBytes s.px)

theorem State.portsBytes_px (s : State) : s.portsBytes.drop 160 = pxBytes s.px := by
  rw [State.portsBytes_eq, ← s.ingressBytes_length]
  exact List.drop_left

/-! ## Section SUMMARY (R152, R186; log 18) -/

/-- A report behind the mark of section SUMMARY: five bytes of its own, then the entries. -/
theorem summaryBytes_some (r : Report) :
    summaryBytes (some r)
      = ([0, BitVec.ofNat 8 r.bank.val, r.tag, BitVec.ofNat 8 r.snapsUsed] ++ beBytes 2 r.pass.toNat)
          ++ r.entries.toList.flatMap EntryReport.bytes := by
  simp [summaryBytes, Report.bytes, beBytes_one]

theorem summaryBytes_length (r : Report) : (summaryBytes (some r)).length = 334 := by
  simp [summaryBytes_some, beBytes_length, length_flatMap_of_length EntryReport.bytes_length]

theorem summaryBytes_take (r : Report) :
    (summaryBytes (some r)).take 6
      = [0, BitVec.ofNat 8 r.bank.val, r.tag, BitVec.ofNat 8 r.snapsUsed] ++ beBytes 2 r.pass.toNat := by
  rw [summaryBytes_some]
  rfl

theorem summaryBytes_item (r : Report) (i : Fin 8) :
    ((summaryBytes (some r)).drop (6 + 41 * i.val)).take 41 = (r.entries.nth i).bytes := by
  have hitem := item_of_flatMap EntryReport.bytes_length (Tab.getElem?_toList r.entries i) []
  rw [List.append_nil] at hitem
  rw [summaryBytes_some, ← List.drop_drop]
  exact hitem

/-- The code of a format as the byte that a summary entry and a product entry send (R182, R185). -/
theorem PixelFormat.code_byte (x : PixelFormat) :
    (BitVec.ofNat 8 x.code : Byte)
      = match x with
        | .v => 0
        | .vcm => 1
        | .vwcm => 2 := by
  cases x <;> rfl

/-- What section SUMMARY holds of one entry, the counts in the order of the classes (R152, R184). -/
theorem EntryReport.bytes_eq (e : EntryReport) :
    e.bytes
      = [e.status.code, e.product, BitVec.ofNat 8 e.format.code] ++ beBytes 2 e.rows ++ beBytes 4 e.pixels
          ++ ([PixelClass.nodata, .single, .pair, .split, .full, .majority, .discord, .padding].map PixelClass.index).flatMap
              fun k => beBytes 4 (e.counts.nth k) := by
  simp [EntryReport.bytes, beBytes_one, Tab.toList_eight, PixelClass.index]

/-! ## Records of TABLE_READ (R185, R186) -/

theorem TileRec.bytes_eq (r : TileRec) :
    r.bytes
      = [yesNo r.enabled] ++ beBytes 2 r.width ++ beBytes 2 r.height ++ [BitVec.ofNat 8 r.segCount] ++ beInt 2 r.ox
          ++ beInt 2 r.oy
          ++ [BitVec.ofNat 8 r.fx, BitVec.ofNat 8 r.fy, BitVec.ofNat 8 r.orientation, yesNo r.quarantined] := by
  simp [TileRec.bytes, beBytes_one]

theorem TileRec.bytes_length (r : TileRec) : r.bytes.length = 14 := by
  simp [TileRec.bytes_eq, beBytes_length, beInt_length]

theorem SegRec.bytes_eq (r : SegRec) :
    r.bytes
      = beBytes 2 r.colOrigin ++ beBytes 2 r.rowOrigin ++ beBytes 2 r.width ++ beBytes 2 r.height
          ++ [yesNo r.colReversed, yesNo r.rowReversed, BitVec.ofNat 8 r.overscan, BitVec.ofNat 8 r.skip,
              BitVec.ofNat 8 r.shift]
          ++ beBytes 3 r.defaultBias ++ beBytes 2 r.gain ++ beBytes 3 r.satThreshold ++ beInt 4 r.lowThreshold := by
  simp [SegRec.bytes, beBytes_one]

theorem SegRec.bytes_length (r : SegRec) : r.bytes.length = 25 := by
  simp [SegRec.bytes_eq, beBytes_length, beInt_length]

theorem Product.bytes_eq (e : Product) :
    e.bytes
      = [yesNo e.enabled, e.id] ++ beInt 2 e.x0 ++ beInt 2 e.y0 ++ beInt 2 e.x1 ++ beInt 2 e.y1
          ++ [BitVec.ofNat 8 e.stride, BitVec.ofNat 8 e.format.code] ++ beInt 4 e.fillValue := by
  simp [Product.bytes, beBytes_one]

theorem Product.bytes_length (e : Product) : e.bytes.length = 16 := by
  simp [Product.bytes_eq, beInt_length]

/-- Settles O50: the owners section by section and table by table, then the items of each section and record at their places. -/
theorem statusTablesAndFaultClear : Obligations.StatusTablesAndFaultClear := by
  refine ⟨fun s p f => ⟨fun hhead => ?sections, fun hhead => ?tables⟩, fun s p f hhead => execFaultClear_of hhead, ?bytes⟩
  case sections =>
    obtain ⟨hengine, htiles, hports, hsummary, hrange⟩ := takeStatusRead_eq f.payload s
    exact ⟨fun h => execStatusRead_of hhead (hengine h), fun h => execStatusRead_of hhead (htiles h),
      fun h => execStatusRead_of hhead (hports h), fun h => execStatusRead_of hhead (hsummary h),
      fun h => execStatusRead_of hhead (hrange h)⟩
  case tables =>
    intro table index returns
    have returns_of : ∀ {d : List Byte}, s.tableRecord table index = some d → returns d := fun h => execTableRead_ok hhead h
    refine ⟨fun htable t hindex => returns_of ?_, fun htable t g hindex => returns_of ?_,
      fun htable i hindex => returns_of ?_, fun htable hindex => returns_of ?_, fun htable hindex => returns_of ?_,
      fun htable hindex => returns_of ?_, fun h => execTableRead_range hhead (s.tableRecord_eq_none h)⟩
    · rw [htable, hindex, s.tableRecord_tile]
    · rw [htable, hindex, s.tableRecord_seg]
    · rw [htable, hindex, s.tableRecord_product]
    · rw [htable, hindex]
      rfl
    · rw [htable, hindex, ← s.resolveBytes_eq]
      rfl
    · rw [htable, hindex]
      rfl
  case bytes =>
    intro flag byte
    refine ⟨fun s => ?engine, TileFlags.byte_bit, rfl, fun r => ?summary, fun r => ⟨r.bytes_length, r.bytes_eq⟩,
      fun r => ⟨r.bytes_length, r.bytes_eq⟩, fun e => ?product⟩
    case engine =>
      intro v bank
      have hbank : ∀ b, s.bankBytes b = bank b := fun b =>
        (s.bankBytes_eq b).trans (congrArg (_ ++ ·) (bankVisitBytes_eq (v.records.nth b)))
      refine ⟨⟨s.status.conditionsByte, s.status.conditionsByte_bit, ?_⟩, s.engineBytes_length, s.tilesBytes_length,
        fun t => (s.tilesBytes_item t).trans (s.tileBytes_eq t), s.portsBytes_length,
        fun p => (s.portsBytes_item p).trans (s.portBytes_eq p), s.portsBytes_px⟩
      rw [s.engineBytes_eq, hbank, hbank]
    case summary =>
      refine ⟨summaryBytes_length r, summaryBytes_take r, fun i => ?_⟩
      intro e format
      have hformat : BitVec.ofNat 8 e.format.code = format := e.format.code_byte
      rw [← hformat]
      exact (summaryBytes_item r i).trans e.bytes_eq
    case product =>
      intro format
      have hformat : BitVec.ofNat 8 e.format.code = format := e.format.code_byte
      rw [← hformat]
      exact ⟨e.bytes_length, e.bytes_eq⟩

end Sys2Proof.Machine
end

section
/-! SUPPORT. The canonical form of the two memories along every step (log 10, log 11). -/

namespace Sys2Proof.Machine

/-- The canonical form speaks of the flat maps and of the canvas memory alone. -/
theorem Memory.wf_of_eq {s u : State} (h : Memory.wf s = true) (hf : u.cal.flats = s.cal.flats) (hc : u.canvas = s.canvas) :
    Memory.wf u = true :=
  Memory.wf_same h hf (.of_eq hc)

/-! ## Flat maps -/

/-- A change of one flat map keeps the canonical form when what it leaves there has it. -/
theorem Memory.wf_updFlat {s : State} (h : Memory.wf s = true) (t : TileId) {f : FlatMap → FlatMap}
    (hf : flatWf (f (s.flat t)).map = true) : Memory.wf (s.updFlat t f) = true := by
  rw [Memory.wf_iff] at *
  obtain ⟨hflats, hcells⟩ := h
  refine ⟨fun i => ?_, hcells⟩
  simp only [State.updFlat_fields, Tab.nth_modify]
  split
  · exact hf
  · exact hflats i

theorem Memory.flatWf_of_wf {s : State} (h : Memory.wf s = true) (t : TileId) : flatWf (s.flat t).map = true :=
  ((Memory.wf_iff s).1 h).1 t

/-! ## Rows and pixels -/

/-- A target on the canvas has its cell written in one access; any other target leaves the memories alone (R69, R89, R90). -/
theorem Memory.wf_depositTarget {s : State} (h : Memory.wf s = true) (x : Context) (t : TileId) (kind : PixelKind)
    (g : Target) : Memory.wf (State.depositTarget x t kind s g) = true := by
  unfold State.depositTarget
  split
  · exact h
  split
  · exact Memory.wf_writeCell h _ _ _
  split
  · exact Memory.wf_of_eq h rfl rfl
  · exact h

theorem Memory.wf_depositTargets {s : State} (h : Memory.wf s = true) (x : Context) (t : TileId) (kind : PixelKind)
    (l : List Target) : Memory.wf (l.foldl (State.depositTarget x t kind) s) = true := by
  induction l generalizing s with
  | nil => exact h
  | cons g l ih => exact ih (Memory.wf_depositTarget h x t kind g)

theorem Memory.wf_depositPixel {s : State} (h : Memory.wf s = true) (l : Lane) (a : Sample) (entry : Flat) :
    Memory.wf (s.depositPixel l a entry) = true :=
  Memory.wf_depositTargets (s := s.countPixel l.context l.tile _) (Memory.wf_of_eq h (by simp) (by simp)) _ _ _ _

theorem Memory.wf_judgeSnap {s : State} (h : Memory.wf s = true) : Memory.wf s.judgeSnap = true :=
  Memory.wf_same h (by simp) s.judgeSnap_sameCells

theorem Memory.wf_uncountRow {s : State} (h : Memory.wf s = true) (t : TileId) : Memory.wf (s.uncountRow t) = true :=
  Memory.wf_judgeSnap (Memory.wf_of_eq h (by simp) (by simp))

theorem Memory.wf_updBank {s : State} (h : Memory.wf s = true) (b : BankId) {f : Bank → Bank}
    (hf : ∀ k, (f k).cells = k.cells) : Memory.wf (s.updBank b f) = true :=
  Memory.wf_same h rfl (s.updBank_sameCells b f hf)

theorem Memory.wf_leaveRetiring {s : State} (h : Memory.wf s = true) (b : BankId) :
    Memory.wf (s.leaveRetiring b) = true :=
  Memory.wf_same h (by simp) (s.leaveRetiring_sameCells b)

theorem Memory.wf_serveLane {s : State} (h : Memory.wf s = true) (p : PortId) : Memory.wf (s.serveLane p) = true :=
  Memory.wf_of_eq h (by simp) (by simp)

/-- The end of a row moves no more of its bank than the hold and the state (R75, R88). -/
theorem Memory.wf_endRow {s : State} (h : Memory.wf s = true) (p : PortId) (l : Lane) : Memory.wf (s.endRow p l) = true := by
  have hlane : Memory.wf (s.setLane p none) = true := Memory.wf_of_eq h rfl rfl
  have hleft := Memory.wf_leaveRetiring
    (Memory.wf_updBank hlane l.context.bank (f := fun k => { k with depositHolds := k.depositHolds - 1 }) fun _ => rfl)
    l.context.bank
  cases hcounting : l.context.counting with
  | false =>
    rw [State.endRow_of_uncounted hcounting]
    exact Memory.wf_serveLane hleft p
  | true =>
    rw [State.endRow_of_counted hcounting]
    exact Memory.wf_serveLane (Memory.wf_uncountRow hleft l.tile) p

theorem Memory.wf_nextPixel {s : State} (h : Memory.wf s = true) (p : PortId) (l : Lane) :
    Memory.wf (s.nextPixel p l) = true := by
  unfold State.nextPixel
  split
  case h_1 => exact Memory.wf_endRow h p l
  case h_2 a entry rest _ =>
    have hdeposit := Memory.wf_depositPixel h l a entry
    dsimp only
    split
    · exact Memory.wf_endRow hdeposit p _
    · exact Memory.wf_of_eq hdeposit rfl rfl

/-- A row that starts reads the flat map of its tile, and gives the bank a deposit hold (R43, R75). -/
theorem Memory.wf_startRow {s : State} (h : Memory.wf s = true) (p : PortId) (w : TakenRow) (rest : List TakenRow)
    (q : Placement) : Memory.wf (s.startRow p w rest q) = true := by
  unfold State.startRow
  dsimp only
  exact Memory.wf_updBank (Memory.wf_of_eq h rfl rfl) _ fun _ => rfl

/-! ## Arrivals and timers -/

theorem Memory.wf_arrive {s : State} (h : Memory.wf s = true) (p : PortId) (hd : RowHeader) (crcGood : Bool)
    (samples : List Sample) : Memory.wf (s.arrive p hd crcGood samples) = true := by
  unfold State.arrive
  split
  · exact Memory.wf_of_eq h (by simp) (by simp)
  · exact Memory.wf_judgeSnap (Memory.wf_of_eq h (by simp) (by simp))

theorem Memory.wf_endRowFrame {s : State} (h : Memory.wf s = true) (p : PortId) (hd : RowHeader) (len : Nat)
    (received : List Byte) : Memory.wf (s.endRowFrame p hd len received) = true := by
  unfold State.endRowFrame
  split
  · exact Memory.wf_of_eq h (by simp) (by simp)
  · exact Memory.wf_arrive (Memory.wf_of_eq h (by simp) (by simp)) p hd _ _

theorem Memory.wf_stallTile {s : State} (h : Memory.wf s = true) (t : TileId) : Memory.wf (s.stallTile t) = true := by
  unfold State.stallTile
  split
  · exact Memory.wf_judgeSnap (Memory.wf_of_eq h (by simp) (by simp))
  · exact Memory.wf_of_eq h rfl rfl

theorem Memory.wf_drainExpires {s : State} (h : Memory.wf s = true) : Memory.wf s.drainExpires = true := by
  have hstop : Memory.wf s.stopDrain = true := Memory.wf_of_eq h rfl rfl
  unfold State.drainExpires
  split
  · exact Memory.wf_judgeSnap (Memory.wf_of_eq hstop (by simp [foldl_cutTile_frame]) (by simp [foldl_cutTile_frame]))
  · exact hstop

/-! ## Visits, passes and the rest at ENGINE_RESET -/

theorem Memory.wf_retire {s : State} (h : Memory.wf s = true) (b : BankId) : Memory.wf (s.retire b) = true :=
  Memory.wf_same h (by simp) (s.retire_sameCells b)

theorem Memory.wf_autoStart {s : State} (h : Memory.wf s = true) : Memory.wf s.autoStart = true :=
  Memory.wf_same h (by simp) s.autoStart_sameCells

theorem Memory.wf_quarantineNow {s : State} (h : Memory.wf s = true) (t : TileId) :
    Memory.wf (s.quarantineNow t) = true := by
  unfold State.quarantineNow
  split
  · exact Memory.wf_judgeSnap (Memory.wf_of_eq h (by simp) (by simp))
  · exact h

theorem Memory.wf_openVisit {s : State} (h : Memory.wf s = true) (tag : Byte) (expected : Nat) (b : BankId) :
    Memory.wf (s.openVisit tag expected b) = true :=
  Memory.wf_of_eq
    (Memory.wf_updBank h b (f := fun k => { k with state := .filling, epoch := k.epoch + 1 }) fun _ => rfl) rfl rfl

theorem Memory.wf_abortVisit {s : State} (h : Memory.wf s = true) (b : BankId) : Memory.wf (s.abortVisit b) = true := by
  have hended : Memory.wf (s.endOpenVisit b) = true := Memory.wf_of_eq h rfl rfl
  rw [State.abortVisit_eq]
  exact Memory.wf_of_eq (Memory.wf_retire hended b) (by simp) (by simp)

theorem Memory.wf_withdrawVisit {s : State} (h : Memory.wf s = true) (b : BankId) :
    Memory.wf (s.withdrawVisit b) = true := by
  unfold State.withdrawVisit
  refine Memory.wf_retire ?_ b
  exact Memory.wf_of_eq h rfl rfl

theorem Memory.wf_askRestart {s : State} (h : Memory.wf s = true) : Memory.wf s.askRestart = true := by
  unfold State.askRestart
  split
  · exact Memory.wf_autoStart (Memory.wf_same h (by simp) s.restartPass_sameCells)
  · exact Memory.wf_of_eq h rfl rfl

theorem Memory.wf_askEnd {s : State} (h : Memory.wf s = true) : Memory.wf s.askEnd = true := by
  unfold State.askEnd
  split
  · exact Memory.wf_autoStart (Memory.wf_same h (by simp) s.endPass_sameCells)
  · exact Memory.wf_of_eq h rfl rfl

theorem Memory.wf_rowSent {s : State} (h : Memory.wf s = true) (f : PrdFrame) : Memory.wf (s.rowSent f) = true :=
  Memory.wf_same h (by simp) (s.rowSent_sameCells f)

/-- The row in transmission leaves PX, sent or cut (R145). -/
theorem Memory.wf_rowLeaves {s : State} (h : Memory.wf s = true) (f : PrdFrame) (counters : PxCounters) :
    Memory.wf ((s.updPx fun x => { x with lane := none, counters := counters }).rowSent f) = true := by
  refine Memory.wf_rowSent ?_ f
  exact Memory.wf_of_eq h rfl rfl

theorem Memory.wf_pxDown {s : State} (h : Memory.wf s = true) : Memory.wf s.pxDown = true := by
  have hdown : Memory.wf (s.truncatePx.updPx fun x => { x with link := .down, credits := 0 }).latchLinkDown = true :=
    Memory.wf_of_eq h (by simp) (by simp)
  unfold State.pxDown State.cutRow
  dsimp only
  split
  · exact hdown
  · exact Memory.wf_rowLeaves hdown _ _

theorem Memory.wf_restBank {s : State} (h : Memory.wf s = true) (b : BankId) : Memory.wf (s.restBank b) = true := by
  unfold State.restBank
  refine Memory.wf_leaveRetiring ?_ b
  split
  · exact Memory.wf_updBank h b fun _ => rfl
  · exact h

/-- ENGINE_RESET keeps the flat maps and the cells (R64, R82). -/
theorem Memory.wf_engineRest {s : State} (h : Memory.wf s = true) : Memory.wf s.engineRest = true := by
  have hread : Memory.wf s.restReadHold = true := by
    unfold State.restReadHold
    split
    · exact h
    · exact Memory.wf_updBank h _ fun _ => rfl
  have hblocks : Memory.wf s.restBlocks = true := Memory.wf_of_eq hread (by simp [State.restBlocks, Calibration.rest]) rfl
  rw [State.engineRest_eq]
  exact Memory.wf_of_eq (Memory.wf_restBank (Memory.wf_restBank hblocks 0) 1) (by simp) (by simp)

/-! ## Scrubs -/

theorem Memory.wf_startScrub {s : State} (h : Memory.wf s = true) (b : BankId) : Memory.wf (s.startScrub b) = true :=
  Memory.wf_same h (by simp) (s.startScrub_sameCells b)

/-- The form does not speak of the geometry of the canvas (R66). -/
theorem Memory.wf_setCanvas {s : State} (h : Memory.wf s = true) (width height : Nat) :
    Memory.wf (s.setCanvas width height) = true := by
  have hgeometry : Memory.wf { s with canvas := { s.canvas with width := width, height := height } } = true := h
  exact Memory.wf_startScrub (Memory.wf_startScrub hgeometry 0) 1

theorem Memory.wf_scrubNext {s : State} (h : Memory.wf s = true) (b : BankId) : Memory.wf (s.scrubNext b) = true := by
  have hwrite := Memory.wf_writeCell h b (s.bank b).scrubPos (.empty 0)
  unfold State.scrubNext
  dsimp only
  split <;> exact Memory.wf_updBank hwrite b fun _ => rfl

/-! ## The steps -/

/-- Of the commands only FLAT_WRITE changes what a flat map lists, and none writes a cell. -/
theorem OwnerEffect.memoryWf {s u : State} (h : OwnerEffect s u) (hs : Memory.wf s = true) : Memory.wf u = true := by
  cases h with
  | stays => exact hs
  | engineRest => exact Memory.wf_engineRest hs
  | quarantine t =>
    exact Memory.wf_quarantineNow (s := s.setQuarantine t true) (Memory.wf_of_eq hs rfl rfl) t
  | startClear t => exact Memory.wf_updFlat hs t (Memory.flatWf_of_wf hs t)
  | writeFlat t => exact Memory.wf_updFlat hs t (flatWf_writeRun (Memory.flatWf_of_wf hs t) _ _)
  | setCanvas w h => exact Memory.wf_setCanvas hs w h
  | openVisit tag expected b => exact Memory.wf_openVisit hs tag expected b
  | openSnap sx sy => exact Memory.wf_judgeSnap (Memory.wf_of_eq hs rfl rfl)
  | closeVisit => exact Memory.wf_same hs (by simp) s.closeVisit_sameCells
  | abortVisit b => exact Memory.wf_abortVisit hs b
  | withdrawVisit b => exact Memory.wf_withdrawVisit hs b
  | setResolve => exact Memory.wf_autoStart (Memory.wf_of_eq hs rfl rfl)
  | openPass b => exact Memory.wf_autoStart (Memory.wf_same hs (by simp) (s.openPass_sameCells b))
  | askRestart => exact Memory.wf_askRestart hs
  | askEnd => exact Memory.wf_askEnd hs
  | retire b => exact Memory.wf_retire hs b
  | setStatus | setIntake | setTile | setSeg | restore | beginDrain | setProduct => exact Memory.wf_of_eq hs rfl rfl

/-- Outside the commands a pixel and a scrub write cells, and the end of a clear empties what its flat map lists. -/
theorem StepEffect.memoryWf {s t : State} (h : StepEffect s t) (hs : Memory.wf s = true) : Memory.wf t = true := by
  cases h with
  | stays => exact hs
  | powerOn => exact Memory.wf_reset
  | pxDown => exact Memory.wf_pxDown hs
  | endRowFrame p hd len received => exact Memory.wf_serveLane (Memory.wf_endRowFrame hs p hd len received) p
  | command p f u r data _ howner => exact Memory.wf_of_eq (howner.memoryWf hs) (by simp) (by simp)
  | stallTile t => exact Memory.wf_stallTile hs t
  | drainExpires => exact Memory.wf_drainExpires hs
  | startRow p w rest q => exact Memory.wf_startRow hs p w rest q
  | nextPixel p l => exact Memory.wf_nextPixel hs p l
  | finishClear t => exact Memory.wf_updFlat hs t rfl
  | scrubNext b => exact Memory.wf_scrubNext hs b
  | rowLeaves f => exact Memory.wf_rowLeaves hs f _
  | lineUp | lineFall | pxLineUp | startFrame | startPxFrame | idleLine | idlePxLine | ingressHeader | pxHeader | endCtlFrame
  | endRest | endPxFrame | finishReturnFrame | egressExpires => exact Memory.wf_of_eq hs (by simp) (by simp)

/-- Settles O54: each write of an entry or of a cell keeps its list in order, and no other effect touches the lists. -/
theorem stepKeepsMemoryCanonical : Obligations.StepKeepsMemoryCanonical := fun _ _ hs h =>
  step_keeps (fun _ _ hq => hq) (fun _ _ hq heffect => heffect.memoryWf hq) hs h

end Sys2Proof.Machine
end

section
/-! SUPPORT. The engine takes the command at the front of its queue, and every command completes (file 95; log 2, log 3,
log 24). -/

namespace Sys2Proof.Machine

theorem step_of_empty {s : State} (h : s.pending = []) : step s = .next s := by
  unfold step
  rw [h]

theorem step_of_front (c : Instr) (s : State) : step { s with pending := c :: s.pending } = exec c s := rfl

/-- Settles O1: the two cases of the queue. -/
theorem stepTakesTheFrontCommand : Obligations.StepTakesTheFrontCommand := ⟨step_of_front, fun _ => step_of_empty⟩

/-! ## Every step answers a next state -/

/-- A command's step answers, whether or not its frame is at the head of the queue and whatever its owner does (R168). -/
theorem command_completes (code : Byte) (owner : List Byte → State → Answer) (p : PortId) (s : State) :
    ∃ t, command code owner p s = .next t := by
  unfold command
  split <;> exact ⟨_, rfl⟩

/-- No step faults or is refused. -/
theorem exec_completes (c : Instr) (s : State) : ∃ t, exec c s = .next t := by
  cases c with
  | powerOn | pxLineUp | returnLaneFrameSent => exact ⟨_, rfl⟩
  | nop | statusRead | tableRead | faultClear | engineReset | intakeSet | tileSet | segmentSet | tileQuarantine | tileRestore
  | flatClear | flatWrite | flatRead | canvasSet | cellPeek | visitOpen | snapOpen | snapClose | visitClose | visitAbort
  | resolveSet | productSet | resolveStart | resolveAbort | bankRelease => exact command_completes _ _ _ s
  | startDelimiter port | frameHeader port =>
    cases port
    all_goals
      simp only [exec, execStartDelimiter, execFrameHeader]
      split <;> exact ⟨_, rfl⟩
  | lineIdleTruncation port =>
    cases port with
    | px => exact ⟨_, rfl⟩
    | ingress p =>
      simp only [exec, execLineIdleTruncation]
      split <;> exact ⟨_, rfl⟩
  | rowEndDelimiter port | ctlEndDelimiter port =>
    cases port with
    | px => exact ⟨_, rfl⟩
    | ingress p =>
      simp only [exec, execRowEndDelimiter, execCtlEndDelimiter]
      split <;> exact ⟨_, rfl⟩
  | unknownCommand p =>
    simp only [exec, execUnknownCommand]
    split
    · exact ⟨_, rfl⟩
    · split <;> exact ⟨_, rfl⟩
  | rowStart p =>
    simp only [exec, execRowStart]
    split
    · split <;> exact ⟨_, rfl⟩
    all_goals exact ⟨_, rfl⟩
  | lineUp | lineDown | pxLineDown | stallTimerExpiry | drainTimerExpiry | egressTimerExpiry | pixelDeposit | flatClearEnd
  | scrubCellWrite | prdFrameSent =>
    simp only [exec, execLineUp, execLineDown, execPxLineDown, execStallTimerExpiry, execDrainTimerExpiry,
      execEgressTimerExpiry, execPixelDeposit, execFlatClearEnd, execScrubCellWrite, execPrdFrameSent]
    split <;> exact ⟨_, rfl⟩

/-! ## No step touches the queue -/

theorem OwnerEffect.pending {s u : State} (h : OwnerEffect s u) : u.pending = s.pending := by
  cases h with
  | stays | setStatus | setIntake | restore | startClear | writeFlat | setProduct => rfl
  | quarantine => simp [State.setQuarantine]
  | setResolve => simp [State.setResolve]
  | _ => simp

/-- POWER_ON too leaves the queue as it is (log 24). -/
theorem StepEffect.pending {s t : State} (h : StepEffect s t) : t.pending = s.pending := by
  cases h with
  | stays | powerOn | finishClear => rfl
  | command p f u r data _ howner => simp [howner.pending]
  | _ => simp

/-- Settles O2: every step answers, and no effect that it can have touches the queue. -/
theorem everyCommandCompletes : Obligations.EveryCommandCompletes := fun c s => by
  obtain ⟨t, h⟩ := exec_completes c s
  exact ⟨t, h, (exec_effect h).pending⟩

end Sys2Proof.Machine
end

section
/-! SUPPORT. The checks of a control frame before its owner: the command code and the payload length (R168, R185). -/

namespace Sys2Proof.Machine

/-- The commands by code, with their steps and the lengths of their payloads; FLAT_WRITE has none of fixed length (R185). -/
def commandTable : List (Byte × (PortId → Instr) × Option Nat) :=
  [(Code.nop, .nop, some 0), (Code.statusRead, .statusRead, some 1), (Code.tableRead, .tableRead, some 2),
   (Code.faultClear, .faultClear, some 0), (Code.engineReset, .engineReset, some 0), (Code.intakeSet, .intakeSet, some 4),
   (Code.tileSet, .tileSet, some 14), (Code.tileQuarantine, .tileQuarantine, some 1),
   (Code.tileRestore, .tileRestore, some 1), (Code.segmentSet, .segmentSet, some 27), (Code.flatClear, .flatClear, some 1),
   (Code.flatWrite, .flatWrite, none), (Code.flatRead, .flatRead, some 7), (Code.canvasSet, .canvasSet, some 4),
   (Code.cellPeek, .cellPeek, some 5), (Code.visitOpen, .visitOpen, some 2), (Code.snapOpen, .snapOpen, some 4),
   (Code.snapClose, .snapClose, some 0), (Code.visitClose, .visitClose, some 0), (Code.visitAbort, .visitAbort, some 1),
   (Code.resolveSet, .resolveSet, some 8), (Code.productSet, .productSet, some 17),
   (Code.resolveStart, .resolveStart, some 1), (Code.resolveAbort, .resolveAbort, some 0),
   (Code.bankRelease, .bankRelease, some 1)]

/-- A command's step answers a frame of a wrong length MALFORMED, and does not happen without its frame at the head of the queue
(R168; log 1, log 2). -/
def ChecksFrame (s : State) (p : PortId) (row : Byte × (PortId → Instr) × Option Nat) : Prop :=
  (∀ f, (s.port p).queue.head? = some f → f.code = row.1 →
      (∀ n, row.2.2 = some n → f.payload.length ≠ n → exec (row.2.1 p) s = .next (s.respond p f .malformed []))
        ∧ (row.2.2 = none → f.payload.length < 7 ∨ f.payload.length ≠ 7 + 2 * field f.payload 5 2 →
            exec (row.2.1 p) s = .next (s.respond p f .malformed [])))
    ∧ ((∀ f, (s.port p).queue.head? = some f → f.code ≠ row.1) → exec (row.2.1 p) s = .next s)

/-- A command of fixed length checks its frame against the length that the table lists for its code. -/
theorem checksFrame_of_fixed {s : State} {p : PortId} {code : Byte} {instr : PortId → Instr} {n : Nat}
    {owner : List Byte → State → Answer} (hexec : exec (instr p) s = command code owner p s)
    (hlisted : code ≠ Code.flatWrite ∧ ∀ e ∈ fixedLengths, e.1 = code → e.2 = n) :
    ChecksFrame s p (code, instr, some n) := by
  obtain ⟨hfixed, hlength⟩ := hlisted
  refine ⟨fun f hhead hcode => ⟨fun m hm hne => ?_, fun hnone => nomatch hnone⟩, fun hnot => ?_⟩
  · cases hm
    exact hexec.trans (command_badLength owner hhead hcode (lengthFits_of_length_ne hcode hfixed hlength hne))
  · exact hexec.trans (command_not_at_head owner hnot)

/-- A FLAT_WRITE has 7 bytes and two for each entry that its count declares (R168, R185). -/
theorem lengthFits_flatWrite_eq_false {f : CtlFrame} (hcode : f.code = Code.flatWrite)
    (h : f.payload.length < 7 ∨ f.payload.length ≠ 7 + 2 * field f.payload 5 2) : lengthFits f.code f.payload = false := by
  rw [lengthFits, if_pos hcode, Bool.and_eq_false_iff]
  rcases h with hshort | hcount
  · exact .inl (decide_eq_false (by omega))
  · exact .inr (beq_false_of_ne hcount)

theorem checksFrame_flatWrite (s : State) (p : PortId) : ChecksFrame s p (Code.flatWrite, .flatWrite, none) :=
  ⟨fun _ hhead hcode => ⟨fun _ hn => (nomatch hn), fun _ hlength =>
      command_badLength takeFlatWrite hhead hcode (lengthFits_flatWrite_eq_false hcode hlength)⟩,
    command_not_at_head takeFlatWrite⟩

theorem checksFrame_of_mem (s : State) (p : PortId) : ∀ row ∈ commandTable, ChecksFrame s p row := by
  simp only [commandTable, List.forall_mem_cons, List.not_mem_nil, false_implies, implies_true, and_true]
  refine ⟨?_, ?_, ?_, ?_, ?_, ?_, ?_, ?_, ?_, ?_, ?_, checksFrame_flatWrite s p, ?_, ?_, ?_, ?_, ?_, ?_, ?_, ?_, ?_, ?_, ?_,
    ?_, ?_⟩
  all_goals exact checksFrame_of_fixed rfl (by decide)

/-! ## UNKNOWN (R168) -/

/-- A code names a command when the table has a row for it. -/
theorem namesCommand_iff (code : Byte) : namesCommand code = true ↔ ∃ row ∈ commandTable, code = row.1 := by
  have hcodes : (Code.flatWrite :: fixedLengths.map Prod.fst).Perm (commandTable.map Prod.fst) := by decide
  calc namesCommand code = true
      ↔ code ∈ Code.flatWrite :: fixedLengths.map Prod.fst := by simp [namesCommand]
    _ ↔ code ∈ commandTable.map Prod.fst := hcodes.mem_iff
    _ ↔ ∃ row ∈ commandTable, code = row.1 := by simp only [List.mem_map, eq_comm]

theorem execUnknownCommand_of_unknown {s : State} {p : PortId} {f : CtlFrame} (hhead : (s.port p).queue.head? = some f)
    (hunknown : ∀ row ∈ commandTable, f.code ≠ row.1) :
    exec (.unknownCommand p) s = .next (s.respond p f .unknown []) := by
  obtain ⟨rest, hqueue⟩ := List.head?_eq_some_iff.1 hhead
  have hnames : ¬ namesCommand f.code = true := fun h => by
    obtain ⟨row, hrow, hcode⟩ := (namesCommand_iff f.code).1 h
    exact hunknown row hrow hcode
  simp only [exec, execUnknownCommand, hqueue]
  exact if_neg hnames

theorem execUnknownCommand_of_empty {s : State} {p : PortId} (hempty : (s.port p).queue = []) :
    exec (.unknownCommand p) s = .next s := by
  simp only [exec, execUnknownCommand, hempty]

theorem execUnknownCommand_of_known {s : State} {p : PortId} {f : CtlFrame} (hhead : (s.port p).queue.head? = some f)
    (hknown : ∃ row ∈ commandTable, f.code = row.1) : exec (.unknownCommand p) s = .next s := by
  obtain ⟨rest, hqueue⟩ := List.head?_eq_some_iff.1 hhead
  simp only [exec, execUnknownCommand, hqueue]
  exact if_pos ((namesCommand_iff f.code).2 hknown)

/-- Settles O48: each row of the table checks its frame, and the codes that name a command are those of the table. -/
theorem controlChecksComeFirst : Obligations.ControlChecksComeFirst := by
  intro s p
  refine ⟨checksFrame_of_mem s p, fun f hhead hunknown => execUnknownCommand_of_unknown hhead hunknown, ?_⟩
  rintro (hempty | ⟨f, hhead, hknown⟩)
  · exact execUnknownCommand_of_empty hempty
  · exact execUnknownCommand_of_known hhead hknown

end Sys2Proof.Machine
end

section
/-! SUPPORT. The layouts of the status word and of the return frames, the fields of a payload, and packed samples (R182 to
R186). -/

namespace Sys2Proof.Machine

/-! ## The status word and the return frames (R183, R186) -/

/-- The byte of a number below 256 reads as that number. -/
theorem beNat_ofNat {x : Nat} (h : x < 256) : beNat [BitVec.ofNat 8 x] = x := by
  rw [← beBytes_one]
  exact beNat_beBytes 1 x h

/-- The latched faults stand in their byte from bit 0 (R186). -/
theorem latchedByte_bit (overrunSeen linkDownSeen egressStall : Bool) (i : Fin 8) :
    (latchedByte overrunSeen linkDownSeen egressStall).getLsbD i.val
      = [overrunSeen, linkDownSeen, egressStall, false, false, false, false, false][i] :=
  packBits_eight overrunSeen linkDownSeen egressStall false false false false false i

/-- The port fault flags stand in their byte from bit 0 (R161, R186). -/
theorem PortFlags.byte_bit (f : PortFlags) (i : Fin 8) :
    f.byte.getLsbD i.val
      = [f.truncated, f.hdrCrc, f.unknownKind, f.length, f.payloadCrc, f.noCredit, f.overrun, f.ctlOverrun][i] :=
  packBits_eight f.truncated f.hdrCrc f.unknownKind f.length f.payloadCrc f.noCredit f.overrun f.ctlOverrun i

/-- An RSP as sent declares the status word and the data part (R182, R183). -/
theorem ReturnFrame.bytes_rsp (r : Rsp) :
    ReturnFrame.bytes (.rsp r) = frameBytes (.rsp (BitVec.ofNat 24 (21 + r.data.length))) r.payload := by
  rw [ReturnFrame.bytes, Rsp.payload_length]

/-- Settles O7: each field of the status word is a list of bytes at a known place, and its flag bytes hold their flags in
order. -/
theorem statusWordLayout : Obligations.StatusWordLayout := by
  refine ⟨⟨rfl, rfl, rfl, rfl, rfl, rfl, rfl, rfl, rfl, latchedByte_bit⟩, fun w hattention => ?word, ReturnFrame.bytes_rsp,
    fun _ => rfl⟩
  have hslot : w.slot.val < 256 := Nat.lt_of_lt_of_le w.slot.isLt (by decide)
  have hbank : w.passBank.val < 256 := Nat.lt_of_lt_of_le w.passBank.isLt (by decide)
  exact ⟨w.bytes_length, rfl, beNat_beBytes_toNat 2 w.request, rfl, rfl, rfl, rfl, rfl, rfl, rfl, rfl, rfl,
    beNat_ofNat hslot, rfl, rfl, beNat_ofNat hbank, beNat_beBytes_toNat 2 w.visitCounter,
    beNat_beBytes_toNat 2 w.resolveCounter, beNat_beBytes 1 w.attention (by omega), w.flags.byte_bit,
    fun d => ⟨rfl, Rsp.payload_length ⟨w, d⟩⟩⟩

/-! ## Packed samples (R184) -/

/-- The nine bytes of a group, the first from the most significant bits (R184). -/
def groupBytes (g : BitVec 72) : List Byte := (List.range 9).map fun i => g.extractLsb' (64 - 8 * i) 8

/-- The nine bytes of a group hold all its bits, in order. -/
theorem append_groupBytes (g : BitVec 72) :
    (g.extractLsb' 64 8 ++ g.extractLsb' 56 8 ++ g.extractLsb' 48 8 ++ g.extractLsb' 40 8 ++ g.extractLsb' 32 8
      ++ g.extractLsb' 24 8 ++ g.extractLsb' 16 8 ++ g.extractLsb' 8 8 ++ g.extractLsb' 0 8 : BitVec 72) = g := by
  ext i hi
  simp only [BitVec.getElem_append, BitVec.getElem_extractLsb']
  grind

/-- The nine bytes of a group unpack to its four words of 18 bits (R184). -/
theorem unpackGroups_group (g : BitVec 72) (rest : List Byte) :
    unpackGroups (groupBytes g ++ rest)
      = g.extractLsb' 54 18 :: g.extractLsb' 36 18 :: g.extractLsb' 18 18 :: g.extractLsb' 0 18 :: unpackGroups rest := by
  conv => rhs; rw [← append_groupBytes g]
  rfl

/-- Of four samples side by side, each is read back from its own 18 bits. -/
theorem extract_samples (a b c d : Sample) :
    (a ++ b ++ c ++ d : BitVec 72).extractLsb' 54 18 = a ∧ (a ++ b ++ c ++ d : BitVec 72).extractLsb' 36 18 = b
      ∧ (a ++ b ++ c ++ d : BitVec 72).extractLsb' 18 18 = c ∧ (a ++ b ++ c ++ d : BitVec 72).extractLsb' 0 18 = d := by
  refine ⟨?_, ?_, ?_, ?_⟩
  all_goals
    ext i hi
    simp only [BitVec.getElem_extractLsb', BitVec.getLsbD_append]
    grind

/-- The bytes of four samples unpack to the samples, the first in the most significant bits (R184). -/
theorem unpackGroups_samples (a b c d : Sample) (rest : List Byte) :
    unpackGroups (groupBytes (a ++ b ++ c ++ d : BitVec 72) ++ rest) = a :: b :: c :: d :: unpackGroups rest := by
  obtain ⟨ha, hb, hc, hd⟩ := extract_samples a b c d
  rw [unpackGroups_group, ha, hb, hc, hd]

/-- An incomplete group gives no sample. -/
theorem unpackGroups_of_short {payload : List Byte} (h : payload.length < 9) : unpackGroups payload = [] := by
  unfold unpackGroups
  split
  · simp only [List.length_cons] at h
    omega
  · rfl

/-- Every whole group gives four samples. -/
theorem unpackGroups_length (payload : List Byte) : (unpackGroups payload).length = 4 * (payload.length / 9) := by
  induction payload using unpackGroups.induct with
  | case1 b0 b1 b2 b3 b4 b5 b6 b7 b8 rest ih =>
    simp only [unpackGroups, List.length_cons, ih]
    omega
  | case2 payload hshort =>
    match payload, hshort with
    | [], _ | [_], _ | [_, _], _ | [_, _, _], _ | [_, _, _, _], _ | [_, _, _, _, _], _ | [_, _, _, _, _, _], _
    | [_, _, _, _, _, _, _], _ | [_, _, _, _, _, _, _, _], _ => simp [unpackGroups]
    | _ :: _ :: _ :: _ :: _ :: _ :: _ :: _ :: _ :: _, hgroup => exact (hgroup _ _ _ _ _ _ _ _ _ _ rfl).elim

/-- A payload of the packed size of its samples holds them all; the last group is padded (R158, R184). -/
theorem unpackSamples_length {n : Nat} {payload : List Byte} (h : payload.length = packedSize n) :
    (unpackSamples n payload).length = n := by
  rw [unpackSamples, List.length_take, unpackGroups_length, h, packedSize]
  omega

/-- Settles O6: a field reads back wherever it stands, and each group of nine bytes gives its four samples in order. -/
theorem payloadsReadBackAsSent : Obligations.PayloadsReadBackAsSent :=
  ⟨fun _ _ n => ⟨fun _ hx => field_at rfl rfl hx, fun _ hn hlow hhigh => signedField_at rfl rfl hn hlow hhigh,
      beBytes_length n⟩,
    unpackGroups_samples, fun _ h => unpackGroups_of_short h, fun _ _ => rfl, fun _ _ h => unpackSamples_length h⟩

end Sys2Proof.Machine
end
